-- ==== Sys2Proof/Word.lean ====
section
/-! DEFINITION. The words of the PCG block and the numbers of its registers, channels and slices (spec/00_scope.md R9,
spec/10_state.md R21, R31). -/

namespace Sys2Proof

/-- One byte of IN or OUT, and a quarter of a CMD word. -/
abbrev Byte := BitVec 8

/-- A 32-bit value: a command, an address, a counter, a sample, a residual (R6: `W` = 32). -/
abbrev Word := BitVec 32

/-- The contents of an operand register (R6: `XLEN` = 64). -/
abbrev DWord := BitVec 64

/-- The number of an operand register, 0 to 7 (R21, R93: every number is valid). -/
abbrev Reg := Fin 8

/-- The number of a channel or of a writer, 0 to 3 (R5: `NUM_CH` = 4; R93: every number is valid as an encoding). -/
abbrev Chan := Fin 4

end Sys2Proof
end

