-- ==== Sys2Proof/Syntax.lean ====
section
/-! DEFINITION. The twenty commands of the PCG block, one constructor for each row of spec/30_encoding.md R94, with the
operands of its format (R91 to R93). Register, channel and writer numbers are bounded by their types, and an immediate is the
16-bit pattern of the field: how a command reads it is the command's own rule (R93). -/

namespace Sys2Proof

inductive Instr where
  /-- `NOP` (R121). -/
  | nop
  /-- `HALT` (R122). -/
  | halt
  /-- `LI.K xd, sh, imm` (R123): load a slice, keep the others. -/
  | liK (d : Reg) (sh : Fin 4) (imm : BitVec 16)
  /-- `LI.Z xd, sh, imm` (R123): load a slice, zero the others. -/
  | liZ (d : Reg) (sh : Fin 4) (imm : BitVec 16)
  /-- `ADDI xd, simm` (R124). -/
  | addi (d : Reg) (imm : BitVec 16)
  /-- `LOOP xs, off` (R125). -/
  | loop (r : Reg) (off : BitVec 16)
  /-- `BW.INIT w, xa, xb` (R143). -/
  | bwInit (w : Chan) (a b : Reg)
  /-- `BW.WRITE w, cnt, xs` (R144). -/
  | bwWrite (w : Chan) (cnt : BitVec 16) (r : Reg)
  /-- `BW.ZPAD w` (R145). -/
  | bwZpad (w : Chan)
  /-- `BW.WRITEM w, n, xa, xb` (R146). -/
  | bwWritem (w : Chan) (n : BitVec 16) (a b : Reg)
  /-- `PC.HCLR c` (R167). -/
  | pcHclr (c : Chan)
  /-- `PC.BUILD c` (R166). -/
  | pcBuild (c : Chan)
  /-- `PC.SERIAL c, w` (R170). -/
  | pcSerial (c w : Chan)
  /-- `PR.START xs` (R201). -/
  | prStart (len : BitVec 16)
  /-- `PR.LOAD xa` (R204). -/
  | prLoad (a : Reg)
  /-- `PR.PRED c` (R208). -/
  | prPred (c : Chan)
  /-- `TK.ROWC c` (R237). -/
  | tkRowc (c : Chan)
  /-- `TK.ROWE c` (R238). -/
  | tkRowe (c : Chan)
  /-- `TK.FINC c` (R239). -/
  | tkFinc (c : Chan)
  /-- `TK.FINE c` (R240). -/
  | tkFine (c : Chan)
  deriving DecidableEq, Repr

end Sys2Proof
end

