-- ==== Sys2Proof/WellFormed.lean ====
section
/-! DEFINITION. Which words and which raw fields are commands (spec/30_encoding.md R92 to R95). A term of `Instr` is well
formed by its types: R93 says that every register number and every channel number is valid as an encoding, and the types
hold no others. What can be ill formed is a word (a bit set that the command's format does not use, or an opcode outside
the table) and a list of field numbers before it is a word. -/

namespace Sys2Proof

/-- The ten formats of R92. -/
inductive Format where
  | Z | I | A | C | W | M | B | S | X | P
  deriving DecidableEq, Repr

/-- The bits a format does not use and that must be 0 (R92, its third column). -/
def Format.unused : Format → Word
  | .Z => 0xFFFFFF00
  | .I => 0x0000C000
  | .A => 0x0000E300
  | .C => 0xFFFFFC00
  | .W => 0x0000E000
  | .M => 0x00000000
  | .B => 0xFFFF0000
  | .S => 0xFFFCFC00
  | .X => 0x0000FF00
  | .P => 0xFFFFE300

/-- One row of the command table of R94. -/
structure OpRow where
  mnemonic : String
  format : Format
  pattern : Word
  mask : Word
  deriving DecidableEq, Repr

/-- The command table of R94, in its order. -/
def opcodeTable : List OpRow :=
  [ ⟨"NOP", .Z, 0x00000000, 0xFFFFFFFF⟩,
    ⟨"HALT", .Z, 0x00000001, 0xFFFFFFFF⟩,
    ⟨"LI.K", .I, 0x00000002, 0x0000E0FF⟩,
    ⟨"LI.Z", .I, 0x00002002, 0x0000E0FF⟩,
    ⟨"ADDI", .A, 0x00000003, 0x0000E3FF⟩,
    ⟨"LOOP", .A, 0x00000004, 0x0000E3FF⟩,
    ⟨"BW.INIT", .B, 0x00000010, 0xFFFF00FF⟩,
    ⟨"BW.WRITE", .W, 0x00000011, 0x0000E0FF⟩,
    ⟨"BW.ZPAD", .C, 0x00000012, 0xFFFFFCFF⟩,
    ⟨"BW.WRITEM", .M, 0x00000013, 0x000000FF⟩,
    ⟨"PC.HCLR", .C, 0x00000020, 0xFFFFFCFF⟩,
    ⟨"PC.BUILD", .C, 0x00000021, 0xFFFFFCFF⟩,
    ⟨"PC.SERIAL", .S, 0x00000022, 0xFFFCFCFF⟩,
    ⟨"PR.START", .X, 0x00000030, 0x0000FFFF⟩,
    ⟨"PR.LOAD", .P, 0x00000031, 0xFFFFE3FF⟩,
    ⟨"PR.PRED", .C, 0x00000032, 0xFFFFFCFF⟩,
    ⟨"TK.ROWC", .C, 0x00000040, 0xFFFFFCFF⟩,
    ⟨"TK.ROWE", .C, 0x00000041, 0xFFFFFCFF⟩,
    ⟨"TK.FINC", .C, 0x00000042, 0xFFFFFCFF⟩,
    ⟨"TK.FINE", .C, 0x00000043, 0xFFFFFCFF⟩ ]

/-- A word is the command of a row when `w and mask = match` (R94). -/
def OpRow.matchesWord (r : OpRow) (w : Word) : Bool := w &&& r.mask == r.pattern

/-- A word that matches some row of R94; every other word is illegal (R95). -/
def legalWord (w : Word) : Bool := opcodeTable.any (·.matchesWord w)

/-- The five fields of R91 as plain numbers, before they are a word. -/
structure RawFields where
  op : Nat
  ch : Nat
  ra : Nat
  rb : Nat
  imm : Nat
  deriving DecidableEq, Repr

/-- Every field fits its width (R91). -/
def RawFields.fit (f : RawFields) : Bool :=
  decide (f.op < 256) && decide (f.ch < 4) && decide (f.ra < 8) && decide (f.rb < 8) && decide (f.imm < 65536)

/-- The word of a command is `op + ch·2^8 + ra·2^10 + rb·2^13 + imm·2^16` (R91). -/
def RawFields.sum (f : RawFields) : Nat :=
  f.op + f.ch * 2 ^ 8 + f.ra * 2 ^ 10 + f.rb * 2 ^ 13 + f.imm * 2 ^ 16

/-- The fields fit and their word is in the table. -/
def RawFields.wellFormed (f : RawFields) : Bool := f.fit && legalWord (BitVec.ofNat 32 f.sum)

end Sys2Proof
end

