-- ==== Sys2Proof/Decode.lean ====
section
/-! DEFINITION. The decoder and the encoder (spec/30_encoding.md R90 to R96). `decode` is total: a word it does not list is
illegal (R95), and the step then raises `IllegalCommand` by that name. -/

namespace Sys2Proof

/-- Field `op`, bits 7:0 (R91). -/
def opField (w : Word) : BitVec 8 := w.extractLsb' 0 8
/-- Field `ch`, bits 9:8. -/
def chField (w : Word) : BitVec 2 := w.extractLsb' 8 2
/-- Field `ra`, bits 12:10. -/
def raField (w : Word) : BitVec 3 := w.extractLsb' 10 3
/-- Field `rb`, bits 15:13. -/
def rbField (w : Word) : BitVec 3 := w.extractLsb' 13 3
/-- Field `imm`, bits 31:16. -/
def immField (w : Word) : BitVec 16 := w.extractLsb' 16 16

/-- A 2-bit field as a channel, writer or slice number. -/
def chanOf (b : BitVec 2) : Chan := ⟨b.toNat, b.isLt⟩
/-- A 3-bit field as a register number. -/
def regOf (b : BitVec 3) : Reg := ⟨b.toNat, b.isLt⟩
/-- A channel, writer or slice number as a 2-bit field. -/
def chanBits (c : Chan) : BitVec 2 := BitVec.ofNat 2 c.val
/-- A register number as a 3-bit field. -/
def regBits (r : Reg) : BitVec 3 := BitVec.ofNat 3 r.val

/-- A command is decoded only when the bits its format does not use are 0 (R92, R95). -/
def onlyIf (ok : Bool) (i : Instr) : Option Instr := if ok then some i else none

/-- R96: the command of a word, or `none` when the word is illegal. -/
def decode (w : Word) : Option Instr :=
  let ch := chanOf (chField w)
  let ra := regOf (raField w)
  let rb := regOf (rbField w)
  let imm := immField w
  let ch0 := chField w == 0
  let ra0 := raField w == 0
  let rb0 := rbField w == 0
  let imm0 := imm == 0
  match opField w with
  | 0x00#8 => onlyIf (ch0 && ra0 && rb0 && imm0) .nop
  | 0x01#8 => onlyIf (ch0 && ra0 && rb0 && imm0) .halt
  | 0x02#8 => if rbField w = 0 then some (.liK ra ch imm) else if rbField w = 1 then some (.liZ ra ch imm) else none
  | 0x03#8 => onlyIf (ch0 && rb0) (.addi ra imm)
  | 0x04#8 => onlyIf (ch0 && rb0) (.loop ra imm)
  | 0x10#8 => onlyIf imm0 (.bwInit ch ra rb)
  | 0x11#8 => onlyIf rb0 (.bwWrite ch imm ra)
  | 0x12#8 => onlyIf (ra0 && rb0 && imm0) (.bwZpad ch)
  | 0x13#8 => some (.bwWritem ch imm ra rb)
  | 0x20#8 => onlyIf (ra0 && rb0 && imm0) (.pcHclr ch)
  | 0x21#8 => onlyIf (ra0 && rb0 && imm0) (.pcBuild ch)
  | 0x22#8 => onlyIf (ra0 && rb0 && imm.extractLsb' 2 14 == 0) (.pcSerial ch (chanOf (imm.extractLsb' 0 2)))
  | 0x30#8 => onlyIf (ch0 && ra0 && rb0) (.prStart imm)
  | 0x31#8 => onlyIf (ch0 && rb0 && imm0) (.prLoad ra)
  | 0x32#8 => onlyIf (ra0 && rb0 && imm0) (.prPred ch)
  | 0x40#8 => onlyIf (ra0 && rb0 && imm0) (.tkRowc ch)
  | 0x41#8 => onlyIf (ra0 && rb0 && imm0) (.tkRowe ch)
  | 0x42#8 => onlyIf (ra0 && rb0 && imm0) (.tkFinc ch)
  | 0x43#8 => onlyIf (ra0 && rb0 && imm0) (.tkFine ch)
  | _ => none

/-- The word with the five fields of R91. -/
def mkWord (op : BitVec 8) (ch : BitVec 2) (ra rb : BitVec 3) (imm : BitVec 16) : Word :=
  imm ++ (rb ++ (ra ++ (ch ++ op)))

/-- R96: the word of a command, unused fields 0. -/
def encode : Instr → Word
  | .nop => mkWord 0x00 0 0 0 0
  | .halt => mkWord 0x01 0 0 0 0
  | .liK d sh imm => mkWord 0x02 (chanBits sh) (regBits d) 0 imm
  | .liZ d sh imm => mkWord 0x02 (chanBits sh) (regBits d) 1 imm
  | .addi d imm => mkWord 0x03 0 (regBits d) 0 imm
  | .loop r off => mkWord 0x04 0 (regBits r) 0 off
  | .bwInit w a b => mkWord 0x10 (chanBits w) (regBits a) (regBits b) 0
  | .bwWrite w cnt r => mkWord 0x11 (chanBits w) (regBits r) 0 cnt
  | .bwZpad w => mkWord 0x12 (chanBits w) 0 0 0
  | .bwWritem w n a b => mkWord 0x13 (chanBits w) (regBits a) (regBits b) n
  | .pcHclr c => mkWord 0x20 (chanBits c) 0 0 0
  | .pcBuild c => mkWord 0x21 (chanBits c) 0 0 0
  | .pcSerial c w => mkWord 0x22 (chanBits c) 0 0 (BitVec.ofNat 16 w.val)
  | .prStart len => mkWord 0x30 0 0 0 len
  | .prLoad a => mkWord 0x31 0 (regBits a) 0 0
  | .prPred c => mkWord 0x32 (chanBits c) 0 0 0
  | .tkRowc c => mkWord 0x40 (chanBits c) 0 0 0
  | .tkRowe c => mkWord 0x41 (chanBits c) 0 0 0
  | .tkFinc c => mkWord 0x42 (chanBits c) 0 0 0
  | .tkFine c => mkWord 0x43 (chanBits c) 0 0 0

/-- The field numbers of a command as the assembler's operand table gives them (R97; `ADDI`'s and every other immediate as the
16-bit pattern of its field). -/
def Instr.fields : Instr → RawFields
  | .nop => ⟨0x00, 0, 0, 0, 0⟩
  | .halt => ⟨0x01, 0, 0, 0, 0⟩
  | .liK d sh imm => ⟨0x02, sh.val, d.val, 0, imm.toNat⟩
  | .liZ d sh imm => ⟨0x02, sh.val, d.val, 1, imm.toNat⟩
  | .addi d imm => ⟨0x03, 0, d.val, 0, imm.toNat⟩
  | .loop r off => ⟨0x04, 0, r.val, 0, off.toNat⟩
  | .bwInit w a b => ⟨0x10, w.val, a.val, b.val, 0⟩
  | .bwWrite w cnt r => ⟨0x11, w.val, r.val, 0, cnt.toNat⟩
  | .bwZpad w => ⟨0x12, w.val, 0, 0, 0⟩
  | .bwWritem w n a b => ⟨0x13, w.val, a.val, b.val, n.toNat⟩
  | .pcHclr c => ⟨0x20, c.val, 0, 0, 0⟩
  | .pcBuild c => ⟨0x21, c.val, 0, 0, 0⟩
  | .pcSerial c w => ⟨0x22, c.val, 0, 0, w.val⟩
  | .prStart len => ⟨0x30, 0, 0, 0, len.toNat⟩
  | .prLoad a => ⟨0x31, 0, a.val, 0, 0⟩
  | .prPred c => ⟨0x32, c.val, 0, 0, 0⟩
  | .tkRowc c => ⟨0x40, c.val, 0, 0, 0⟩
  | .tkRowe c => ⟨0x41, c.val, 0, 0, 0⟩
  | .tkFinc c => ⟨0x42, c.val, 0, 0, 0⟩
  | .tkFine c => ⟨0x43, c.val, 0, 0, 0⟩

/-- The row of R94 that a command belongs to, by the name the table gives it. -/
def Instr.mnemonic : Instr → String
  | .nop => "NOP"
  | .halt => "HALT"
  | .liK _ _ _ => "LI.K"
  | .liZ _ _ _ => "LI.Z"
  | .addi _ _ => "ADDI"
  | .loop _ _ => "LOOP"
  | .bwInit _ _ _ => "BW.INIT"
  | .bwWrite _ _ _ => "BW.WRITE"
  | .bwZpad _ => "BW.ZPAD"
  | .bwWritem _ _ _ _ => "BW.WRITEM"
  | .pcHclr _ => "PC.HCLR"
  | .pcBuild _ => "PC.BUILD"
  | .pcSerial _ _ => "PC.SERIAL"
  | .prStart _ => "PR.START"
  | .prLoad _ => "PR.LOAD"
  | .prPred _ => "PR.PRED"
  | .tkRowc _ => "TK.ROWC"
  | .tkRowe _ => "TK.ROWE"
  | .tkFinc _ => "TK.FINC"
  | .tkFine _ => "TK.FINE"

/-- The four bytes of a CMD word, least significant first (20_memory.md R61). -/
def wordBytes (w : Word) : List Byte :=
  [w.extractLsb' 0 8, w.extractLsb' 8 8, w.extractLsb' 16 8, w.extractLsb' 24 8]

/-- The CMD word whose bytes are `b0` to `b3`, least significant first (20_memory.md R61). -/
def wordOfBytes (b0 b1 b2 b3 : Byte) : Word := b3 ++ (b2 ++ (b1 ++ b0))

/-- The decoder on the four bytes of a word as CMD holds them. -/
def decodeBytes : List Byte → Option Instr
  | [b0, b1, b2, b3] => decode (wordOfBytes b0 b1 b2 b3)
  | _ => none

/-- The command the decoder reads from the bits `w` of a row of spec/opcode_table.json; bits at and above `nbits` are 0. -/
def decodeTableWord (nbits w : Nat) : Option Instr :=
  decodeBytes (wordBytes (BitVec.ofNat 32 (w % 2 ^ nbits)))

end Sys2Proof
end

