-- ==== Sys2Proof/Config.lean ====
section
/-! DEFINITION. What an implementation of the PCG block fixes, and the values the spec leaves open
(spec/00_scope.md R6, spec/93_implementation_defined.md U1, U2, U5). -/

namespace Sys2Proof.Config

/-- The three memories of 20_memory.md R60. -/
inductive Space where
  | cmd
  | input
  | output
  deriving DecidableEq, Repr

/-- The sizes of the three memories (R6, U2), parameters of a run. The bounds of R6 are the types' own: `CMD_WORDS` is at
most 2^32 - 1, `IN_BYTES` and `OUT_BYTES` are at most 2^32. -/
structure Sizes where
  cmdWords : Fin 4294967296
  inBytes : Fin 4294967297
  outBytes : Fin 4294967297
  deriving DecidableEq, Repr

/-- The sizes the spec's examples use (R6). DESIGN CHOICE (log 1): `State.reset` takes them. -/
def exampleSizes : Sizes := { cmdWords := 4096, inBytes := 65536, outBytes := 65536 }

/-- The size of a memory in bytes; a CMD word is four bytes (20_memory.md R61). -/
def Sizes.bytes (z : Sizes) : Space → Nat
  | .cmd => 4 * z.cmdWords.val
  | .input => z.inBytes.val
  | .output => z.outBytes.val

/-- What a byte of memory holds after power-up, before the host or the block has written it: any value, drawn once and
stable (U1). A free value (log 2). -/
opaque powerUpByte : Space → Nat → Byte

/-- What the `n`-th host read of a register other than STATUS returns while the block runs: any value (U5). A free value
(log 4). -/
opaque runningRead : Nat → Word

end Sys2Proof.Config
end

