-- ==== Sys2Proof/Machine/State.lean ====
section
/-! DEFINITION. The state of the PCG block (spec/10_state.md R20 to R38), its reset value (R41), the faults of the spec
(spec/60_exceptions.md R261) and the ways the model itself stops. -/

namespace Sys2Proof.Machine

/-- `STATE` (R23): 0 IDLE, 1 RUN, 2 HALTED, 3 FAULT. -/
inductive SeqState where
  | idle
  | run
  | halted
  | fault
  deriving DecidableEq, Repr

/-- The fifteen faults a command or its fetch can raise (R261). Raising one is a NEXT state of the machine, in
`STATE = FAULT` (R264); the codes are `FaultName.code`. -/
inductive FaultName where
  | illegalCommand
  | pcRange
  | loopRange
  | bwCount
  | bwOverflow
  | memRange
  | buildBounds
  | buildInfeasible
  | histOverflow
  | cfgInvalid
  | chRange
  | noRow
  | uncodedSymbol
  | residualRange
  | runRange
  deriving DecidableEq, Repr

/-- Where the MODEL stops because the spec gives no effect. None of the first two is met from a state that R42 allows. -/
inductive Fault where
  /-- Raised by a write of OUT at an address at or above `OUT_BYTES`, which 20_memory.md R63 says does not exist; R142 (7)
  says no command makes one from a state that R42 allows. Safe: the model stops. -/
  | outAddress
  /-- Raised by `FlushRun` with fewer than 8 residuals, for which 45_tokenizer.md R234 gives no meaning; R241 says no command
  asks for it from a state that R42 allows. Safe: the model stops. -/
  | shortRun
  /-- Raised by a host access to an address of CMD, IN or OUT that does not exist (20_memory.md R61 to R63). Safe. -/
  | hostAddress
  deriving DecidableEq, Repr

/-- What the model declines. -/
inductive Refusal where
  /-- An instruction that has no meaning yet; no arm of `exec` answers it. Safe. -/
  | notModelled (mnemonic : String)
  /-- Answered to a host access to CMD, IN or OUT while `STATE = RUN`, which 20_memory.md R66 (U8) puts outside the spec.
  Safe. -/
  | hostMemoryWhileRunning
  deriving DecidableEq, Repr

/-- `CFG` (R29). -/
structure Cfg where
  /-- `NC`, the channel count. -/
  nc : BitVec 3
  /-- `BPS`, the bits per sample. -/
  bps : BitVec 6
  /-- `BE`, set when multi-byte samples in IN are big-endian. -/
  be : Bool
  deriving DecidableEq, Repr

/-- The five elements of one bit writer (R31). -/
structure Writer where
  base : Word
  limit : Word
  bytes : Word
  acc : BitVec 64
  nbits : Fin 8
  deriving DecidableEq, Repr

/-- `HRAW[c]` and `HLZ[c]` of one channel (R33). -/
structure Hist where
  raw : Vector Word 19
  lz : Vector Word 33
  deriving DecidableEq, Repr

/-- The four code tables of one channel (R35). -/
structure Code where
  rawLen : Vector (BitVec 4) 19
  rawBits : Vector (BitVec 16) 19
  lzLen : Vector (BitVec 4) 33
  lzBits : Vector (BitVec 16) 33
  deriving DecidableEq, Repr

/-- One row of a line buffer (R36). -/
abbrev Row := Vector Word 256

/-- A memory: the bytes that have been written since power-up, addresses strictly rising. A byte that is not listed holds
`Config.powerUpByte` (U1). -/
abbrev Memory := List Host.Cell

/-- The whole state of the block (R20), with the sizes of its memories (`params`, R40) and the model's own counter `draws`. -/
structure State where
  params : Config.Sizes
  /-- `STATE`. -/
  seq : SeqState
  pc : Word
  x : Vector DWord 8
  cause : BitVec 8
  fpc : Word
  ie : Bool
  cfg : Cfg
  minlen : Vector (BitVec 4) 20
  maxlen : Vector (BitVec 4) 20
  writers : Vector Writer 4
  run : Vector Word 4
  hists : Vector Hist 4
  codes : Vector Code 4
  xs : Fin 257
  nrows : Fin 3
  cur : Vector Row 4
  prev : Vector Row 4
  res : Row
  resn : Fin 257
  taddr : BitVec 12
  /-- CMD as bytes: word `a` at byte addresses `4a` to `4a+3` (20_memory.md R61). -/
  cmd : Memory
  /-- IN. -/
  input : Memory
  /-- OUT. -/
  out : Memory
  /-- The model's own: how many host reads of a running block have been answered (U5). -/
  draws : Nat
  deriving DecidableEq, Repr

/-- An empty writer (R41). -/
def Writer.zero : Writer := { base := 0, limit := 0, bytes := 0, acc := 0, nbits := 0 }

/-- Cleared histograms (R41). -/
def Hist.zero : Hist := { raw := Vector.replicate 19 0, lz := Vector.replicate 33 0 }

/-- Code tables in which no symbol has a code (R41). -/
def Code.zero : Code :=
  { rawLen := Vector.replicate 19 0, rawBits := Vector.replicate 19 0,
    lzLen := Vector.replicate 33 0, lzBits := Vector.replicate 33 0 }

/-- A row of zeros. -/
def zeroRow : Row := Vector.replicate 256 0

/-- The machine right after the hard reset at power-up: every element as R41 says, nothing listed in the memories. `CUR`,
`PREV` and `RES` are 0 (DESIGN CHOICE, log 3: R41 leaves them unspecified and U3 allows 0), the sizes are the examples'
(DESIGN CHOICE, log 1), `draws` is 0 (DESIGN CHOICE, log 4). -/
def State.reset : State :=
  { params := Config.exampleSizes
    seq := .idle
    pc := 0
    x := Vector.replicate 8 0
    cause := 0
    fpc := 0
    ie := false
    cfg := { nc := 0, bps := 0, be := false }
    minlen := Vector.replicate 20 0
    maxlen := Vector.replicate 20 0
    writers := Vector.replicate 4 Writer.zero
    run := Vector.replicate 4 0
    hists := Vector.replicate 4 Hist.zero
    codes := Vector.replicate 4 Code.zero
    xs := 0
    nrows := 0
    cur := Vector.replicate 4 zeroRow
    prev := Vector.replicate 4 zeroRow
    res := zeroRow
    resn := 0
    taddr := 0
    cmd := []
    input := []
    out := []
    draws := 0 }

end Sys2Proof.Machine
end

