-- ==== Sys2Proof/Machine/Memory.lean ====
section
/-! DEFINITION. Reading and writing one byte of a memory held as a list of (address, byte) pairs with strictly rising
addresses (spec/20_memory.md R60 to R63). -/

namespace Sys2Proof.Machine

/-- The byte written at an address, or `none` when nothing has written it. -/
def Memory.get : Memory → Nat → Option Byte
  | [], _ => none
  | (k, v) :: m, a => if k = a then some v else Memory.get m a

/-- The memory after a byte is written; the addresses stay strictly rising. -/
def Memory.put : Memory → Nat → Byte → Memory
  | [], a, v => [(a, v)]
  | (k, u) :: m, a, v =>
    if a < k then (a, v) :: (k, u) :: m
    else if a = k then (a, v) :: m
    else (k, u) :: Memory.put m a v

/-- Every listed address is above `lo`, and the addresses rise strictly. -/
def Memory.risesFrom : Nat → Memory → Bool
  | _, [] => true
  | lo, (k, _) :: m => decide (lo ≤ k) && Memory.risesFrom (k + 1) m

/-- The canonical form: the addresses rise strictly. With it, two memories that were written alike are equal lists. -/
def Memory.wf (m : Memory) : Bool := Memory.risesFrom 0 m

/-- No byte is listed at an address that does not exist. -/
def Memory.below (m : Memory) (size : Nat) : Bool := m.all fun cell => decide (cell.1 < size)

/-- One byte of a memory: what was written last, or the free value it holds since power-up (U1, log 2). -/
def Memory.byte (sp : Config.Space) (m : Memory) (a : Nat) : Byte := (Memory.get m a).getD (Config.powerUpByte sp a)

end Sys2Proof.Machine
end

