-- ==== Sys2Proof/Machine/Ops.lean ====
section
/-! DEFINITION. The operations every command shares: the pseudocode primitives of spec/00_scope.md R10, the flow of a
pseudocode that may `raise`, fault entry (spec/60_exceptions.md R264), reset (spec/70_reset_and_hazards.md R300) and the
fetch (spec/40_sequencer.md R120). -/

namespace Sys2Proof.Machine

/-! ## Faults -/

/-- The code that `CAUSE` takes (R261). -/
def FaultName.code : FaultName → BitVec 8
  | .illegalCommand => 0x01
  | .pcRange => 0x02
  | .loopRange => 0x03
  | .bwCount => 0x10
  | .bwOverflow => 0x11
  | .memRange => 0x12
  | .buildBounds => 0x20
  | .buildInfeasible => 0x21
  | .histOverflow => 0x22
  | .cfgInvalid => 0x30
  | .chRange => 0x31
  | .noRow => 0x32
  | .uncodedSymbol => 0x40
  | .residualRange => 0x41
  | .runRange => 0x42

/-- Fault entry (R264): `CAUSE`, `FPC` and `STATE` are written, as one act, and nothing else. -/
def State.raiseFault (f : FaultName) (s : State) : State := { s with cause := f.code, fpc := s.pc, seq := .fault }

/-- The one way out of `STATE = FAULT` (R265) and the effect of both resets (R300): every state element takes its value of
R41, the memories keep what they hold. The contents of `CUR`, `PREV` and `RES` are 0 (log 3). -/
def State.softReset (s : State) : State :=
  { State.reset with params := s.params, cmd := s.cmd, input := s.input, out := s.out, draws := s.draws }

/-! ## Where a pseudocode stands -/

/-- How far a command's pseudocode has come: it goes on in a state, it has met a `raise` in a state (R266: everything
before that point is done), or it asks for something the spec gives no meaning. -/
inductive Flow where
  | go (s : State)
  | raised (f : FaultName) (s : State)
  | stop (f : Fault)

/-- The next statement of the pseudocode, run only when nothing was raised before it (R10). -/
def Flow.andThen (r : Flow) (k : State → Flow) : Flow :=
  match r with
  | .go s => k s
  | .raised f s => .raised f s
  | .stop f => .stop f

/-- `for a in l: body`. -/
def forEach {α : Type} (body : α → State → Flow) : List α → State → Flow
  | [], s => .go s
  | a :: l, s => (body a s).andThen (forEach body l)

/-- The last act of a command that completes: `pc <- pc + 1` (R22). -/
def State.advance (s : State) : State := { s with pc := s.pc + 1 }

/-- The end of a command: it completes and advances `pc`, or it enters the fault state (R264). -/
def Flow.finish : Flow → Host.Outcome State Fault Refusal
  | .go s => .next s.advance
  | .raised f s => .next (s.raiseFault f)
  | .stop f => .fault f

/-! ## State elements by index -/

/-- Entry `i` of a table, or 0 past its end; no rule reads past an end. -/
def entry {w n : Nat} (v : Vector (BitVec w) n) (i : Nat) : BitVec w := v[i]?.getD 0

/-- `x[i]` (R10). -/
def State.reg (s : State) (i : Reg) : DWord := s.x[i]

/-- `x[i] <- v` (R10). -/
def State.setReg (s : State) (i : Reg) (v : DWord) : State := { s with x := s.x.set i v }

/-- The five elements of writer `w`. -/
def State.writer (s : State) (w : Chan) : Writer := s.writers[w]

def State.setWriter (s : State) (w : Chan) (v : Writer) : State := { s with writers := s.writers.set w v }

/-- `RUN[c]`. -/
def State.runOf (s : State) (c : Chan) : Word := s.run[c]

def State.setRun (s : State) (c : Chan) (v : Word) : State := { s with run := s.run.set c v }

/-- The histograms of channel `c`. -/
def State.hist (s : State) (c : Chan) : Hist := s.hists[c]

def State.setHist (s : State) (c : Chan) (h : Hist) : State := { s with hists := s.hists.set c h }

/-- The code tables of channel `c`. -/
def State.code (s : State) (c : Chan) : Code := s.codes[c]

def State.setCode (s : State) (c : Chan) (t : Code) : State := { s with codes := s.codes.set c t }

def State.setOut (s : State) (m : Memory) : State := { s with out := m }

/-- What `PR.START` writes (R201). -/
def State.startGroup (s : State) (len : Fin 257) : State := { s with xs := len, nrows := 0, resn := 0 }

/-- What `PR.LOAD` writes (R204). -/
def State.loadRow (s : State) (cur prev : Vector Row 4) (rows : Fin 3) : State :=
  { s with cur := cur, prev := prev, nrows := rows }

/-- What `PR.PRED` writes (R208). -/
def State.setResiduals (s : State) (r : Row) (n : Fin 257) : State := { s with res := r, resn := n }

/-! ## Line buffers -/

/-- Entry `i` of a row; no rule reads past the end. -/
def Row.at (r : Row) (i : Nat) : Word := entry r i

/-- `for i in 0 .. n-1: r[i] <- f i`, the other entries unchanged. -/
def Row.fill (f : Nat → Word) : Nat → Row → Row
  | 0, r => r
  | n + 1, r => Vector.setIfInBounds (Row.fill f n r) n (f n)

/-! ## Memories -/

/-- One byte of CMD (as bytes), IN or OUT. -/
def State.cmdByte (s : State) (a : Nat) : Byte := Memory.byte .cmd s.cmd a
def State.inByte (s : State) (a : Nat) : Byte := Memory.byte .input s.input a
def State.outByte (s : State) (a : Nat) : Byte := Memory.byte .output s.out a

/-- The `n` bytes of IN from address `a` up, in address order. -/
def State.inBytes (s : State) : Nat → Nat → List Byte
  | _, 0 => []
  | a, n + 1 => s.inByte a :: s.inBytes (a + 1) n

/-- `MemRead(a, n)` (R10), and what the pseudocode does with the bytes. -/
def memRead (a n : Nat) (k : List Byte → State → Flow) (s : State) : Flow :=
  if a + n > s.params.inBytes.val then .raised .memRange s else k (s.inBytes a n) s

/-- `MemWrite(a, n, v)` (R10), byte by byte in rising address order (20_memory.md R63). -/
def memWrite : Nat → List Byte → State → Flow
  | _, [], s => .go s
  | a, b :: l, s =>
    if a ≥ s.params.outBytes.val then .stop .outAddress
    else memWrite (a + 1) l (s.setOut (Memory.put s.out a b))

/-! ## The fetch -/

/-- `Fetch(a)` (R10): the word of CMD at word address `a`. -/
def State.fetchWord (s : State) (a : Word) : Word :=
  wordOfBytes (s.cmdByte (4 * a.toNat)) (s.cmdByte (4 * a.toNat + 1)) (s.cmdByte (4 * a.toNat + 2)) (s.cmdByte (4 * a.toNat + 3))

/-- The part of a step before the command's own rule (R120): the command to run, or the fault of the fetch. -/
def fetchDecode (s : State) : Except FaultName Instr :=
  if s.pc.toNat ≥ s.params.cmdWords.val then .error .pcRange
  else
    match decode (s.fetchWord s.pc) with
    | none => .error .illegalCommand
    | some i => .ok i

/-- A step of a block that is not running: the block is still (R66, R120; log 6). -/
def State.still (s : State) : State := s

/-- CMD after a word is placed at word address `a`, least significant byte first (20_memory.md R61). -/
def cmdWithWord (m : Memory) (a : Nat) (w : Word) : Memory :=
  Memory.put (Memory.put (Memory.put (Memory.put m (4 * a) (w.extractLsb' 0 8)) (4 * a + 1) (w.extractLsb' 8 8))
    (4 * a + 2) (w.extractLsb' 16 8)) (4 * a + 3) (w.extractLsb' 24 8)

end Sys2Proof.Machine
end

