-- ==== Sys2Proof/Machine/Operands.lean ====
section
/-! DEFINITION. How a command reads its operands: immediates (spec/30_encoding.md R93), registers used as addresses and
sizes (spec/40_sequencer.md R126), samples of IN (spec/20_memory.md R65, R74) and `BW.WRITEM` entries (R68). -/

namespace Sys2Proof.Machine

/-- `sext_16(imm)` as a 64-bit value. -/
def sext16 (imm : BitVec 16) : DWord := imm.signExtend 64

/-- `0xFFFF * 2^(16*sh)`, the bits of slice `sh` (R123). -/
def sliceMask (sh : Fin 4) : DWord := 0xFFFF#64 <<< (16 * sh.val)

/-- A register's contents `old` with slice `sh` replaced by `imm` (R123). -/
def putSlice (old : DWord) (sh : Fin 4) (imm : BitVec 16) : DWord :=
  (old &&& ~~~ sliceMask sh) ||| (imm.setWidth 64 <<< (16 * sh.val))

/-- A register used as an address or a size has bits 63:32 clear (R126). -/
def isAddress (v : DWord) : Bool := decide (v.toNat < 2 ^ 32)

/-- The unsigned value of bytes, least significant first. -/
def leValue : List Byte → Nat
  | [] => 0
  | b :: l => b.toNat + 256 * leValue l

/-- The bytes of a sample: 1 when `BPS ≤ 8`, 2 when `BPS ≤ 16`, else 4 (R74). -/
def sampleBytes (bps : BitVec 6) : Nat := if bps.toNat ≤ 8 then 1 else if bps.toNat ≤ 16 then 2 else 4

/-- The unsigned value of a sample's bytes in the order `CFG.BE` selects (R65). -/
def sampleValue (be : Bool) (l : List Byte) : Nat := if be then leValue l.reverse else leValue l

/-- `S[p][c]` of the row at `A` (R74, R202): the sample of pixel `p`, channel `c`, zero-extended to 32 bits. -/
def State.sample (s : State) (A p c : Nat) : Word :=
  let B := sampleBytes s.cfg.bps
  BitVec.ofNat 32 (sampleValue s.cfg.be (s.inBytes (A + (p * s.cfg.nc.toNat + c) * B) B))

end Sys2Proof.Machine
end

