-- ==== Sys2Proof/Machine/Predictor.lean ====
section
/-! DEFINITION. The predictor commands (spec/43_predictor.md R200 to R209). All arithmetic is on 32-bit values and wraps (R209). -/

namespace Sys2Proof.Machine

/-- `asr32(u, 1)` (R9). -/
def asr1 (u : Word) : Word := u.sshiftRight 1

/-- R203: `y`, `co` and `cg` of a pixel with samples `r`, `g`, `b`. -/
def colour (r g b : Word) : Word × Word × Word :=
  let co := r - b
  let tmp := b + asr1 co
  let cg := g - tmp
  (tmp + asr1 cg, co, cg)

/-- What `CUR[c][p]` becomes for the row at `A` (R204): the colour transform applies when `NC ≥ 3`, and a channel at or
above `NC` is 0. -/
def State.pixel (s : State) (A : Nat) (c : Chan) (p : Nat) : Word :=
  let nc := s.cfg.nc.toNat
  if c.val ≥ nc then 0
  else if nc ≥ 3 then
    let ycc := colour (s.sample A p 0) (s.sample A p 1) (s.sample A p 2)
    match c with
    | 0 => ycc.1
    | 1 => ycc.2.1
    | 2 => ycc.2.2
    | 3 => s.sample A p 3
  else s.sample A p c.val

/-- `NROWS <- min(NROWS + 1, 2)`. -/
def nextRows : Fin 3 → Fin 3
  | 0 => 1
  | _ => 2

/-- R201. -/
def execPrStart (len : BitVec 16) (s : State) : Host.Outcome State Fault Refusal :=
  if h : len.toNat = 0 ∨ len.toNat > 256 then .next (s.raiseFault .cfgInvalid)
  else (Flow.go (s.startGroup ⟨len.toNat, by omega⟩)).finish

/-- The configuration `PR.LOAD` refuses (R204). -/
def State.cfgInvalid (s : State) : Bool :=
  s.cfg.nc.toNat == 0 || decide (s.cfg.nc.toNat > 4) || s.cfg.bps.toNat == 0 || decide (s.cfg.bps.toNat > 32) || s.xs.val == 0

/-- R204: `CfgInvalid`, then `MemRange`, both before any change. -/
def execPrLoad (a : Reg) (s : State) : Host.Outcome State Fault Refusal :=
  let A := (s.reg a).toNat
  let B := sampleBytes s.cfg.bps
  if s.cfgInvalid then .next (s.raiseFault .cfgInvalid)
  else if !isAddress (s.reg a) || decide (A + s.xs.val * s.cfg.nc.toNat * B > s.params.inBytes.val) then
    .next (s.raiseFault .memRange)
  else
    (Flow.go (s.loadRow
      (Vector.ofFn fun c : Fin 4 => Row.fill (s.pixel A c) s.xs.val s.cur[c])
      (Vector.ofFn fun c : Fin 4 => Row.fill (Row.at s.cur[c]) s.xs.val s.prev[c])
      (nextRows s.nrows))).finish

/-- `left`, `top` and `topleft` of pixel `x` (R205). -/
def neighbours (rows : Fin 3) (cur prev : Row) (x : Nat) : Word × Word × Word :=
  if rows = 2 then
    if x = 0 then (prev.at 0, prev.at 0, prev.at 0)
    else (cur.at (x - 1), prev.at x, prev.at (x - 1))
  else if x = 0 then (0, 0, 0)
  else (cur.at (x - 1), cur.at (x - 1), cur.at (x - 1))

/-- `pred` of R206. The sign tests read bit 31 (R209). -/
def predict (left top topleft : Word) : Word :=
  let ac := left - topleft
  let ab := left - top
  let bc := top - topleft
  let grad := ac + top
  let clamp := if (ab ^^^ bc).msb then top else left
  if (ac ^^^ bc).msb then grad else clamp

/-- `pack_signed(v)` (R207). -/
def packSigned (v : Word) : Word := (v * 2) ^^^ (((~~~ v) >>> 31) - 1)

/-- `unpack(u)`, the inverse that R207 gives. -/
def unpackSigned (u : Word) : Word := (u >>> 1) ^^^ (0 - (u &&& 1))

/-- `res` of R206. -/
def residualOf (px left top topleft : Word) : Word := packSigned (px - predict left top topleft)

/-- The residual of pixel `x` of channel `c` of the current row (R208). -/
def State.residualAt (s : State) (c : Chan) (x : Nat) : Word :=
  let n := neighbours s.nrows s.cur[c] s.prev[c] x
  residualOf (Row.at s.cur[c] x) n.1 n.2.1 n.2.2

/-- R208: `ChRange`, then `NoRow`, both before any change. -/
def execPrPred (c : Chan) (s : State) : Host.Outcome State Fault Refusal :=
  if c.val ≥ s.cfg.nc.toNat then .next (s.raiseFault .chRange)
  else if s.nrows = 0 then .next (s.raiseFault .noRow)
  else (Flow.go (s.setResiduals (Row.fill (s.residualAt c) s.xs.val s.res) s.xs)).finish

end Sys2Proof.Machine
end

