-- ==== Sys2Proof/Machine/BitWriter.lean ====
section
/-! DEFINITION. The bit writer and its commands (spec/41_bit_writer.md R140 to R147). -/

namespace Sys2Proof.Machine

/-- The `k` low bytes of a number, least significant first. -/
def lowBytes : Nat → Nat → List Byte
  | _, 0 => []
  | v, k + 1 => BitVec.ofNat 8 v :: lowBytes (v / 256) k

/-- `BwWrite(w, count, value)` (R141): the one way bits reach OUT. Both checks come before any change. -/
def bwWrite (w : Chan) (count value : Nat) (s : State) : Flow :=
  if count > 56 then .raised .bwCount s
  else
    let wr := s.writer w
    let v := value % 2 ^ count
    let acc := wr.acc.toNat + v * 2 ^ wr.nbits.val
    let nb := wr.nbits.val + count
    let k := nb / 8
    if wr.bytes.toNat + k > wr.limit.toNat then .raised .bwOverflow s
    else
      (memWrite (wr.base.toNat + wr.bytes.toNat) (lowBytes acc k) s).andThen fun s' =>
        .go (s'.setWriter w
          { wr with
            acc := BitVec.ofNat 64 (acc / 2 ^ (8 * k))
            nbits := ⟨nb % 8, Nat.mod_lt nb (by decide)⟩
            bytes := wr.bytes + BitVec.ofNat 32 k })

/-- Several writes to one writer, in order, each a count and a value. -/
def bwWrites (w : Chan) (l : List (Nat × Nat)) (s : State) : Flow := forEach (fun p => bwWrite w p.1 p.2) l s

/-- R143. -/
def execBwInit (w : Chan) (a b : Reg) (s : State) : Host.Outcome State Fault Refusal :=
  let base := s.reg a
  let limit := s.reg b
  if !(isAddress base && isAddress limit) then .next (s.raiseFault .memRange)
  else if base.toNat + limit.toNat > s.params.outBytes.val then .next (s.raiseFault .memRange)
  else
    (Flow.go (s.setWriter w
      { base := base.setWidth 32, limit := limit.setWidth 32, bytes := 0, acc := 0, nbits := 0 })).finish

/-- R144. -/
def execBwWrite (w : Chan) (cnt : BitVec 16) (r : Reg) (s : State) : Host.Outcome State Fault Refusal :=
  (bwWrite w cnt.toNat (s.reg r).toNat s).finish

/-- R145. -/
def execBwZpad (w : Chan) (s : State) : Host.Outcome State Fault Refusal :=
  (if (s.writer w).nbits.val > 0 then bwWrite w (8 - (s.writer w).nbits.val) 0 s else Flow.go s).finish

/-- Entry `i` of a `BW.WRITEM` (R146): one byte of the `nbits` array at `A` and eight of the `bits` array at `B`, least
significant first whatever `CFG.BE` says (20_memory.md R68). -/
def writemEntry (w : Chan) (A B i : Nat) (s : State) : Flow :=
  memRead (A + i) 1 (fun c s₁ =>
    memRead (B + 8 * i) 8 (fun q s₂ => bwWrite w (leValue c) (leValue q) s₂) s₁) s

/-- R146. -/
def execBwWritem (w : Chan) (n : BitVec 16) (a b : Reg) (s : State) : Host.Outcome State Fault Refusal :=
  let A := (s.reg a).toNat
  let B := (s.reg b).toNat
  if !(isAddress (s.reg a) && isAddress (s.reg b)) then .next (s.raiseFault .memRange)
  else if A + n.toNat > s.params.inBytes.val ∨ B + 8 * n.toNat > s.params.inBytes.val then .next (s.raiseFault .memRange)
  else (forEach (writemEntry w A B) (List.range n.toNat) s).finish

end Sys2Proof.Machine
end

