-- ==== Sys2Proof/Machine/PrefixCode.lean ====
section
/-! DEFINITION. The prefix-code builder and its commands (spec/42_prefix_code.md R160 to R173). Frequencies, costs and budgets
are plain numbers: nothing wraps (R172). -/

namespace Sys2Proof.Machine

/-! ## The length-limited construction, R161 -/

/-- One symbol of an alphabet: its frequency and its inclusive length bounds. -/
structure Sym where
  freq : Nat
  lo : Nat
  hi : Nat
  deriving DecidableEq, Repr

/-- `U`, the whole budget (R161). -/
def budget : Nat := 2 ^ 15

/-- Length `L` costs `2^(15-L)` of the budget (R161). -/
def lengthCost (L : Nat) : Nat := 2 ^ (15 - L)

/-- Row `k` of the table `D` (R161), by its finite entries `(b, D[k][b])` in rising order of `b`; a budget that is not
listed has `D[k][b] = INF` (DESIGN CHOICE, log 14: the row is held sparse; `budgetRow_next` in Laws/PrefixCode.lean is R161's
recurrence). -/
abbrev BudgetRow := List (Nat × Nat)

/-- `D[k][b]`, `none` for `INF`. -/
def BudgetRow.at (r : BudgetRow) (b : Nat) : Option Nat := r.lookup b

/-- `D[0]`: 0 at budget 0, `INF` elsewhere. -/
def firstRow : BudgetRow := [(0, 0)]

/-- The entries `D[k][b - c] + add` for the `b ≤ U` that have one. -/
def shiftRow (c add : Nat) (r : BudgetRow) : BudgetRow :=
  (r.filter fun e => decide (e.1 + c ≤ budget)).map fun e => (e.1 + c, e.2 + add)

/-- The merge of `e :: xs` with a row, given the merge of `xs` with any row. -/
def mergeOnto (e : Nat × Nat) (xs : BudgetRow) (mergeXs : BudgetRow → BudgetRow) : BudgetRow → BudgetRow
  | [] => e :: xs
  | d :: ys =>
    if e.1 < d.1 then e :: mergeXs (d :: ys)
    else if d.1 < e.1 then d :: mergeOnto e xs mergeXs ys
    else (e.1, min e.2 d.2) :: mergeXs ys

/-- The lesser of two rows at every budget. -/
def mergeRows : BudgetRow → BudgetRow → BudgetRow
  | [], ys => ys
  | e :: xs, ys => mergeOnto e xs (mergeRows xs) ys

/-- The lengths `l[k]` to `h[k]` of a used symbol, ascending; a lower bound of 0 is read as 1 (R161). -/
def Sym.lengths (y : Sym) : List Nat := List.range' (max 1 y.lo) (y.hi + 1 - max 1 y.lo)

/-- `D[k+1]` from `D[k]`: at every budget the minimum over the lengths of the symbol (R161). -/
def nextRow (y : Sym) (r : BudgetRow) : BudgetRow :=
  y.lengths.foldr (fun L acc => mergeRows (shiftRow (lengthCost L) (y.freq * L) r) acc) []

/-- The length the backward pass takes for a symbol at budget `b`: the smallest that the table allows (R161). -/
def pickLength (y : Sym) (r r' : BudgetRow) (b : Nat) : Option Nat :=
  y.lengths.find? fun L =>
    decide (lengthCost L ≤ b) && (r.at (b - lengthCost L)).isSome
      && r'.at b == (r.at (b - lengthCost L)).map (· + y.freq * L)

/-- The forward and the backward pass over the used symbols from row `r` on: their lengths, and the budget left for the
symbols before them; `none` when no budget-filling assignment exists (R161). -/
def assignLengths : List Sym → BudgetRow → Option (List Nat × Nat)
  | [], r => if (r.at budget).isSome then some ([], budget) else none
  | y :: ys, r =>
    match assignLengths ys (nextRow y r) with
    | none => none
    | some (lens, b) =>
      match pickLength y r (nextRow y r) b with
      | none => none
      | some L => some (L :: lens, b - lengthCost L)

/-- The lengths of the used symbols put back at their indices; an unused symbol has length 0 (R161). -/
def spreadLengths : List Sym → List Nat → List Nat
  | [], _ => []
  | y :: ys, lens =>
    if y.freq = 0 then 0 :: spreadLengths ys lens
    else lens.headD 0 :: spreadLengths ys lens.tail

/-- The symbols with a positive frequency, in ascending index order (R161). -/
def usedSyms (ys : List Sym) : List Sym := ys.filter fun y => decide (0 < y.freq)

/-- `LengthLimited(f, lo, hi)` (R161). -/
def lengthLimited (ys : List Sym) : Except FaultName (List Nat) :=
  let used := usedSyms ys
  if used.isEmpty then .ok (ys.map fun _ => 0)
  else if used.any fun y => decide (y.hi < max 1 y.lo) then .error .buildBounds
  else
    match assignLengths used firstRow with
    | none => .error .buildInfeasible
    | some (lens, _) => .ok (spreadLengths ys lens)

/-! ## The canonical code, R165 -/

/-- `bitrev(c, l)` (R9): the `l`-bit value whose bit `i` is bit `l-1-i` of `c`. -/
def bitrev : Nat → Nat → Nat
  | _, 0 => 0
  | c, l + 1 => (c % 2) * 2 ^ l + bitrev (c / 2) l

/-- `cnt[q]` (R165): how many symbols have length `q`; `cnt[0]` is 0. -/
def lengthCount (L : List Nat) (q : Nat) : Nat := if q = 0 then 0 else L.count q

/-- `next[q]` before any code is given out (R165): `next[1] = 0`, `next[q] = (next[q-1] + cnt[q-1]) * 2`. -/
def firstCode (L : List Nat) : Nat → Nat
  | 0 => 0
  | q + 1 => (firstCode L q + lengthCount L q) * 2

/-- The pass of R165 over the symbols, ascending: `next` is the list of the next code of each length 0 to 15. -/
def assignCodes : List Nat → List Nat → List Nat
  | _, [] => []
  | next, l :: ls =>
    if l = 0 then 0 :: assignCodes next ls
    else bitrev (next.getD l 0) l :: assignCodes (next.set l (next.getD l 0 + 1)) ls

/-- `Canonical(L)` (R165): the code bits of every symbol, first bit in bit 0. -/
def canonical (L : List Nat) : List Nat := assignCodes ((List.range 16).map (firstCode L)) L

/-! ## The two levels, R162 to R164 -/

/-- `ESC` (R162): the sum of the run-length counts, an integer, not reduced modulo anything. -/
def Hist.escape (h : Hist) : Nat := (h.lz.toList.map BitVec.toNat).sum

/-- The twenty symbols of the first level (R162): raw tokens 0 to 18 and the escape at index 19. -/
def State.firstLevel (s : State) (c : Chan) : List Sym :=
  (List.range 20).map fun k =>
    { freq := if k < 19 then (entry (s.hist c).raw k).toNat else (s.hist c).escape
      lo := (entry s.minlen k).toNat
      hi := (entry s.maxlen k).toNat }

/-- The run-length alphabet under an escape of length `E` (R163): no lower bound, at most `15 - E`. -/
def Hist.subLevel (h : Hist) (E : Nat) : List Sym :=
  h.lz.toList.map fun f => { freq := f.toNat, lo := 0, hi := 15 - E }

/-- `LZ[0..33)` of R163 from the escape's length `E`. -/
def Hist.secondLevel (h : Hist) (E : Nat) : Except FaultName (List Nat) :=
  if h.escape = 0 then .ok (List.replicate 33 0)
  else if (h.lz.toList.filter (· ≠ 0)).length = 1 then .ok (h.lz.toList.map fun f => if f = 0 then 0 else E)
  else
    match lengthLimited (h.subLevel E) with
    | .error f => .error f
    | .ok L2 => .ok (L2.map fun l => if l > 0 then E + l else 0)

/-- `L1` and `LZ` of R166, or the fault of the first level that has one. -/
def State.buildLengths (s : State) (c : Chan) : Except FaultName (List Nat × List Nat) :=
  match lengthLimited (s.firstLevel c) with
  | .error f => .error f
  | .ok L1 =>
    match (s.hist c).secondLevel (L1.getD 19 0) with
    | .error f => .error f
    | .ok LZ => .ok (L1, LZ)

/-- `CL[0..257)` (R164, R166): raw lengths, 205 zeros for indices 19 to 223, run-length lengths from 224. -/
def combine (raw lz : List Nat) : List Nat := raw ++ (List.replicate 205 0 ++ lz)

/-- A list of numbers as a table of `n` entries of `w` bits. -/
def toTable (w n : Nat) (l : List Nat) : Vector (BitVec w) n := Vector.ofFn fun i => BitVec.ofNat w (l.getD i.val 0)

/-- The code tables that R166 writes for the lengths `L1` (of which index 19 is the escape's) and `LZ`. The bits are R165's over
the combined space, so that run-length codes need not begin with the same bits, as R168 (4) says they do: DEDUCED from R165, D23
and the vectors H3 and P3 (log 22; unsafe). -/
def codeOfLengths (L1 LZ : List Nat) : Code :=
  let CB := canonical (combine (L1.take 19) LZ)
  { rawLen := toTable 4 19 (L1.take 19)
    rawBits := toTable 16 19 (CB.take 19)
    lzLen := toTable 4 33 LZ
    lzBits := toTable 16 33 (CB.drop 224) }

/-- R166: both faults come before any table is written. -/
def execPcBuild (c : Chan) (s : State) : Host.Outcome State Fault Refusal :=
  match s.buildLengths c with
  | .error f => .next (s.raiseFault f)
  | .ok (L1, LZ) => (Flow.go (s.setCode c (codeOfLengths L1 LZ))).finish

/-- R167. -/
def execPcHclr (c : Chan) (s : State) : Host.Outcome State Fault Refusal := (Flow.go (s.setHist c Hist.zero)).finish

/-! ## Serialization, R170 and R171 -/

/-- One thing to send (R170): a length, or symbol 17 (repeat a zero length) with 3 extra bits. -/
inductive Item where
  | lit (v : Nat)
  | rep (x : Nat)
  deriving DecidableEq, Repr

/-- The combined lengths of a channel's code as it stands (R164). -/
def Code.combined (t : Code) : List Nat := combine (t.rawLen.toList.map BitVec.toNat) (t.lzLen.toList.map BitVec.toNat)

/-- The largest index with a non-zero entry, or `none`. -/
def lastUsed : List Nat → Option Nat
  | [] => none
  | v :: l =>
    match lastUsed l with
    | some i => some (i + 1)
    | none => if v = 0 then none else some 0

/-- The list `S` of R170. -/
def serialItems (CL : List Nat) (last : Nat) : List Item :=
  (CL.take (min last 18 + 1)).map Item.lit ++
    (if last ≥ 224 then [.rep 2, .rep 0, .rep 2] ++ ((CL.drop 224).take (last - 223)).map Item.lit else [])

/-- `cnt[v]` of R170, `v` in 0 to 17. -/
def itemCount (S : List Item) (v : Nat) : Nat :=
  if v ≤ 15 then S.count (.lit v)
  else if v = 17 then (S.filter fun | .rep _ => true | .lit _ => false).length
  else 0

/-- `META_ORDER` (R171). -/
def metaOrder : List Nat := [1, 2, 3, 4, 0, 5, 17, 6, 16, 7, 8, 9, 10, 11, 12, 13, 14, 15]

/-- `CLLN[s]` and `CLLB[s]`, the code of one meta length 0 to 5 (R171). -/
def metaLengthCode : Nat → Nat × Nat
  | 0 => (2, 0)
  | 1 => (4, 7)
  | 2 => (3, 3)
  | 3 => (2, 2)
  | 4 => (2, 1)
  | _ => (4, 15)

/-- `while ML[META_ORDER[num-1]] = 0: num <- num - 1` (R170). -/
def trimMeta (ML : List Nat) : Nat → Nat
  | 0 => 0
  | n + 1 => if ML.getD (metaOrder.getD n 0) 0 = 0 then trimMeta ML n else n + 1

/-- `ML`, `EL` and `num` of R170 from the counts of the 18 length symbols. -/
def metaCode (cnt : List Nat) : Except FaultName (List Nat × List Nat × Nat) :=
  if (cnt.filter (· > 0)).length = 1 then
    .ok (cnt.map fun n => if n > 0 then 1 else 0, cnt.map fun _ => 0, 18)
  else
    match lengthLimited (cnt.map fun n => { freq := n, lo := 0, hi := 5 }) with
    | .error f => .error f
    | .ok ML => .ok (ML, ML, trimMeta ML 18)

/-- The writes of one item (R170). -/
def itemWrites (EL MB : List Nat) : Item → List (Nat × Nat)
  | .lit v => [(EL.getD v 0, MB.getD v 0)]
  | .rep x => [(EL.getD 17 0, MB.getD 17 0), (3, x)]

/-- All the writes of `PC.SERIAL` for the combined lengths `CL`, in order (R170). -/
def serialWrites (CL : List Nat) : Except FaultName (List (Nat × Nat)) :=
  match lastUsed CL with
  | none => .error .buildInfeasible
  | some last =>
    let S := serialItems CL last
    match metaCode ((List.range 18).map (itemCount S)) with
    | .error f => .error f
    | .ok (ML, EL, num) =>
      .ok ((2, 0) :: ((metaOrder.take num).map (fun v => metaLengthCode (ML.getD v 0)) ++
        S.flatMap (itemWrites EL (canonical ML))))

/-- R170: `BuildInfeasible` comes before anything is written; a `BwOverflow` leaves the writes before it done. -/
def execPcSerial (c w : Chan) (s : State) : Host.Outcome State Fault Refusal :=
  match serialWrites (s.code c).combined with
  | .error f => .next (s.raiseFault f)
  | .ok l => (bwWrites w l s).finish

end Sys2Proof.Machine
end

