-- ==== Sys2Proof/Machine/Sequencer.lean ====
section
/-! DEFINITION. The sequencer commands (spec/40_sequencer.md R121 to R126). -/

namespace Sys2Proof.Machine

/-- R121. -/
def execNop (s : State) : Host.Outcome State Fault Refusal := (Flow.go s).finish

/-- R122: all other state is kept, and `pc` stands after the `HALT`. -/
def execHalt (s : State) : Host.Outcome State Fault Refusal := (Flow.go { s with seq := .halted }).finish

/-- R123 with `z = 0`: the other slices keep what they held. -/
def execLiK (d : Reg) (sh : Fin 4) (imm : BitVec 16) (s : State) : Host.Outcome State Fault Refusal :=
  (Flow.go (s.setReg d (putSlice (s.reg d) sh imm))).finish

/-- R123 with `z = 1`: the other slices become 0. -/
def execLiZ (d : Reg) (sh : Fin 4) (imm : BitVec 16) (s : State) : Host.Outcome State Fault Refusal :=
  (Flow.go (s.setReg d (putSlice 0 sh imm))).finish

/-- R124: wraps modulo 2^64. -/
def execAddi (d : Reg) (imm : BitVec 16) (s : State) : Host.Outcome State Fault Refusal :=
  (Flow.go (s.setReg d (s.reg d + sext16 imm))).finish

/-- R125: the range of `off` is checked only when the branch would be taken, and before anything is written. -/
def execLoop (r : Reg) (off : BitVec 16) (s : State) : Host.Outcome State Fault Refusal :=
  let v := s.reg r - 1
  if v ≠ 0 then
    if off.toNat > s.pc.toNat then .next (s.raiseFault .loopRange)
    else .next { s.setReg r v with pc := s.pc - off.setWidth 32 }
  else (Flow.go (s.setReg r v)).finish

end Sys2Proof.Machine
end

