-- ==== Sys2Proof/Machine/Tokenizer.lean ====
section
/-! DEFINITION. The tokenizer commands (spec/45_tokenizer.md R230 to R241). -/

namespace Sys2Proof.Machine

/-- The two passes (R230). -/
inductive Mode where
  | count
  | emit
  deriving DecidableEq, Repr

/-- A token with its number of extra bits and their value. -/
structure Token where
  tok : Nat
  nbits : Nat
  extra : Nat
  deriving DecidableEq, Repr

/-- `RawToken(v)` (R231): the token is the bit length of `v`, the extra bits are `v` without its leading one. -/
def rawToken (v : Nat) : Token :=
  if v = 0 then ⟨0, 0, 0⟩ else ⟨Nat.log2 v + 1, Nat.log2 v, v - 2 ^ Nat.log2 v⟩

/-- `LzToken(u)` (R232). -/
def lzToken (u : Nat) : Token :=
  if u < 16 then ⟨u, 0, 0⟩ else ⟨16 + Nat.log2 u - 4, Nat.log2 u, u - 2 ^ Nat.log2 u⟩

/-- A counter of 32 bits that cannot be incremented (R33). -/
def counterFull (v : Word) : Bool := v == 0xFFFFFFFF

/-- `HRAW[t]` incremented. -/
def Hist.bumpRaw (h : Hist) (t : Nat) : Hist := { h with raw := h.raw.setIfInBounds t (entry h.raw t + 1) }

/-- `HLZ[t]` incremented. -/
def Hist.bumpLz (h : Hist) (t : Nat) : Hist := { h with lz := h.lz.setIfInBounds t (entry h.lz t + 1) }

/-- `EmitRaw(mode, c, v)` (R233). -/
def emitRaw (mode : Mode) (c : Chan) (v : Word) (s : State) : Flow :=
  let k := rawToken v.toNat
  if k.tok > 18 then .raised .residualRange s
  else
    match mode with
    | .count =>
      if counterFull (entry (s.hist c).raw k.tok) then .raised .histOverflow s
      else .go (s.setHist c ((s.hist c).bumpRaw k.tok))
    | .emit =>
      if entry (s.code c).rawLen k.tok = 0 then .raised .uncodedSymbol s
      else
        bwWrites c
          [((entry (s.code c).rawLen k.tok).toNat, (entry (s.code c).rawBits k.tok).toNat), (k.nbits, k.extra)] s

/-- `FlushRun(mode, c, N)` (R234), which has a meaning for `N ≥ 8` only (log 11). -/
def flushRun (mode : Mode) (c : Chan) (N : Nat) (s : State) : Flow :=
  if N < 8 then .stop .shortRun
  else
    let u := N - 8
    if u ≥ 2 ^ 21 then .raised .runRange s
    else
      let k := lzToken u
      match mode with
      | .count =>
        if counterFull (entry (s.hist c).raw 0) || counterFull (entry (s.hist c).lz k.tok) then .raised .histOverflow s
        else .go (s.setHist c (((s.hist c).bumpRaw 0).bumpLz k.tok))
      | .emit =>
        if entry (s.code c).rawLen 0 = 0 ∨ entry (s.code c).lzLen k.tok = 0 then .raised .uncodedSymbol s
        else
          bwWrites c
            [((entry (s.code c).rawLen 0).toNat, (entry (s.code c).rawBits 0).toNat),
             ((entry (s.code c).lzLen k.tok).toNat, (entry (s.code c).lzBits k.tok).toNat),
             (k.nbits, k.extra)] s

/-- The number of leading zeros of a chunk (R235). -/
def leadingZeros (r : List Word) : Nat := (r.takeWhile (· == 0)).length

/-- `TokChunk(mode, c, r)` (R235), its three branches in order. -/
def tokChunk (mode : Mode) (c : Chan) (r : List Word) (s : State) : Flow :=
  let p := leadingZeros r
  let n := r.length
  let run := (s.runOf c).toNat
  if p = n ∧ (run > 0 ∨ p > 7) then
    if run + n ≥ 2 ^ 32 then .raised .runRange s
    else .go (s.setRun c (BitVec.ofNat 32 (run + n)))
  else if run + p > 7 then
    (flushRun mode c (run + p) s).andThen fun s₁ =>
      (forEach (emitRaw mode c) (r.drop p) s₁).andThen fun s₂ =>
        .go (s₂.setRun c 0)
  else forEach (emitRaw mode c) r s

/-- The residual row `RES[0..RESN)` (R236). -/
def State.residuals (s : State) : List Word := s.res.toList.take s.resn.val

/-- The chunks of a row from its left end: 16 residuals each but the last (R236); `fuel` bounds their number. -/
def chunks {α : Type} : Nat → List α → List (List α)
  | 0, _ => []
  | fuel + 1, r => if r.isEmpty then [] else r.take 16 :: chunks fuel (r.drop 16)

/-- `TokRow(mode, c)` (R236). A row has at most 256 residuals, so at most 16 chunks. -/
def tokRow (mode : Mode) (c : Chan) (s : State) : Flow := forEach (tokChunk mode c) (chunks 16 s.residuals) s

/-- The body of the two `Finalize` commands (R239, R240). -/
def finalize (mode : Mode) (c : Chan) (s : State) : Flow :=
  (if (s.runOf c).toNat > 0 then flushRun mode c (s.runOf c).toNat s else .go s).andThen fun s₁ => .go (s₁.setRun c 0)

/-- R237. -/
def execTkRowc (c : Chan) (s : State) : Host.Outcome State Fault Refusal := (tokRow .count c s).finish

/-- R238. -/
def execTkRowe (c : Chan) (s : State) : Host.Outcome State Fault Refusal := (tokRow .emit c s).finish

/-- R239. -/
def execTkFinc (c : Chan) (s : State) : Host.Outcome State Fault Refusal := (finalize .count c s).finish

/-- R240. -/
def execTkFine (c : Chan) (s : State) : Host.Outcome State Fault Refusal := (finalize .emit c s).finish

end Sys2Proof.Machine
end

