-- ==== Sys2Proof/Machine/Dispatch.lean ====
section
/-! DEFINITION. Which meaning each command has: one arm for each constructor of Instr. -/

namespace Sys2Proof.Machine

def exec (i : Instr) (s : State) : Host.Outcome State Fault Refusal :=
  match i with
  | .nop => Sys2Proof.Machine.execNop s
  | .halt => Sys2Proof.Machine.execHalt s
  | .liK d sh imm => Sys2Proof.Machine.execLiK d sh imm s
  | .liZ d sh imm => Sys2Proof.Machine.execLiZ d sh imm s
  | .addi d imm => Sys2Proof.Machine.execAddi d imm s
  | .loop r off => Sys2Proof.Machine.execLoop r off s
  | .bwInit w a b => Sys2Proof.Machine.execBwInit w a b s
  | .bwWrite w cnt r => Sys2Proof.Machine.execBwWrite w cnt r s
  | .bwZpad w => Sys2Proof.Machine.execBwZpad w s
  | .bwWritem w n a b => Sys2Proof.Machine.execBwWritem w n a b s
  | .pcHclr c => Sys2Proof.Machine.execPcHclr c s
  | .pcBuild c => Sys2Proof.Machine.execPcBuild c s
  | .pcSerial c w => Sys2Proof.Machine.execPcSerial c w s
  | .prStart len => Sys2Proof.Machine.execPrStart len s
  | .prLoad a => Sys2Proof.Machine.execPrLoad a s
  | .prPred c => Sys2Proof.Machine.execPrPred c s
  | .tkRowc c => Sys2Proof.Machine.execTkRowc c s
  | .tkRowe c => Sys2Proof.Machine.execTkRowe c s
  | .tkFinc c => Sys2Proof.Machine.execTkFinc c s
  | .tkFine c => Sys2Proof.Machine.execTkFine c s

end Sys2Proof.Machine
end

