-- ==== Sys2Proof/Machine/Step.lean ====
section
/-! DEFINITION. One step of the sequencer (spec/40_sequencer.md R120) and the placing of a command where the next step
fetches it. -/

namespace Sys2Proof.Machine

/-- R120: taken only while `STATE = RUN`; otherwise the block is still (log 6). A fault of the fetch enters the fault
state (R264). -/
def step (s : State) : Host.Outcome State Fault Refusal :=
  match s.seq with
  | .run =>
    match fetchDecode s with
    | .error f => .next (s.raiseFault f)
    | .ok i => exec i s
  | _ => .next s.still

/-- The state in which the next step runs the command whose bits are `w`: the host has placed its word at `pc` and started
the block (70_reset_and_hazards.md R302; log 7). -/
def State.withFetchWord (s : State) (nbits w : Nat) : State :=
  { s with seq := .run, cmd := cmdWithWord s.cmd s.pc.toNat (BitVec.ofNat 32 (w % 2 ^ nbits)) }

end Sys2Proof.Machine
end

