-- ==== Sys2Proof/Machine/Asm.lean ====
section
/-! DEFINITION. The assembler's operand order, ranges, labels and pseudo-instructions (spec/30_encoding.md R97, R98), on
source lines that have been read: the text itself (commas, comments, number bases) is not modelled (log 20). -/

namespace Sys2Proof.Machine

/-- One source line without its label, operands in the order of R97, then the pseudo-instructions of R98. -/
inductive AsmLine where
  | nop
  | halt
  | liK (d sh imm : Int)
  | liZ (d sh imm : Int)
  | addi (d simm : Int)
  | loop (s off : Int)
  | loopTo (s : Int) (label : String)
  | bwInit (w a b : Int)
  | bwWrite (w cnt s : Int)
  | bwZpad (w : Int)
  | bwWritem (w n a b : Int)
  | pcHclr (c : Int)
  | pcBuild (c : Int)
  | pcSerial (c w : Int)
  | prStart (len : Int)
  | prLoad (a : Int)
  | prPred (c : Int)
  | tkRowc (c : Int)
  | tkRowe (c : Int)
  | tkFinc (c : Int)
  | tkFine (c : Int)
  | movi (d v : Int)
  | li32 (d v : Int)
  | li64 (d v : Int)
  | subi (d v : Int)
  deriving DecidableEq, Repr

/-- A source line and the label before it, if it has one. -/
structure AsmStmt where
  label : Option String
  line : AsmLine
  deriving DecidableEq, Repr

/-- `0 ≤ v < n`. -/
def inRange (v : Int) (n : Nat) : Bool := decide (0 ≤ v) && decide (v < n)
/-- A register is written `x0` to `x7` (R97). -/
def isReg (v : Int) : Bool := inRange v 8
/-- A channel, writer or slice number fits its field (R91, R93). -/
def isChan (v : Int) : Bool := inRange v 4
/-- An unsigned immediate fits its field (R93). -/
def isImm (v : Int) : Bool := inRange v 65536

/-- Every operand of a line fits its field (R91, R93) and a pseudo-instruction's value is in the range of R98. -/
def AsmLine.wellFormed : AsmLine → Bool
  | .nop | .halt => true
  | .liK d sh imm | .liZ d sh imm => isReg d && isChan sh && isImm imm
  | .addi d simm => isReg d && decide (-32768 ≤ simm) && decide (simm ≤ 32767)
  | .loop s off => isReg s && isImm off
  | .loopTo s _ => isReg s
  | .bwInit w a b => isChan w && isReg a && isReg b
  | .bwWrite w cnt s => isChan w && isImm cnt && isReg s
  | .bwWritem w n a b => isChan w && isImm n && isReg a && isReg b
  | .bwZpad c | .pcHclr c | .pcBuild c | .prPred c | .tkRowc c | .tkRowe c | .tkFinc c | .tkFine c => isChan c
  | .pcSerial c w => isChan c && isChan w
  | .prStart len => isImm len
  | .prLoad a => isReg a
  | .movi d v => isReg d && inRange v (2 ^ 16)
  | .li32 d v => isReg d && inRange v (2 ^ 32)
  | .li64 d v => isReg d && inRange v (2 ^ 64)
  | .subi d v => isReg d && decide (-32767 ≤ v) && decide (v ≤ 32768)

/-- The number of command words of a line (R98). -/
def AsmLine.size : AsmLine → Nat
  | .li32 _ _ => 2
  | .li64 _ _ => 4
  | _ => 1

def asmReg (v : Int) : Reg := Fin.ofNat 8 v.toNat
def asmChan (v : Int) : Chan := Fin.ofNat 4 v.toNat
def asmImm (v : Int) : BitVec 16 := BitVec.ofInt 16 v
/-- Slice `k` of `v`: `v[16k+15:16k]`. -/
def asmSlice (v : Int) (k : Nat) : BitVec 16 := BitVec.ofNat 16 (v.toNat / 2 ^ (16 * k))

/-- The commands of a well-formed line at word address `addr` (R97, R98); `none` when `LOOP` names a label that does not
stand at or before it within reach. Of two lines with the same label the first is taken (DESIGN CHOICE, log 20). -/
def AsmLine.expand (labels : List (String × Nat)) (addr : Nat) : AsmLine → Option (List Instr)
  | .nop => some [.nop]
  | .halt => some [.halt]
  | .liK d sh imm => some [.liK (asmReg d) (asmChan sh) (asmImm imm)]
  | .liZ d sh imm => some [.liZ (asmReg d) (asmChan sh) (asmImm imm)]
  | .addi d simm => some [.addi (asmReg d) (asmImm simm)]
  | .loop s off => some [.loop (asmReg s) (asmImm off)]
  | .loopTo s name =>
    match labels.lookup name with
    | none => none
    | some a => if a ≤ addr ∧ addr - a < 65536 then some [.loop (asmReg s) (BitVec.ofNat 16 (addr - a))] else none
  | .bwInit w a b => some [.bwInit (asmChan w) (asmReg a) (asmReg b)]
  | .bwWrite w cnt s => some [.bwWrite (asmChan w) (asmImm cnt) (asmReg s)]
  | .bwZpad w => some [.bwZpad (asmChan w)]
  | .bwWritem w n a b => some [.bwWritem (asmChan w) (asmImm n) (asmReg a) (asmReg b)]
  | .pcHclr c => some [.pcHclr (asmChan c)]
  | .pcBuild c => some [.pcBuild (asmChan c)]
  | .pcSerial c w => some [.pcSerial (asmChan c) (asmChan w)]
  | .prStart len => some [.prStart (asmImm len)]
  | .prLoad a => some [.prLoad (asmReg a)]
  | .prPred c => some [.prPred (asmChan c)]
  | .tkRowc c => some [.tkRowc (asmChan c)]
  | .tkRowe c => some [.tkRowe (asmChan c)]
  | .tkFinc c => some [.tkFinc (asmChan c)]
  | .tkFine c => some [.tkFine (asmChan c)]
  | .movi d v => some [.liZ (asmReg d) 0 (asmSlice v 0)]
  | .li32 d v => some [.liZ (asmReg d) 0 (asmSlice v 0), .liK (asmReg d) 1 (asmSlice v 1)]
  | .li64 d v =>
    some [.liZ (asmReg d) 0 (asmSlice v 0), .liK (asmReg d) 1 (asmSlice v 1), .liK (asmReg d) 2 (asmSlice v 2),
      .liK (asmReg d) 3 (asmSlice v 3)]
  | .subi d v => some [.addi (asmReg d) (asmImm (-v))]

/-- The address each label names: that of the first word of its line (R97; log 20). When two lines carry the same label, the
first of them is the one found, and the source is assembled: DESIGN CHOICE (log 20; R97 and D40 do not say). -/
def labelsFrom : Nat → List AsmStmt → List (String × Nat)
  | _, [] => []
  | addr, t :: ts =>
    match t.label with
    | some name => (name, addr) :: labelsFrom (addr + t.line.size) ts
    | none => labelsFrom (addr + t.line.size) ts

/-- The commands of the lines from word address `addr` on; `none` when a line is ill formed. -/
def assembleFrom (labels : List (String × Nat)) : Nat → List AsmStmt → Option (List Instr)
  | _, [] => some []
  | addr, t :: ts =>
    if t.line.wellFormed then
      match t.line.expand labels addr, assembleFrom labels (addr + t.line.size) ts with
      | some l, some rest => some (l ++ rest)
      | _, _ => none
    else none

/-- The words of a program placed at word address `addr`. -/
def assemble (addr : Nat) (prog : List AsmStmt) : Option (List Word) :=
  (assembleFrom (labelsFrom addr prog) addr prog).map (·.map encode)

end Sys2Proof.Machine
end

