-- ==== Sys2Proof/Machine/Flags.lean ====
section
/-! DEFINITION. The block has no flags and no condition codes (spec/10_state.md R23). The only status a command changes as
a side effect is `STATE`; here are its code, the interrupt output and the STATUS register (R23, R26,
spec/60_exceptions.md R263). -/

namespace Sys2Proof.Machine

/-- The two bits of `STATE` (R23). -/
def SeqState.code : SeqState → BitVec 2
  | .idle => 0
  | .run => 1
  | .halted => 2
  | .fault => 3

/-- The block is stopped: `STATE ≠ RUN` (R24). -/
def State.stopped (s : State) : Bool := s.seq != .run

/-- The level of the interrupt output: `IE and (STATE = HALTED or STATE = FAULT)` (R263). -/
def State.irq (s : State) : Bool := s.ie && (s.seq == .halted || s.seq == .fault)

/-- `STATUS` (R26): bits 1:0 `STATE`, bit 2 `IRQ`, bits 31:3 read 0. -/
def State.statusWord (s : State) : Word := (0 : BitVec 29) ++ (BitVec.ofBool s.irq ++ s.seq.code)

end Sys2Proof.Machine
end

