-- ==== Sys2Proof/Machine/HostPort.lean ====
section
/-! DEFINITION. What the host can do to the block and what it sees: the registers (spec/10_state.md R24 to R32), the table
window (R38), the memories (spec/20_memory.md R60, R61), access while running (R66) and the two resets
(spec/70_reset_and_hazards.md R300). -/

namespace Sys2Proof.Machine

/-! ## The table window, R38 -/

/-- A table entry and its index. -/
inductive TableEntry where
  | xLow (i : Fin 8)
  | xHigh (i : Fin 8)
  | minlen (k : Fin 20)
  | maxlen (k : Fin 20)
  | hraw (c : Fin 4) (t : Fin 19)
  | hlz (c : Fin 4) (j : Fin 33)
  | rawLen (c : Fin 4) (t : Fin 19)
  | rawBits (c : Fin 4) (t : Fin 19)
  | lzLen (c : Fin 4) (j : Fin 33)
  | lzBits (c : Fin 4) (j : Fin 33)
  deriving DecidableEq, Repr

/-- The entry at offset `o` of channel `c`'s part of the table space (R38). -/
def channelEntry (c : Fin 4) (o : Nat) : Option TableEntry :=
  if o < 0x13 then some (.hraw c (Fin.ofNat 19 o))
  else if 0x20 ≤ o ∧ o < 0x41 then some (.hlz c (Fin.ofNat 33 (o - 0x20)))
  else if 0x50 ≤ o ∧ o < 0x63 then some (.rawLen c (Fin.ofNat 19 (o - 0x50)))
  else if 0x70 ≤ o ∧ o < 0x83 then some (.rawBits c (Fin.ofNat 19 (o - 0x70)))
  else if 0x90 ≤ o ∧ o < 0xB1 then some (.lzLen c (Fin.ofNat 33 (o - 0x90)))
  else if 0xC0 ≤ o ∧ o < 0xE1 then some (.lzBits c (Fin.ofNat 33 (o - 0xC0)))
  else none

/-- The entry at a table address, or `none` for an address that reads 0 and ignores writes (R38). -/
def tableEntry (a : Nat) : Option TableEntry :=
  if a < 0x8 then some (.xLow (Fin.ofNat 8 a))
  else if a < 0x10 then some (.xHigh (Fin.ofNat 8 (a - 0x8)))
  else if a < 0x24 then some (.minlen (Fin.ofNat 20 (a - 0x10)))
  else if 0x30 ≤ a ∧ a < 0x44 then some (.maxlen (Fin.ofNat 20 (a - 0x30)))
  else if 0x100 ≤ a ∧ a < 0x500 then channelEntry (Fin.ofNat 4 (a / 0x100 - 1)) (a % 0x100)
  else none

/-- The width of an entry in bits (R38). -/
def TableEntry.width : TableEntry → Nat
  | .xLow _ | .xHigh _ | .hraw _ _ | .hlz _ _ => 32
  | .minlen _ | .maxlen _ | .rawLen _ _ | .lzLen _ _ => 4
  | .rawBits _ _ | .lzBits _ _ => 16

/-- The value of an entry, zero-extended to 32 bits. -/
def State.readEntry (s : State) : TableEntry → Word
  | .xLow i => (s.reg i).extractLsb' 0 32
  | .xHigh i => (s.reg i).extractLsb' 32 32
  | .minlen k => s.minlen[k].setWidth 32
  | .maxlen k => s.maxlen[k].setWidth 32
  | .hraw c t => (s.hist c).raw[t]
  | .hlz c j => (s.hist c).lz[j]
  | .rawLen c t => (s.code c).rawLen[t].setWidth 32
  | .rawBits c t => (s.code c).rawBits[t].setWidth 32
  | .lzLen c j => (s.code c).lzLen[j].setWidth 32
  | .lzBits c j => (s.code c).lzBits[j].setWidth 32

/-- An entry takes the low bits of the written value, as many as it is wide; half of an `x` register leaves the other half
unchanged (R38). -/
def State.writeEntry (s : State) (v : Word) : TableEntry → State
  | .xLow i => s.setReg i ((s.reg i).extractLsb' 32 32 ++ v)
  | .xHigh i => s.setReg i (v ++ (s.reg i).extractLsb' 0 32)
  | .minlen k => { s with minlen := s.minlen.set k (v.setWidth 4) }
  | .maxlen k => { s with maxlen := s.maxlen.set k (v.setWidth 4) }
  | .hraw c t => s.setHist c { s.hist c with raw := (s.hist c).raw.set t v }
  | .hlz c j => s.setHist c { s.hist c with lz := (s.hist c).lz.set j v }
  | .rawLen c t => s.setCode c { s.code c with rawLen := (s.code c).rawLen.set t (v.setWidth 4) }
  | .rawBits c t => s.setCode c { s.code c with rawBits := (s.code c).rawBits.set t (v.setWidth 16) }
  | .lzLen c j => s.setCode c { s.code c with lzLen := (s.code c).lzLen.set j (v.setWidth 4) }
  | .lzBits c j => s.setCode c { s.code c with lzBits := (s.code c).lzBits.set j (v.setWidth 16) }

/-- A read of `TDATA` (R38). -/
def State.readTable (s : State) (a : BitVec 12) : Word :=
  match tableEntry a.toNat with
  | some e => s.readEntry e
  | none => 0

/-- A write of `TDATA` (R38). -/
def State.writeTable (s : State) (a : BitVec 12) (v : Word) : State :=
  match tableEntry a.toNat with
  | some e => s.writeEntry v e
  | none => s

/-! ## The registers, R24 to R32 -/

/-- `CTRL` as it reads (R25): `IE` in bit 2, the other bits 0. -/
def State.ctrlWord (s : State) : Word := (0 : BitVec 29) ++ (BitVec.ofBool s.ie ++ (0 : BitVec 2))

/-- `CFG` as it reads (R29). -/
def State.cfgWord (s : State) : Word := (0 : BitVec 22) ++ (BitVec.ofBool s.cfg.be ++ (s.cfg.bps ++ s.cfg.nc))

/-- `PRSTAT` (R30): `XS` in bits 8:0, `NROWS` in bits 10:9, `RESN` in bits 24:16. -/
def State.prstatWord (s : State) : Word :=
  (0 : BitVec 7) ++ (BitVec.ofNat 9 s.resn.val ++ ((0 : BitVec 5) ++ (BitVec.ofNat 2 s.nrows.val ++ BitVec.ofNat 9 s.xs.val)))

/-- `BWw_TAIL` (R31): `ACC[7:0]` in bits 7:0, `NBITS` in bits 10:8. -/
def Writer.tailWord (wr : Writer) : Word :=
  (0 : BitVec 21) ++ (BitVec.ofNat 3 wr.nbits.val ++ wr.acc.extractLsb' 0 8)

/-- The four registers of writer `w` (R24, R31). -/
def Writer.readReg (wr : Writer) : Fin 4 → Word
  | 0 => wr.base
  | 1 => wr.limit
  | 2 => wr.bytes
  | 3 => wr.tailWord

/-- What register `n` reads as while the block is stopped (R24); a reserved number reads 0. -/
def State.readStopped (s : State) (n : BitVec 6) : Word :=
  let k := n.toNat
  if k = 0x00 then s.ctrlWord
  else if k = 0x01 then s.statusWord
  else if k = 0x02 then s.cause.setWidth 32
  else if k = 0x03 then s.fpc
  else if k = 0x04 then s.pc
  else if k = 0x05 then s.cfgWord
  else if k = 0x06 then s.prstatWord
  else if k = 0x07 then s.taddr.setWidth 32
  else if k = 0x08 then s.readTable s.taddr
  else if 0x10 ≤ k ∧ k < 0x20 then (s.writer (Fin.ofNat 4 (k / 4))).readReg (Fin.ofNat 4 k)
  else if 0x20 ≤ k ∧ k < 0x24 then s.runOf (Fin.ofNat 4 k)
  else 0

/-- What a host read of register `n` returns: in `RUN` only STATUS has a specified value, any other register returns a free
value (R66, U5, log 4, log 9). That a reserved number is such a register, though R24 and U11 say that it reads 0, is a DESIGN
CHOICE (log 21; safe, 0 being one of the values). -/
def State.readRegister (s : State) (n : BitVec 6) : Word :=
  if s.stopped || n == 0x01 then s.readStopped n else Config.runningRead s.draws

/-- The state after a host read of register `n`: the same, but that a free value drawn is not drawn again (log 4). -/
def State.afterRead (s : State) (n : BitVec 6) : State :=
  if s.stopped || n == 0x01 then s else { s with draws := s.draws + 1 }

/-- A host write of `CTRL` (R25): `SRESET` in any state, and then `START` and `IE` have no effect (log 8); else `IE`, and
`START` when `STATE` is `IDLE` or `HALTED`. -/
def State.writeCtrl (s : State) (v : Word) : State :=
  if v.getLsbD 1 then s.softReset
  else
    { s with
      ie := v.getLsbD 2
      seq := if v.getLsbD 0 && (s.seq == .idle || s.seq == .halted) then .run else s.seq }

/-- A host write of `CFG` (R29): every field holds whatever is written, the reserved bits are ignored. -/
def cfgOfWord (v : Word) : Cfg := { nc := v.extractLsb' 0 3, bps := v.extractLsb' 3 6, be := v.getLsbD 9 }

/-- A host write of register `n` other than `CTRL` while the block is stopped (R24). -/
def State.writeStopped (s : State) (n : BitVec 6) (v : Word) : State :=
  let k := n.toNat
  if k = 0x04 then { s with pc := v }
  else if k = 0x05 then { s with cfg := cfgOfWord v }
  else if k = 0x07 then { s with taddr := v.setWidth 12 }
  else if k = 0x08 then s.writeTable s.taddr v
  else s

/-- A host write of register `n` (R24, R66): in `RUN` only `CTRL` is acted on. -/
def State.writeRegister (s : State) (n : BitVec 6) (v : Word) : State :=
  if n = 0x00 then s.writeCtrl v
  else if s.stopped then s.writeStopped n v
  else s

/-- The bit-depth class of an image (00_scope.md R7), by which the host chooses the bound tables it loads (R34); nothing in the
block reads it. -/
def depthClass (bps : Nat) : Nat := if bps ≤ 8 then 0 else if bps ≤ 13 then 1 else if bps = 14 then 2 else 3

/-! ## The memories -/

/-- One of the three memories. -/
def State.memory (s : State) : Config.Space → Memory
  | .cmd => s.cmd
  | .input => s.input
  | .output => s.out

def State.setMemory (s : State) (m : Memory) : Config.Space → State
  | .cmd => { s with cmd := m }
  | .input => { s with input := m }
  | .output => { s with out := m }

/-- A host access to `n` bytes at `a` is allowed (R66) and the bytes exist (R61 to R63). -/
def State.hostAccess (s : State) (sp : Config.Space) (a n : Nat) (k : State → Host.Outcome State Fault Refusal) :
    Host.Outcome State Fault Refusal :=
  if !s.stopped then .refused .hostMemoryWhileRunning
  else if a + n > s.params.bytes sp then .fault .hostAddress
  else k s

/-! ## The host's moves -/

/-- What the host can do (R24, R66, R300). CMD is reached by bytes or by words (R61). -/
inductive HostMove where
  | readReg (n : BitVec 6)
  | writeReg (n : BitVec 6) (v : Word)
  | readByte (sp : Config.Space) (a : Nat)
  | writeByte (sp : Config.Space) (a : Nat) (v : Byte)
  | readCmd (a : Nat)
  | writeCmd (a : Nat) (v : Word)
  | hardReset
  deriving DecidableEq, Repr

/-- The state after a host move. A move falls between two steps of the sequencer (R66, R300; log 15). -/
def hostAct (m : HostMove) (s : State) : Host.Outcome State Fault Refusal :=
  match m with
  | .readReg n => .next (s.afterRead n)
  | .writeReg n v => .next (s.writeRegister n v)
  | .readByte sp a => s.hostAccess sp a 1 fun s => .next s
  | .writeByte sp a v => s.hostAccess sp a 1 fun s => .next (s.setMemory (Memory.put (s.memory sp) a v) sp)
  | .readCmd a => s.hostAccess .cmd (4 * a) 4 fun s => .next s
  | .writeCmd a v => s.hostAccess .cmd (4 * a) 4 fun s => .next (s.setMemory (cmdWithWord s.cmd a v) .cmd)
  | .hardReset => .next s.softReset

/-- The value a host move returns, for a move that reads; 0 for one that does not. -/
def hostSees (m : HostMove) (s : State) : Word :=
  match m with
  | .readReg n => s.readRegister n
  | .writeReg _ _ => 0
  | .readByte sp a => (Memory.byte sp (s.memory sp) a).setWidth 32
  | .writeByte _ _ _ => 0
  | .readCmd a => s.fetchWord (BitVec.ofNat 32 a)
  | .writeCmd _ _ => 0
  | .hardReset => 0

end Sys2Proof.Machine
end

