-- ==== Sys2Proof/Safety.lean ====
section
/-! DEFINITION. The terms in which statements about the block are made: the invariant of spec/10_state.md R42, what it means
that a command completes, the stream of a writer (spec/41_bit_writer.md R140), code lengths that fill the budget
(spec/42_prefix_code.md R161, R168). -/

namespace Sys2Proof.Machine

/-! ## The invariant -/

/-- R42 (1) of one writer: `ACC < 2^NBITS`, `BYTES ≤ LIMIT`, `BASE + LIMIT ≤ OUT_BYTES` (`NBITS ≤ 7` is the type's). -/
def Writer.Good (size : Nat) (wr : Writer) : Prop :=
  wr.acc.toNat < 2 ^ wr.nbits.val ∧ wr.bytes.toNat ≤ wr.limit.toNat ∧ wr.base.toNat + wr.limit.toNat ≤ size

/-- A memory in canonical form, with no byte listed at an address that does not exist. -/
def Memory.Good (m : Memory) (size : Nat) : Prop := Memory.wf m = true ∧ Memory.below m size = true

/-- R42 (2), R241: a pending run exceeds the threshold. -/
def runGood (v : Word) : Prop := v = 0 ∨ 7 < v.toNat

/-- The states R42 allows, with the memories in canonical form and `CAUSE` telling whether there was a fault (R27, R261).
R42 (3)'s bounds `XS ≤ 256` and `NROWS ≤ 2` are the types'. -/
structure State.Inv (s : State) : Prop where
  writers : ∀ w : Chan, (s.writer w).Good s.params.outBytes.val
  runs : ∀ c : Chan, runGood (s.runOf c)
  residuals : s.resn.val ≤ s.xs.val
  rows : s.nrows ≠ 0 → s.xs ≠ 0
  cause : (s.seq = .fault ∧ ∃ f : FaultName, s.cause = f.code) ∨ (s.seq ≠ .fault ∧ s.cause = 0 ∧ s.fpc = 0)
  cmd : Memory.Good s.cmd (s.params.bytes .cmd)
  input : Memory.Good s.input (s.params.bytes .input)
  out : Memory.Good s.out (s.params.bytes .output)

/-! ## What a command does and does not do -/

/-- What only the host writes, and no command (R61, R62, R280; R40 for the sizes): the memories CMD and IN, the sizes, `IE`,
`CFG`, the bound tables, `TADDR`, and the model's counter. -/
structure SameHostSide (s t : State) : Prop where
  params : t.params = s.params
  ie : t.ie = s.ie
  cfg : t.cfg = s.cfg
  minlen : t.minlen = s.minlen
  maxlen : t.maxlen = s.maxlen
  taddr : t.taddr = s.taddr
  cmd : t.cmd = s.cmd
  input : t.input = s.input
  draws : t.draws = s.draws

/-- Nothing about faults and the sequencer's own state changed: `STATE`, `CAUSE` and `FPC`. -/
structure SameStatus (s t : State) : Prop where
  seq : t.seq = s.seq
  cause : t.cause = s.cause
  fpc : t.fpc = s.fpc

/-- The predictor's state is unchanged. -/
structure SamePredictor (s t : State) : Prop where
  xs : t.xs = s.xs
  nrows : t.nrows = s.nrows
  cur : t.cur = s.cur
  prev : t.prev = s.prev
  res : t.res = s.res
  resn : t.resn = s.resn

/-- Every writer but `w` is unchanged. -/
def SameWritersBut (w : Chan) (s t : State) : Prop := ∀ v : Chan, v ≠ w → t.writer v = s.writer v

/-- Every byte of OUT outside `n` bytes from `a` up reads as before. -/
def SameOutBut (a n : Nat) (s t : State) : Prop := ∀ b : Nat, (b < a ∨ a + n ≤ b) → t.outByte b = s.outByte b

/-- The place in OUT where writer `w` puts its next byte (R141). -/
def State.outCursor (s : State) (w : Chan) : Nat := (s.writer w).base.toNat + (s.writer w).bytes.toNat

/-- The frame of a command that writes bits to writer `w` only: everything but `pc`, writer `w`, the bytes of OUT that `w`
completed, and the parts that the command's own statement names. -/
structure WritesBits (w : Chan) (s t : State) : Prop where
  host : SameHostSide s t
  pred : SamePredictor s t
  regs : t.x = s.x
  hists : t.hists = s.hists
  codes : t.codes = s.codes
  others : SameWritersBut w s t
  region : (t.writer w).base = (s.writer w).base ∧ (t.writer w).limit = (s.writer w).limit
  grows : (s.writer w).bytes.toNat ≤ (t.writer w).bytes.toNat
  out : SameOutBut (s.outCursor w) ((t.writer w).bytes.toNat - (s.writer w).bytes.toNat) s t

/-- The command completes: it answers the next state `t`, `pc` is one further (R22) and no fault was entered. -/
def Completes (i : Instr) (s t : State) : Prop := exec i s = .next t ∧ t.pc = s.pc + 1 ∧ SameStatus s t

/-- The command raises `f` and has changed nothing else (R264, R266). -/
def RaisesOnly (i : Instr) (s : State) (f : FaultName) : Prop := exec i s = .next (s.raiseFault f)

/-- `n` steps one after the other, as long as each answers a next state. -/
def steps : Nat → State → Host.Outcome State Fault Refusal
  | 0, s => .next s
  | n + 1, s =>
    match step s with
    | .next t => steps n t
    | .fault f => .fault f
    | .refused r => .refused r

/-! ## Streams -/

/-- The bits of a byte from bit 0 up. -/
def byteBits (b : Byte) : List Bool := (List.range 8).map b.getLsbD

/-- The low `n` bits of a number from bit 0 up. -/
def natBits (n v : Nat) : List Bool := (List.range n).map v.testBit

/-- The stream of writer `w` (R140): its bytes in OUT, each from bit 0 up, then the pending bits. -/
def State.stream (s : State) (w : Chan) : List Bool :=
  (List.range (s.writer w).bytes.toNat).flatMap (fun i => byteBits (s.outByte ((s.writer w).base.toNat + i))) ++
    natBits (s.writer w).nbits.val (s.writer w).acc.toNat

/-- How many more bits writer `w` takes before `BwOverflow` is certain: its region with seven bits pending. -/
def State.room (s : State) (w : Chan) : Nat :=
  8 * ((s.writer w).limit.toNat - (s.writer w).bytes.toNat) + 7 - (s.writer w).nbits.val

/-- The bits that a list of writes appends, each a count and a value (R141). -/
def writesBits (l : List (Nat × Nat)) : List Bool := l.flatMap fun p => natBits p.1 p.2

/-- The entries of a `BW.WRITEM` as writes (R146): entry `i` is the byte at `A + i` and the 8-byte little-endian value at
`B + 8*i` of IN. -/
def State.writemEntries (s : State) (A B n : Nat) : List (Nat × Nat) :=
  (List.range n).map fun i => ((s.inByte (A + i)).toNat, leValue (s.inBytes (B + 8 * i) 8))

/-- Where a command stands that has made the writes `l` to writer `w` and nothing more that the frame of its bits does not
name: `pc` and the status are as in `s`, and the stream has the bits of `l` after it (R266). -/
structure WroteOnly (w : Chan) (l : List (Nat × Nat)) (s u : State) : Prop where
  frame : WritesBits w s u
  status : SameStatus s u
  pc : u.pc = s.pc
  stream : u.stream w = s.stream w ++ writesBits l

/-- `RUN[c]` stands at `n`, and the other channels' run lengths as in `s` (R266). -/
def RunStands (c : Chan) (n : Nat) (s u : State) : Prop := (u.runOf c).toNat = n ∧ ∀ e, e ≠ c → u.runOf e = s.runOf e

/-! ## Slices of a register -/

/-- Bits `16k+15 : 16k` of a register (R123). -/
def slice (v : DWord) (k : Fin 4) : BitVec 16 := v.extractLsb' (16 * k.val) 16

/-! ## What the tokenizer decides -/

/-- One decision of the tokenizer (R235): a residual sent as a raw token, or a run of `N` zero residuals flushed. -/
inductive Decision where
  | raw (v : Word)
  | run (N : Nat)
  deriving DecidableEq, Repr

/-- The residuals a decision stands for (R243). -/
def Decision.expand : Decision → List Word
  | .raw v => [v]
  | .run N => List.replicate N 0

/-- The decisions of R235 on one chunk with `run` zeros pending, and the zeros pending after it. They read only the run
length and the residuals (R230). -/
def chunkDecisions (run : Nat) (r : List Word) : List Decision × Nat :=
  let p := leadingZeros r
  if p = r.length ∧ (run > 0 ∨ p > 7) then ([], run + r.length)
  else if run + p > 7 then (.run (run + p) :: (r.drop p).map .raw, 0)
  else (r.map .raw, run)

/-- The decisions on a list of chunks (R236). -/
def rowDecisions : Nat → List (List Word) → List Decision × Nat
  | run, [] => ([], run)
  | run, r :: rs =>
    let d := chunkDecisions run r
    let e := rowDecisions d.2 rs
    (d.1 ++ e.1, e.2)

/-- The decisions on the residual row of a state, in channel `c`. -/
def State.decisions (s : State) (c : Chan) : List Decision × Nat :=
  rowDecisions (s.runOf c).toNat (chunks 16 s.residuals)

/-- The writes a decision makes with the code tables `t` (R233, R234): the code first, then the extra bits. -/
def Decision.writes (t : Code) : Decision → List (Nat × Nat)
  | .raw v =>
    let k := rawToken v.toNat
    [((entry t.rawLen k.tok).toNat, (entry t.rawBits k.tok).toNat), (k.nbits, k.extra)]
  | .run N =>
    let k := lzToken (N - 8)
    [((entry t.rawLen 0).toNat, (entry t.rawBits 0).toNat), ((entry t.lzLen k.tok).toNat, (entry t.lzBits k.tok).toNat),
      (k.nbits, k.extra)]

/-- How often a decision counts raw token `k` (R233, R234): a run counts its first zero as raw token 0. -/
def Decision.countsRaw (k : Nat) : Decision → Nat
  | .raw v => if (rawToken v.toNat).tok = k then 1 else 0
  | .run _ => if k = 0 then 1 else 0

/-- How often a decision counts run-length token `j` (R234). -/
def Decision.countsLz (j : Nat) : Decision → Nat
  | .raw _ => 0
  | .run N => if (lzToken (N - 8)).tok = j then 1 else 0

/-- Raw counter `k` when the decisions `ds` have been counted, as a number that does not wrap. -/
def Hist.rawAfter (h : Hist) (ds : List Decision) (k : Nat) : Nat :=
  (entry h.raw k).toNat + (ds.map (Decision.countsRaw k)).sum

/-- Run-length counter `j` when the decisions `ds` have been counted, as a number that does not wrap. -/
def Hist.lzAfter (h : Hist) (ds : List Decision) (j : Nat) : Nat :=
  (entry h.lz j).toNat + (ds.map (Decision.countsLz j)).sum

/-- The counters have room for all the decisions `ds` (R33). -/
def Hist.Fits (h : Hist) (ds : List Decision) : Prop :=
  (∀ k, k < 19 → h.rawAfter ds k < 2 ^ 32) ∧ ∀ j, j < 33 → h.lzAfter ds j < 2 ^ 32

/-- Where a counting command stands that has counted the decisions `ds` in channel `c`: only run lengths and the histograms of
`c` can differ from `s` (R266). -/
structure CountedOnly (c : Chan) (ds : List Decision) (s u : State) : Prop where
  frame : u = { s with hists := u.hists, run := u.run }
  others : ∀ e, e ≠ c → u.hist e = s.hist e
  raw : ∀ k, k < 19 → (entry (u.hist c).raw k).toNat = (s.hist c).rawAfter ds k
  lz : ∀ j, j < 33 → (entry (u.hist c).lz j).toNat = (s.hist c).lzAfter ds j

/-! ## Code lengths -/

/-- A length for every symbol, within its bounds, a lower bound of 0 read as 1 (R161). -/
def WithinBounds (ys : List Sym) (lens : List Nat) : Prop :=
  List.Forall₂ (fun (y : Sym) L => max 1 y.lo ≤ L ∧ L ≤ y.hi) ys lens

/-- What the lengths take of the budget `2^15` (R161). -/
def spent (lens : List Nat) : Nat := (lens.map lengthCost).sum

/-- `Σ f · len` (R161). -/
def totalCost (ys : List Sym) (lens : List Nat) : Nat := (List.zipWith (fun (y : Sym) L => y.freq * L) ys lens).sum

/-- The symbols have a complete code within their bounds. -/
def Feasible (ys : List Sym) : Prop := ∃ lens, WithinBounds ys lens ∧ spent lens = budget

/-- `Σ 2^(15 - L)` over the symbols with a code (length above 0); it is `2^15` when `Σ 2^(-L) = 1` (R168). -/
def kraft (L : List Nat) : Nat := ((L.filter (· > 0)).map lengthCost).sum

/-! ## Faults -/

/-- The faults a command can raise once it is fetched (R261, its third column). -/
def canRaise : Instr → List FaultName
  | .nop | .halt | .liK _ _ _ | .liZ _ _ _ | .addi _ _ | .pcHclr _ => []
  | .loop _ _ => [.loopRange]
  | .bwInit _ _ _ => [.memRange]
  | .bwWrite _ _ _ => [.bwCount, .bwOverflow]
  | .bwZpad _ => [.bwOverflow]
  | .bwWritem _ _ _ _ => [.memRange, .bwCount, .bwOverflow]
  | .pcBuild _ => [.buildBounds, .buildInfeasible]
  | .pcSerial _ _ => [.buildInfeasible, .bwOverflow]
  | .prStart _ => [.cfgInvalid]
  | .prLoad _ => [.cfgInvalid, .memRange]
  | .prPred _ => [.chRange, .noRow]
  | .tkRowc _ => [.residualRange, .runRange, .histOverflow]
  | .tkRowe _ => [.residualRange, .runRange, .uncodedSymbol, .bwOverflow]
  | .tkFinc _ => [.runRange, .histOverflow]
  | .tkFine _ => [.runRange, .uncodedSymbol, .bwOverflow]

/-- The commands whose `raise` comes before any assignment (60_exceptions.md R266), those that cannot fault among them. -/
def FaultsWhole : Instr → Prop
  | .nop | .halt | .liK _ _ _ | .liZ _ _ _ | .addi _ _ | .pcHclr _ | .loop _ _ | .bwInit _ _ _ | .bwWrite _ _ _ | .bwZpad _
  | .pcBuild _ | .prStart _ | .prLoad _ | .prPred _ | .tkFinc _ => True
  | .bwWritem _ _ _ _ | .pcSerial _ _ | .tkRowc _ | .tkRowe _ | .tkFine _ => False

/-- The operand register that a command writes (10_state.md R21). -/
def destination : Instr → Option Reg
  | .liK d _ _ | .liZ d _ _ | .addi d _ | .loop d _ => some d
  | .nop | .halt | .bwInit _ _ _ | .bwWrite _ _ _ | .bwZpad _ | .bwWritem _ _ _ _ | .pcHclr _ | .pcBuild _ | .pcSerial _ _
  | .prStart _ | .prLoad _ | .prPred _ | .tkRowc _ | .tkRowe _ | .tkFinc _ | .tkFine _ => none

/-- The commands that write bits, and the writer they name (20_memory.md R60). -/
def writesTo : Instr → Option Chan
  | .bwWrite w _ _ | .bwZpad w | .bwWritem w _ _ _ | .pcSerial _ w | .tkRowe w | .tkFine w => some w
  | .nop | .halt | .liK _ _ _ | .liZ _ _ _ | .addi _ _ | .loop _ _ | .bwInit _ _ _ | .pcHclr _ | .pcBuild _ | .prStart _
  | .prLoad _ | .prPred _ | .tkRowc _ | .tkFinc _ => none

/-! ## Repeated writes -/

/-- The `BW.WRITE` commands that R147 speaks of: for each entry `x0` is given its bits, and `BW.WRITE w, count, x0` is run. -/
def repeatedWrites (w : Chan) : List (Nat × Nat) → State → Host.Outcome State Fault Refusal
  | [], s => .next s
  | e :: l, s =>
    match exec (.bwWrite w (BitVec.ofNat 16 e.1) 0) (s.setReg 0 (BitVec.ofNat 64 e.2)) with
    | .next t => repeatedWrites w l t
    | .fault f => .fault f
    | .refused r => .refused r

/-! ## Code words -/

/-- The lengths given to the used symbols, in index order (R161). -/
def usedLengths : List Sym → List Nat → List Nat
  | [], _ => []
  | y :: ys, lens => if y.freq = 0 then usedLengths ys lens.tail else lens.headD 0 :: usedLengths ys lens.tail

/-- The code word of each raw token, then of each run-length token, as the bits that are written (R35); a symbol with no
code has no bits. -/
def Code.words (t : Code) : List (List Bool) :=
  (List.range 19).map (fun k => natBits (entry t.rawLen k).toNat (entry t.rawBits k).toNat) ++
    (List.range 33).map fun j => natBits (entry t.lzLen j).toNat (entry t.lzBits j).toNat

/-- The code word of symbol `i`, read first bit first (R165): the words of a length begin after those of the shorter lengths,
each counted `2` to the difference of the lengths, and go up by one from index to index. -/
def codeWord (L : List Nat) (i : Nat) : Nat :=
  let q := L.getD i 0
  ((List.range q).map fun p => if p = 0 then 0 else L.count p * 2 ^ (q - p)).sum + (L.take i).count q

/-- `B` are the code bits of the canonical code with the lengths `L` (R165): a symbol of length 0 has bits 0, and bit `k` of
another is digit `k` of its code word. -/
structure IsCanonical (L B : List Nat) : Prop where
  length : B.length = L.length
  unused : ∀ i, L.getD i 0 = 0 → B.getD i 0 = 0
  small : ∀ i, B.getD i 0 < 2 ^ L.getD i 0
  bits : ∀ i k, k < L.getD i 0 → (B.getD i 0).testBit k = (codeWord L i).testBit (L.getD i 0 - 1 - k)

/-- No code word is the beginning of the word of another symbol (R168 (5)); a symbol with no code has no word. -/
def PrefixFree (ws : List (List Bool)) : Prop :=
  ∀ (i j : Nat) (u v : List Bool), ws[i]? = some u → ws[j]? = some v → i ≠ j → u ≠ [] → v ≠ [] → ¬ u <+: v

/-- The decision can be counted and sent: a residual below `2^18`, a run the run-length alphabet carries (R233, R234). -/
def Decision.inAlphabet : Decision → Prop
  | .raw v => v.toNat < 2 ^ 18
  | .run N => 8 ≤ N ∧ N < 2 ^ 21 + 8

/-- Every symbol of the decision has a code (R233, R234). -/
def Decision.coded (t : Code) : Decision → Prop
  | .raw v => entry t.rawLen (rawToken v.toNat).tok ≠ 0
  | .run N => entry t.rawLen 0 ≠ 0 ∧ entry t.lzLen (lzToken (N - 8)).tok ≠ 0

/-- The fault of a decision that is not in the alphabet (R233, R234). -/
def Decision.rangeFault : Decision → FaultName
  | .raw _ => .residualRange
  | .run _ => .runRange

/-- The number of bits a list of writes appends. -/
def bitCount (l : List (Nat × Nat)) : Nat := (l.map Prod.fst).sum

/-- What a reader makes of the items of a serialized code (R170): a length is itself; a first repeat stands for `3 + x` zeros,
and each further one directly after it turns a count `n` into `8 (n - 2) + 3 + x`. `n` is the count of the repeats in
progress, 0 when there is none. -/
def expandItems : Nat → List Item → List Nat
  | n, [] => List.replicate n 0
  | n, .lit v :: l => List.replicate n 0 ++ v :: expandItems 0 l
  | n, .rep x :: l => expandItems (if n = 0 then 3 + x else 8 * (n - 2) + 3 + x) l

/-- The list `S` of R170 for the combined lengths `CL`, of which `last` is the last used index. -/
def itemsToSend (CL : List Nat) (last : Nat) : List Item :=
  (List.range (min last 18 + 1)).map (fun i => .lit (CL.getD i 0)) ++
    if 224 ≤ last then
      [.rep 2, .rep 0, .rep 2] ++ (List.range (last - 223)).map fun j => .lit (CL.getD (224 + j) 0)
    else []

/-- `cnt[v]` of R170: how often length `v` is sent, and for `v = 17` how often a repeat. -/
def timesSent (S : List Item) (v : Nat) : Nat :=
  if v = 17 then S.countP fun | .rep _ => true | .lit _ => false
  else S.count (.lit v)

/-- The order in which the meta lengths are sent (R171). -/
def sentOrder : List Nat := [1, 2, 3, 4, 0, 5, 17, 6, 16, 7, 8, 9, 10, 11, 12, 13, 14, 15]

/-- The code of the 18 length symbols of R170 for the counts `cnt`: the lengths `ML` that are announced, the lengths `EL` that
items are sent with, and how many meta lengths are sent. -/
def MetaCode (cnt : Nat → Nat) (ML EL : List Nat) (num : Nat) : Prop :=
  (∃ v, v < 18 ∧ 0 < cnt v ∧ (∀ u, u < 18 → u ≠ v → cnt u = 0) ∧
    ML = (List.range 18).map (fun u => if u = v then 1 else 0) ∧ EL = List.replicate 18 0 ∧ num = 18) ∨
  ((∃ u v, u < v ∧ v < 18 ∧ 0 < cnt u ∧ 0 < cnt v) ∧
    lengthLimited ((List.range 18).map fun v => { freq := cnt v, lo := 0, hi := 5 }) = .ok ML ∧ EL = ML ∧
    1 ≤ num ∧ num ≤ 18 ∧ ML.getD (sentOrder.getD (num - 1) 0) 0 ≠ 0 ∧
    ∀ i, num ≤ i → i < 18 → ML.getD (sentOrder.getD i 0) 0 = 0)

/-- The writes of R170 and R171: two lead bits 0, the first `num` meta lengths in their order, each in the fixed code, and the
items, each in the code of lengths `EL` and bits `MB`. -/
def sentWrites (S : List Item) (ML EL MB : List Nat) (num : Nat) : List (Nat × Nat) :=
  (2, 0) :: ((sentOrder.take num).map (fun v =>
      [(2, 0), (4, 7), (3, 3), (2, 2), (2, 1), (4, 15)].getD (ML.getD v 0) (0, 0)) ++
    S.flatMap fun
      | .lit v => [(EL.getD v 0, MB.getD v 0)]
      | .rep x => [(EL.getD 17 0, MB.getD 17 0), (3, x)])

/-! ## The table window -/

/-- The table address of an entry (10_state.md R38, its first column). -/
def TableEntry.address : TableEntry → Nat
  | .xLow i => 0x000 + i.val
  | .xHigh i => 0x008 + i.val
  | .minlen k => 0x010 + k.val
  | .maxlen k => 0x030 + k.val
  | .hraw c t => 0x100 + 0x100 * c.val + 0x00 + t.val
  | .hlz c j => 0x100 + 0x100 * c.val + 0x20 + j.val
  | .rawLen c t => 0x100 + 0x100 * c.val + 0x50 + t.val
  | .rawBits c t => 0x100 + 0x100 * c.val + 0x70 + t.val
  | .lzLen c j => 0x100 + 0x100 * c.val + 0x90 + j.val
  | .lzBits c j => 0x100 + 0x100 * c.val + 0xC0 + j.val

/-! ## What no command can tell apart -/

/-- Two states that differ at most in entries of `CUR`, `PREV` and `RES` that hold no row (R42 (4), U3): `CUR` when no row is
loaded, `PREV` until the second row, `RES` from `RESN` on, and every entry past the row's length. -/
structure SameButStale (s t : State) : Prop where
  rest : t = { s with cur := t.cur, prev := t.prev, res := t.res }
  cur : s.nrows ≠ 0 → ∀ (c : Chan) i, i < s.xs.val → Row.at t.cur[c] i = Row.at s.cur[c] i
  prev : s.nrows = 2 → ∀ (c : Chan) i, i < s.xs.val → Row.at t.prev[c] i = Row.at s.prev[c] i
  res : ∀ i, i < s.resn.val → Row.at t.res i = Row.at s.res i

end Sys2Proof.Machine
end

