-- ==== Sys2Proof/Certificates/Slice0/Obligations.lean ====
section
/-! DEFINITION. The statements about the PCG block that are to be proved or refuted. Each cites the rules of spec/ it
formalises; OBLIGATIONS.json says how. `Completes i s t` (Safety) says that the command answers the next state `t` with `pc`
one further and no fault entered; `RaisesOnly i s f` that it enters fault `f` and changes nothing else. -/

section Slice0Statements

open Sys2Proof Sys2Proof.Machine

/-! ## Encoding -/

/-- R96: encode then decode gives the command back, for every command with every operand; decode then encode gives the word
back, for every legal word. -/
def Obligations.DecodeInvertsEncode : Prop :=
  (∀ i : Instr, decode (encode i) = some i) ∧ ∀ (w : Word) (i : Instr), decode w = some i → encode i = w

/-- R94, R95: a word is the command of the row whose `match` it gives under its `mask`, of no other row, and it is illegal
when no row matches. -/
def Obligations.DecodeFollowsTable : Prop :=
  ∀ w : Word,
    (decode w = none ↔ ∀ r ∈ opcodeTable, w &&& r.mask ≠ r.pattern) ∧
    ∀ i, decode w = some i → ∀ r ∈ opcodeTable, (w &&& r.mask = r.pattern ↔ r.mnemonic = i.mnemonic)

/-- R91: the word of a command is `op + ch·2^8 + ra·2^10 + rb·2^13 + imm·2^16`, and the fields stand at their bits. -/
def Obligations.EncodeIsFieldSum : Prop :=
  ∀ i : Instr,
    (encode i).toNat =
      i.fields.op + i.fields.ch * 2 ^ 8 + i.fields.ra * 2 ^ 10 + i.fields.rb * 2 ^ 13 + i.fields.imm * 2 ^ 16 ∧
    (opField (encode i)).toNat = i.fields.op ∧ (chField (encode i)).toNat = i.fields.ch ∧
    (raField (encode i)).toNat = i.fields.ra ∧ (rbField (encode i)).toNat = i.fields.rb ∧
    (immField (encode i)).toNat = i.fields.imm

/-- The worked words of R99, and one word more of the families it does not show, decode to their commands; the word R99 calls
illegal, and the all-ones word of R95, are illegal. -/
def Obligations.WrittenWordsDecode : Prop :=
  decode 0x00052802#32 = some (.liZ 2 0 5) ∧ decode 0x00030811#32 = some (.bwWrite 0 3 2) ∧
  decode 0x00010C04#32 = some (.loop 3 1) ∧ decode 0x00020122#32 = some (.pcSerial 1 2) ∧
  decode 0x01000030#32 = some (.prStart 256) ∧ decode 0xFFFE0003#32 = some (.addi 0 0xFFFE) ∧
  decode 0x00000341#32 = some (.tkRowe 3) ∧ decode 0x00000000#32 = some .nop ∧
  decode 0x00000100#32 = none ∧ decode 0xFFFFFFFF#32 = none

/-! ## The step -/

/-- R120: while the block runs, the word of CMD at `pc` is fetched and decoded, and the step is what that command does. -/
def Obligations.StepRunsDecoded : Prop :=
  ∀ (s : State) (i : Instr), s.seq = .run → s.pc.toNat < s.params.cmdWords.val →
    decode (s.fetchWord s.pc) = some i → step s = exec i s

/-- R120, R95, R262: a fetch past CMD raises `PcRange`, before the word is looked at; an illegal word raises
`IllegalCommand`; neither changes anything else. A step of a block that does not run changes nothing (log 6: the spec says
that no step is taken). -/
def Obligations.StepFaultsOfTheFetch : Prop :=
  ∀ s : State,
    (s.seq = .run → s.params.cmdWords.val ≤ s.pc.toNat → step s = .next (s.raiseFault .pcRange)) ∧
    (s.seq = .run → s.pc.toNat < s.params.cmdWords.val → decode (s.fetchWord s.pc) = none →
      step s = .next (s.raiseFault .illegalCommand)) ∧
    (s.seq ≠ .run → step s = .next s)

/-- R61, R66, R25, R120, R302: when the host has placed the word of a command at `pc` of a stopped block and written `START`,
the next step runs exactly that command. -/
def Obligations.PlacedCommandRuns : Prop :=
  ∀ (s : State) (i : Instr), (s.seq = .idle ∨ s.seq = .halted) → s.pc.toNat < s.params.cmdWords.val →
    ∃ t u, hostAct (.writeCmd s.pc.toNat (encode i)) s = .next t ∧
      hostAct (.writeReg 0 (if s.ie then 5 else 1)) t = .next u ∧
      u = s.withFetchWord 32 (encode i).toNat ∧ step u = exec i u

/-! ## Sequencer commands -/

/-- R121, R122, R263: `NOP` moves `pc` past itself and does nothing else; `HALT` does so and sets `STATE`, keeps all other
state, and the interrupt output then stands at `IE`. -/
def Obligations.NopAndHalt : Prop :=
  encode .nop = 0x00000000#32 ∧ encode .halt = 0x00000001#32 ∧
  ∀ s : State, exec .nop s = .next { s with pc := s.pc + 1 } ∧
    exec .halt s = .next { s with seq := .halted, pc := s.pc + 1 } ∧
    ({ s with seq := .halted, pc := s.pc + 1 } : State).irq = s.ie

/-- R123: `LI.K` puts the immediate into slice `sh` of the register and keeps its other slices; `LI.Z` makes them 0. -/
def Obligations.LoadImmediateSlices : Prop :=
  ∀ (s : State) (d : Reg) (sh : Fin 4) (imm : BitVec 16),
    (encode (.liK d sh imm)).toNat = 0x02 + sh.val * 2 ^ 8 + d.val * 2 ^ 10 + imm.toNat * 2 ^ 16 ∧
    (encode (.liZ d sh imm)).toNat = 0x02 + sh.val * 2 ^ 8 + d.val * 2 ^ 10 + 2 ^ 13 + imm.toNat * 2 ^ 16 ∧
    (∃ v, exec (.liK d sh imm) s = .next { s with x := s.x.set d v, pc := s.pc + 1 } ∧
      ∀ k, slice v k = if k = sh then imm else slice (s.reg d) k) ∧
    (∃ v, exec (.liZ d sh imm) s = .next { s with x := s.x.set d v, pc := s.pc + 1 } ∧
      ∀ k, slice v k = if k = sh then imm else 0)

/-- R124: the sum of the register and the signed immediate, modulo 2^64. -/
def Obligations.AddImmediateWraps : Prop :=
  ∀ (s : State) (d : Reg) (imm : BitVec 16),
    (encode (.addi d imm)).toNat = 0x03 + d.val * 2 ^ 10 + imm.toNat * 2 ^ 16 ∧
    ∃ v : DWord, exec (.addi d imm) s = .next { s with x := s.x.set d v, pc := s.pc + 1 } ∧
      (v.toNat : Int) = ((s.reg d).toNat + imm.toInt) % 2 ^ 64

/-- R125: `LOOP` counts its register down modulo 2^64; when the result is not 0 it branches back by `off`, or raises
`LoopRange` with nothing written when that would pass below 0; when the result is 0 it goes on, whatever `off` is. -/
def Obligations.LoopCases : Prop :=
  ∀ (s : State) (r : Reg) (off : BitVec 16),
    (encode (.loop r off)).toNat = 0x04 + r.val * 2 ^ 10 + off.toNat * 2 ^ 16 ∧
    ∃ v : DWord, v.toNat = ((s.reg r).toNat + (2 ^ 64 - 1)) % 2 ^ 64 ∧
      (v ≠ 0 → s.pc.toNat < off.toNat → RaisesOnly (.loop r off) s .loopRange) ∧
      (v ≠ 0 → off.toNat ≤ s.pc.toNat → ∃ p : Word, p.toNat = s.pc.toNat - off.toNat ∧
        exec (.loop r off) s = .next { s with x := s.x.set r v, pc := p }) ∧
      (v = 0 → exec (.loop r off) s = .next { s with x := s.x.set r v, pc := s.pc + 1 })

/-- R125: a `LOOP` to itself counts its register down to 0 and falls through, in as many steps as the register held. -/
def Obligations.LoopOnItselfCountsDown : Prop :=
  ∀ (s : State) (r : Reg), s.seq = .run → s.pc.toNat < s.params.cmdWords.val →
    decode (s.fetchWord s.pc) = some (.loop r 0) → 1 ≤ (s.reg r).toNat →
    steps (s.reg r).toNat s = .next { s with x := s.x.set r 0, pc := s.pc + 1 }

/-! ## Bit writer -/

/-- R143: `BW.INIT` gives the writer its region and empties it, or raises `MemRange`, and touches nothing else: OUT and the
bits pending in other writers stay. -/
def Obligations.BwInitGivesRegion : Prop :=
  ∀ (s : State) (w : Chan) (a b : Reg),
    let base := (s.reg a).toNat
    let limit := (s.reg b).toNat
    (encode (.bwInit w a b)).toNat = 0x10 + w.val * 2 ^ 8 + a.val * 2 ^ 10 + b.val * 2 ^ 13 ∧
    (2 ^ 32 ≤ base ∨ 2 ^ 32 ≤ limit ∨ s.params.outBytes.val < base + limit → RaisesOnly (.bwInit w a b) s .memRange) ∧
    (base < 2 ^ 32 → limit < 2 ^ 32 → base + limit ≤ s.params.outBytes.val →
      ∃ wr : Writer, exec (.bwInit w a b) s = .next { s with writers := s.writers.set w wr, pc := s.pc + 1 } ∧
        wr.base.toNat = base ∧ wr.limit.toNat = limit ∧ wr.bytes = 0 ∧ wr.acc = 0 ∧ wr.nbits = 0)

/-- R141, R144, R67: `BW.WRITE` appends the `cnt` low bits of the register, least significant first, to the stream of the
writer; a count above 56 raises `BwCount`, and a write that would complete a byte past `LIMIT` raises `BwOverflow`, with
nothing changed. -/
def Obligations.BwWriteAppendsBits : Prop :=
  ∀ (s : State) (w : Chan) (cnt : BitVec 16) (r : Reg),
    let wr := s.writer w
    let k := (wr.nbits.val + cnt.toNat) / 8
    (encode (.bwWrite w cnt r)).toNat = 0x11 + w.val * 2 ^ 8 + r.val * 2 ^ 10 + cnt.toNat * 2 ^ 16 ∧
    (56 < cnt.toNat → RaisesOnly (.bwWrite w cnt r) s .bwCount) ∧
    (cnt.toNat ≤ 56 → wr.limit.toNat < wr.bytes.toNat + k → RaisesOnly (.bwWrite w cnt r) s .bwOverflow) ∧
    (cnt.toNat ≤ 56 → wr.bytes.toNat + k ≤ wr.limit.toNat → wr.Good s.params.outBytes.val →
      ∃ t, Completes (.bwWrite w cnt r) s t ∧ WritesBits w s t ∧ t.run = s.run ∧
        (t.writer w).bytes.toNat = wr.bytes.toNat + k ∧
        (t.writer w).nbits.val = (wr.nbits.val + cnt.toNat) % 8 ∧
        (t.writer w).acc.toNat < 2 ^ (t.writer w).nbits.val ∧
        t.stream w = s.stream w ++ natBits cnt.toNat (s.reg r).toNat)

/-- R142 (1) to (5): the consequences of the write primitive on a writer that R42 allows: the pending bits never pass 63 and
stay below `2^NBITS`; a count of 0 changes nothing; bits above the count are ignored; two writes are one. -/
def Obligations.BwWriteConsequences : Prop :=
  ∀ (s : State) (w : Chan), (s.writer w).Good s.params.outBytes.val →
    (∀ n v, n ≤ 56 → (s.writer w).acc.toNat + v % 2 ^ n * 2 ^ (s.writer w).nbits.val < 2 ^ 63) ∧
    (∀ n v t, bwWrite w n v s = .go t → (t.writer w).Good t.params.outBytes.val) ∧
    (∀ v, bwWrite w 0 v s = .go s) ∧
    (∀ n u v, u % 2 ^ n = v % 2 ^ n → bwWrite w n u s = bwWrite w n v s) ∧
    (∀ a b u v s₁ t, a + b ≤ 56 → bwWrite w a u s = .go s₁ → bwWrite w b v s₁ = .go t →
      bwWrite w (a + b) (u % 2 ^ a + v % 2 ^ b * 2 ^ a) s = .go t)

/-- R145: `BW.ZPAD` fills the pending byte with zero bits; on a byte boundary it does nothing; it raises `BwOverflow` when a
byte is pending and the region is full. -/
def Obligations.ZeroPadAligns : Prop :=
  ∀ (s : State) (w : Chan),
    let wr := s.writer w
    (encode (.bwZpad w)).toNat = 0x12 + w.val * 2 ^ 8 ∧
    (wr.nbits = 0 → exec (.bwZpad w) s = .next { s with pc := s.pc + 1 }) ∧
    (wr.nbits ≠ 0 → wr.bytes = wr.limit → RaisesOnly (.bwZpad w) s .bwOverflow) ∧
    (wr.nbits ≠ 0 → wr.bytes ≠ wr.limit → wr.Good s.params.outBytes.val →
      ∃ t, Completes (.bwZpad w) s t ∧ WritesBits w s t ∧ t.run = s.run ∧
        (t.writer w).bytes.toNat = wr.bytes.toNat + 1 ∧ (t.writer w).nbits = 0 ∧ (t.writer w).acc = 0 ∧
        t.stream w = s.stream w ++ List.replicate (8 - wr.nbits.val) false)

/-- R146, R68, R266: `BW.WRITEM` writes its entries in order; it raises `MemRange` before anything is written when an array
leaves IN; an entry with a count above 56 raises `BwCount`, and an entry for which the region has no room `BwOverflow`, with
the entries before it written. -/
def Obligations.BwWritemWritesEntries : Prop :=
  ∀ (s : State) (w : Chan) (n : BitVec 16) (a b : Reg),
    let A := (s.reg a).toNat
    let B := (s.reg b).toNat
    let es := s.writemEntries A B n.toNat
    let inRange := A < 2 ^ 32 ∧ B < 2 ^ 32 ∧ A + n.toNat ≤ s.params.inBytes.val ∧ B + 8 * n.toNat ≤ s.params.inBytes.val
    (encode (.bwWritem w n a b)).toNat =
      0x13 + w.val * 2 ^ 8 + a.val * 2 ^ 10 + b.val * 2 ^ 13 + n.toNat * 2 ^ 16 ∧
    (¬ inRange → RaisesOnly (.bwWritem w n a b) s .memRange) ∧
    (inRange → (s.writer w).Good s.params.outBytes.val → (∀ e ∈ es, e.1 ≤ 56) → bitCount es ≤ s.room w →
      ∃ t, Completes (.bwWritem w n a b) s t ∧ WritesBits w s t ∧ t.run = s.run ∧
        t.stream w = s.stream w ++ writesBits es) ∧
    (inRange → (s.writer w).Good s.params.outBytes.val → ∀ pre e post, es = pre ++ e :: post → (∀ d ∈ pre, d.1 ≤ 56) →
      bitCount pre ≤ s.room w → (56 < e.1 ∨ s.room w < bitCount pre + e.1) →
      ∃ u, exec (.bwWritem w n a b) s = .next (u.raiseFault (if 56 < e.1 then .bwCount else .bwOverflow)) ∧
        WritesBits w s u ∧ SameStatus s u ∧ u.pc = s.pc ∧ u.run = s.run ∧ u.stream w = s.stream w ++ writesBits pre)

/-- R147: a `BW.WRITEM` that does not fault leaves OUT and the writer as the same `BW.WRITE` commands would, one by one. -/
def Obligations.WritemEqualsRepeatedWrites : Prop :=
  ∀ (s t : State) (w : Chan) (n : BitVec 16) (a b : Reg), s.seq ≠ .fault → exec (.bwWritem w n a b) s = .next t →
    t.seq ≠ .fault →
    ∃ u, repeatedWrites w (s.writemEntries (s.reg a).toNat (s.reg b).toNat n.toNat) s = .next u ∧ u.seq ≠ .fault ∧
      u.out = t.out ∧ u.writer w = t.writer w

/-! ## Prefix code -/

/-- R167: `PC.HCLR` makes the 52 counters of the channel 0 and leaves everything else alone, `RUN[c]` and the code tables of
the channel among it. -/
def Obligations.HistogramsClear : Prop :=
  ∀ (s : State) (c : Chan),
    (encode (.pcHclr c)).toNat = 0x20 + c.val * 2 ^ 8 ∧
    ∃ h : Hist, exec (.pcHclr c) s = .next { s with hists := s.hists.set c h, pc := s.pc + 1 } ∧
      (∀ t : Fin 19, h.raw[t] = 0) ∧ ∀ j : Fin 33, h.lz[j] = 0

/-- R161, its result stated without the table: the lengths are within the bounds, fill the budget exactly, cost the least
among all such lengths, and among those of least cost are lexicographically least from the last symbol back; unused symbols
have length 0. -/
def Obligations.LengthLimitedIsOptimal : Prop :=
  ∀ (ys : List Sym) (lens : List Nat), lengthLimited ys = .ok lens →
    let used := usedSyms ys
    let mine := usedLengths ys lens
    lens.length = ys.length ∧ (∀ (i : Nat) (y : Sym), ys[i]? = some y → y.freq = 0 → lens[i]? = some 0) ∧
    WithinBounds used mine ∧ (used ≠ [] → spent mine = budget) ∧
    ∀ other, WithinBounds used other → spent other = budget →
      totalCost used mine < totalCost used other ∨
      (totalCost used mine = totalCost used other ∧ (mine = other ∨ List.Lex (· < ·) mine.reverse other.reverse))

/-- R161: the construction raises `BuildBounds` exactly when a used symbol has no length within its bounds, else
`BuildInfeasible` exactly when no lengths fill the budget, and answers in every other case. -/
def Obligations.LengthLimitedAnswers : Prop :=
  ∀ ys : List Sym,
    let used := usedSyms ys
    (lengthLimited ys = .error .buildBounds ↔ ∃ y ∈ used, y.hi < max 1 y.lo) ∧
    (lengthLimited ys = .error .buildInfeasible ↔ (∀ y ∈ used, max 1 y.lo ≤ y.hi) ∧ used ≠ [] ∧ ¬ Feasible used) ∧
    ((∀ y ∈ used, max 1 y.lo ≤ y.hi) → used = [] ∨ Feasible used → ∃ lens, lengthLimited ys = .ok lens)

/-- R166, R162 to R165: `PC.BUILD` writes the code tables of its channel and nothing else. With no counted symbol every entry
is 0. Otherwise, when the first level has a complete code within its bounds, the construction gives the lengths `L1`; and when
at most one run-length symbol is counted, or no more than fit into the bits that the escape of length `L1[19]` leaves of 15,
`PC.BUILD` completes: a raw token has its length of `L1`, a run-length symbol the escape's length and its own of the second
level, and the bits are those of the canonical code over the combined lengths. -/
def Obligations.PcBuildMakesCode : Prop :=
  ∀ (s : State) (c : Chan),
    let h := s.hist c
    let first := s.firstLevel c
    let m := (h.lz.toList.filter (· ≠ 0)).length
    (encode (.pcBuild c)).toNat = 0x21 + c.val * 2 ^ 8 ∧
    (first.length = 20 ∧
      (∀ k, k < 19 → first[k]? = some ⟨(entry h.raw k).toNat, (entry s.minlen k).toNat, (entry s.maxlen k).toNat⟩) ∧
      first[19]? = some ⟨(h.lz.toList.map BitVec.toNat).sum, (entry s.minlen 19).toNat, (entry s.maxlen 19).toNat⟩) ∧
    (usedSyms first = [] → exec (.pcBuild c) s = .next { s with codes := s.codes.set c Code.zero, pc := s.pc + 1 }) ∧
    (Feasible (usedSyms first) → ∃ L1, lengthLimited first = .ok L1) ∧
    ∀ L1, lengthLimited first = .ok L1 → m ≤ 1 ∨ m ≤ 2 ^ (15 - L1.getD 19 0) →
      ∃ LZ CB t,
        LZ.length = 33 ∧ (m ≤ 1 → ∀ j, j < 33 → LZ.getD j 0 = if entry h.lz j = 0 then 0 else L1.getD 19 0) ∧
        (2 ≤ m → ∃ L2, lengthLimited (h.lz.toList.map fun f => ⟨f.toNat, 0, 15 - L1.getD 19 0⟩) = .ok L2 ∧
          ∀ j, j < 33 → LZ.getD j 0 = if L2.getD j 0 = 0 then 0 else L1.getD 19 0 + L2.getD j 0) ∧
        IsCanonical (L1.take 19 ++ (List.replicate 205 0 ++ LZ)) CB ∧
        exec (.pcBuild c) s = .next { s with codes := s.codes.set c t, pc := s.pc + 1 } ∧
        (∀ k, k < 19 → (entry t.rawLen k).toNat = L1.getD k 0 ∧ (entry t.rawBits k).toNat = CB.getD k 0) ∧
        ∀ j, j < 33 → (entry t.lzLen j).toNat = LZ.getD j 0 ∧ (entry t.lzBits j).toNat = CB.getD (224 + j) 0

/-- R166, R161, R163, R266: when `PC.BUILD` raises, with nothing changed: a counted first-level symbol without a length in its
bounds, or two or more run-length symbols under an escape of length 15, raise `BuildBounds`; a first level or a run-length
alphabet that cannot fill its budget, one counted first-level symbol alone among them, raises `BuildInfeasible`. -/
def Obligations.PcBuildFaults : Prop :=
  ∀ (s : State) (c : Chan),
    let used := usedSyms (s.firstLevel c)
    let m := ((s.hist c).lz.toList.filter (· ≠ 0)).length
    ((∃ y ∈ used, y.hi < max 1 y.lo) → RaisesOnly (.pcBuild c) s .buildBounds) ∧
    ((∀ y ∈ used, max 1 y.lo ≤ y.hi) → used ≠ [] → ¬ Feasible used → RaisesOnly (.pcBuild c) s .buildInfeasible) ∧
    ((∀ y ∈ used, max 1 y.lo ≤ y.hi) → used.length = 1 → RaisesOnly (.pcBuild c) s .buildInfeasible) ∧
    (∀ L1, lengthLimited (s.firstLevel c) = .ok L1 → 2 ≤ m →
      (L1.getD 19 0 = 15 → RaisesOnly (.pcBuild c) s .buildBounds) ∧
      (L1.getD 19 0 < 15 → 2 ^ (15 - L1.getD 19 0) < m → RaisesOnly (.pcBuild c) s .buildInfeasible))

/-- R168 (3), (4): a code that `PC.BUILD` wrote from a histogram with a counted symbol is complete in the combined space;
exactly the counted symbols have a code, at most 15 bits long, a raw token's within its bounds. The last clause of R168 (4),
that the run-length codes begin with the same bits, is not stated: R165 and the vectors contradict it (log 22). -/
def Obligations.BuiltCodeIsComplete : Prop :=
  ∀ (s t : State) (c : Chan), s.seq ≠ .fault → exec (.pcBuild c) s = .next t → t.seq ≠ .fault →
    (usedSyms (s.firstLevel c) ≠ [] → kraft (t.code c).combined = budget) ∧
    (∀ k, k < 19 → (entry (s.hist c).raw k = 0 → entry (t.code c).rawLen k = 0) ∧
      (entry (s.hist c).raw k ≠ 0 → entry (t.code c).rawLen k ≠ 0 ∧
        entry s.minlen k ≤ entry (t.code c).rawLen k ∧ entry (t.code c).rawLen k ≤ entry s.maxlen k)) ∧
    ∀ j, j < 33 → (entry (s.hist c).lz j = 0 ↔ entry (t.code c).lzLen j = 0)

/-- R165, R168 (5): the code words that `PC.BUILD` wrote, in the order their bits are sent, are prefix-free over both
alphabets. -/
def Obligations.BuiltCodeIsPrefixFree : Prop :=
  ∀ (s t : State) (c : Chan), s.seq ≠ .fault → exec (.pcBuild c) s = .next t → t.seq ≠ .fault →
    PrefixFree (t.code c).words

/-- R170, R171, R149, R266: `PC.SERIAL` of a channel with no code raises `BuildInfeasible` before anything is written. Of a
channel with a code, of which `last` is the last combined index, it sends two bits 0, the announced meta lengths in the fixed
order and code, and the items in the canonical code of those lengths, at most 358 bits; with room for them it completes and
changes nothing but the writer and its bytes; where a write finds no room it raises `BwOverflow`, with the writes before it
done. -/
def Obligations.PcSerialAppends : Prop :=
  ∀ (s : State) (c w : Chan),
    let CL := (s.code c).combined
    ((∀ L ∈ CL, L = 0) → RaisesOnly (.pcSerial c w) s .buildInfeasible) ∧
    ∀ last, CL.getD last 0 ≠ 0 → (∀ i, last < i → CL.getD i 0 = 0) →
      ∃ ML EL MB num, MetaCode (timesSent (itemsToSend CL last)) ML EL num ∧ IsCanonical ML MB ∧
        let l := sentWrites (itemsToSend CL last) ML EL MB num
        bitCount l ≤ 358 ∧
        ((s.writer w).Good s.params.outBytes.val → bitCount l ≤ s.room w →
          ∃ t, Completes (.pcSerial c w) s t ∧ WritesBits w s t ∧ t.run = s.run ∧ t.stream w = s.stream w ++ writesBits l) ∧
        ((s.writer w).Good s.params.outBytes.val → ∀ pre e post, l = pre ++ e :: post →
          bitCount pre ≤ s.room w → s.room w < bitCount pre + e.1 →
          ∃ u, WroteOnly w pre s u ∧ u.run = s.run ∧ exec (.pcSerial c w) s = .next (u.raiseFault .bwOverflow))

/-- R170, its reading of the parts: the items of a serialized code expand to the combined lengths up to the last used symbol,
the 205 reserved zeros included. -/
def Obligations.SerialItemsExpand : Prop :=
  ∀ (raw lz : List Nat) (last : Nat), raw.length = 19 → lz.length = 33 → lastUsed (combine raw lz) = some last →
    expandItems 0 (serialItems (combine raw lz) last) = (combine raw lz).take (last + 1) ∧
    ∀ i, last < i → (combine raw lz).getD i 0 = 0

/-! ## Predictor -/

/-- R201: `PR.START` takes the row length and forgets the rows and residuals, or raises `CfgInvalid`. -/
def Obligations.PrStartBeginsGroup : Prop :=
  ∀ (s : State) (len : BitVec 16),
    (encode (.prStart len)).toNat = 0x30 + len.toNat * 2 ^ 16 ∧
    (len.toNat = 0 ∨ 256 < len.toNat → RaisesOnly (.prStart len) s .cfgInvalid) ∧
    (1 ≤ len.toNat → len.toNat ≤ 256 → ∃ n : Fin 257, n.val = len.toNat ∧
      exec (.prStart len) s = .next { s with xs := n, nrows := 0, resn := 0, pc := s.pc + 1 })

/-- R204, R203, R74: `PR.LOAD` moves the current row to the previous one, takes the next row from IN, with the colour
transform when there are three channels or more and 0 in the channels that the image has not, and counts it; `CfgInvalid`
comes before `MemRange`, and both before any change. -/
def Obligations.PrLoadTakesRow : Prop :=
  ∀ (s : State) (a : Reg),
    let A := (s.reg a).toNat
    let NC := s.cfg.nc.toNat
    let BPS := s.cfg.bps.toNat
    let B := if BPS ≤ 8 then 1 else if BPS ≤ 16 then 2 else 4
    let bad := NC = 0 ∨ 4 < NC ∨ BPS = 0 ∨ 32 < BPS ∨ s.xs = 0
    let outside := 2 ^ 32 ≤ A ∨ s.params.inBytes.val < A + s.xs.val * NC * B
    (encode (.prLoad a)).toNat = 0x31 + a.val * 2 ^ 10 ∧
    (bad → RaisesOnly (.prLoad a) s .cfgInvalid) ∧
    (¬ bad → outside → RaisesOnly (.prLoad a) s .memRange) ∧
    (¬ bad → ¬ outside →
      ∃ t, Completes (.prLoad a) s t ∧
        t = { s with pc := s.pc + 1, cur := t.cur, prev := t.prev, nrows := t.nrows } ∧
        t.nrows.val = min (s.nrows.val + 1) 2 ∧
        (∀ (c : Chan) p, p < s.xs.val → Row.at t.prev[c] p = Row.at s.cur[c] p) ∧
        (∀ (c : Chan) p, s.xs.val ≤ p → Row.at t.prev[c] p = Row.at s.prev[c] p ∧ Row.at t.cur[c] p = Row.at s.cur[c] p) ∧
        ∀ p, p < s.xs.val →
          (NC < 3 → ∀ c : Chan, Row.at t.cur[c] p = if c.val < NC then s.sample A p c.val else 0) ∧
          (3 ≤ NC →
            let co := s.sample A p 0 - s.sample A p 2
            let tmp := s.sample A p 2 + co.sshiftRight 1
            let cg := s.sample A p 1 - tmp
            Row.at t.cur[0] p = tmp + cg.sshiftRight 1 ∧ Row.at t.cur[1] p = co ∧ Row.at t.cur[2] p = cg ∧
              Row.at t.cur[3] p = if NC = 4 then s.sample A p 3 else 0))

/-- R65, R74, R202: a sample is the unsigned value of its 1, 2 or 4 bytes of IN, least significant first or, with `CFG.BE`,
most significant first; nothing is masked to `BPS` bits. -/
def Obligations.SampleByteOrder : Prop :=
  ∀ (s : State) (A p c : Nat),
    let B := if s.cfg.bps.toNat ≤ 8 then 1 else if s.cfg.bps.toNat ≤ 16 then 2 else 4
    let a := A + (p * s.cfg.nc.toNat + c) * B
    (s.sample A p c).toNat =
      ((List.range B).map fun i =>
        (s.inByte (a + i)).toNat * 2 ^ (8 * (if s.cfg.be then B - 1 - i else i))).sum

/-- R203, its inverse: the samples come back from the transformed pixel. -/
def Obligations.ColourTransformInverts : Prop :=
  ∀ r g b : Word,
    let y := (colour r g b).1
    let co := (colour r g b).2.1
    let cg := (colour r g b).2.2
    let tmp := y - cg.sshiftRight 1
    cg + tmp = g ∧ tmp - co.sshiftRight 1 = b ∧ co + (tmp - co.sshiftRight 1) = r

/-- R207: `pack_signed` is `2v` for `v ≥ 0` and `-2v - 1` for `v < 0`, and `unpack` is its inverse on both sides. -/
def Obligations.PackSignedZigzag : Prop :=
  ∀ v : Word,
    (0 ≤ v.toInt → ((packSigned v).toNat : Int) = 2 * v.toInt) ∧
    (v.toInt < 0 → ((packSigned v).toNat : Int) = -2 * v.toInt - 1) ∧
    unpackSigned (packSigned v) = v ∧ packSigned (unpackSigned v) = v

/-- R206, its reading without wrap-around: for neighbours below 2^29 in magnitude the prediction is `grad` when `topleft` lies
between `left` and `top`, and otherwise the one of `left` and `top` that `grad` would overshoot towards: the median of `left`,
`top` and `grad`. -/
def Obligations.PredictorIsMedian : Prop :=
  ∀ left top topleft : Word,
    (∀ v ∈ [left, top, topleft], -2 ^ 29 < v.toInt ∧ v.toInt < 2 ^ 29) →
    let grad := left.toInt + top.toInt - topleft.toInt
    let low := min left.toInt top.toInt
    let high := max left.toInt top.toInt
    (predict left top topleft).toInt = max low (min high grad)

/-- R208, R205 to R207: `PR.PRED` writes the packed residual of every pixel of the row, each against the prediction from the
neighbours of R205's table, and changes nothing else but their count; `ChRange` comes before `NoRow`. -/
def Obligations.PrPredWritesResiduals : Prop :=
  ∀ (s : State) (c : Chan),
    let cur := Row.at s.cur[c]
    let prev := Row.at s.prev[c]
    (s.cfg.nc.toNat ≤ c.val → RaisesOnly (.prPred c) s .chRange) ∧
    (c.val < s.cfg.nc.toNat → s.nrows = 0 → RaisesOnly (.prPred c) s .noRow) ∧
    (c.val < s.cfg.nc.toNat → s.nrows ≠ 0 →
      ∃ t, Completes (.prPred c) s t ∧ t = { s with pc := s.pc + 1, res := t.res, resn := s.xs } ∧
        (∀ x, s.xs.val ≤ x → Row.at t.res x = Row.at s.res x) ∧
        (s.nrows = 1 → ∀ x, x < s.xs.val →
          Row.at t.res x =
            packSigned (cur x - if x = 0 then predict 0 0 0 else predict (cur (x - 1)) (cur (x - 1)) (cur (x - 1)))) ∧
        (s.nrows = 2 → ∀ x, x < s.xs.val →
          Row.at t.res x =
            packSigned (cur x - if x = 0 then predict (prev 0) (prev 0) (prev 0)
              else predict (cur (x - 1)) (prev x) (prev (x - 1)))))

/-- R210: the residuals determine the row: two states with the same previous row, the same count of rows and the same row
length, in which `PR.PRED` leaves the same residuals, hold the same current row. -/
def Obligations.PredictorIsLossless : Prop :=
  ∀ (s₁ s₂ t₁ t₂ : State) (c : Chan), s₁.seq ≠ .fault → s₂.seq ≠ .fault →
    s₁.nrows = s₂.nrows → s₁.xs = s₂.xs → s₁.prev[c] = s₂.prev[c] →
    exec (.prPred c) s₁ = .next t₁ → exec (.prPred c) s₂ = .next t₂ → t₁.seq ≠ .fault → t₂.seq ≠ .fault →
    (∀ x, x < s₁.xs.val → Row.at t₁.res x = Row.at t₂.res x) →
    ∀ x, x < s₁.xs.val → Row.at s₁.cur[c] x = Row.at s₂.cur[c] x

/-- R211, R209: samples below `2^n`, `n ≤ 29`, give `y` in `[0, 2^n)` and `co`, `cg` in `(-2^n, 2^n)`; a row within
`(-2^n, 2^n)`, and from the second row on the previous row within it too, gives residuals below `2^(n+2)`. -/
def Obligations.ResidualsAreBounded : Prop :=
  ∀ n, n ≤ 29 →
    (∀ r g b : Word, r.toNat < 2 ^ n → g.toNat < 2 ^ n → b.toNat < 2 ^ n →
      (colour r g b).1.toNat < 2 ^ n ∧
      (-2 ^ n < (colour r g b).2.1.toInt ∧ (colour r g b).2.1.toInt < 2 ^ n) ∧
      (-2 ^ n < (colour r g b).2.2.toInt ∧ (colour r g b).2.2.toInt < 2 ^ n)) ∧
    ∀ (s t : State) (c : Chan), s.seq ≠ .fault → exec (.prPred c) s = .next t → t.seq ≠ .fault →
      (∀ x, x < s.xs.val → -2 ^ n < (Row.at s.cur[c] x).toInt ∧ (Row.at s.cur[c] x).toInt < 2 ^ n) →
      (s.nrows = 2 → ∀ x, x < s.xs.val → -2 ^ n < (Row.at s.prev[c] x).toInt ∧ (Row.at s.prev[c] x).toInt < 2 ^ n) →
      ∀ x, x < s.xs.val → (Row.at t.res x).toNat < 2 ^ (n + 2)

/-- U3, R36, R37, R42 (4): entries of the line buffers and of `RES` that hold no row are never seen: two states that differ
in such entries only step to states that differ in such entries only, and the host sees the same in both. -/
def Obligations.StaleEntriesAreNeverSeen : Prop :=
  ∀ s₁ s₂ : State, SameButStale s₁ s₂ →
    (∀ t₁, step s₁ = .next t₁ → ∃ t₂, step s₂ = .next t₂ ∧ SameButStale t₁ t₂) ∧
    ∀ m, hostSees m s₁ = hostSees m s₂ ∧
      ∀ t₁, hostAct m s₁ = .next t₁ → ∃ t₂, hostAct m s₂ = .next t₂ ∧ SameButStale t₁ t₂

/-! ## Tokenizer -/

/-- R231, R232: a token, its number of extra bits and their value determine the residual or the run value; the 19 raw tokens
carry exactly the residuals below `2^18`, the 33 run-length tokens exactly the run values below `2^21`. -/
def Obligations.TokensDetermineValues : Prop :=
  (rawToken 0 = ⟨0, 0, 0⟩ ∧
    ∀ v, 0 < v → (rawToken v).tok = (rawToken v).nbits + 1 ∧ (rawToken v).extra < 2 ^ (rawToken v).nbits ∧
      v = 2 ^ (rawToken v).nbits + (rawToken v).extra) ∧
  (∀ v, (rawToken v).tok ≤ 18 ↔ v < 2 ^ 18) ∧
  (∀ u, u < 16 → lzToken u = ⟨u, 0, 0⟩) ∧
  (∀ u, 16 ≤ u → (lzToken u).tok = (lzToken u).nbits + 12 ∧ (lzToken u).extra < 2 ^ (lzToken u).nbits ∧
    u = 2 ^ (lzToken u).nbits + (lzToken u).extra) ∧
  ∀ u, (lzToken u).tok ≤ 32 ↔ u < 2 ^ 21

/-- R242: whatever the code, a residual of the alphabet is sent as at most 32 bits and a run as at most 50, and no single
count passes 20. -/
def Obligations.TokenWritesAreSmall : Prop :=
  ∀ (t : Code) (d : Decision), d.inAlphabet →
    (∀ p ∈ d.writes t, p.1 ≤ 20) ∧ bitCount (d.writes t) ≤ match d with | .raw _ => 32 | .run _ => 50

/-- R237, R233 to R236: when every decision of R235 is in the alphabet, the zeros left pending fit 32 bits and the counters do
not overflow, `TK.ROWC` completes; each counter grows by how often the decisions count its token, `RUN[c]` becomes the zeros
left pending, and nothing else changes. -/
def Obligations.TkRowcCounts : Prop :=
  ∀ (s : State) (c : Chan), runGood (s.runOf c) → (∀ d ∈ (s.decisions c).1, d.inAlphabet) → (s.decisions c).2 < 2 ^ 32 →
    (s.hist c).Fits (s.decisions c).1 →
    ∃ t, Completes (.tkRowc c) s t ∧ t = { s with pc := s.pc + 1, hists := t.hists, run := t.run } ∧
      RunStands c (s.decisions c).2 s t ∧ (∀ d, d ≠ c → t.hist d = s.hist d) ∧
      (∀ k, k < 19 → (entry (t.hist c).raw k).toNat =
        (entry (s.hist c).raw k).toNat + ((s.decisions c).1.map (Decision.countsRaw k)).sum) ∧
      ∀ j, j < 33 → (entry (t.hist c).lz j).toNat =
        (entry (s.hist c).lz j).toNat + ((s.decisions c).1.map (Decision.countsLz j)).sum

/-- R238, R233 to R236: when every decision of R235 is in the alphabet and has its codes, the zeros left pending fit 32 bits and
the writer has room, `TK.ROWE` completes; it appends code and extra bits of each decision in order, `RUN[c]` becomes the zeros
left pending, and nothing else changes: not the histograms, not the code tables. -/
def Obligations.TkRoweWritesTokens : Prop :=
  ∀ (s : State) (c : Chan), runGood (s.runOf c) →
    (∀ d ∈ (s.decisions c).1, d.inAlphabet ∧ d.coded (s.code c)) → (s.decisions c).2 < 2 ^ 32 →
    let writes := (s.decisions c).1.flatMap (Decision.writes (s.code c))
    (s.writer c).Good s.params.outBytes.val → bitCount writes ≤ s.room c →
    ∃ t, Completes (.tkRowe c) s t ∧ WritesBits c s t ∧ RunStands c (s.decisions c).2 s t ∧
      t.stream c = s.stream c ++ writesBits writes

/-- R238, R233 to R236, R266: where the emitting pass faults. Of the residual row, whole chunks of 16 are `done`, with all their
tokens sent, and the chunk that comes next faults: it would take the pending run to `2^32` or more (`RunRange`), or it meets,
after the decisions `pre`, a residual of `2^18` or more (`ResidualRange`), a run of `2^21 + 8` or more (`RunRange`), a token
without a code (`UncodedSymbol`), or a write for which there is no room (`BwOverflow`). What was sent before stays sent, and
`RUN[c]` stands as it stood at the start of the chunk. -/
def Obligations.TkRoweFaultsPartWay : Prop :=
  ∀ (s : State) (c : Chan) (done : List (List Word)) (rest : List Word), runGood (s.runOf c) →
    (s.writer c).Good s.params.outBytes.val →
    (∀ q ∈ done, q.length = 16) → rest ≠ [] → s.residuals = done.flatten ++ rest →
    let before := rowDecisions (s.runOf c).toNat done
    let here := chunkDecisions before.2 (rest.take 16)
    let sent := List.flatMap (Decision.writes (s.code c))
    let raisesAfter := fun l f => ∃ u, WroteOnly c l s u ∧ RunStands c before.2 s u ∧ exec (.tkRowe c) s = .next (u.raiseFault f)
    before.2 < 2 ^ 32 → (∀ e ∈ before.1, e.inAlphabet ∧ e.coded (s.code c)) →
    (bitCount (sent before.1) ≤ s.room c → here.1 = [] → 2 ^ 32 ≤ here.2 → raisesAfter (sent before.1) .runRange) ∧
    ∀ pre d post, here.1 = pre ++ d :: post → (∀ e ∈ pre, e.inAlphabet ∧ e.coded (s.code c)) →
      let l := sent (before.1 ++ pre)
      (bitCount l ≤ s.room c → ¬ d.inAlphabet → raisesAfter l d.rangeFault) ∧
      (bitCount l ≤ s.room c → d.inAlphabet → ¬ d.coded (s.code c) → raisesAfter l .uncodedSymbol) ∧
      (d.inAlphabet → d.coded (s.code c) → ∀ pre' e post', d.writes (s.code c) = pre' ++ e :: post' →
        bitCount (l ++ pre') ≤ s.room c → s.room c < bitCount (l ++ pre') + e.1 → raisesAfter (l ++ pre') .bwOverflow)

/-- R237, R233 to R236, R266: where the counting pass faults. Of the residual row, whole chunks of 16 are `done`, with all their
tokens counted, and the chunk that comes next faults: it would take the pending run to `2^32` or more (`RunRange`), or it
meets, after the decisions `pre`, a residual of `2^18` or more (`ResidualRange`), a run of `2^21 + 8` or more (`RunRange`), or
a counter at `2^32 - 1` that is to be incremented (`HistOverflow`). What was counted before stays counted, and `RUN[c]` stands
as it stood at the start of the chunk. -/
def Obligations.TkRowcFaultsPartWay : Prop :=
  ∀ (s : State) (c : Chan) (done : List (List Word)) (rest : List Word), runGood (s.runOf c) →
    (∀ q ∈ done, q.length = 16) → rest ≠ [] → s.residuals = done.flatten ++ rest →
    let before := rowDecisions (s.runOf c).toNat done
    let here := chunkDecisions before.2 (rest.take 16)
    let raisesAfter := fun ds f => ∃ u, CountedOnly c ds s u ∧ RunStands c before.2 s u ∧ exec (.tkRowc c) s = .next (u.raiseFault f)
    before.2 < 2 ^ 32 → (∀ e ∈ before.1, e.inAlphabet) →
    ((s.hist c).Fits before.1 → here.1 = [] → 2 ^ 32 ≤ here.2 → raisesAfter before.1 .runRange) ∧
    ∀ pre d post, here.1 = pre ++ d :: post → (∀ e ∈ pre, e.inAlphabet) → (s.hist c).Fits (before.1 ++ pre) →
      (¬ d.inAlphabet → raisesAfter (before.1 ++ pre) d.rangeFault) ∧
      (d.inAlphabet → ¬ (s.hist c).Fits (before.1 ++ pre ++ [d]) → raisesAfter (before.1 ++ pre) .histOverflow)

/-- R243, R13: losslessness of the tokenizer. The decisions stand for exactly the residuals: the zeros pending before the row
and then the row are what the decisions stand for and then the zeros pending after it. And with a prefix-free code that has
all their tokens, two lists of decisions that are sent as the same bits are the same. -/
def Obligations.TokensAreLossless : Prop :=
  (∀ (s : State) (c : Chan), runGood (s.runOf c) →
    List.replicate (s.runOf c).toNat 0 ++ s.residuals =
      (s.decisions c).1.flatMap Decision.expand ++ List.replicate (s.decisions c).2 0) ∧
  ∀ (t : Code) (ds es : List Decision), PrefixFree t.words → (∀ d ∈ ds, d.inAlphabet ∧ d.coded t) →
    (∀ d ∈ es, d.inAlphabet ∧ d.coded t) →
    writesBits (ds.flatMap (Decision.writes t)) = writesBits (es.flatMap (Decision.writes t)) → ds = es

/-- R244, R235: a row of eight zero residuals or more, or of any number when a run is pending, sends and counts nothing and
only lengthens the run; without a pending run a row of seven zeros or fewer is all raw tokens 0. -/
def Obligations.AllZeroRowOnlyExtendsRun : Prop :=
  ∀ (s : State) (c : Chan), (∀ v ∈ s.residuals, v = 0) →
    (8 ≤ s.resn.val ∨ (s.runOf c ≠ 0 ∧ 1 ≤ s.resn.val) → (s.runOf c).toNat + s.resn.val < 2 ^ 32 →
      ∀ i, i = .tkRowc c ∨ i = .tkRowe c →
        exec i s = .next { s with run := s.run.set c (s.runOf c + BitVec.ofNat 32 s.resn.val), pc := s.pc + 1 }) ∧
    (s.resn.val ≤ 7 → s.runOf c = 0 → s.decisions c = (List.replicate s.resn.val (.raw 0), 0))

/-- R239, R234: `TK.FINC` counts a pending run as one raw token 0 and one run-length token and clears it; it raises `RunRange`
for a run of `2^21 + 8` or more, then `HistOverflow`, with nothing changed; without a pending run it does nothing. -/
def Obligations.FinalizeCounts : Prop :=
  ∀ (s : State) (c : Chan),
    let N := (s.runOf c).toNat
    let j := (lzToken (N - 8)).tok
    let raw := entry (s.hist c).raw 0
    let lz := entry (s.hist c).lz j
    (encode (.tkFinc c)).toNat = 0x42 + c.val * 2 ^ 8 ∧
    (s.runOf c = 0 → exec (.tkFinc c) s = .next { s with pc := s.pc + 1 }) ∧
    (2 ^ 21 + 8 ≤ N → RaisesOnly (.tkFinc c) s .runRange) ∧
    (8 ≤ N → N < 2 ^ 21 + 8 → raw.toNat = 2 ^ 32 - 1 ∨ lz.toNat = 2 ^ 32 - 1 → RaisesOnly (.tkFinc c) s .histOverflow) ∧
    (8 ≤ N → N < 2 ^ 21 + 8 → raw.toNat < 2 ^ 32 - 1 → lz.toNat < 2 ^ 32 - 1 →
      ∃ h : Hist,
        exec (.tkFinc c) s = .next { s with hists := s.hists.set c h, run := s.run.set c 0, pc := s.pc + 1 } ∧
        (∀ k, k < 19 → entry h.raw k = entry (s.hist c).raw k + if k = 0 then 1 else 0) ∧
        ∀ i, i < 33 → entry h.lz i = entry (s.hist c).lz i + if i = j then 1 else 0)

/-- R240, R234, R266: `TK.FINE` sends a pending run as raw token 0, its run-length token and the extra bits, and clears it; it
raises `RunRange`, then `UncodedSymbol`, with nothing changed; where one of the three writes finds no room it raises
`BwOverflow`, with the writes before it done and the run unchanged; without a pending run it does nothing. -/
def Obligations.FinalizeWrites : Prop :=
  ∀ (s : State) (c : Chan),
    let N := (s.runOf c).toNat
    let d := Decision.run N
    let l := d.writes (s.code c)
    (s.runOf c = 0 → exec (.tkFine c) s = .next { s with pc := s.pc + 1 }) ∧
    (2 ^ 21 + 8 ≤ N → RaisesOnly (.tkFine c) s .runRange) ∧
    (8 ≤ N → N < 2 ^ 21 + 8 → ¬ d.coded (s.code c) → RaisesOnly (.tkFine c) s .uncodedSymbol) ∧
    (8 ≤ N → N < 2 ^ 21 + 8 → d.coded (s.code c) → (s.writer c).Good s.params.outBytes.val → bitCount l ≤ s.room c →
      ∃ t, Completes (.tkFine c) s t ∧ WritesBits c s t ∧ RunStands c 0 s t ∧ t.stream c = s.stream c ++ writesBits l) ∧
    (8 ≤ N → N < 2 ^ 21 + 8 → d.coded (s.code c) → (s.writer c).Good s.params.outBytes.val →
      ∀ pre e post, l = pre ++ e :: post → bitCount pre ≤ s.room c → s.room c < bitCount pre + e.1 →
      ∃ u, WroteOnly c pre s u ∧ u.run = s.run ∧ exec (.tkFine c) s = .next (u.raiseFault .bwOverflow))

/-! ## The whole machine -/

/-- R21, R31 to R37, R61 to R63, R173, R280: who writes what, over all commands: nothing that only the host writes; a register
only the command that names it; each table, run, writer and buffer only the commands the spec gives it, in their channel; and
a byte of OUT only a command that writes bits, at or above the writer's cursor and inside its region. -/
def Obligations.OnlyNamedCommandsWrite : Prop :=
  ∀ (i : Instr) (s t : State), exec i s = .next t →
    SameHostSide s t ∧
    (∀ r, t.reg r ≠ s.reg r → destination i = some r) ∧
    (∀ w, t.writer w ≠ s.writer w → writesTo i = some w ∨ ∃ a b, i = .bwInit w a b) ∧
    (∀ a, t.outByte a ≠ s.outByte a → ∃ w, writesTo i = some w ∧ s.outCursor w ≤ a ∧
      a < (s.writer w).base.toNat + (s.writer w).limit.toNat) ∧
    (∀ c, t.runOf c ≠ s.runOf c → i = .tkRowc c ∨ i = .tkRowe c ∨ i = .tkFinc c ∨ i = .tkFine c) ∧
    (∀ c, t.hist c ≠ s.hist c → i = .pcHclr c ∨ i = .tkRowc c ∨ i = .tkFinc c) ∧
    (∀ c, t.code c ≠ s.code c → i = .pcBuild c) ∧
    (t.xs ≠ s.xs → ∃ len, i = .prStart len) ∧
    (t.nrows ≠ s.nrows → (∃ len, i = .prStart len) ∨ ∃ a, i = .prLoad a) ∧
    (t.cur ≠ s.cur ∨ t.prev ≠ s.prev → ∃ a, i = .prLoad a) ∧
    (t.res ≠ s.res → ∃ c, i = .prPred c) ∧
    (t.resn ≠ s.resn → (∃ len, i = .prStart len) ∨ ∃ c, i = .prPred c)

/-- R22, R267, U12: a command of a running block leaves it running with `pc` one further, or back by the offset of a `LOOP`; or
it is `HALT`; or it faulted and `pc` stands at it. -/
def Obligations.RunEndsOnlyByHaltOrFault : Prop :=
  ∀ (i : Instr) (s t : State), s.seq = .run → exec i s = .next t →
    (t.seq = .run ∧ (t.pc = s.pc + 1 ∨
      ∃ r off, i = .loop r off ∧ off.toNat ≤ s.pc.toNat ∧ t.pc.toNat = s.pc.toNat - off.toNat)) ∨
    (t.seq = .halted ∧ i = .halt ∧ t.pc = s.pc + 1) ∨
    (t.seq = .fault ∧ t.pc = s.pc)

/-- R264: fault entry writes `CAUSE`, `FPC` and `STATE`; `pc` is not changed and so equals `FPC`, the registers keep their
values, and the interrupt output then stands at `IE`. -/
def Obligations.FaultEntry : Prop :=
  (∀ (f : FaultName) (s : State), s.raiseFault f = { s with cause := f.code, fpc := s.pc, seq := .fault }) ∧
  ∀ s t : State, s.seq = .run → step s = .next t → t.seq = .fault →
    ∃ f : FaultName, t.cause = f.code ∧ t.fpc = s.pc ∧ t.pc = s.pc ∧ t.x = s.x ∧ t.ie = s.ie ∧ t.irq = s.ie

/-- R261, R242, R266: the fifteen codes, with their values (all different and none 0); each command raises only the faults the
table gives it; and the commands whose `raise` comes before any assignment change nothing when they fault. -/
def Obligations.FaultsOfEachCommand : Prop :=
  (FaultName.code .illegalCommand = 0x01 ∧ FaultName.code .pcRange = 0x02 ∧ FaultName.code .loopRange = 0x03 ∧
    FaultName.code .bwCount = 0x10 ∧ FaultName.code .bwOverflow = 0x11 ∧ FaultName.code .memRange = 0x12 ∧
    FaultName.code .buildBounds = 0x20 ∧ FaultName.code .buildInfeasible = 0x21 ∧ FaultName.code .histOverflow = 0x22 ∧
    FaultName.code .cfgInvalid = 0x30 ∧ FaultName.code .chRange = 0x31 ∧ FaultName.code .noRow = 0x32 ∧
    FaultName.code .uncodedSymbol = 0x40 ∧ FaultName.code .residualRange = 0x41 ∧ FaultName.code .runRange = 0x42) ∧
  (∀ f g : FaultName, f.code = g.code → f = g) ∧ (∀ f : FaultName, f.code ≠ 0) ∧
  ∀ (i : Instr) (s t : State), s.seq ≠ .fault → exec i s = .next t → t.seq = .fault →
    ∃ f ∈ canRaise i, t.cause = f.code ∧ (FaultsWhole i → t = s.raiseFault f)

/-- R42 holds right after reset. -/
def Obligations.InvariantAtReset : Prop := State.reset.Inv

/-- R42, R63, R27: every step keeps the invariant of the state, with the memories in canonical form and inside their sizes. -/
def Obligations.InvariantKept : Prop := ∀ s t : State, s.Inv → step s = .next t → t.Inv

/-- R42: the host cannot break the invariant, by any move. -/
def Obligations.InvariantKeptByHost : Prop :=
  ∀ (m : HostMove) (s t : State), s.Inv → hostAct m s = .next t → t.Inv

/-- R307, R142 (7), R241: from a state that R42 allows, a step always has a next state: the model's own stops are never met. -/
def Obligations.StepNeverStops : Prop := ∀ s : State, s.Inv → ∃ t, step s = .next t

/-! ## The host -/

/-- R41: after a hard reset or a soft reset, from any state, every element has the value of the table, and the memories are
not touched. The contents of `CUR`, `PREV` and `RES` are not in the statement: the spec leaves them open. That `IE` is 0 also
after a write of `CTRL` that sets both `SRESET` and `IE` is the model's choice (log 8), not the spec's. -/
def Obligations.ResetsGiveTheTable : Prop :=
  ∀ (s : State) (v : Word), v.getLsbD 1 = true → ∀ m, m = .hardReset ∨ m = .writeReg 0 v →
    ∃ t, hostAct m s = .next t ∧
      t.seq = .idle ∧ t.pc = 0 ∧ (∀ i, t.reg i = 0) ∧ t.cause = 0 ∧ t.fpc = 0 ∧ t.ie = false ∧
      t.cfg.nc = 0 ∧ t.cfg.bps = 0 ∧ t.cfg.be = false ∧ t.taddr = 0 ∧
      (∀ w, (t.writer w).base = 0 ∧ (t.writer w).limit = 0 ∧ (t.writer w).bytes = 0 ∧ (t.writer w).acc = 0 ∧
        (t.writer w).nbits = 0) ∧
      (∀ c, t.runOf c = 0) ∧
      (∀ c k, entry (t.hist c).raw k = 0 ∧ entry (t.hist c).lz k = 0) ∧
      (∀ k, entry t.minlen k = 0 ∧ entry t.maxlen k = 0) ∧
      (∀ c k, entry (t.code c).rawLen k = 0 ∧ entry (t.code c).rawBits k = 0 ∧ entry (t.code c).lzLen k = 0 ∧
        entry (t.code c).lzBits k = 0) ∧
      t.xs = 0 ∧ t.nrows = 0 ∧ t.resn = 0 ∧
      t.params = s.params ∧ t.cmd = s.cmd ∧ t.input = s.input ∧ t.out = s.out

/-- R23, R24, R26 to R32, R263: what the registers of a stopped block read as, and that a read changes nothing; `STATUS` reads so in
every state; reserved numbers read 0. -/
def Obligations.RegistersRead : Prop :=
  ∀ s : State,
    (s.irq = true ↔ s.ie = true ∧ (s.seq = .halted ∨ s.seq = .fault)) ∧
    hostAct (.readReg 1) s = .next s ∧
    (hostSees (.readReg 1) s).toNat =
      (match s.seq with | .idle => 0 | .run => 1 | .halted => 2 | .fault => 3) + 4 * s.irq.toNat ∧
    (s.stopped = true →
      (∀ n, hostAct (.readReg n) s = .next s) ∧
      (hostSees (.readReg 0) s).toNat = 4 * s.ie.toNat ∧
      (hostSees (.readReg 2) s).toNat = s.cause.toNat ∧
      hostSees (.readReg 3) s = s.fpc ∧
      hostSees (.readReg 4) s = s.pc ∧
      (hostSees (.readReg 5) s).toNat = s.cfg.nc.toNat + 2 ^ 3 * s.cfg.bps.toNat + 2 ^ 9 * s.cfg.be.toNat ∧
      (hostSees (.readReg 6) s).toNat = s.xs.val + 2 ^ 9 * s.nrows.val + 2 ^ 16 * s.resn.val ∧
      (hostSees (.readReg 7) s).toNat = s.taddr.toNat ∧
      (∀ w : Chan,
        hostSees (.readReg (BitVec.ofNat 6 (0x10 + 4 * w.val))) s = (s.writer w).base ∧
        hostSees (.readReg (BitVec.ofNat 6 (0x11 + 4 * w.val))) s = (s.writer w).limit ∧
        hostSees (.readReg (BitVec.ofNat 6 (0x12 + 4 * w.val))) s = (s.writer w).bytes ∧
        (hostSees (.readReg (BitVec.ofNat 6 (0x13 + 4 * w.val))) s).toNat =
          (s.writer w).acc.toNat % 2 ^ 8 + 2 ^ 8 * (s.writer w).nbits.val) ∧
      (∀ c : Chan, hostSees (.readReg (BitVec.ofNat 6 (0x20 + c.val))) s = s.runOf c) ∧
      ∀ n : BitVec 6, (0x09 ≤ n.toNat ∧ n.toNat < 0x10) ∨ 0x24 ≤ n.toNat → hostSees (.readReg n) s = 0)

/-- R24, R25, R28, R29, R38, R66: what the host's register writes do. `CTRL` in every state: `SRESET` resets, and then `START`
is ignored, and so is `IE`, which is 0 after it (the spec does not say what such a write does to `IE`: the model's choice, log
8); else `IE` is written, and `START` starts an idle or halted block at the `pc` it stands at and does nothing in
`RUN` and `FAULT`. In `RUN` every other write is ignored. In a stopped block `PC`, the fields of `CFG` and `TADDR` take the low
bits written, and every number but these and `TDATA` ignores the write. -/
def Obligations.RegistersWrite : Prop :=
  ∀ (s : State) (v : Word),
    (v.getLsbD 1 = true → hostAct (.writeReg 0 v) s = .next s.softReset) ∧
    (v.getLsbD 1 = false → v.getLsbD 0 = true → s.seq = .idle ∨ s.seq = .halted →
      hostAct (.writeReg 0 v) s = .next { s with ie := v.getLsbD 2, seq := .run }) ∧
    (v.getLsbD 1 = false → v.getLsbD 0 = false ∨ s.seq = .run ∨ s.seq = .fault →
      hostAct (.writeReg 0 v) s = .next { s with ie := v.getLsbD 2 }) ∧
    (s.seq = .run → ∀ n, n ≠ 0 → hostAct (.writeReg n v) s = .next s) ∧
    (s.seq ≠ .run →
      hostAct (.writeReg 4 v) s = .next { s with pc := v } ∧
      (∃ f : Cfg, hostAct (.writeReg 5 v) s = .next { s with cfg := f } ∧
        f.nc.toNat = v.toNat % 2 ^ 3 ∧ f.bps.toNat = v.toNat / 2 ^ 3 % 2 ^ 6 ∧ f.be.toNat = v.toNat / 2 ^ 9 % 2) ∧
      (∃ a : BitVec 12, hostAct (.writeReg 7 v) s = .next { s with taddr := a } ∧ a.toNat = v.toNat % 2 ^ 12) ∧
      ∀ n : BitVec 6, n ∉ [0, 4, 5, 7, 8] → hostAct (.writeReg n v) s = .next s)

/-- R38, R64: the table window of a stopped block: each entry stands at its address, a write stores its low bits in that entry
and in no other, a read returns the entry and changes nothing, and every other address reads 0 and ignores writes. -/
def Obligations.TableWindowReadsBack : Prop :=
  (∀ a e, tableEntry a = some e ↔ a = e.address) ∧ State.reset.taddr = 0 ∧
  ∀ (s : State) (v : Word), s.stopped = true →
    hostSees (.readReg 7) s = s.taddr.setWidth 32 ∧
    hostSees (.readReg 8) s = (match tableEntry s.taddr.toNat with | some e => s.readEntry e | none => 0) ∧
    hostAct (.readReg 8) s = .next s ∧
    ∃ t, hostAct (.writeReg 8 v) s = .next t ∧
      t = { s with x := t.x, minlen := t.minlen, maxlen := t.maxlen, hists := t.hists, codes := t.codes } ∧
      (tableEntry s.taddr.toNat = none → t = s) ∧
      ∀ e, t.readEntry e =
        if tableEntry s.taddr.toNat = some e then BitVec.ofNat 32 (v.toNat % 2 ^ e.width) else s.readEntry e

/-- R60 to R63, R66: the host of a stopped block reads back each byte it wrote, and no other byte of any memory changes; a CMD
word reads back whole and stands at its four byte addresses, least significant byte first. An access to an address that does
not exist stops, and while the block runs, when the spec gives the access no meaning, it is refused (log 5). -/
def Obligations.HostMemoryAccess : Prop :=
  ∀ (s : State) (sp : Config.Space) (a : Nat) (v : Byte) (w : Word),
    (s.seq = .run → ∀ m, m = .readByte sp a ∨ m = .writeByte sp a v ∨ m = .readCmd a ∨ m = .writeCmd a w →
      hostAct m s = .refused .hostMemoryWhileRunning) ∧
    (s.seq ≠ .run → s.params.bytes sp ≤ a → ∀ m, m = .readByte sp a ∨ m = .writeByte sp a v →
      hostAct m s = .fault .hostAddress) ∧
    (s.seq ≠ .run → a < s.params.bytes sp →
      ∃ t, hostAct (.writeByte sp a v) s = .next t ∧ hostAct (.readByte sp a) t = .next t ∧
        hostSees (.readByte sp a) t = v.setWidth 32 ∧
        ∀ sp' b, sp' ≠ sp ∨ b ≠ a → hostSees (.readByte sp' b) t = hostSees (.readByte sp' b) s) ∧
    (s.seq ≠ .run → a < s.params.cmdWords.val →
      ∃ t, hostAct (.writeCmd a w) s = .next t ∧ hostAct (.readCmd a) t = .next t ∧ hostSees (.readCmd a) t = w ∧
        (∀ k, k < 4 → (t.cmdByte (4 * a + k)).toNat = w.toNat / 2 ^ (8 * k) % 2 ^ 8) ∧
        ∀ b, b < s.params.cmdWords.val → b ≠ a → hostSees (.readCmd b) t = hostSees (.readCmd b) s)

end Slice0Statements
end

