-- ==== Sys2Proof/Laws/Memory.lean ====
section
/-! SUPPORT. Reading after writing one byte, and the canonical form of a memory. -/

namespace Sys2Proof.Machine

/-- A byte reads as it was last written; a write leaves every other byte alone. -/
theorem Memory.get_put (m : Memory) (a b : Nat) (v : Byte) :
    Memory.get (Memory.put m a v) b = if b = a then some v else Memory.get m b := by
  induction m with
  | nil => simp [Memory.put, Memory.get, eq_comm]
  | cons e m ih =>
    obtain ⟨k, u⟩ := e
    by_cases h1 : a < k
    · simp [Memory.put, Memory.get, h1, eq_comm]
    · by_cases h2 : a = k
      · subst h2
        simp only [Memory.put, Memory.get, h1, if_false, if_true]
        by_cases h3 : a = b <;> simp [h3, eq_comm]
      · simp only [Memory.put, Memory.get, h1, h2, if_false, ih]
        by_cases h3 : k = b
        · have : b ≠ a := by omega
          simp [h3, this]
        · simp [h3]

@[simp] theorem Memory.get_put_self (m : Memory) (a : Nat) (v : Byte) : Memory.get (Memory.put m a v) a = some v := by
  simp [Memory.get_put]

theorem Memory.get_put_ne (m : Memory) {a b : Nat} (v : Byte) (h : b ≠ a) :
    Memory.get (Memory.put m a v) b = Memory.get m b := by
  simp [Memory.get_put, h]

@[simp] theorem Memory.byte_put_self (sp : Config.Space) (m : Memory) (a : Nat) (v : Byte) :
    Memory.byte sp (Memory.put m a v) a = v := by
  simp [Memory.byte]

theorem Memory.byte_put_ne (sp : Config.Space) (m : Memory) {a b : Nat} (v : Byte) (h : b ≠ a) :
    Memory.byte sp (Memory.put m a v) b = Memory.byte sp m b := by
  simp [Memory.byte, Memory.get_put_ne m v h]

theorem Memory.risesFrom_put (m : Memory) (lo a : Nat) (v : Byte) (h : Memory.risesFrom lo m = true) (ha : lo ≤ a) :
    Memory.risesFrom lo (Memory.put m a v) = true := by
  induction m generalizing lo with
  | nil => simp [Memory.put, Memory.risesFrom, ha]
  | cons e m ih =>
    obtain ⟨k, u⟩ := e
    simp only [Memory.risesFrom, Bool.and_eq_true, decide_eq_true_eq] at h
    by_cases h1 : a < k
    · simp [Memory.put, h1, Memory.risesFrom, ha, h.2]
    · by_cases h2 : a = k
      · subst h2
        simp [Memory.put, Memory.risesFrom, h]
      · have := ih (k + 1) h.2 (by omega)
        simp [Memory.put, Memory.risesFrom, h1, h2, h.1, this]

/-- Writing a byte keeps the canonical form. -/
theorem Memory.wf_put (m : Memory) (a : Nat) (v : Byte) (h : Memory.wf m = true) : Memory.wf (Memory.put m a v) = true :=
  Memory.risesFrom_put m 0 a v h (Nat.zero_le a)

/-- Writing a byte at an address that exists lists no byte at one that does not. -/
theorem Memory.below_put (m : Memory) (n a : Nat) (v : Byte) (h : Memory.below m n = true) (ha : a < n) :
    Memory.below (Memory.put m a v) n = true := by
  induction m with
  | nil => simp [Memory.put, Memory.below, ha]
  | cons e m ih =>
    obtain ⟨k, u⟩ := e
    simp only [Memory.below, List.all_cons, Bool.and_eq_true, decide_eq_true_eq] at h ih ⊢
    by_cases h1 : a < k
    · simp [Memory.put, h1, ha, h]
    · by_cases h2 : a = k
      · simp [Memory.put, h2] at *
        exact ⟨ha, h.2⟩
      · simp only [Memory.put, h1, h2, if_false, List.all_cons, Bool.and_eq_true, decide_eq_true_eq]
        exact ⟨h.1, ih h.2⟩

theorem Memory.get_eq_none_of_risesFrom (m : Memory) (lo a : Nat) (h : Memory.risesFrom lo m = true) (ha : a < lo) :
    Memory.get m a = none := by
  induction m generalizing lo with
  | nil => rfl
  | cons e m ih =>
    obtain ⟨k, u⟩ := e
    simp only [Memory.risesFrom, Bool.and_eq_true, decide_eq_true_eq] at h
    have hk : k ≠ a := by omega
    simp [Memory.get, hk, ih (k + 1) h.2 (by omega)]

theorem Memory.ext_risesFrom (m₁ m₂ : Memory) (lo : Nat) (h₁ : Memory.risesFrom lo m₁ = true)
    (h₂ : Memory.risesFrom lo m₂ = true) (h : ∀ a, Memory.get m₁ a = Memory.get m₂ a) : m₁ = m₂ := by
  induction m₁ generalizing m₂ lo with
  | nil =>
    cases m₂ with
    | nil => rfl
    | cons e m =>
      have := h e.1
      simp [Memory.get] at this
  | cons e m ih =>
    obtain ⟨k, u⟩ := e
    simp only [Memory.risesFrom, Bool.and_eq_true, decide_eq_true_eq] at h₁
    cases m₂ with
    | nil =>
      have := h k
      simp [Memory.get] at this
    | cons e' m' =>
      obtain ⟨k', u'⟩ := e'
      simp only [Memory.risesFrom, Bool.and_eq_true, decide_eq_true_eq] at h₂
      have hk : k = k' := by
        rcases Nat.lt_trichotomy k k' with hlt | heq | hgt
        · have := h k
          simp [Memory.get, (Nat.ne_of_lt hlt).symm,
            Memory.get_eq_none_of_risesFrom m' (k' + 1) k h₂.2 (by omega)] at this
        · exact heq
        · have := h k'
          simp [Memory.get, (Nat.ne_of_lt hgt).symm,
            Memory.get_eq_none_of_risesFrom m (k + 1) k' h₁.2 (by omega)] at this
      subst hk
      have hu : u = u' := by simpa [Memory.get] using h k
      subst hu
      congr 1
      refine ih m' (k + 1) h₁.2 h₂.2 fun a => ?_
      by_cases ha : k = a
      · subst ha
        rw [Memory.get_eq_none_of_risesFrom m (k + 1) k h₁.2 (by omega),
          Memory.get_eq_none_of_risesFrom m' (k + 1) k h₂.2 (by omega)]
      · simpa [Memory.get, ha] using h a

/-- Two memories in canonical form that hold the same bytes are the same data. -/
theorem Memory.ext_get (m₁ m₂ : Memory) (h₁ : Memory.wf m₁ = true) (h₂ : Memory.wf m₂ = true)
    (h : ∀ a, Memory.get m₁ a = Memory.get m₂ a) : m₁ = m₂ :=
  Memory.ext_risesFrom m₁ m₂ 0 h₁ h₂ h

end Sys2Proof.Machine
end

