-- ==== Sys2Proof/Laws/State.lean ====
section
/-! SUPPORT. What each update of the state does to each field: one lemma per field per update, and the same for the elements
read by index. No later proof unfolds a record update. -/

namespace Sys2Proof.Machine

/-! ## `advance` -/

@[simp] theorem State.advance_params (s : State) : (s.advance).params = s.params := rfl
@[simp] theorem State.advance_seq (s : State) : (s.advance).seq = s.seq := rfl
@[simp] theorem State.advance_pc (s : State) : (s.advance).pc = s.pc + 1 := rfl
@[simp] theorem State.advance_x (s : State) : (s.advance).x = s.x := rfl
@[simp] theorem State.advance_cause (s : State) : (s.advance).cause = s.cause := rfl
@[simp] theorem State.advance_fpc (s : State) : (s.advance).fpc = s.fpc := rfl
@[simp] theorem State.advance_ie (s : State) : (s.advance).ie = s.ie := rfl
@[simp] theorem State.advance_cfg (s : State) : (s.advance).cfg = s.cfg := rfl
@[simp] theorem State.advance_minlen (s : State) : (s.advance).minlen = s.minlen := rfl
@[simp] theorem State.advance_maxlen (s : State) : (s.advance).maxlen = s.maxlen := rfl
@[simp] theorem State.advance_writers (s : State) : (s.advance).writers = s.writers := rfl
@[simp] theorem State.advance_run (s : State) : (s.advance).run = s.run := rfl
@[simp] theorem State.advance_hists (s : State) : (s.advance).hists = s.hists := rfl
@[simp] theorem State.advance_codes (s : State) : (s.advance).codes = s.codes := rfl
@[simp] theorem State.advance_xs (s : State) : (s.advance).xs = s.xs := rfl
@[simp] theorem State.advance_nrows (s : State) : (s.advance).nrows = s.nrows := rfl
@[simp] theorem State.advance_cur (s : State) : (s.advance).cur = s.cur := rfl
@[simp] theorem State.advance_prev (s : State) : (s.advance).prev = s.prev := rfl
@[simp] theorem State.advance_res (s : State) : (s.advance).res = s.res := rfl
@[simp] theorem State.advance_resn (s : State) : (s.advance).resn = s.resn := rfl
@[simp] theorem State.advance_taddr (s : State) : (s.advance).taddr = s.taddr := rfl
@[simp] theorem State.advance_cmd (s : State) : (s.advance).cmd = s.cmd := rfl
@[simp] theorem State.advance_input (s : State) : (s.advance).input = s.input := rfl
@[simp] theorem State.advance_out (s : State) : (s.advance).out = s.out := rfl
@[simp] theorem State.advance_draws (s : State) : (s.advance).draws = s.draws := rfl
@[simp] theorem State.advance_reg (s : State) (i : Reg) : (s.advance).reg i = s.reg i := rfl
@[simp] theorem State.advance_writer (s : State) (v : Chan) : (s.advance).writer v = s.writer v := rfl
@[simp] theorem State.advance_runOf (s : State) (v : Chan) : (s.advance).runOf v = s.runOf v := rfl
@[simp] theorem State.advance_hist (s : State) (v : Chan) : (s.advance).hist v = s.hist v := rfl
@[simp] theorem State.advance_code (s : State) (v : Chan) : (s.advance).code v = s.code v := rfl
@[simp] theorem State.advance_cmdByte (s : State) (a : Nat) : (s.advance).cmdByte a = s.cmdByte a := rfl
@[simp] theorem State.advance_inByte (s : State) (a : Nat) : (s.advance).inByte a = s.inByte a := rfl
@[simp] theorem State.advance_outByte (s : State) (a : Nat) : (s.advance).outByte a = s.outByte a := rfl

/-! ## `raiseFault` -/

@[simp] theorem State.raiseFault_params (s : State) (f : FaultName) : (s.raiseFault f).params = s.params := rfl
@[simp] theorem State.raiseFault_seq (s : State) (f : FaultName) : (s.raiseFault f).seq = .fault := rfl
@[simp] theorem State.raiseFault_pc (s : State) (f : FaultName) : (s.raiseFault f).pc = s.pc := rfl
@[simp] theorem State.raiseFault_x (s : State) (f : FaultName) : (s.raiseFault f).x = s.x := rfl
@[simp] theorem State.raiseFault_cause (s : State) (f : FaultName) : (s.raiseFault f).cause = f.code := rfl
@[simp] theorem State.raiseFault_fpc (s : State) (f : FaultName) : (s.raiseFault f).fpc = s.pc := rfl
@[simp] theorem State.raiseFault_ie (s : State) (f : FaultName) : (s.raiseFault f).ie = s.ie := rfl
@[simp] theorem State.raiseFault_cfg (s : State) (f : FaultName) : (s.raiseFault f).cfg = s.cfg := rfl
@[simp] theorem State.raiseFault_minlen (s : State) (f : FaultName) : (s.raiseFault f).minlen = s.minlen := rfl
@[simp] theorem State.raiseFault_maxlen (s : State) (f : FaultName) : (s.raiseFault f).maxlen = s.maxlen := rfl
@[simp] theorem State.raiseFault_writers (s : State) (f : FaultName) : (s.raiseFault f).writers = s.writers := rfl
@[simp] theorem State.raiseFault_run (s : State) (f : FaultName) : (s.raiseFault f).run = s.run := rfl
@[simp] theorem State.raiseFault_hists (s : State) (f : FaultName) : (s.raiseFault f).hists = s.hists := rfl
@[simp] theorem State.raiseFault_codes (s : State) (f : FaultName) : (s.raiseFault f).codes = s.codes := rfl
@[simp] theorem State.raiseFault_xs (s : State) (f : FaultName) : (s.raiseFault f).xs = s.xs := rfl
@[simp] theorem State.raiseFault_nrows (s : State) (f : FaultName) : (s.raiseFault f).nrows = s.nrows := rfl
@[simp] theorem State.raiseFault_cur (s : State) (f : FaultName) : (s.raiseFault f).cur = s.cur := rfl
@[simp] theorem State.raiseFault_prev (s : State) (f : FaultName) : (s.raiseFault f).prev = s.prev := rfl
@[simp] theorem State.raiseFault_res (s : State) (f : FaultName) : (s.raiseFault f).res = s.res := rfl
@[simp] theorem State.raiseFault_resn (s : State) (f : FaultName) : (s.raiseFault f).resn = s.resn := rfl
@[simp] theorem State.raiseFault_taddr (s : State) (f : FaultName) : (s.raiseFault f).taddr = s.taddr := rfl
@[simp] theorem State.raiseFault_cmd (s : State) (f : FaultName) : (s.raiseFault f).cmd = s.cmd := rfl
@[simp] theorem State.raiseFault_input (s : State) (f : FaultName) : (s.raiseFault f).input = s.input := rfl
@[simp] theorem State.raiseFault_out (s : State) (f : FaultName) : (s.raiseFault f).out = s.out := rfl
@[simp] theorem State.raiseFault_draws (s : State) (f : FaultName) : (s.raiseFault f).draws = s.draws := rfl
@[simp] theorem State.raiseFault_reg (s : State) (f : FaultName) (i : Reg) : (s.raiseFault f).reg i = s.reg i := rfl
@[simp] theorem State.raiseFault_writer (s : State) (f : FaultName) (v : Chan) : (s.raiseFault f).writer v = s.writer v := rfl
@[simp] theorem State.raiseFault_runOf (s : State) (f : FaultName) (v : Chan) : (s.raiseFault f).runOf v = s.runOf v := rfl
@[simp] theorem State.raiseFault_hist (s : State) (f : FaultName) (v : Chan) : (s.raiseFault f).hist v = s.hist v := rfl
@[simp] theorem State.raiseFault_code (s : State) (f : FaultName) (v : Chan) : (s.raiseFault f).code v = s.code v := rfl
@[simp] theorem State.raiseFault_cmdByte (s : State) (f : FaultName) (a : Nat) : (s.raiseFault f).cmdByte a = s.cmdByte a := rfl
@[simp] theorem State.raiseFault_inByte (s : State) (f : FaultName) (a : Nat) : (s.raiseFault f).inByte a = s.inByte a := rfl
@[simp] theorem State.raiseFault_outByte (s : State) (f : FaultName) (a : Nat) : (s.raiseFault f).outByte a = s.outByte a := rfl

/-! ## `setReg` -/

@[simp] theorem State.setReg_params (s : State) (r : Reg) (u : DWord) : (s.setReg r u).params = s.params := rfl
@[simp] theorem State.setReg_seq (s : State) (r : Reg) (u : DWord) : (s.setReg r u).seq = s.seq := rfl
@[simp] theorem State.setReg_pc (s : State) (r : Reg) (u : DWord) : (s.setReg r u).pc = s.pc := rfl
@[simp] theorem State.setReg_x (s : State) (r : Reg) (u : DWord) : (s.setReg r u).x = s.x.set r u := rfl
@[simp] theorem State.setReg_cause (s : State) (r : Reg) (u : DWord) : (s.setReg r u).cause = s.cause := rfl
@[simp] theorem State.setReg_fpc (s : State) (r : Reg) (u : DWord) : (s.setReg r u).fpc = s.fpc := rfl
@[simp] theorem State.setReg_ie (s : State) (r : Reg) (u : DWord) : (s.setReg r u).ie = s.ie := rfl
@[simp] theorem State.setReg_cfg (s : State) (r : Reg) (u : DWord) : (s.setReg r u).cfg = s.cfg := rfl
@[simp] theorem State.setReg_minlen (s : State) (r : Reg) (u : DWord) : (s.setReg r u).minlen = s.minlen := rfl
@[simp] theorem State.setReg_maxlen (s : State) (r : Reg) (u : DWord) : (s.setReg r u).maxlen = s.maxlen := rfl
@[simp] theorem State.setReg_writers (s : State) (r : Reg) (u : DWord) : (s.setReg r u).writers = s.writers := rfl
@[simp] theorem State.setReg_run (s : State) (r : Reg) (u : DWord) : (s.setReg r u).run = s.run := rfl
@[simp] theorem State.setReg_hists (s : State) (r : Reg) (u : DWord) : (s.setReg r u).hists = s.hists := rfl
@[simp] theorem State.setReg_codes (s : State) (r : Reg) (u : DWord) : (s.setReg r u).codes = s.codes := rfl
@[simp] theorem State.setReg_xs (s : State) (r : Reg) (u : DWord) : (s.setReg r u).xs = s.xs := rfl
@[simp] theorem State.setReg_nrows (s : State) (r : Reg) (u : DWord) : (s.setReg r u).nrows = s.nrows := rfl
@[simp] theorem State.setReg_cur (s : State) (r : Reg) (u : DWord) : (s.setReg r u).cur = s.cur := rfl
@[simp] theorem State.setReg_prev (s : State) (r : Reg) (u : DWord) : (s.setReg r u).prev = s.prev := rfl
@[simp] theorem State.setReg_res (s : State) (r : Reg) (u : DWord) : (s.setReg r u).res = s.res := rfl
@[simp] theorem State.setReg_resn (s : State) (r : Reg) (u : DWord) : (s.setReg r u).resn = s.resn := rfl
@[simp] theorem State.setReg_taddr (s : State) (r : Reg) (u : DWord) : (s.setReg r u).taddr = s.taddr := rfl
@[simp] theorem State.setReg_cmd (s : State) (r : Reg) (u : DWord) : (s.setReg r u).cmd = s.cmd := rfl
@[simp] theorem State.setReg_input (s : State) (r : Reg) (u : DWord) : (s.setReg r u).input = s.input := rfl
@[simp] theorem State.setReg_out (s : State) (r : Reg) (u : DWord) : (s.setReg r u).out = s.out := rfl
@[simp] theorem State.setReg_draws (s : State) (r : Reg) (u : DWord) : (s.setReg r u).draws = s.draws := rfl
@[simp] theorem State.setReg_reg_self (s : State) (r : Reg) (u : DWord) : (s.setReg r u).reg r = u := by
  simp [State.setReg, State.reg]
@[simp] theorem State.setReg_reg_ne (s : State) (r : Reg) (u : DWord) (i : Reg) (h : i ≠ r) : (s.setReg r u).reg i = s.reg i := by
  have : r.val ≠ i.val := fun e => h (Fin.ext e.symm)
  simp [State.setReg, State.reg, Vector.getElem_set_ne, this]
@[simp] theorem State.setReg_writer (s : State) (r : Reg) (u : DWord) (v : Chan) : (s.setReg r u).writer v = s.writer v := rfl
@[simp] theorem State.setReg_runOf (s : State) (r : Reg) (u : DWord) (v : Chan) : (s.setReg r u).runOf v = s.runOf v := rfl
@[simp] theorem State.setReg_hist (s : State) (r : Reg) (u : DWord) (v : Chan) : (s.setReg r u).hist v = s.hist v := rfl
@[simp] theorem State.setReg_code (s : State) (r : Reg) (u : DWord) (v : Chan) : (s.setReg r u).code v = s.code v := rfl
@[simp] theorem State.setReg_cmdByte (s : State) (r : Reg) (u : DWord) (a : Nat) : (s.setReg r u).cmdByte a = s.cmdByte a := rfl
@[simp] theorem State.setReg_inByte (s : State) (r : Reg) (u : DWord) (a : Nat) : (s.setReg r u).inByte a = s.inByte a := rfl
@[simp] theorem State.setReg_outByte (s : State) (r : Reg) (u : DWord) (a : Nat) : (s.setReg r u).outByte a = s.outByte a := rfl

/-! ## `setWriter` -/

@[simp] theorem State.setWriter_params (s : State) (w : Chan) (u : Writer) : (s.setWriter w u).params = s.params := rfl
@[simp] theorem State.setWriter_seq (s : State) (w : Chan) (u : Writer) : (s.setWriter w u).seq = s.seq := rfl
@[simp] theorem State.setWriter_pc (s : State) (w : Chan) (u : Writer) : (s.setWriter w u).pc = s.pc := rfl
@[simp] theorem State.setWriter_x (s : State) (w : Chan) (u : Writer) : (s.setWriter w u).x = s.x := rfl
@[simp] theorem State.setWriter_cause (s : State) (w : Chan) (u : Writer) : (s.setWriter w u).cause = s.cause := rfl
@[simp] theorem State.setWriter_fpc (s : State) (w : Chan) (u : Writer) : (s.setWriter w u).fpc = s.fpc := rfl
@[simp] theorem State.setWriter_ie (s : State) (w : Chan) (u : Writer) : (s.setWriter w u).ie = s.ie := rfl
@[simp] theorem State.setWriter_cfg (s : State) (w : Chan) (u : Writer) : (s.setWriter w u).cfg = s.cfg := rfl
@[simp] theorem State.setWriter_minlen (s : State) (w : Chan) (u : Writer) : (s.setWriter w u).minlen = s.minlen := rfl
@[simp] theorem State.setWriter_maxlen (s : State) (w : Chan) (u : Writer) : (s.setWriter w u).maxlen = s.maxlen := rfl
@[simp] theorem State.setWriter_writers (s : State) (w : Chan) (u : Writer) : (s.setWriter w u).writers = s.writers.set w u := rfl
@[simp] theorem State.setWriter_run (s : State) (w : Chan) (u : Writer) : (s.setWriter w u).run = s.run := rfl
@[simp] theorem State.setWriter_hists (s : State) (w : Chan) (u : Writer) : (s.setWriter w u).hists = s.hists := rfl
@[simp] theorem State.setWriter_codes (s : State) (w : Chan) (u : Writer) : (s.setWriter w u).codes = s.codes := rfl
@[simp] theorem State.setWriter_xs (s : State) (w : Chan) (u : Writer) : (s.setWriter w u).xs = s.xs := rfl
@[simp] theorem State.setWriter_nrows (s : State) (w : Chan) (u : Writer) : (s.setWriter w u).nrows = s.nrows := rfl
@[simp] theorem State.setWriter_cur (s : State) (w : Chan) (u : Writer) : (s.setWriter w u).cur = s.cur := rfl
@[simp] theorem State.setWriter_prev (s : State) (w : Chan) (u : Writer) : (s.setWriter w u).prev = s.prev := rfl
@[simp] theorem State.setWriter_res (s : State) (w : Chan) (u : Writer) : (s.setWriter w u).res = s.res := rfl
@[simp] theorem State.setWriter_resn (s : State) (w : Chan) (u : Writer) : (s.setWriter w u).resn = s.resn := rfl
@[simp] theorem State.setWriter_taddr (s : State) (w : Chan) (u : Writer) : (s.setWriter w u).taddr = s.taddr := rfl
@[simp] theorem State.setWriter_cmd (s : State) (w : Chan) (u : Writer) : (s.setWriter w u).cmd = s.cmd := rfl
@[simp] theorem State.setWriter_input (s : State) (w : Chan) (u : Writer) : (s.setWriter w u).input = s.input := rfl
@[simp] theorem State.setWriter_out (s : State) (w : Chan) (u : Writer) : (s.setWriter w u).out = s.out := rfl
@[simp] theorem State.setWriter_draws (s : State) (w : Chan) (u : Writer) : (s.setWriter w u).draws = s.draws := rfl
@[simp] theorem State.setWriter_reg (s : State) (w : Chan) (u : Writer) (i : Reg) : (s.setWriter w u).reg i = s.reg i := rfl
@[simp] theorem State.setWriter_writer_self (s : State) (w : Chan) (u : Writer) : (s.setWriter w u).writer w = u := by
  simp [State.setWriter, State.writer]
@[simp] theorem State.setWriter_writer_ne (s : State) (w : Chan) (u : Writer) (v : Chan) (h : v ≠ w) : (s.setWriter w u).writer v = s.writer v := by
  have : w.val ≠ v.val := fun e => h (Fin.ext e.symm)
  simp [State.setWriter, State.writer, Vector.getElem_set_ne, this]
@[simp] theorem State.setWriter_runOf (s : State) (w : Chan) (u : Writer) (v : Chan) : (s.setWriter w u).runOf v = s.runOf v := rfl
@[simp] theorem State.setWriter_hist (s : State) (w : Chan) (u : Writer) (v : Chan) : (s.setWriter w u).hist v = s.hist v := rfl
@[simp] theorem State.setWriter_code (s : State) (w : Chan) (u : Writer) (v : Chan) : (s.setWriter w u).code v = s.code v := rfl
@[simp] theorem State.setWriter_cmdByte (s : State) (w : Chan) (u : Writer) (a : Nat) : (s.setWriter w u).cmdByte a = s.cmdByte a := rfl
@[simp] theorem State.setWriter_inByte (s : State) (w : Chan) (u : Writer) (a : Nat) : (s.setWriter w u).inByte a = s.inByte a := rfl
@[simp] theorem State.setWriter_outByte (s : State) (w : Chan) (u : Writer) (a : Nat) : (s.setWriter w u).outByte a = s.outByte a := rfl

/-! ## `setRun` -/

@[simp] theorem State.setRun_params (s : State) (c : Chan) (u : Word) : (s.setRun c u).params = s.params := rfl
@[simp] theorem State.setRun_seq (s : State) (c : Chan) (u : Word) : (s.setRun c u).seq = s.seq := rfl
@[simp] theorem State.setRun_pc (s : State) (c : Chan) (u : Word) : (s.setRun c u).pc = s.pc := rfl
@[simp] theorem State.setRun_x (s : State) (c : Chan) (u : Word) : (s.setRun c u).x = s.x := rfl
@[simp] theorem State.setRun_cause (s : State) (c : Chan) (u : Word) : (s.setRun c u).cause = s.cause := rfl
@[simp] theorem State.setRun_fpc (s : State) (c : Chan) (u : Word) : (s.setRun c u).fpc = s.fpc := rfl
@[simp] theorem State.setRun_ie (s : State) (c : Chan) (u : Word) : (s.setRun c u).ie = s.ie := rfl
@[simp] theorem State.setRun_cfg (s : State) (c : Chan) (u : Word) : (s.setRun c u).cfg = s.cfg := rfl
@[simp] theorem State.setRun_minlen (s : State) (c : Chan) (u : Word) : (s.setRun c u).minlen = s.minlen := rfl
@[simp] theorem State.setRun_maxlen (s : State) (c : Chan) (u : Word) : (s.setRun c u).maxlen = s.maxlen := rfl
@[simp] theorem State.setRun_writers (s : State) (c : Chan) (u : Word) : (s.setRun c u).writers = s.writers := rfl
@[simp] theorem State.setRun_run (s : State) (c : Chan) (u : Word) : (s.setRun c u).run = s.run.set c u := rfl
@[simp] theorem State.setRun_hists (s : State) (c : Chan) (u : Word) : (s.setRun c u).hists = s.hists := rfl
@[simp] theorem State.setRun_codes (s : State) (c : Chan) (u : Word) : (s.setRun c u).codes = s.codes := rfl
@[simp] theorem State.setRun_xs (s : State) (c : Chan) (u : Word) : (s.setRun c u).xs = s.xs := rfl
@[simp] theorem State.setRun_nrows (s : State) (c : Chan) (u : Word) : (s.setRun c u).nrows = s.nrows := rfl
@[simp] theorem State.setRun_cur (s : State) (c : Chan) (u : Word) : (s.setRun c u).cur = s.cur := rfl
@[simp] theorem State.setRun_prev (s : State) (c : Chan) (u : Word) : (s.setRun c u).prev = s.prev := rfl
@[simp] theorem State.setRun_res (s : State) (c : Chan) (u : Word) : (s.setRun c u).res = s.res := rfl
@[simp] theorem State.setRun_resn (s : State) (c : Chan) (u : Word) : (s.setRun c u).resn = s.resn := rfl
@[simp] theorem State.setRun_taddr (s : State) (c : Chan) (u : Word) : (s.setRun c u).taddr = s.taddr := rfl
@[simp] theorem State.setRun_cmd (s : State) (c : Chan) (u : Word) : (s.setRun c u).cmd = s.cmd := rfl
@[simp] theorem State.setRun_input (s : State) (c : Chan) (u : Word) : (s.setRun c u).input = s.input := rfl
@[simp] theorem State.setRun_out (s : State) (c : Chan) (u : Word) : (s.setRun c u).out = s.out := rfl
@[simp] theorem State.setRun_draws (s : State) (c : Chan) (u : Word) : (s.setRun c u).draws = s.draws := rfl
@[simp] theorem State.setRun_reg (s : State) (c : Chan) (u : Word) (i : Reg) : (s.setRun c u).reg i = s.reg i := rfl
@[simp] theorem State.setRun_writer (s : State) (c : Chan) (u : Word) (v : Chan) : (s.setRun c u).writer v = s.writer v := rfl
@[simp] theorem State.setRun_runOf_self (s : State) (c : Chan) (u : Word) : (s.setRun c u).runOf c = u := by
  simp [State.setRun, State.runOf]
@[simp] theorem State.setRun_runOf_ne (s : State) (c : Chan) (u : Word) (v : Chan) (h : v ≠ c) : (s.setRun c u).runOf v = s.runOf v := by
  have : c.val ≠ v.val := fun e => h (Fin.ext e.symm)
  simp [State.setRun, State.runOf, Vector.getElem_set_ne, this]
@[simp] theorem State.setRun_hist (s : State) (c : Chan) (u : Word) (v : Chan) : (s.setRun c u).hist v = s.hist v := rfl
@[simp] theorem State.setRun_code (s : State) (c : Chan) (u : Word) (v : Chan) : (s.setRun c u).code v = s.code v := rfl
@[simp] theorem State.setRun_cmdByte (s : State) (c : Chan) (u : Word) (a : Nat) : (s.setRun c u).cmdByte a = s.cmdByte a := rfl
@[simp] theorem State.setRun_inByte (s : State) (c : Chan) (u : Word) (a : Nat) : (s.setRun c u).inByte a = s.inByte a := rfl
@[simp] theorem State.setRun_outByte (s : State) (c : Chan) (u : Word) (a : Nat) : (s.setRun c u).outByte a = s.outByte a := rfl

/-! ## `setHist` -/

@[simp] theorem State.setHist_params (s : State) (c : Chan) (u : Hist) : (s.setHist c u).params = s.params := rfl
@[simp] theorem State.setHist_seq (s : State) (c : Chan) (u : Hist) : (s.setHist c u).seq = s.seq := rfl
@[simp] theorem State.setHist_pc (s : State) (c : Chan) (u : Hist) : (s.setHist c u).pc = s.pc := rfl
@[simp] theorem State.setHist_x (s : State) (c : Chan) (u : Hist) : (s.setHist c u).x = s.x := rfl
@[simp] theorem State.setHist_cause (s : State) (c : Chan) (u : Hist) : (s.setHist c u).cause = s.cause := rfl
@[simp] theorem State.setHist_fpc (s : State) (c : Chan) (u : Hist) : (s.setHist c u).fpc = s.fpc := rfl
@[simp] theorem State.setHist_ie (s : State) (c : Chan) (u : Hist) : (s.setHist c u).ie = s.ie := rfl
@[simp] theorem State.setHist_cfg (s : State) (c : Chan) (u : Hist) : (s.setHist c u).cfg = s.cfg := rfl
@[simp] theorem State.setHist_minlen (s : State) (c : Chan) (u : Hist) : (s.setHist c u).minlen = s.minlen := rfl
@[simp] theorem State.setHist_maxlen (s : State) (c : Chan) (u : Hist) : (s.setHist c u).maxlen = s.maxlen := rfl
@[simp] theorem State.setHist_writers (s : State) (c : Chan) (u : Hist) : (s.setHist c u).writers = s.writers := rfl
@[simp] theorem State.setHist_run (s : State) (c : Chan) (u : Hist) : (s.setHist c u).run = s.run := rfl
@[simp] theorem State.setHist_hists (s : State) (c : Chan) (u : Hist) : (s.setHist c u).hists = s.hists.set c u := rfl
@[simp] theorem State.setHist_codes (s : State) (c : Chan) (u : Hist) : (s.setHist c u).codes = s.codes := rfl
@[simp] theorem State.setHist_xs (s : State) (c : Chan) (u : Hist) : (s.setHist c u).xs = s.xs := rfl
@[simp] theorem State.setHist_nrows (s : State) (c : Chan) (u : Hist) : (s.setHist c u).nrows = s.nrows := rfl
@[simp] theorem State.setHist_cur (s : State) (c : Chan) (u : Hist) : (s.setHist c u).cur = s.cur := rfl
@[simp] theorem State.setHist_prev (s : State) (c : Chan) (u : Hist) : (s.setHist c u).prev = s.prev := rfl
@[simp] theorem State.setHist_res (s : State) (c : Chan) (u : Hist) : (s.setHist c u).res = s.res := rfl
@[simp] theorem State.setHist_resn (s : State) (c : Chan) (u : Hist) : (s.setHist c u).resn = s.resn := rfl
@[simp] theorem State.setHist_taddr (s : State) (c : Chan) (u : Hist) : (s.setHist c u).taddr = s.taddr := rfl
@[simp] theorem State.setHist_cmd (s : State) (c : Chan) (u : Hist) : (s.setHist c u).cmd = s.cmd := rfl
@[simp] theorem State.setHist_input (s : State) (c : Chan) (u : Hist) : (s.setHist c u).input = s.input := rfl
@[simp] theorem State.setHist_out (s : State) (c : Chan) (u : Hist) : (s.setHist c u).out = s.out := rfl
@[simp] theorem State.setHist_draws (s : State) (c : Chan) (u : Hist) : (s.setHist c u).draws = s.draws := rfl
@[simp] theorem State.setHist_reg (s : State) (c : Chan) (u : Hist) (i : Reg) : (s.setHist c u).reg i = s.reg i := rfl
@[simp] theorem State.setHist_writer (s : State) (c : Chan) (u : Hist) (v : Chan) : (s.setHist c u).writer v = s.writer v := rfl
@[simp] theorem State.setHist_runOf (s : State) (c : Chan) (u : Hist) (v : Chan) : (s.setHist c u).runOf v = s.runOf v := rfl
@[simp] theorem State.setHist_hist_self (s : State) (c : Chan) (u : Hist) : (s.setHist c u).hist c = u := by
  simp [State.setHist, State.hist]
@[simp] theorem State.setHist_hist_ne (s : State) (c : Chan) (u : Hist) (v : Chan) (h : v ≠ c) : (s.setHist c u).hist v = s.hist v := by
  have : c.val ≠ v.val := fun e => h (Fin.ext e.symm)
  simp [State.setHist, State.hist, Vector.getElem_set_ne, this]
@[simp] theorem State.setHist_code (s : State) (c : Chan) (u : Hist) (v : Chan) : (s.setHist c u).code v = s.code v := rfl
@[simp] theorem State.setHist_cmdByte (s : State) (c : Chan) (u : Hist) (a : Nat) : (s.setHist c u).cmdByte a = s.cmdByte a := rfl
@[simp] theorem State.setHist_inByte (s : State) (c : Chan) (u : Hist) (a : Nat) : (s.setHist c u).inByte a = s.inByte a := rfl
@[simp] theorem State.setHist_outByte (s : State) (c : Chan) (u : Hist) (a : Nat) : (s.setHist c u).outByte a = s.outByte a := rfl

/-! ## `setCode` -/

@[simp] theorem State.setCode_params (s : State) (c : Chan) (u : Code) : (s.setCode c u).params = s.params := rfl
@[simp] theorem State.setCode_seq (s : State) (c : Chan) (u : Code) : (s.setCode c u).seq = s.seq := rfl
@[simp] theorem State.setCode_pc (s : State) (c : Chan) (u : Code) : (s.setCode c u).pc = s.pc := rfl
@[simp] theorem State.setCode_x (s : State) (c : Chan) (u : Code) : (s.setCode c u).x = s.x := rfl
@[simp] theorem State.setCode_cause (s : State) (c : Chan) (u : Code) : (s.setCode c u).cause = s.cause := rfl
@[simp] theorem State.setCode_fpc (s : State) (c : Chan) (u : Code) : (s.setCode c u).fpc = s.fpc := rfl
@[simp] theorem State.setCode_ie (s : State) (c : Chan) (u : Code) : (s.setCode c u).ie = s.ie := rfl
@[simp] theorem State.setCode_cfg (s : State) (c : Chan) (u : Code) : (s.setCode c u).cfg = s.cfg := rfl
@[simp] theorem State.setCode_minlen (s : State) (c : Chan) (u : Code) : (s.setCode c u).minlen = s.minlen := rfl
@[simp] theorem State.setCode_maxlen (s : State) (c : Chan) (u : Code) : (s.setCode c u).maxlen = s.maxlen := rfl
@[simp] theorem State.setCode_writers (s : State) (c : Chan) (u : Code) : (s.setCode c u).writers = s.writers := rfl
@[simp] theorem State.setCode_run (s : State) (c : Chan) (u : Code) : (s.setCode c u).run = s.run := rfl
@[simp] theorem State.setCode_hists (s : State) (c : Chan) (u : Code) : (s.setCode c u).hists = s.hists := rfl
@[simp] theorem State.setCode_codes (s : State) (c : Chan) (u : Code) : (s.setCode c u).codes = s.codes.set c u := rfl
@[simp] theorem State.setCode_xs (s : State) (c : Chan) (u : Code) : (s.setCode c u).xs = s.xs := rfl
@[simp] theorem State.setCode_nrows (s : State) (c : Chan) (u : Code) : (s.setCode c u).nrows = s.nrows := rfl
@[simp] theorem State.setCode_cur (s : State) (c : Chan) (u : Code) : (s.setCode c u).cur = s.cur := rfl
@[simp] theorem State.setCode_prev (s : State) (c : Chan) (u : Code) : (s.setCode c u).prev = s.prev := rfl
@[simp] theorem State.setCode_res (s : State) (c : Chan) (u : Code) : (s.setCode c u).res = s.res := rfl
@[simp] theorem State.setCode_resn (s : State) (c : Chan) (u : Code) : (s.setCode c u).resn = s.resn := rfl
@[simp] theorem State.setCode_taddr (s : State) (c : Chan) (u : Code) : (s.setCode c u).taddr = s.taddr := rfl
@[simp] theorem State.setCode_cmd (s : State) (c : Chan) (u : Code) : (s.setCode c u).cmd = s.cmd := rfl
@[simp] theorem State.setCode_input (s : State) (c : Chan) (u : Code) : (s.setCode c u).input = s.input := rfl
@[simp] theorem State.setCode_out (s : State) (c : Chan) (u : Code) : (s.setCode c u).out = s.out := rfl
@[simp] theorem State.setCode_draws (s : State) (c : Chan) (u : Code) : (s.setCode c u).draws = s.draws := rfl
@[simp] theorem State.setCode_reg (s : State) (c : Chan) (u : Code) (i : Reg) : (s.setCode c u).reg i = s.reg i := rfl
@[simp] theorem State.setCode_writer (s : State) (c : Chan) (u : Code) (v : Chan) : (s.setCode c u).writer v = s.writer v := rfl
@[simp] theorem State.setCode_runOf (s : State) (c : Chan) (u : Code) (v : Chan) : (s.setCode c u).runOf v = s.runOf v := rfl
@[simp] theorem State.setCode_hist (s : State) (c : Chan) (u : Code) (v : Chan) : (s.setCode c u).hist v = s.hist v := rfl
@[simp] theorem State.setCode_code_self (s : State) (c : Chan) (u : Code) : (s.setCode c u).code c = u := by
  simp [State.setCode, State.code]
@[simp] theorem State.setCode_code_ne (s : State) (c : Chan) (u : Code) (v : Chan) (h : v ≠ c) : (s.setCode c u).code v = s.code v := by
  have : c.val ≠ v.val := fun e => h (Fin.ext e.symm)
  simp [State.setCode, State.code, Vector.getElem_set_ne, this]
@[simp] theorem State.setCode_cmdByte (s : State) (c : Chan) (u : Code) (a : Nat) : (s.setCode c u).cmdByte a = s.cmdByte a := rfl
@[simp] theorem State.setCode_inByte (s : State) (c : Chan) (u : Code) (a : Nat) : (s.setCode c u).inByte a = s.inByte a := rfl
@[simp] theorem State.setCode_outByte (s : State) (c : Chan) (u : Code) (a : Nat) : (s.setCode c u).outByte a = s.outByte a := rfl

/-! ## `setOut` -/

@[simp] theorem State.setOut_params (s : State) (m : Memory) : (s.setOut m).params = s.params := rfl
@[simp] theorem State.setOut_seq (s : State) (m : Memory) : (s.setOut m).seq = s.seq := rfl
@[simp] theorem State.setOut_pc (s : State) (m : Memory) : (s.setOut m).pc = s.pc := rfl
@[simp] theorem State.setOut_x (s : State) (m : Memory) : (s.setOut m).x = s.x := rfl
@[simp] theorem State.setOut_cause (s : State) (m : Memory) : (s.setOut m).cause = s.cause := rfl
@[simp] theorem State.setOut_fpc (s : State) (m : Memory) : (s.setOut m).fpc = s.fpc := rfl
@[simp] theorem State.setOut_ie (s : State) (m : Memory) : (s.setOut m).ie = s.ie := rfl
@[simp] theorem State.setOut_cfg (s : State) (m : Memory) : (s.setOut m).cfg = s.cfg := rfl
@[simp] theorem State.setOut_minlen (s : State) (m : Memory) : (s.setOut m).minlen = s.minlen := rfl
@[simp] theorem State.setOut_maxlen (s : State) (m : Memory) : (s.setOut m).maxlen = s.maxlen := rfl
@[simp] theorem State.setOut_writers (s : State) (m : Memory) : (s.setOut m).writers = s.writers := rfl
@[simp] theorem State.setOut_run (s : State) (m : Memory) : (s.setOut m).run = s.run := rfl
@[simp] theorem State.setOut_hists (s : State) (m : Memory) : (s.setOut m).hists = s.hists := rfl
@[simp] theorem State.setOut_codes (s : State) (m : Memory) : (s.setOut m).codes = s.codes := rfl
@[simp] theorem State.setOut_xs (s : State) (m : Memory) : (s.setOut m).xs = s.xs := rfl
@[simp] theorem State.setOut_nrows (s : State) (m : Memory) : (s.setOut m).nrows = s.nrows := rfl
@[simp] theorem State.setOut_cur (s : State) (m : Memory) : (s.setOut m).cur = s.cur := rfl
@[simp] theorem State.setOut_prev (s : State) (m : Memory) : (s.setOut m).prev = s.prev := rfl
@[simp] theorem State.setOut_res (s : State) (m : Memory) : (s.setOut m).res = s.res := rfl
@[simp] theorem State.setOut_resn (s : State) (m : Memory) : (s.setOut m).resn = s.resn := rfl
@[simp] theorem State.setOut_taddr (s : State) (m : Memory) : (s.setOut m).taddr = s.taddr := rfl
@[simp] theorem State.setOut_cmd (s : State) (m : Memory) : (s.setOut m).cmd = s.cmd := rfl
@[simp] theorem State.setOut_input (s : State) (m : Memory) : (s.setOut m).input = s.input := rfl
@[simp] theorem State.setOut_out (s : State) (m : Memory) : (s.setOut m).out = m := rfl
@[simp] theorem State.setOut_draws (s : State) (m : Memory) : (s.setOut m).draws = s.draws := rfl
@[simp] theorem State.setOut_reg (s : State) (m : Memory) (i : Reg) : (s.setOut m).reg i = s.reg i := rfl
@[simp] theorem State.setOut_writer (s : State) (m : Memory) (v : Chan) : (s.setOut m).writer v = s.writer v := rfl
@[simp] theorem State.setOut_runOf (s : State) (m : Memory) (v : Chan) : (s.setOut m).runOf v = s.runOf v := rfl
@[simp] theorem State.setOut_hist (s : State) (m : Memory) (v : Chan) : (s.setOut m).hist v = s.hist v := rfl
@[simp] theorem State.setOut_code (s : State) (m : Memory) (v : Chan) : (s.setOut m).code v = s.code v := rfl
@[simp] theorem State.setOut_cmdByte (s : State) (m : Memory) (a : Nat) : (s.setOut m).cmdByte a = s.cmdByte a := rfl
@[simp] theorem State.setOut_inByte (s : State) (m : Memory) (a : Nat) : (s.setOut m).inByte a = s.inByte a := rfl

/-! ## `startGroup` -/

@[simp] theorem State.startGroup_params (s : State) (n : Fin 257) : (s.startGroup n).params = s.params := rfl
@[simp] theorem State.startGroup_seq (s : State) (n : Fin 257) : (s.startGroup n).seq = s.seq := rfl
@[simp] theorem State.startGroup_pc (s : State) (n : Fin 257) : (s.startGroup n).pc = s.pc := rfl
@[simp] theorem State.startGroup_x (s : State) (n : Fin 257) : (s.startGroup n).x = s.x := rfl
@[simp] theorem State.startGroup_cause (s : State) (n : Fin 257) : (s.startGroup n).cause = s.cause := rfl
@[simp] theorem State.startGroup_fpc (s : State) (n : Fin 257) : (s.startGroup n).fpc = s.fpc := rfl
@[simp] theorem State.startGroup_ie (s : State) (n : Fin 257) : (s.startGroup n).ie = s.ie := rfl
@[simp] theorem State.startGroup_cfg (s : State) (n : Fin 257) : (s.startGroup n).cfg = s.cfg := rfl
@[simp] theorem State.startGroup_minlen (s : State) (n : Fin 257) : (s.startGroup n).minlen = s.minlen := rfl
@[simp] theorem State.startGroup_maxlen (s : State) (n : Fin 257) : (s.startGroup n).maxlen = s.maxlen := rfl
@[simp] theorem State.startGroup_writers (s : State) (n : Fin 257) : (s.startGroup n).writers = s.writers := rfl
@[simp] theorem State.startGroup_run (s : State) (n : Fin 257) : (s.startGroup n).run = s.run := rfl
@[simp] theorem State.startGroup_hists (s : State) (n : Fin 257) : (s.startGroup n).hists = s.hists := rfl
@[simp] theorem State.startGroup_codes (s : State) (n : Fin 257) : (s.startGroup n).codes = s.codes := rfl
@[simp] theorem State.startGroup_xs (s : State) (n : Fin 257) : (s.startGroup n).xs = n := rfl
@[simp] theorem State.startGroup_nrows (s : State) (n : Fin 257) : (s.startGroup n).nrows = 0 := rfl
@[simp] theorem State.startGroup_cur (s : State) (n : Fin 257) : (s.startGroup n).cur = s.cur := rfl
@[simp] theorem State.startGroup_prev (s : State) (n : Fin 257) : (s.startGroup n).prev = s.prev := rfl
@[simp] theorem State.startGroup_res (s : State) (n : Fin 257) : (s.startGroup n).res = s.res := rfl
@[simp] theorem State.startGroup_resn (s : State) (n : Fin 257) : (s.startGroup n).resn = 0 := rfl
@[simp] theorem State.startGroup_taddr (s : State) (n : Fin 257) : (s.startGroup n).taddr = s.taddr := rfl
@[simp] theorem State.startGroup_cmd (s : State) (n : Fin 257) : (s.startGroup n).cmd = s.cmd := rfl
@[simp] theorem State.startGroup_input (s : State) (n : Fin 257) : (s.startGroup n).input = s.input := rfl
@[simp] theorem State.startGroup_out (s : State) (n : Fin 257) : (s.startGroup n).out = s.out := rfl
@[simp] theorem State.startGroup_draws (s : State) (n : Fin 257) : (s.startGroup n).draws = s.draws := rfl
@[simp] theorem State.startGroup_reg (s : State) (n : Fin 257) (i : Reg) : (s.startGroup n).reg i = s.reg i := rfl
@[simp] theorem State.startGroup_writer (s : State) (n : Fin 257) (v : Chan) : (s.startGroup n).writer v = s.writer v := rfl
@[simp] theorem State.startGroup_runOf (s : State) (n : Fin 257) (v : Chan) : (s.startGroup n).runOf v = s.runOf v := rfl
@[simp] theorem State.startGroup_hist (s : State) (n : Fin 257) (v : Chan) : (s.startGroup n).hist v = s.hist v := rfl
@[simp] theorem State.startGroup_code (s : State) (n : Fin 257) (v : Chan) : (s.startGroup n).code v = s.code v := rfl
@[simp] theorem State.startGroup_cmdByte (s : State) (n : Fin 257) (a : Nat) : (s.startGroup n).cmdByte a = s.cmdByte a := rfl
@[simp] theorem State.startGroup_inByte (s : State) (n : Fin 257) (a : Nat) : (s.startGroup n).inByte a = s.inByte a := rfl
@[simp] theorem State.startGroup_outByte (s : State) (n : Fin 257) (a : Nat) : (s.startGroup n).outByte a = s.outByte a := rfl

/-! ## `loadRow` -/

@[simp] theorem State.loadRow_params (s : State) (cu pr : Vector Row 4) (n : Fin 3) : (s.loadRow cu pr n).params = s.params := rfl
@[simp] theorem State.loadRow_seq (s : State) (cu pr : Vector Row 4) (n : Fin 3) : (s.loadRow cu pr n).seq = s.seq := rfl
@[simp] theorem State.loadRow_pc (s : State) (cu pr : Vector Row 4) (n : Fin 3) : (s.loadRow cu pr n).pc = s.pc := rfl
@[simp] theorem State.loadRow_x (s : State) (cu pr : Vector Row 4) (n : Fin 3) : (s.loadRow cu pr n).x = s.x := rfl
@[simp] theorem State.loadRow_cause (s : State) (cu pr : Vector Row 4) (n : Fin 3) : (s.loadRow cu pr n).cause = s.cause := rfl
@[simp] theorem State.loadRow_fpc (s : State) (cu pr : Vector Row 4) (n : Fin 3) : (s.loadRow cu pr n).fpc = s.fpc := rfl
@[simp] theorem State.loadRow_ie (s : State) (cu pr : Vector Row 4) (n : Fin 3) : (s.loadRow cu pr n).ie = s.ie := rfl
@[simp] theorem State.loadRow_cfg (s : State) (cu pr : Vector Row 4) (n : Fin 3) : (s.loadRow cu pr n).cfg = s.cfg := rfl
@[simp] theorem State.loadRow_minlen (s : State) (cu pr : Vector Row 4) (n : Fin 3) : (s.loadRow cu pr n).minlen = s.minlen := rfl
@[simp] theorem State.loadRow_maxlen (s : State) (cu pr : Vector Row 4) (n : Fin 3) : (s.loadRow cu pr n).maxlen = s.maxlen := rfl
@[simp] theorem State.loadRow_writers (s : State) (cu pr : Vector Row 4) (n : Fin 3) : (s.loadRow cu pr n).writers = s.writers := rfl
@[simp] theorem State.loadRow_run (s : State) (cu pr : Vector Row 4) (n : Fin 3) : (s.loadRow cu pr n).run = s.run := rfl
@[simp] theorem State.loadRow_hists (s : State) (cu pr : Vector Row 4) (n : Fin 3) : (s.loadRow cu pr n).hists = s.hists := rfl
@[simp] theorem State.loadRow_codes (s : State) (cu pr : Vector Row 4) (n : Fin 3) : (s.loadRow cu pr n).codes = s.codes := rfl
@[simp] theorem State.loadRow_xs (s : State) (cu pr : Vector Row 4) (n : Fin 3) : (s.loadRow cu pr n).xs = s.xs := rfl
@[simp] theorem State.loadRow_nrows (s : State) (cu pr : Vector Row 4) (n : Fin 3) : (s.loadRow cu pr n).nrows = n := rfl
@[simp] theorem State.loadRow_cur (s : State) (cu pr : Vector Row 4) (n : Fin 3) : (s.loadRow cu pr n).cur = cu := rfl
@[simp] theorem State.loadRow_prev (s : State) (cu pr : Vector Row 4) (n : Fin 3) : (s.loadRow cu pr n).prev = pr := rfl
@[simp] theorem State.loadRow_res (s : State) (cu pr : Vector Row 4) (n : Fin 3) : (s.loadRow cu pr n).res = s.res := rfl
@[simp] theorem State.loadRow_resn (s : State) (cu pr : Vector Row 4) (n : Fin 3) : (s.loadRow cu pr n).resn = s.resn := rfl
@[simp] theorem State.loadRow_taddr (s : State) (cu pr : Vector Row 4) (n : Fin 3) : (s.loadRow cu pr n).taddr = s.taddr := rfl
@[simp] theorem State.loadRow_cmd (s : State) (cu pr : Vector Row 4) (n : Fin 3) : (s.loadRow cu pr n).cmd = s.cmd := rfl
@[simp] theorem State.loadRow_input (s : State) (cu pr : Vector Row 4) (n : Fin 3) : (s.loadRow cu pr n).input = s.input := rfl
@[simp] theorem State.loadRow_out (s : State) (cu pr : Vector Row 4) (n : Fin 3) : (s.loadRow cu pr n).out = s.out := rfl
@[simp] theorem State.loadRow_draws (s : State) (cu pr : Vector Row 4) (n : Fin 3) : (s.loadRow cu pr n).draws = s.draws := rfl
@[simp] theorem State.loadRow_reg (s : State) (cu pr : Vector Row 4) (n : Fin 3) (i : Reg) : (s.loadRow cu pr n).reg i = s.reg i := rfl
@[simp] theorem State.loadRow_writer (s : State) (cu pr : Vector Row 4) (n : Fin 3) (v : Chan) : (s.loadRow cu pr n).writer v = s.writer v := rfl
@[simp] theorem State.loadRow_runOf (s : State) (cu pr : Vector Row 4) (n : Fin 3) (v : Chan) : (s.loadRow cu pr n).runOf v = s.runOf v := rfl
@[simp] theorem State.loadRow_hist (s : State) (cu pr : Vector Row 4) (n : Fin 3) (v : Chan) : (s.loadRow cu pr n).hist v = s.hist v := rfl
@[simp] theorem State.loadRow_code (s : State) (cu pr : Vector Row 4) (n : Fin 3) (v : Chan) : (s.loadRow cu pr n).code v = s.code v := rfl
@[simp] theorem State.loadRow_cmdByte (s : State) (cu pr : Vector Row 4) (n : Fin 3) (a : Nat) : (s.loadRow cu pr n).cmdByte a = s.cmdByte a := rfl
@[simp] theorem State.loadRow_inByte (s : State) (cu pr : Vector Row 4) (n : Fin 3) (a : Nat) : (s.loadRow cu pr n).inByte a = s.inByte a := rfl
@[simp] theorem State.loadRow_outByte (s : State) (cu pr : Vector Row 4) (n : Fin 3) (a : Nat) : (s.loadRow cu pr n).outByte a = s.outByte a := rfl

/-! ## `setResiduals` -/

@[simp] theorem State.setResiduals_params (s : State) (r : Row) (n : Fin 257) : (s.setResiduals r n).params = s.params := rfl
@[simp] theorem State.setResiduals_seq (s : State) (r : Row) (n : Fin 257) : (s.setResiduals r n).seq = s.seq := rfl
@[simp] theorem State.setResiduals_pc (s : State) (r : Row) (n : Fin 257) : (s.setResiduals r n).pc = s.pc := rfl
@[simp] theorem State.setResiduals_x (s : State) (r : Row) (n : Fin 257) : (s.setResiduals r n).x = s.x := rfl
@[simp] theorem State.setResiduals_cause (s : State) (r : Row) (n : Fin 257) : (s.setResiduals r n).cause = s.cause := rfl
@[simp] theorem State.setResiduals_fpc (s : State) (r : Row) (n : Fin 257) : (s.setResiduals r n).fpc = s.fpc := rfl
@[simp] theorem State.setResiduals_ie (s : State) (r : Row) (n : Fin 257) : (s.setResiduals r n).ie = s.ie := rfl
@[simp] theorem State.setResiduals_cfg (s : State) (r : Row) (n : Fin 257) : (s.setResiduals r n).cfg = s.cfg := rfl
@[simp] theorem State.setResiduals_minlen (s : State) (r : Row) (n : Fin 257) : (s.setResiduals r n).minlen = s.minlen := rfl
@[simp] theorem State.setResiduals_maxlen (s : State) (r : Row) (n : Fin 257) : (s.setResiduals r n).maxlen = s.maxlen := rfl
@[simp] theorem State.setResiduals_writers (s : State) (r : Row) (n : Fin 257) : (s.setResiduals r n).writers = s.writers := rfl
@[simp] theorem State.setResiduals_run (s : State) (r : Row) (n : Fin 257) : (s.setResiduals r n).run = s.run := rfl
@[simp] theorem State.setResiduals_hists (s : State) (r : Row) (n : Fin 257) : (s.setResiduals r n).hists = s.hists := rfl
@[simp] theorem State.setResiduals_codes (s : State) (r : Row) (n : Fin 257) : (s.setResiduals r n).codes = s.codes := rfl
@[simp] theorem State.setResiduals_xs (s : State) (r : Row) (n : Fin 257) : (s.setResiduals r n).xs = s.xs := rfl
@[simp] theorem State.setResiduals_nrows (s : State) (r : Row) (n : Fin 257) : (s.setResiduals r n).nrows = s.nrows := rfl
@[simp] theorem State.setResiduals_cur (s : State) (r : Row) (n : Fin 257) : (s.setResiduals r n).cur = s.cur := rfl
@[simp] theorem State.setResiduals_prev (s : State) (r : Row) (n : Fin 257) : (s.setResiduals r n).prev = s.prev := rfl
@[simp] theorem State.setResiduals_res (s : State) (r : Row) (n : Fin 257) : (s.setResiduals r n).res = r := rfl
@[simp] theorem State.setResiduals_resn (s : State) (r : Row) (n : Fin 257) : (s.setResiduals r n).resn = n := rfl
@[simp] theorem State.setResiduals_taddr (s : State) (r : Row) (n : Fin 257) : (s.setResiduals r n).taddr = s.taddr := rfl
@[simp] theorem State.setResiduals_cmd (s : State) (r : Row) (n : Fin 257) : (s.setResiduals r n).cmd = s.cmd := rfl
@[simp] theorem State.setResiduals_input (s : State) (r : Row) (n : Fin 257) : (s.setResiduals r n).input = s.input := rfl
@[simp] theorem State.setResiduals_out (s : State) (r : Row) (n : Fin 257) : (s.setResiduals r n).out = s.out := rfl
@[simp] theorem State.setResiduals_draws (s : State) (r : Row) (n : Fin 257) : (s.setResiduals r n).draws = s.draws := rfl
@[simp] theorem State.setResiduals_reg (s : State) (r : Row) (n : Fin 257) (i : Reg) : (s.setResiduals r n).reg i = s.reg i := rfl
@[simp] theorem State.setResiduals_writer (s : State) (r : Row) (n : Fin 257) (v : Chan) : (s.setResiduals r n).writer v = s.writer v := rfl
@[simp] theorem State.setResiduals_runOf (s : State) (r : Row) (n : Fin 257) (v : Chan) : (s.setResiduals r n).runOf v = s.runOf v := rfl
@[simp] theorem State.setResiduals_hist (s : State) (r : Row) (n : Fin 257) (v : Chan) : (s.setResiduals r n).hist v = s.hist v := rfl
@[simp] theorem State.setResiduals_code (s : State) (r : Row) (n : Fin 257) (v : Chan) : (s.setResiduals r n).code v = s.code v := rfl
@[simp] theorem State.setResiduals_cmdByte (s : State) (r : Row) (n : Fin 257) (a : Nat) : (s.setResiduals r n).cmdByte a = s.cmdByte a := rfl
@[simp] theorem State.setResiduals_inByte (s : State) (r : Row) (n : Fin 257) (a : Nat) : (s.setResiduals r n).inByte a = s.inByte a := rfl
@[simp] theorem State.setResiduals_outByte (s : State) (r : Row) (n : Fin 257) (a : Nat) : (s.setResiduals r n).outByte a = s.outByte a := rfl

end Sys2Proof.Machine
end

