-- ==== Sys2Proof/Laws/Ops.lean ====
section
/-! SUPPORT. What the shared operations can do: the flow of a pseudocode, loops, line buffers, reads and writes of memory. -/

namespace Sys2Proof.Machine

/-! ## Flow -/

@[simp] theorem Flow.go_andThen (s : State) (k : State → Flow) : (Flow.go s).andThen k = k s := rfl
@[simp] theorem Flow.raised_andThen (f : FaultName) (s : State) (k : State → Flow) :
    (Flow.raised f s).andThen k = .raised f s := rfl
@[simp] theorem Flow.stop_andThen (f : Fault) (k : State → Flow) : (Flow.stop f).andThen k = .stop f := rfl
@[simp] theorem Flow.finish_go (s : State) : (Flow.go s).finish = .next s.advance := rfl
@[simp] theorem Flow.finish_raised (f : FaultName) (s : State) : (Flow.raised f s).finish = .next (s.raiseFault f) := rfl
@[simp] theorem Flow.finish_stop (f : Fault) : (Flow.stop f).finish = .fault f := rfl

/-- Two statements in a row go on exactly when the first goes on and the second goes on from there. -/
theorem Flow.andThen_eq_go {r : Flow} {k : State → Flow} {t : State} :
    r.andThen k = .go t ↔ ∃ s, r = .go s ∧ k s = .go t := by
  cases r <;> simp

/-- Two statements in a row raise when the first raises, or goes on to a state where the second raises. -/
theorem Flow.andThen_eq_raised {r : Flow} {k : State → Flow} {f : FaultName} {t : State} :
    r.andThen k = .raised f t ↔ r = .raised f t ∨ ∃ s, r = .go s ∧ k s = .raised f t := by
  cases r <;> simp

theorem Flow.andThen_eq_stop {r : Flow} {k : State → Flow} {f : Fault} :
    r.andThen k = .stop f ↔ r = .stop f ∨ ∃ s, r = .go s ∧ k s = .stop f := by
  cases r <;> simp

theorem Flow.andThen_assoc (r : Flow) (k l : State → Flow) :
    (r.andThen k).andThen l = r.andThen fun s => (k s).andThen l := by
  cases r <;> rfl

/-- The end of a command answers a next state in two ways: it completed, or it raised. -/
theorem Flow.finish_eq_next {r : Flow} {t : State} :
    r.finish = .next t ↔ (∃ s, r = .go s ∧ t = s.advance) ∨ ∃ f s, r = .raised f s ∧ t = s.raiseFault f := by
  cases r with
  | go s => simp [eq_comm]
  | raised f s => simp [eq_comm]
  | stop f => simp

/-- A relation between the state before and the state reached (whether the pseudocode goes on or raises there). -/
def Flow.Rel (R : State → State → Prop) (s : State) (r : Flow) : Prop :=
  match r with
  | .go t => R s t
  | .raised _ t => R s t
  | .stop _ => True

theorem Flow.Rel.andThen {R : State → State → Prop} (trans : ∀ a b c, R a b → R b c → R a c) {s : State} {r : Flow}
    {k : State → Flow} (h : r.Rel R s) (hk : ∀ t, (k t).Rel R t) : (r.andThen k).Rel R s := by
  cases r with
  | go t =>
    simp only [Flow.Rel] at h
    have := hk t
    simp only [Flow.go_andThen]
    cases hkt : k t with
    | go u => rw [hkt] at this; exact trans _ _ _ h this
    | raised f u => rw [hkt] at this; exact trans _ _ _ h this
    | stop f => trivial
  | raised f t => exact h
  | stop f => trivial

/-! ## Loops -/

@[simp] theorem forEach_nil {α : Type} (body : α → State → Flow) (s : State) : forEach body [] s = .go s := rfl
@[simp] theorem forEach_cons {α : Type} (body : α → State → Flow) (a : α) (l : List α) (s : State) :
    forEach body (a :: l) s = (body a s).andThen (forEach body l) := rfl

theorem forEach_append {α : Type} (body : α → State → Flow) (l₁ l₂ : List α) (s : State) :
    forEach body (l₁ ++ l₂) s = (forEach body l₁ s).andThen (forEach body l₂) := by
  induction l₁ generalizing s with
  | nil => rfl
  | cons a l ih =>
    simp only [List.cons_append, forEach_cons, Flow.andThen_assoc]
    congr 1; funext t; exact ih t

/-- A relation that every round of a loop keeps holds between the state before the loop and the state it reaches. -/
theorem forEach_rel {α : Type} {R : State → State → Prop} (refl : ∀ s, R s s)
    (trans : ∀ a b c, R a b → R b c → R a c) {body : α → State → Flow} (l : List α)
    (h : ∀ a ∈ l, ∀ s, (body a s).Rel R s) (s : State) : (forEach body l s).Rel R s := by
  induction l generalizing s with
  | nil => exact refl s
  | cons a l ih =>
    exact Flow.Rel.andThen trans (h a (by simp) s) fun t => ih (fun b hb => h b (by simp [hb])) t

/-- A property that every round keeps, on its way and where it raises, holds where the loop ends or raises; the loop does not
stop if no round does. -/
theorem forEach_inv {α : Type} {P : State → Prop} {body : α → State → Flow} (l : List α)
    (h : ∀ a ∈ l, ∀ s, P s → (∃ t, body a s = .go t ∧ P t) ∨ ∃ f t, body a s = .raised f t ∧ P t) {s : State} (hs : P s) :
    (∃ t, forEach body l s = .go t ∧ P t) ∨ ∃ f t, forEach body l s = .raised f t ∧ P t := by
  induction l generalizing s with
  | nil => exact .inl ⟨s, rfl, hs⟩
  | cons a l ih =>
    rcases h a (by simp) s hs with ⟨t, ht, pt⟩ | ⟨f, t, ht, pt⟩
    · simpa [ht] using ih (fun b hb => h b (by simp [hb])) pt
    · exact .inr ⟨f, t, by simp [ht], pt⟩

/-- A measured property that lets every round go on carries the loop to its end. -/
theorem forEach_go {α : Type} {P : List α → State → Prop} {body : α → State → Flow}
    (h : ∀ a l s, P (a :: l) s → ∃ t, body a s = .go t ∧ P l t) (l : List α) {s : State} (hs : P l s) :
    ∃ t, forEach body l s = .go t ∧ P [] t := by
  induction l generalizing s with
  | nil => exact ⟨s, rfl, hs⟩
  | cons a l ih =>
    obtain ⟨t, ht, pt⟩ := h a l s hs
    simpa [ht] using ih pt

/-! ## Tables and rows -/

theorem entry_eq {w n : Nat} (v : Vector (BitVec w) n) {i : Nat} (h : i < n) : entry v i = v[i] := by
  simp [entry, h]

theorem entry_setIfInBounds {w n : Nat} (v : Vector (BitVec w) n) (i j : Nat) (u : BitVec w) (h : i < n) :
    entry (v.setIfInBounds i u) j = if i = j then u else entry v j := by
  unfold entry
  rw [Vector.getElem?_setIfInBounds]
  by_cases hij : i = j
  · subst hij; simp [h]
  · simp [hij]

/-- `Row.fill` writes the first `n` entries and leaves the others alone. -/
theorem Row.at_fill (f : Nat → Word) (n : Nat) (r : Row) (i : Nat) (hn : n ≤ 256) :
    Row.at (Row.fill f n r) i = if i < n then f i else Row.at r i := by
  induction n with
  | zero => simp [Row.fill]
  | succ n ih =>
    have h := ih (by omega)
    simp only [Row.at] at h ⊢
    simp only [Row.fill]
    rw [entry_setIfInBounds _ _ _ _ (by omega), h]
    by_cases h1 : n = i
    · simp [h1]
    · by_cases h2 : i < n
      · simp [h1, h2, Nat.lt_succ_of_lt h2]
      · have : ¬ i < n + 1 := by omega
        simp [h1, h2, this]

/-! ## Memories -/

@[simp] theorem State.setOut_outByte_put_self (s : State) (a : Nat) (v : Byte) :
    (s.setOut (Memory.put s.out a v)).outByte a = v := by
  simp [State.outByte, State.setOut]

theorem State.setOut_outByte_put_ne (s : State) {a b : Nat} (v : Byte) (h : b ≠ a) :
    (s.setOut (Memory.put s.out a v)).outByte b = s.outByte b := by
  simp [State.outByte, State.setOut, Memory.byte_put_ne _ _ _ h]

@[simp] theorem State.inBytes_length (s : State) (a n : Nat) : (s.inBytes a n).length = n := by
  induction n generalizing a with
  | zero => rfl
  | succ n ih => simp [State.inBytes, ih]

theorem State.inBytes_congr {s t : State} (h : t.input = s.input) (a n : Nat) : t.inBytes a n = s.inBytes a n := by
  induction n generalizing a with
  | zero => rfl
  | succ n ih => simp [State.inBytes, State.inByte, h, ih]

/-- The bytes `l` put into a memory from address `a` up. -/
def Memory.putBytes : Memory → Nat → List Byte → Memory
  | m, _, [] => m
  | m, a, b :: l => Memory.putBytes (Memory.put m a b) (a + 1) l

theorem Memory.get_putBytes (m : Memory) (a : Nat) (l : List Byte) (b : Nat) :
    Memory.get (Memory.putBytes m a l) b =
      if a ≤ b ∧ b < a + l.length then l[b - a]? else Memory.get m b := by
  induction l generalizing m a with
  | nil =>
    have : ¬ (a ≤ b ∧ b < a + 0) := by omega
    simp only [Memory.putBytes, List.length_nil, this, if_false]
  | cons v l ih =>
    simp only [Memory.putBytes, ih, Memory.get_put, List.length_cons]
    by_cases h1 : b = a
    · subst h1
      simp
    · by_cases h2 : a + 1 ≤ b ∧ b < a + 1 + l.length
      · have h3 : a ≤ b ∧ b < a + (l.length + 1) := by omega
        obtain ⟨k, rfl⟩ : ∃ k, b = a + 1 + k := ⟨b - (a + 1), by omega⟩
        have e1 : a + 1 + k - (a + 1) = k := by omega
        have e2 : a + 1 + k - a = k + 1 := by omega
        rw [if_pos h2, if_pos h3, e1, e2, List.getElem?_cons_succ]
      · have h3 : ¬ (a ≤ b ∧ b < a + (l.length + 1)) := by omega
        rw [if_neg h2, if_neg h3, if_neg h1]

theorem Memory.wf_putBytes (m : Memory) (a : Nat) (l : List Byte) (h : Memory.wf m = true) :
    Memory.wf (Memory.putBytes m a l) = true := by
  induction l generalizing m a with
  | nil => exact h
  | cons v l ih => exact ih _ _ (Memory.wf_put m a v h)

theorem Memory.below_putBytes (m : Memory) (n a : Nat) (l : List Byte) (h : Memory.below m n = true)
    (ha : a + l.length ≤ n) : Memory.below (Memory.putBytes m a l) n = true := by
  induction l generalizing m a with
  | nil => exact h
  | cons v l ih =>
    simp only [List.length_cons] at ha
    exact ih _ _ (Memory.below_put m n a v h (by omega)) (by omega)

/-- All that `memWrite` can do: it puts the bytes into OUT, or stops because one lies outside OUT. -/
theorem memWrite_eq (a : Nat) (l : List Byte) (s : State) :
    memWrite a l s =
      if l = [] ∨ a + l.length ≤ s.params.outBytes.val then .go (s.setOut (Memory.putBytes s.out a l))
      else .stop .outAddress := by
  induction l generalizing a s with
  | nil => simp [memWrite, Memory.putBytes, State.setOut]
  | cons v l ih =>
    simp only [memWrite, ih, State.setOut_params, List.length_cons, reduceCtorEq, false_or]
    by_cases h1 : a ≥ s.params.outBytes.val
    · have : ¬ a + (l.length + 1) ≤ s.params.outBytes.val := by omega
      simp [h1, this]
    · by_cases h2 : l = []
      · subst h2
        have : a + 1 ≤ s.params.outBytes.val := by omega
        simp [h1, this, Memory.putBytes, State.setOut]
      · by_cases h3 : a + (l.length + 1) ≤ s.params.outBytes.val
        · have : a + 1 + l.length ≤ s.params.outBytes.val := by omega
          simp [h1, h2, h3, this, Memory.putBytes, State.setOut]
        · have : ¬ a + 1 + l.length ≤ s.params.outBytes.val := by omega
          simp [h1, h2, h3, this]

/-- All that `memRead` can do: it raises `MemRange` in the state it was given, or goes on with the bytes read. -/
theorem memRead_eq (a n : Nat) (k : List Byte → State → Flow) (s : State) :
    memRead a n k s = if a + n ≤ s.params.inBytes.val then k (s.inBytes a n) s else .raised .memRange s := by
  unfold memRead
  split <;> split <;> first | rfl | omega

end Sys2Proof.Machine
end

