-- ==== Sys2Proof/Laws/BitWriter.lean ====
section
/-! SUPPORT. What the bit writer's shared operation can do (spec/41_bit_writer.md R141, R142): when it raises, when it goes on,
and the state it goes on to. -/

namespace Sys2Proof.Machine

@[simp] theorem lowBytes_length (v k : Nat) : (lowBytes v k).length = k := by
  induction k generalizing v with
  | zero => rfl
  | succ k ih => simp [lowBytes, ih]

/-- Byte `i` of the low bytes of a number. -/
theorem lowBytes_getElem? (v k i : Nat) (h : i < k) : (lowBytes v k)[i]? = some (BitVec.ofNat 8 (v / 256 ^ i)) := by
  induction k generalizing v i with
  | zero => omega
  | succ k ih =>
    cases i with
    | zero => simp [lowBytes]
    | succ i =>
      simp only [lowBytes, List.getElem?_cons_succ]
      rw [ih (v / 256) i (by omega), Nat.div_div_eq_div_mul, Nat.pow_succ, Nat.mul_comm]

/-- The pending bits and the new ones together (R141: `acc`). -/
def bwAcc (wr : Writer) (count value : Nat) : Nat := wr.acc.toNat + value % 2 ^ count * 2 ^ wr.nbits.val

/-- The number of bytes a write completes (R141: `k`). -/
def bwDone (wr : Writer) (count : Nat) : Nat := (wr.nbits.val + count) / 8

/-- The writer after a write that is not refused (R141). -/
def bwWriter (wr : Writer) (count value : Nat) : Writer :=
  { wr with
    acc := BitVec.ofNat 64 (bwAcc wr count value / 2 ^ (8 * bwDone wr count))
    nbits := ⟨(wr.nbits.val + count) % 8, Nat.mod_lt _ (by decide)⟩
    bytes := wr.bytes + BitVec.ofNat 32 (bwDone wr count) }

/-- The state after a write that is not refused (R141). -/
def bwAfter (w : Chan) (count value : Nat) (s : State) : State :=
  (s.setOut (Memory.putBytes s.out (s.outCursor w)
    (lowBytes (bwAcc (s.writer w) count value) (bwDone (s.writer w) count)))).setWriter w (bwWriter (s.writer w) count value)

/-- All that `BwWrite` can do (R141). -/
theorem bwWrite_eq (w : Chan) (count value : Nat) (s : State) :
    bwWrite w count value s =
      if count > 56 then .raised .bwCount s
      else if (s.writer w).bytes.toNat + bwDone (s.writer w) count > (s.writer w).limit.toNat then .raised .bwOverflow s
      else if bwDone (s.writer w) count = 0 ∨ s.outCursor w + bwDone (s.writer w) count ≤ s.params.outBytes.val then
        .go (bwAfter w count value s)
      else .stop .outAddress := by
  have hnil : ∀ v k, lowBytes v k = [] ↔ k = 0 := fun v k => by
    rw [← List.length_eq_zero_iff, lowBytes_length]
  unfold bwWrite
  simp only [memWrite_eq, hnil, lowBytes_length]
  by_cases h1 : count > 56
  · rw [if_pos h1, if_pos h1]
  · rw [if_neg h1, if_neg h1]
    by_cases h2 : (s.writer w).bytes.toNat + bwDone (s.writer w) count > (s.writer w).limit.toNat
    · rw [if_pos h2]; exact if_pos h2
    · rw [if_neg h2]
      refine (if_neg h2).trans ?_
      by_cases h3 : bwDone (s.writer w) count = 0 ∨ s.outCursor w + bwDone (s.writer w) count ≤ s.params.outBytes.val
      · rw [if_pos h3]
        exact congrArg (Flow.andThen · _) (if_pos h3)
      · rw [if_neg h3]
        exact congrArg (Flow.andThen · _) (if_neg h3)

/-- A write that goes on was allowed, and this is the state it goes on to. -/
theorem bwWrite_eq_go {w : Chan} {count value : Nat} {s t : State} (h : bwWrite w count value s = .go t) :
    count ≤ 56 ∧ (s.writer w).bytes.toNat + bwDone (s.writer w) count ≤ (s.writer w).limit.toNat ∧
      t = bwAfter w count value s := by
  rw [bwWrite_eq] at h
  split at h
  · cases h
  · split at h
    · cases h
    · split at h
      · cases h; exact ⟨by omega, by omega, rfl⟩
      · cases h

/-- A write that raises changes nothing (R141), and raises for one of two reasons. -/
theorem bwWrite_eq_raised {w : Chan} {count value : Nat} {s t : State} {f : FaultName}
    (h : bwWrite w count value s = .raised f t) :
    t = s ∧ ((f = .bwCount ∧ count > 56) ∨ (f = .bwOverflow ∧ count ≤ 56 ∧
      (s.writer w).bytes.toNat + bwDone (s.writer w) count > (s.writer w).limit.toNat)) := by
  rw [bwWrite_eq] at h
  split at h
  · cases h; exact ⟨rfl, .inl ⟨rfl, by omega⟩⟩
  · split at h
    · cases h; exact ⟨rfl, .inr ⟨rfl, by omega, by omega⟩⟩
    · split at h <;> cases h

/-- On a writer that R42 allows, a write with room for its bits goes on. -/
theorem bwWrite_go_of_room {w : Chan} {count value : Nat} {s : State}
    (hg : (s.writer w).Good s.params.outBytes.val) (hc : count ≤ 56) (hr : count ≤ s.room w) :
    bwWrite w count value s = .go (bwAfter w count value s) := by
  have hn := (s.writer w).nbits.isLt
  have h1 : (s.writer w).bytes.toNat + bwDone (s.writer w) count ≤ (s.writer w).limit.toNat := by
    simp only [State.room] at hr
    simp only [bwDone]
    have := hg.2.1
    omega
  have h2 : s.outCursor w + bwDone (s.writer w) count ≤ s.params.outBytes.val := by
    have := hg.2.2
    simp only [State.outCursor]
    omega
  rw [bwWrite_eq, if_neg (by omega), if_neg (by omega), if_pos (.inr h2)]

@[simp] theorem bwAfter_writer (w : Chan) (count value : Nat) (s : State) :
    (bwAfter w count value s).writer w = bwWriter (s.writer w) count value := by
  simp [bwAfter]

theorem bwAfter_writer_ne {w v : Chan} (count value : Nat) (s : State) (h : v ≠ w) :
    (bwAfter w count value s).writer v = s.writer v := by
  simp [bwAfter, h]

@[simp] theorem bwAfter_params (w : Chan) (count value : Nat) (s : State) : (bwAfter w count value s).params = s.params := rfl

/-- A byte of OUT after a write: one of the completed bytes, or what it was (R141). -/
theorem bwAfter_outByte (w : Chan) (count value : Nat) (s : State) (a : Nat) :
    (bwAfter w count value s).outByte a =
      if s.outCursor w ≤ a ∧ a < s.outCursor w + bwDone (s.writer w) count then
        BitVec.ofNat 8 (bwAcc (s.writer w) count value / 256 ^ (a - s.outCursor w))
      else s.outByte a := by
  simp only [bwAfter, State.outByte, State.setWriter_out, State.setOut_out, Memory.byte, Memory.get_putBytes,
    lowBytes_length]
  split
  · next h => rw [lowBytes_getElem? _ _ _ (by omega)]; rfl
  · rfl

/-- With no fault, the count of completed bytes grows by exactly the completed ones. -/
theorem bwWriter_bytes_toNat {wr : Writer} {count value : Nat} (h : wr.bytes.toNat + bwDone wr count ≤ wr.limit.toNat) :
    (bwWriter wr count value).bytes.toNat = wr.bytes.toNat + bwDone wr count := by
  have := wr.limit.isLt
  simp only [bwWriter, BitVec.toNat_add, BitVec.toNat_ofNat]
  have h2 : bwDone wr count % 2 ^ 32 = bwDone wr count := Nat.mod_eq_of_lt (by omega)
  rw [h2, Nat.mod_eq_of_lt (by omega)]

/-- The pending bits and the new ones fit their count (R142 (1)). -/
theorem bwAcc_lt {wr : Writer} {count value : Nat} (h : wr.acc.toNat < 2 ^ wr.nbits.val) :
    bwAcc wr count value < 2 ^ (wr.nbits.val + count) := by
  have h1 : value % 2 ^ count < 2 ^ count := Nat.mod_lt _ (by positivity)
  have h2 : (value % 2 ^ count + 1) * 2 ^ wr.nbits.val ≤ 2 ^ count * 2 ^ wr.nbits.val :=
    Nat.mul_le_mul_right _ h1
  have h3 : 2 ^ (wr.nbits.val + count) = 2 ^ count * 2 ^ wr.nbits.val := by rw [Nat.pow_add, Nat.mul_comm]
  simp only [bwAcc]
  rw [h3]
  linarith

/-- What stays pending is below `2^NBITS` (R142 (2)). -/
theorem bwWriter_acc_toNat {wr : Writer} {count value : Nat} (h : wr.acc.toNat < 2 ^ wr.nbits.val) (hc : count ≤ 56) :
    (bwWriter wr count value).acc.toNat = bwAcc wr count value / 2 ^ (8 * bwDone wr count) := by
  have hn := wr.nbits.isLt
  have h1 := bwAcc_lt (count := count) (value := value) h
  have h2 : 2 ^ (wr.nbits.val + count) ≤ 2 ^ 64 := Nat.pow_le_pow_right (by decide) (by omega)
  simp only [bwWriter, BitVec.toNat_ofNat]
  exact Nat.mod_eq_of_lt (Nat.lt_of_le_of_lt (Nat.div_le_self _ _) (by omega))

theorem bwWriter_acc_lt {wr : Writer} {count value : Nat} (h : wr.acc.toNat < 2 ^ wr.nbits.val) (hc : count ≤ 56) :
    (bwWriter wr count value).acc.toNat < 2 ^ (bwWriter wr count value).nbits.val := by
  rw [bwWriter_acc_toNat h hc]
  have h1 := bwAcc_lt (count := count) (value := value) h
  have h2 : wr.nbits.val + count = (bwWriter wr count value).nbits.val + 8 * bwDone wr count := by
    simp only [bwWriter, bwDone]; omega
  rw [h2, Nat.pow_add] at h1
  exact Nat.div_lt_of_lt_mul (by rwa [Nat.mul_comm] at h1)

/-- A write keeps R42 (1) of its writer. -/
theorem bwWriter_good {wr : Writer} {count value size : Nat} (hg : wr.Good size) (hc : count ≤ 56)
    (h : wr.bytes.toNat + bwDone wr count ≤ wr.limit.toNat) : (bwWriter wr count value).Good size :=
  ⟨bwWriter_acc_lt hg.1 hc, by rw [bwWriter_bytes_toNat h]; exact h, hg.2.2⟩

end Sys2Proof.Machine
end

