-- ==== Sys2Proof/Laws/Encoding.lean ====
section
/-! SUPPORT. The word of R91 as a number, and its fields read back. -/

namespace Sys2Proof

theorem append_toNat {m n : Nat} (x : BitVec m) (y : BitVec n) : (x ++ y).toNat = x.toNat * 2 ^ n + y.toNat := by
  rw [BitVec.toNat_append, ← Nat.shiftLeft_add_eq_or_of_lt y.isLt, Nat.shiftLeft_eq]

theorem extract_toNat {n : Nat} (w : BitVec n) (a k : Nat) : (w.extractLsb' a k).toNat = w.toNat / 2 ^ a % 2 ^ k := by
  rw [BitVec.extractLsb'_toNat, Nat.shiftRight_eq_div_pow]

/-- R91: the word of a command as a sum. -/
theorem mkWord_toNat (op : BitVec 8) (ch : BitVec 2) (ra rb : BitVec 3) (imm : BitVec 16) :
    (mkWord op ch ra rb imm).toNat =
      op.toNat + ch.toNat * 2 ^ 8 + ra.toNat * 2 ^ 10 + rb.toNat * 2 ^ 13 + imm.toNat * 2 ^ 16 := by
  simp only [mkWord, append_toNat]
  omega

@[simp] theorem opField_mkWord (op : BitVec 8) (ch : BitVec 2) (ra rb : BitVec 3) (imm : BitVec 16) :
    opField (mkWord op ch ra rb imm) = op := by
  have h1 := op.isLt; have h2 := ch.isLt; have h3 := ra.isLt; have h4 := rb.isLt; have h5 := imm.isLt
  refine BitVec.eq_of_toNat_eq ?_
  rw [opField, extract_toNat, mkWord_toNat]; omega

@[simp] theorem chField_mkWord (op : BitVec 8) (ch : BitVec 2) (ra rb : BitVec 3) (imm : BitVec 16) :
    chField (mkWord op ch ra rb imm) = ch := by
  have h1 := op.isLt; have h2 := ch.isLt; have h3 := ra.isLt; have h4 := rb.isLt; have h5 := imm.isLt
  refine BitVec.eq_of_toNat_eq ?_
  rw [chField, extract_toNat, mkWord_toNat]; omega

@[simp] theorem raField_mkWord (op : BitVec 8) (ch : BitVec 2) (ra rb : BitVec 3) (imm : BitVec 16) :
    raField (mkWord op ch ra rb imm) = ra := by
  have h1 := op.isLt; have h2 := ch.isLt; have h3 := ra.isLt; have h4 := rb.isLt; have h5 := imm.isLt
  refine BitVec.eq_of_toNat_eq ?_
  rw [raField, extract_toNat, mkWord_toNat]; omega

@[simp] theorem rbField_mkWord (op : BitVec 8) (ch : BitVec 2) (ra rb : BitVec 3) (imm : BitVec 16) :
    rbField (mkWord op ch ra rb imm) = rb := by
  have h1 := op.isLt; have h2 := ch.isLt; have h3 := ra.isLt; have h4 := rb.isLt; have h5 := imm.isLt
  refine BitVec.eq_of_toNat_eq ?_
  rw [rbField, extract_toNat, mkWord_toNat]; omega

@[simp] theorem immField_mkWord (op : BitVec 8) (ch : BitVec 2) (ra rb : BitVec 3) (imm : BitVec 16) :
    immField (mkWord op ch ra rb imm) = imm := by
  have h1 := op.isLt; have h2 := ch.isLt; have h3 := ra.isLt; have h4 := rb.isLt; have h5 := imm.isLt
  refine BitVec.eq_of_toNat_eq ?_
  rw [immField, extract_toNat, mkWord_toNat]; omega

/-- A word is the word of its fields. -/
theorem mkWord_fields (w : Word) : mkWord (opField w) (chField w) (raField w) (rbField w) (immField w) = w := by
  have h := w.isLt
  refine BitVec.eq_of_toNat_eq ?_
  rw [mkWord_toNat]
  simp only [opField, chField, raField, rbField, immField, extract_toNat]
  omega

@[simp] theorem chanOf_chanBits (c : Chan) : chanOf (chanBits c) = c := by revert c; decide
@[simp] theorem chanBits_chanOf (b : BitVec 2) : chanBits (chanOf b) = b := by revert b; decide
@[simp] theorem regOf_regBits (r : Reg) : regOf (regBits r) = r := by revert r; decide
@[simp] theorem regBits_regOf (b : BitVec 3) : regBits (regOf b) = b := by revert b; decide

@[simp] theorem chanBits_toNat (c : Chan) : (chanBits c).toNat = c.val := by revert c; decide
@[simp] theorem regBits_toNat (r : Reg) : (regBits r).toNat = r.val := by revert r; decide

/-- A command is decoded only when its unused bits are 0. -/
@[simp] theorem onlyIf_eq_some (ok : Bool) (i j : Instr) : onlyIf ok i = some j ↔ ok = true ∧ i = j := by
  cases ok <;> simp [onlyIf]

/-- The bytes of a CMD word in CMD's order are the word. -/
@[simp] theorem wordOfBytes_bytes (w : Word) :
    wordOfBytes (w.extractLsb' 0 8) (w.extractLsb' 8 8) (w.extractLsb' 16 8) (w.extractLsb' 24 8) = w := by
  have h := w.isLt
  refine BitVec.eq_of_toNat_eq ?_
  simp only [wordOfBytes, append_toNat, extract_toNat]
  omega

/-- The words of two lists of fields meet field by field. -/
theorem mkWord_and (op op' : BitVec 8) (ch ch' : BitVec 2) (ra ra' rb rb' : BitVec 3) (imm imm' : BitVec 16) :
    mkWord op ch ra rb imm &&& mkWord op' ch' ra' rb' imm' =
      mkWord (op &&& op') (ch &&& ch') (ra &&& ra') (rb &&& rb') (imm &&& imm') := by
  show (imm ++ (rb ++ (ra ++ (ch ++ op))) : BitVec (16 + (3 + (3 + (2 + 8))))) &&& (imm' ++ (rb' ++ (ra' ++ (ch' ++ op')))) = _
  simp only [BitVec.and_append]
  rfl

/-- A command stands in the row whose `match` its word gives under the row's `mask` (R94). -/
theorem legalWord_of_row (w : Word) (r : OpRow) (h : r ∈ opcodeTable) (hw : w &&& r.mask = r.pattern) : legalWord w = true :=
  List.any_eq_true.2 ⟨r, h, by simpa [OpRow.matchesWord] using hw⟩

end Sys2Proof
end

