-- ==== Sys2Proof/Laws/Host.lean ====
section
/-! SUPPORT. Placing a command word in CMD (20_memory.md R61), the canonical form of the memories under every operation, and
their form right after reset. -/

namespace Sys2Proof.Machine

/-- The bytes of CMD after a word is placed. -/
theorem get_cmdWithWord (m : Memory) (a : Nat) (w : Word) (b : Nat) :
    Memory.get (cmdWithWord m a w) b =
      if b = 4 * a then some (w.extractLsb' 0 8)
      else if b = 4 * a + 1 then some (w.extractLsb' 8 8)
      else if b = 4 * a + 2 then some (w.extractLsb' 16 8)
      else if b = 4 * a + 3 then some (w.extractLsb' 24 8)
      else Memory.get m b := by
  simp only [cmdWithWord, Memory.get_put]
  by_cases h0 : b = 4 * a
  · subst h0; simp
  by_cases h1 : b = 4 * a + 1
  · subst h1; simp
  by_cases h2 : b = 4 * a + 2
  · subst h2; simp
  by_cases h3 : b = 4 * a + 3
  · subst h3; simp
  simp [h0, h1, h2, h3]

theorem wf_cmdWithWord (m : Memory) (a : Nat) (w : Word) (h : Memory.wf m = true) :
    Memory.wf (cmdWithWord m a w) = true :=
  Memory.wf_put _ _ _ (Memory.wf_put _ _ _ (Memory.wf_put _ _ _ (Memory.wf_put _ _ _ h)))

theorem below_cmdWithWord (m : Memory) (n a : Nat) (w : Word) (h : Memory.below m n = true) (ha : 4 * a + 4 ≤ n) :
    Memory.below (cmdWithWord m a w) n = true :=
  Memory.below_put _ _ _ _ (Memory.below_put _ _ _ _ (Memory.below_put _ _ _ _ (Memory.below_put _ _ _ _ h (by omega))
    (by omega)) (by omega)) (by omega)

/-- A word that stands in CMD at `pc` is the word that is fetched. -/
theorem fetchWord_of_placed {s : State} {m : Memory} {w : Word} (h : s.cmd = cmdWithWord m s.pc.toNat w) :
    s.fetchWord s.pc = w := by
  simp only [State.fetchWord, State.cmdByte, Memory.byte, h, get_cmdWithWord]
  simp

/-- What `State.withFetchWord` places is what the next step fetches. -/
theorem withFetchWord_fetchWord (s : State) (nbits w : Nat) :
    (s.withFetchWord nbits w).fetchWord (s.withFetchWord nbits w).pc = BitVec.ofNat 32 (w % 2 ^ nbits) :=
  fetchWord_of_placed (m := s.cmd) rfl

/-- Right after reset the memories are in canonical form. -/
theorem wf_reset (sp : Config.Space) : Memory.wf (State.reset.memory sp) = true := by cases sp <;> rfl

/-- A memory set by the host, and the others as they were. -/
theorem memory_setMemory (s : State) (m : Memory) (sp sp' : Config.Space) :
    (s.setMemory m sp).memory sp' = if sp' = sp then m else s.memory sp' := by
  cases sp <;> cases sp' <;> rfl

/-- A memory write by the host keeps the canonical form. -/
theorem wf_setMemory_put (s : State) (sp sp' : Config.Space) (a : Nat) (v : Byte) (h : ∀ x, Memory.wf (s.memory x) = true) :
    Memory.wf ((s.setMemory (Memory.put (s.memory sp) a v) sp).memory sp') = true := by
  rw [memory_setMemory]
  split
  · exact Memory.wf_put _ _ _ (h sp)
  · exact h sp'

end Sys2Proof.Machine
end

