-- ==== Sys2Proof/Laws/PerInstr.lean ====
section
/-! SUPPORT. Laws proved command by command. `EncodesLegal`: the word of a command is a row of R94. -/

namespace Sys2Proof.Laws.EncodesLegal

/-- The word of the command matches a row of the table of R94. -/
def Statement (i : Instr) : Prop := legalWord (encode i) = true

/-- The row of fields under which a word is looked up, met with the word's own fields. -/
theorem of_fields (r : OpRow) (h : r ∈ opcodeTable) {op mop : BitVec 8} {ch mch : BitVec 2} {ra mra rb mrb : BitVec 3}
    {imm mimm : BitVec 16} (hm : r.mask = mkWord mop mch mra mrb mimm)
    (hp : r.pattern = mkWord (op &&& mop) (ch &&& mch) (ra &&& mra) (rb &&& mrb) (imm &&& mimm)) :
    legalWord (mkWord op ch ra rb imm) = true :=
  legalWord_of_row _ r h (by rw [hm, hp, mkWord_and])

theorem nop : Statement .nop :=
  of_fields ⟨"NOP", .Z, 0x00000000, 0xFFFFFFFF⟩ (by decide)
    (mop := 0xff) (mch := 0x3) (mra := 0x7) (mrb := 0x7) (mimm := 0xffff) (by decide)
    (by simp; decide)

theorem halt : Statement .halt :=
  of_fields ⟨"HALT", .Z, 0x00000001, 0xFFFFFFFF⟩ (by decide)
    (mop := 0xff) (mch := 0x3) (mra := 0x7) (mrb := 0x7) (mimm := 0xffff) (by decide)
    (by simp; decide)

theorem liK (d : Reg) (sh : Fin 4) (imm : BitVec 16) : Statement (.liK d sh imm) :=
  of_fields ⟨"LI.K", .I, 0x00000002, 0x0000E0FF⟩ (by decide)
    (mop := 0xff) (mch := 0x0) (mra := 0x0) (mrb := 0x7) (mimm := 0x0) (by decide)
    (by simp; decide)

theorem liZ (d : Reg) (sh : Fin 4) (imm : BitVec 16) : Statement (.liZ d sh imm) :=
  of_fields ⟨"LI.Z", .I, 0x00002002, 0x0000E0FF⟩ (by decide)
    (mop := 0xff) (mch := 0x0) (mra := 0x0) (mrb := 0x7) (mimm := 0x0) (by decide)
    (by simp; decide)

theorem addi (d : Reg) (imm : BitVec 16) : Statement (.addi d imm) :=
  of_fields ⟨"ADDI", .A, 0x00000003, 0x0000E3FF⟩ (by decide)
    (mop := 0xff) (mch := 0x3) (mra := 0x0) (mrb := 0x7) (mimm := 0x0) (by decide)
    (by simp; decide)

theorem loop (r : Reg) (off : BitVec 16) : Statement (.loop r off) :=
  of_fields ⟨"LOOP", .A, 0x00000004, 0x0000E3FF⟩ (by decide)
    (mop := 0xff) (mch := 0x3) (mra := 0x0) (mrb := 0x7) (mimm := 0x0) (by decide)
    (by simp; decide)

theorem bwInit (w : Chan) (a b : Reg) : Statement (.bwInit w a b) :=
  of_fields ⟨"BW.INIT", .B, 0x00000010, 0xFFFF00FF⟩ (by decide)
    (mop := 0xff) (mch := 0x0) (mra := 0x0) (mrb := 0x0) (mimm := 0xffff) (by decide)
    (by simp; decide)

theorem bwWrite (w : Chan) (cnt : BitVec 16) (r : Reg) : Statement (.bwWrite w cnt r) :=
  of_fields ⟨"BW.WRITE", .W, 0x00000011, 0x0000E0FF⟩ (by decide)
    (mop := 0xff) (mch := 0x0) (mra := 0x0) (mrb := 0x7) (mimm := 0x0) (by decide)
    (by simp; decide)

theorem bwZpad (w : Chan) : Statement (.bwZpad w) :=
  of_fields ⟨"BW.ZPAD", .C, 0x00000012, 0xFFFFFCFF⟩ (by decide)
    (mop := 0xff) (mch := 0x0) (mra := 0x7) (mrb := 0x7) (mimm := 0xffff) (by decide)
    (by simp; decide)

theorem bwWritem (w : Chan) (n : BitVec 16) (a b : Reg) : Statement (.bwWritem w n a b) :=
  of_fields ⟨"BW.WRITEM", .M, 0x00000013, 0x000000FF⟩ (by decide)
    (mop := 0xff) (mch := 0x0) (mra := 0x0) (mrb := 0x0) (mimm := 0x0) (by decide)
    (by simp; decide)

theorem pcHclr (c : Chan) : Statement (.pcHclr c) :=
  of_fields ⟨"PC.HCLR", .C, 0x00000020, 0xFFFFFCFF⟩ (by decide)
    (mop := 0xff) (mch := 0x0) (mra := 0x7) (mrb := 0x7) (mimm := 0xffff) (by decide)
    (by simp; decide)

theorem pcBuild (c : Chan) : Statement (.pcBuild c) :=
  of_fields ⟨"PC.BUILD", .C, 0x00000021, 0xFFFFFCFF⟩ (by decide)
    (mop := 0xff) (mch := 0x0) (mra := 0x7) (mrb := 0x7) (mimm := 0xffff) (by decide)
    (by simp; decide)

theorem pcSerial (c w : Chan) : Statement (.pcSerial c w) :=
  of_fields ⟨"PC.SERIAL", .S, 0x00000022, 0xFFFCFCFF⟩ (by decide)
    (mop := 0xff) (mch := 0x0) (mra := 0x7) (mrb := 0x7) (mimm := 0xfffc) (by decide)
    (by simp; revert w; decide)

theorem prStart (len : BitVec 16) : Statement (.prStart len) :=
  of_fields ⟨"PR.START", .X, 0x00000030, 0x0000FFFF⟩ (by decide)
    (mop := 0xff) (mch := 0x3) (mra := 0x7) (mrb := 0x7) (mimm := 0x0) (by decide)
    (by simp; decide)

theorem prLoad (a : Reg) : Statement (.prLoad a) :=
  of_fields ⟨"PR.LOAD", .P, 0x00000031, 0xFFFFE3FF⟩ (by decide)
    (mop := 0xff) (mch := 0x3) (mra := 0x0) (mrb := 0x7) (mimm := 0xffff) (by decide)
    (by simp; decide)

theorem prPred (c : Chan) : Statement (.prPred c) :=
  of_fields ⟨"PR.PRED", .C, 0x00000032, 0xFFFFFCFF⟩ (by decide)
    (mop := 0xff) (mch := 0x0) (mra := 0x7) (mrb := 0x7) (mimm := 0xffff) (by decide)
    (by simp; decide)

theorem tkRowc (c : Chan) : Statement (.tkRowc c) :=
  of_fields ⟨"TK.ROWC", .C, 0x00000040, 0xFFFFFCFF⟩ (by decide)
    (mop := 0xff) (mch := 0x0) (mra := 0x7) (mrb := 0x7) (mimm := 0xffff) (by decide)
    (by simp; decide)

theorem tkRowe (c : Chan) : Statement (.tkRowe c) :=
  of_fields ⟨"TK.ROWE", .C, 0x00000041, 0xFFFFFCFF⟩ (by decide)
    (mop := 0xff) (mch := 0x0) (mra := 0x7) (mrb := 0x7) (mimm := 0xffff) (by decide)
    (by simp; decide)

theorem tkFinc (c : Chan) : Statement (.tkFinc c) :=
  of_fields ⟨"TK.FINC", .C, 0x00000042, 0xFFFFFCFF⟩ (by decide)
    (mop := 0xff) (mch := 0x0) (mra := 0x7) (mrb := 0x7) (mimm := 0xffff) (by decide)
    (by simp; decide)

theorem tkFine (c : Chan) : Statement (.tkFine c) :=
  of_fields ⟨"TK.FINE", .C, 0x00000043, 0xFFFFFCFF⟩ (by decide)
    (mop := 0xff) (mch := 0x0) (mra := 0x7) (mrb := 0x7) (mimm := 0xffff) (by decide)
    (by simp; decide)

end Sys2Proof.Laws.EncodesLegal
end

