-- ==== Sys2Proof/Laws/PrefixCode.lean ====
section
/-! SUPPORT. What the length-limited construction can do (spec/42_prefix_code.md R161): the sparse row is R161's table, and the
lengths it answers fill the budget at the least cost. What the canonical code is (R165). -/

namespace Sys2Proof.Machine

/-! ## Rows -/

/-- The lesser of two table entries; `none` is `INF`. -/
def optMin : Option Nat → Option Nat → Option Nat
  | none, v => v
  | some u, none => some u
  | some u, some v => some (min u v)

@[simp] theorem optMin_none_left (v : Option Nat) : optMin none v = v := rfl
@[simp] theorem optMin_none_right (v : Option Nat) : optMin v none = v := by cases v <;> rfl

/-- The budgets of a row rise strictly, from `lo` up. -/
def BudgetRow.RisesFrom (lo : Nat) (r : BudgetRow) : Prop := (∀ e ∈ r, lo ≤ e.1) ∧ r.Pairwise fun d e => d.1 < e.1

@[simp] theorem BudgetRow.at_nil (b : Nat) : BudgetRow.at [] b = none := rfl

theorem BudgetRow.at_cons (e : Nat × Nat) (r : BudgetRow) (b : Nat) :
    BudgetRow.at (e :: r) b = if b = e.1 then some e.2 else r.at b := by
  obtain ⟨k, v⟩ := e
  simp only [BudgetRow.at, List.lookup_cons]
  by_cases h : b = k
  · simp [h]
  · have hk : (b == k) = false := by simp [h]
    simp [h, hk]

theorem BudgetRow.at_eq_none {r : BudgetRow} {b : Nat} (h : ∀ e ∈ r, b ≠ e.1) : r.at b = none := by
  induction r with
  | nil => rfl
  | cons e r ih =>
    rw [BudgetRow.at_cons, if_neg (h e (by simp)), ih fun d hd => h d (by simp [hd])]

theorem BudgetRow.RisesFrom.tail {lo : Nat} {e : Nat × Nat} {r : BudgetRow} (h : BudgetRow.RisesFrom lo (e :: r)) :
    BudgetRow.RisesFrom (e.1 + 1) r :=
  ⟨fun d hd => (List.pairwise_cons.1 h.2).1 d hd, (List.pairwise_cons.1 h.2).2⟩

theorem BudgetRow.RisesFrom.cons {lo : Nat} {e : Nat × Nat} {r : BudgetRow} (h : lo ≤ e.1)
    (hr : BudgetRow.RisesFrom (e.1 + 1) r) : BudgetRow.RisesFrom lo (e :: r) := by
  refine ⟨?_, List.pairwise_cons.2 ⟨fun d hd => hr.1 d hd, hr.2⟩⟩
  intro d hd
  rcases List.mem_cons.1 hd with rfl | hd
  · exact h
  · have := hr.1 d hd; omega

theorem BudgetRow.RisesFrom.mono {lo lo' : Nat} {r : BudgetRow} (h : BudgetRow.RisesFrom lo r) (hl : lo' ≤ lo) :
    BudgetRow.RisesFrom lo' r :=
  ⟨fun e he => Nat.le_trans hl (h.1 e he), h.2⟩

theorem BudgetRow.at_lt {lo b : Nat} {r : BudgetRow} (h : BudgetRow.RisesFrom lo r) (hb : b < lo) : r.at b = none :=
  BudgetRow.at_eq_none fun e he => by have := h.1 e he; omega

/-- A merge is the lesser of two rows at every budget, and its budgets rise. -/
theorem mergeRows_spec (xs ys : BudgetRow) {lo : Nat} (hx : xs.RisesFrom lo) (hy : ys.RisesFrom lo) :
    (mergeRows xs ys).RisesFrom lo ∧ ∀ b, (mergeRows xs ys).at b = optMin (xs.at b) (ys.at b) := by
  induction xs generalizing ys lo with
  | nil => exact ⟨hy, fun b => rfl⟩
  | cons e xs ihx =>
    simp only [mergeRows]
    induction ys generalizing lo with
    | nil => exact ⟨hx, fun b => by simp [mergeOnto]⟩
    | cons d ys ihy =>
      simp only [mergeOnto]
      have hxt := hx.tail
      have hyt := hy.tail
      have he := hx.1 e (by simp)
      have hd := hy.1 d (by simp)
      split
      · next hlt =>
        have hy' : BudgetRow.RisesFrom (e.1 + 1) (d :: ys) := BudgetRow.RisesFrom.cons (by omega) hyt
        obtain ⟨h1, h2⟩ := ihx (d :: ys) hxt hy'
        refine ⟨BudgetRow.RisesFrom.cons he h1, fun b => ?_⟩
        rw [BudgetRow.at_cons, BudgetRow.at_cons, h2 b]
        split
        · next hb => rw [BudgetRow.at_lt hy' (by omega)]; rfl
        · rfl
      · split
        · next hlt =>
          have hx' : BudgetRow.RisesFrom (d.1 + 1) (e :: xs) := BudgetRow.RisesFrom.cons (by omega) hxt
          obtain ⟨h1, h2⟩ := ihy hx' hyt
          refine ⟨BudgetRow.RisesFrom.cons hd h1, fun b => ?_⟩
          rw [BudgetRow.at_cons, h2 b, BudgetRow.at_cons d]
          split
          · next hb => rw [BudgetRow.at_lt hx' (by omega)]; rfl
          · rfl
        · have heq : d.1 = e.1 := by omega
          rw [heq] at hyt
          obtain ⟨h1, h2⟩ := ihx ys hxt hyt
          refine ⟨BudgetRow.RisesFrom.cons he h1, fun b => ?_⟩
          rw [BudgetRow.at_cons, BudgetRow.at_cons, BudgetRow.at_cons, h2 b, heq]
          split <;> rfl

theorem shiftRow_at (c add : Nat) (r : BudgetRow) (b : Nat) :
    (shiftRow c add r).at b = if c ≤ b ∧ b ≤ budget then (r.at (b - c)).map (· + add) else none := by
  induction r with
  | nil => simp [shiftRow]
  | cons e r ih =>
    simp only [shiftRow, List.filter_cons] at ih ⊢
    by_cases h : e.1 + c ≤ budget
    · simp only [h, decide_true, if_true, List.map_cons, BudgetRow.at_cons]
      rw [ih]
      by_cases hb : b = e.1 + c
      · subst hb; simp [h]
      · rw [if_neg hb]
        by_cases hc : c ≤ b ∧ b ≤ budget
        · have : ¬ b - c = e.1 := by omega
          simp [hc, this]
        · simp [hc]
    · simp only [h, decide_false, Bool.false_eq_true, if_false, BudgetRow.at_cons]
      rw [ih]
      by_cases hc : c ≤ b ∧ b ≤ budget
      · have : ¬ b - c = e.1 := by omega
        simp [hc, this]
      · simp [hc]

theorem shiftRow_rises (c add : Nat) (r : BudgetRow) (h : r.RisesFrom 0) : (shiftRow c add r).RisesFrom 0 := by
  refine ⟨fun _ _ => Nat.zero_le _, ?_⟩
  refine List.pairwise_map.2 ?_
  refine (h.2.filter _).imp ?_
  intro a b hab
  omega

theorem firstRow_rises : firstRow.RisesFrom 0 := ⟨fun _ _ => Nat.zero_le _, by simp [firstRow]⟩

/-- What a length of a symbol contributes to `D[k+1][b]` (R161). -/
def lengthTerm (y : Sym) (r : BudgetRow) (b L : Nat) : Option Nat :=
  if lengthCost L ≤ b then (r.at (b - lengthCost L)).map (· + y.freq * L) else none

/-- The recurrence of R161: `D[k+1][b]` is the minimum over the lengths `L` of the symbol with `2^(15-L) ≤ b` of
`D[k][b - 2^(15-L)] + f * L`. -/
theorem budgetRow_next (y : Sym) (r : BudgetRow) (h : r.RisesFrom 0) :
    (nextRow y r).RisesFrom 0 ∧
      ∀ b, b ≤ budget → (nextRow y r).at b = (y.lengths.map (lengthTerm y r b)).foldr optMin none := by
  unfold nextRow
  induction y.lengths with
  | nil => exact ⟨⟨by simp, by simp⟩, fun b _ => rfl⟩
  | cons L ls ih =>
    obtain ⟨h1, h2⟩ := mergeRows_spec (shiftRow (lengthCost L) (y.freq * L) r) _ (shiftRow_rises _ _ r h) ih.1
    refine ⟨h1, fun b hb => ?_⟩
    simp only [List.foldr_cons, List.map_cons]
    rw [h2 b, ih.2 b hb, shiftRow_at]
    simp only [lengthTerm, hb, and_true]

theorem optMin_foldr_none {α : Type} {g : α → Option Nat} {l : List α} (h : (l.map g).foldr optMin none = none) :
    ∀ a ∈ l, g a = none := by
  induction l with
  | nil => simp
  | cons b l ih =>
    simp only [List.map_cons, List.foldr_cons] at h
    cases hb : g b with
    | none =>
      rw [hb, optMin_none_left] at h
      intro a ha
      rcases List.mem_cons.1 ha with rfl | ha
      · exact hb
      · exact ih h a ha
    | some z => rw [hb] at h; cases h' : (l.map g).foldr optMin none <;> rw [h'] at h <;> cases h

theorem optMin_foldr_some {α : Type} {g : α → Option Nat} {l : List α} {v : Nat}
    (h : (l.map g).foldr optMin none = some v) : (∃ a ∈ l, g a = some v) ∧ ∀ a ∈ l, ∀ u, g a = some u → v ≤ u := by
  induction l generalizing v with
  | nil => simp at h
  | cons a l ih =>
    simp only [List.map_cons, List.foldr_cons] at h
    cases hg : g a with
    | none =>
      rw [hg, optMin_none_left] at h
      obtain ⟨⟨b, hb, e⟩, h2⟩ := ih h
      refine ⟨⟨b, by simp [hb], e⟩, fun b hb u hu => ?_⟩
      rcases List.mem_cons.1 hb with rfl | hb
      · rw [hg] at hu; cases hu
      · exact h2 b hb u hu
    | some w =>
      rw [hg] at h
      cases hf : (l.map g).foldr optMin none with
      | none =>
        rw [hf, optMin_none_right] at h
        cases h
        refine ⟨⟨a, by simp, hg⟩, fun b hb u hu => ?_⟩
        rcases List.mem_cons.1 hb with rfl | hb
        · rw [hg] at hu; cases hu; exact Nat.le_refl _
        · rw [optMin_foldr_none hf b hb] at hu; cases hu
      | some z =>
        rw [hf] at h
        simp only [optMin, Option.some.injEq] at h
        obtain ⟨⟨b, hb, e⟩, h2⟩ := ih hf
        refine ⟨?_, fun b hb u hu => ?_⟩
        · rcases Nat.le_total w z with hwz | hwz
          · exact ⟨a, by simp, by rw [hg]; congr 1; omega⟩
          · exact ⟨b, by simp [hb], by rw [e]; congr 1; omega⟩
        · rcases List.mem_cons.1 hb with rfl | hb
          · rw [hg] at hu; cases hu; omega
          · have := h2 b hb u hu; omega

theorem optMin_foldr_isSome {α : Type} {g : α → Option Nat} {l : List α} {a : α} {u : Nat} (ha : a ∈ l)
    (h : g a = some u) : ∃ v, (l.map g).foldr optMin none = some v := by
  induction l with
  | nil => simp at ha
  | cons b l ih =>
    simp only [List.map_cons, List.foldr_cons]
    rcases List.mem_cons.1 ha with rfl | ha
    · rw [h]; cases (l.map g).foldr optMin none <;> exact ⟨_, rfl⟩
    · obtain ⟨v, hv⟩ := ih ha
      rw [hv]; cases g b <;> exact ⟨_, rfl⟩

theorem Sym.mem_lengths {y : Sym} {L : Nat} : L ∈ y.lengths ↔ max 1 y.lo ≤ L ∧ L ≤ y.hi := by
  simp only [Sym.lengths, List.mem_range'_1]
  omega

/-! ## The two passes -/

/-- The backward pass finds a length at every budget the table says can be filled (R161). -/
theorem pickLength_some {y : Sym} {r : BudgetRow} (h : r.RisesFrom 0) {b v : Nat} (hb : b ≤ budget)
    (hv : (nextRow y r).at b = some v) :
    ∃ L u, pickLength y r (nextRow y r) b = some L ∧ L ∈ y.lengths ∧ lengthCost L ≤ b ∧
      r.at (b - lengthCost L) = some u ∧ v = u + y.freq * L := by
  have hrec := (budgetRow_next y r h).2 b hb
  rw [hv] at hrec
  obtain ⟨⟨L, hL, e⟩, _⟩ := optMin_foldr_some hrec.symm
  have hsome : (pickLength y r (nextRow y r) b).isSome := by
    rw [pickLength, List.find?_isSome]
    refine ⟨L, hL, ?_⟩
    simp only [lengthTerm] at e
    split at e
    · next hc =>
      cases hr : r.at (b - lengthCost L) with
      | none => rw [hr] at e; cases e
      | some u => rw [hr] at e; simp [hc, hv, ← e]
    · cases e
  obtain ⟨L', hL'⟩ := Option.isSome_iff_exists.1 hsome
  have hp := List.find?_some hL'
  have hm := List.mem_of_find?_eq_some hL'
  simp only [Bool.and_eq_true, decide_eq_true_eq, beq_iff_eq] at hp
  obtain ⟨⟨hc, hs⟩, heq⟩ := hp
  obtain ⟨u, hu⟩ := Option.isSome_iff_exists.1 hs
  refine ⟨L', u, hL', hm, hc, hu, ?_⟩
  rw [hv, hu] at heq
  simpa using heq

/-- All that the two passes can answer (R161): lengths within the bounds that, with the budget `b` left for the symbols
before, fill the budget, at the least cost among all such lengths. -/
theorem assignLengths_sound {ys : List Sym} {r : BudgetRow} (h : r.RisesFrom 0) {lens : List Nat} {b : Nat}
    (ha : assignLengths ys r = some (lens, b)) :
    WithinBounds ys lens ∧ b + spent lens = budget ∧
      ∃ u, r.at b = some u ∧ ∀ lens' b' u', WithinBounds ys lens' → b' + spent lens' = budget → r.at b' = some u' →
        u + totalCost ys lens ≤ u' + totalCost ys lens' := by
  induction ys generalizing r lens b with
  | nil =>
    simp only [assignLengths] at ha
    split at ha
    · next hs =>
      cases ha
      obtain ⟨u, hu⟩ := Option.isSome_iff_exists.1 hs
      refine ⟨List.Forall₂.nil, by simp [spent], u, hu, ?_⟩
      intro lens' b' u' hw hb' hu'
      cases hw
      simp only [spent, List.map_nil, List.sum_nil, Nat.add_zero] at hb'
      subst hb'
      rw [hu] at hu'
      cases hu'
      simp [totalCost]
    · cases ha
  | cons y ys ih =>
    simp only [assignLengths] at ha
    have hrow := (budgetRow_next y r h).1
    cases hrest : assignLengths ys (nextRow y r) with
    | none => rw [hrest] at ha; cases ha
    | some p =>
      obtain ⟨ls, b₁⟩ := p
      rw [hrest] at ha
      obtain ⟨hw, hsp, v, hv, hmin⟩ := ih hrow hrest
      have hb₁ : b₁ ≤ budget := by omega
      obtain ⟨L, u, hpick, hmem, hcost, hu, hvu⟩ := pickLength_some h hb₁ hv
      simp only [hpick, Option.some.injEq, Prod.mk.injEq] at ha
      obtain ⟨rfl, rfl⟩ := ha
      refine ⟨List.Forall₂.cons (Sym.mem_lengths.1 hmem) hw, ?_, u, hu, ?_⟩
      · simp only [spent, List.map_cons, List.sum_cons] at hsp ⊢
        omega
      · intro lens' b' u' hw' hb' hu'
        cases hw' with
        | cons hL' hls' =>
          next L' ls' =>
          simp only [spent, List.map_cons, List.sum_cons] at hb'
          have hb₂ : b' + lengthCost L' ≤ budget := by omega
          have hterm : lengthTerm y r (b' + lengthCost L') L' = some (u' + y.freq * L') := by
            simp [lengthTerm, hu']
          have hrec := (budgetRow_next y r h).2 _ hb₂
          obtain ⟨v', hv'⟩ := optMin_foldr_isSome (Sym.mem_lengths.2 hL') hterm
          have hle := (optMin_foldr_some hv').2 L' (Sym.mem_lengths.2 hL') _ hterm
          rw [hv'] at hrec
          have := hmin ls' (b' + lengthCost L') v' hls' (by simp only [spent]; omega) hrec
          simp only [totalCost, List.zipWith_cons_cons, List.sum_cons] at this ⊢
          omega

/-- The two passes answer whenever the budget can be filled within the bounds (R161). -/
theorem assignLengths_complete {ys : List Sym} {r : BudgetRow} (h : r.RisesFrom 0) {lens : List Nat} {b u : Nat}
    (hw : WithinBounds ys lens) (hb : b + spent lens = budget) (hu : r.at b = some u) :
    ∃ p, assignLengths ys r = some p := by
  induction ys generalizing r lens b u with
  | nil =>
    cases hw
    simp only [spent, List.map_nil, List.sum_nil, Nat.add_zero] at hb
    subst hb
    exact ⟨_, by simp [assignLengths, hu]; rfl⟩
  | cons y ys ih =>
    cases hw with
    | cons hL hls =>
      next L ls =>
      simp only [spent, List.map_cons, List.sum_cons] at hb
      have hb₂ : b + lengthCost L ≤ budget := by omega
      have hterm : lengthTerm y r (b + lengthCost L) L = some (u + y.freq * L) := by simp [lengthTerm, hu]
      obtain ⟨v, hv⟩ := optMin_foldr_isSome (Sym.mem_lengths.2 hL) hterm
      rw [← (budgetRow_next y r h).2 _ hb₂] at hv
      obtain ⟨⟨ls', b'⟩, hp⟩ := ih (budgetRow_next y r h).1 hls (by simp only [spent]; omega) hv
      obtain ⟨_, hsp, w, hw', _⟩ := assignLengths_sound (budgetRow_next y r h).1 hp
      obtain ⟨L', u', hpick, _⟩ := pickLength_some h (by omega) hw'
      exact ⟨(L' :: ls', b' - lengthCost L'), by simp only [assignLengths, hp, hpick]⟩

/-! ## The canonical code -/

theorem bitrev_lt (c l : Nat) : bitrev c l < 2 ^ l := by
  induction l generalizing c with
  | zero => simp [bitrev]
  | succ l ih =>
    have := ih (c / 2)
    have h2 : c % 2 * 2 ^ l ≤ 1 * 2 ^ l := Nat.mul_le_mul_right _ (by omega)
    simp only [bitrev, Nat.pow_succ]
    omega

/-- `bitrev` turns the digits round (R9). -/
theorem testBit_bitrev (c l k : Nat) (h : k < l) : (bitrev c l).testBit k = c.testBit (l - 1 - k) := by
  induction l generalizing c k with
  | zero => exact absurd h (Nat.not_lt_zero _)
  | succ l ih =>
    have hlt := bitrev_lt (c / 2) l
    rw [bitrev, Nat.mul_comm, Nat.testBit_two_pow_mul_add _ hlt]
    split
    · next hk =>
      rw [ih _ _ hk, ← Nat.testBit_succ]
      congr 1; omega
    · obtain rfl : k = l := by omega
      simp only [Nat.sub_self, Nat.add_sub_cancel, Nat.testBit_zero]
      rw [Nat.mod_mod]

/-- The first code of each length in closed form (R165). -/
theorem firstCode_eq (L : List Nat) (q : Nat) :
    firstCode L q = ((List.range q).map fun p => if p = 0 then 0 else L.count p * 2 ^ (q - p)).sum := by
  induction q with
  | zero => rfl
  | succ q ih =>
    have hs : ∀ l : List Nat, (∀ p ∈ l, p < q) →
        (l.map fun p => if p = 0 then 0 else L.count p * 2 ^ (q + 1 - p)).sum =
          (l.map fun p => if p = 0 then 0 else L.count p * 2 ^ (q - p)).sum * 2 := by
      intro l hl
      induction l with
      | nil => rfl
      | cons p l ihl =>
        have hp := hl p (by simp)
        simp only [List.map_cons, List.sum_cons, ihl fun p h => hl p (by simp [h]), Nat.add_mul]
        congr 1
        split
        · rfl
        · rw [show q + 1 - p = (q - p) + 1 by omega, Nat.pow_succ, Nat.mul_assoc]
    rw [firstCode, ih, List.range_succ, List.map_append, List.sum_append, hs _ fun p => List.mem_range.1, Nat.add_mul]
    simp [lengthCount]

theorem assignCodes_length (next ls : List Nat) : (assignCodes next ls).length = ls.length := by
  induction ls generalizing next with
  | nil => rfl
  | cons l ls ih => simp only [assignCodes]; split <;> simp [ih]

/-- The pass of R165 gives every used symbol its code word, turned round. -/
theorem assignCodes_getD (L pre ls next : List Nat) (hL : L = pre ++ ls) (hb : ∀ l ∈ ls, l ≤ 15) (hn : next.length = 16)
    (hnext : ∀ q, q ≠ 0 → q ≤ 15 → next.getD q 0 = firstCode L q + pre.count q) (i : Nat) :
    (assignCodes next ls).getD i 0 = if ls.getD i 0 = 0 then 0 else bitrev (codeWord L (pre.length + i)) (ls.getD i 0) := by
  induction ls generalizing pre next i with
  | nil => simp [assignCodes]
  | cons l ls ih =>
    have hl := hb l (by simp)
    have hL' : L = (pre ++ [l]) ++ ls := by rw [hL, List.append_assoc]; rfl
    have hhead : l ≠ 0 → codeWord L pre.length = next.getD l 0 := by
      intro h0
      have e : L.getD pre.length 0 = l := by rw [hL, List.getD_append_right _ _ _ _ (Nat.le_refl _)]; simp
      simp only [codeWord, e]
      rw [hnext l h0 hl, firstCode_eq, hL, List.take_left]
    have step : ∀ next' : List Nat, next'.length = 16 →
        (∀ q, q ≠ 0 → q ≤ 15 → next'.getD q 0 = firstCode L q + (pre ++ [l]).count q) → ∀ i,
        (assignCodes next' ls).getD i 0 =
          if ls.getD i 0 = 0 then 0 else bitrev (codeWord L (pre.length + (i + 1))) (ls.getD i 0) := by
      intro next' h1 h2 i
      rw [ih (pre ++ [l]) next' hL' (fun m hm => hb m (by simp [hm])) h1 h2, List.length_append]
      simp only [List.length_cons, List.length_nil]
      rw [show pre.length + (0 + 1) + i = pre.length + (i + 1) by omega]
    by_cases h0 : l = 0
    · subst h0
      simp only [assignCodes, if_true]
      cases i with
      | zero => simp
      | succ i =>
        simp only [List.getD_cons_succ]
        exact step next hn (fun q hq hq' => by rw [hnext q hq hq']; simp [Ne.symm hq]) i
    · simp only [assignCodes, if_neg h0]
      cases i with
      | zero => simp only [List.getD_cons_zero, Nat.add_zero]; rw [if_neg h0, hhead h0]
      | succ i =>
        simp only [List.getD_cons_succ]
        refine step _ (by simpa using hn) (fun q hq hq' => ?_) i
        rw [List.count_append]
        by_cases hlq : l = q
        · subst hlq
          have : (next.set l (next.getD l 0 + 1)).getD l 0 = next.getD l 0 + 1 := by
            simp [List.getD_eq_getElem?_getD, List.getElem?_set_self (show l < next.length by omega)]
          rw [this, hnext l hq hq']; simp; omega
        · have : (next.set l (next.getD l 0 + 1)).getD q 0 = next.getD q 0 := by
            simp [List.getD_eq_getElem?_getD, List.getElem?_set_ne hlq]
          rw [this, hnext q hq hq']
          simp [hlq]

/-- All that `Canonical` does (R165), for lengths up to 15. -/
theorem canonical_isCanonical (L : List Nat) (h : ∀ l ∈ L, l ≤ 15) : IsCanonical L (canonical L) := by
  have key : ∀ i, (canonical L).getD i 0 = if L.getD i 0 = 0 then 0 else bitrev (codeWord L i) (L.getD i 0) := by
    intro i
    have := assignCodes_getD L [] L ((List.range 16).map (firstCode L)) rfl h (by simp)
      (fun q _ hq => by
        rw [List.getD_eq_getElem?_getD, List.getElem?_map, List.getElem?_range (by omega)]; simp) i
    rwa [List.length_nil, Nat.zero_add] at this
  refine ⟨assignCodes_length _ _, fun i hi => by rw [key, if_pos hi], fun i => ?_, fun i k hk => ?_⟩
  · rw [key]; split
    · exact Nat.two_pow_pos _
    · exact bitrev_lt _ _
  · rw [key, if_neg (by omega), testBit_bitrev _ _ _ hk]

end Sys2Proof.Machine
end

