-- ==== Sys2Proof/Laws/Stream.lean ====
section
/-! SUPPORT. Bits of numbers, and what writes do to the stream of a writer (spec/41_bit_writer.md R140, R141, R142; spec/20_memory.md
R67). -/

namespace Sys2Proof.Machine

/-! ## Bits of a number -/

@[simp] theorem natBits_length (n v : Nat) : (natBits n v).length = n := by simp [natBits]

@[simp] theorem natBits_zero_count (v : Nat) : natBits 0 v = [] := rfl

theorem natBits_getElem (n v i : Nat) (h : i < (natBits n v).length) : (natBits n v)[i] = v.testBit i := by
  simp [natBits]

/-- The low `a + b` bits are the low `a` bits and then `b` bits from bit `a` on. -/
theorem natBits_add (a b v : Nat) : natBits (a + b) v = natBits a v ++ natBits b (v / 2 ^ a) := by
  simp only [natBits, List.range_add, List.map_append, List.map_map]
  congr 1
  refine List.map_congr_left fun i _ => ?_
  simp [Nat.testBit_div_two_pow, Nat.add_comm]

theorem natBits_congr {n u v : Nat} (h : u % 2 ^ n = v % 2 ^ n) : natBits n u = natBits n v := by
  refine List.map_congr_left fun i hi => ?_
  have hi : i < n := List.mem_range.1 hi
  have hu := Nat.testBit_mod_two_pow u n i
  have hv := Nat.testBit_mod_two_pow v n i
  simp only [hi, decide_true, Bool.true_and] at hu hv
  rw [← hu, ← hv, h]

@[simp] theorem natBits_mod (n v : Nat) : natBits n (v % 2 ^ n) = natBits n v :=
  natBits_congr (Nat.mod_mod _ _)

/-- Bits determine the number below the power of two. -/
theorem natBits_inj {n u v : Nat} (hu : u < 2 ^ n) (hv : v < 2 ^ n) (h : natBits n u = natBits n v) : u = v := by
  refine Nat.eq_of_testBit_eq fun i => ?_
  by_cases hi : i < n
  · have := congrArg (·[i]?) h
    simpa [natBits, hi] using this
  · rw [Nat.testBit_lt_two_pow (Nat.lt_of_lt_of_le hu (Nat.pow_le_pow_right (by decide) (by omega))),
      Nat.testBit_lt_two_pow (Nat.lt_of_lt_of_le hv (Nat.pow_le_pow_right (by decide) (by omega)))]

theorem natBits_zero_value (n : Nat) : natBits n 0 = List.replicate n false := by
  refine List.ext_getElem (by simp) fun i h₁ h₂ => ?_
  simp [natBits]

/-- Pending bits below `2^a`, and then `b` new ones above them. -/
theorem natBits_append {a b u : Nat} (v : Nat) (hu : u < 2 ^ a) :
    natBits (a + b) (u + v % 2 ^ b * 2 ^ a) = natBits a u ++ natBits b v := by
  rw [natBits_add]
  congr 1
  · refine natBits_congr ?_
    rw [Nat.add_mul_mod_self_right]
  · rw [Nat.add_mul_div_right _ _ (Nat.two_pow_pos a), Nat.div_eq_of_lt hu, Nat.zero_add, natBits_mod]

theorem byteBits_ofNat (v : Nat) : byteBits (BitVec.ofNat 8 v) = natBits 8 v := by
  refine List.map_congr_left fun i hi => ?_
  have hi : i < 8 := List.mem_range.1 hi
  rw [BitVec.getLsbD_ofNat]
  simp [hi]

/-- The low `k` bytes of a number, bit by bit, are its low `8k` bits. -/
theorem flatMap_bytes (k v : Nat) :
    ((List.range k).flatMap fun i => natBits 8 (v / 256 ^ i)) = natBits (8 * k) v := by
  induction k with
  | zero => rfl
  | succ k ih =>
    rw [List.range_succ, List.flatMap_append, ih, Nat.mul_succ, natBits_add]
    simp [Nat.pow_mul]

/-! ## Writes as bits -/

@[simp] theorem bitCount_nil : bitCount [] = 0 := rfl
@[simp] theorem bitCount_cons (p : Nat × Nat) (l : List (Nat × Nat)) : bitCount (p :: l) = p.1 + bitCount l := by
  simp [bitCount]
@[simp] theorem bitCount_append (l₁ l₂ : List (Nat × Nat)) : bitCount (l₁ ++ l₂) = bitCount l₁ + bitCount l₂ := by
  simp [bitCount]
@[simp] theorem writesBits_nil : writesBits [] = [] := rfl
@[simp] theorem writesBits_cons (p : Nat × Nat) (l : List (Nat × Nat)) :
    writesBits (p :: l) = natBits p.1 p.2 ++ writesBits l := rfl
@[simp] theorem writesBits_append (l₁ l₂ : List (Nat × Nat)) :
    writesBits (l₁ ++ l₂) = writesBits l₁ ++ writesBits l₂ := by
  simp [writesBits]

/-! ## The frame of a write -/

theorem WritesBits.refl (w : Chan) (s : State) : WritesBits w s s :=
  ⟨⟨rfl, rfl, rfl, rfl, rfl, rfl, rfl, rfl, rfl⟩, ⟨rfl, rfl, rfl, rfl, rfl, rfl⟩, rfl, rfl, rfl, fun _ _ => rfl, ⟨rfl, rfl⟩,
    Nat.le_refl _, fun _ _ => rfl⟩

theorem WritesBits.trans {w : Chan} {a b c : State} (h₁ : WritesBits w a b) (h₂ : WritesBits w b c) : WritesBits w a c := by
  refine ⟨⟨?_, ?_, ?_, ?_, ?_, ?_, ?_, ?_, ?_⟩, ⟨?_, ?_, ?_, ?_, ?_, ?_⟩, ?_, ?_, ?_, ?_, ⟨?_, ?_⟩, ?_, ?_⟩
  · exact h₂.host.params.trans h₁.host.params
  · exact h₂.host.ie.trans h₁.host.ie
  · exact h₂.host.cfg.trans h₁.host.cfg
  · exact h₂.host.minlen.trans h₁.host.minlen
  · exact h₂.host.maxlen.trans h₁.host.maxlen
  · exact h₂.host.taddr.trans h₁.host.taddr
  · exact h₂.host.cmd.trans h₁.host.cmd
  · exact h₂.host.input.trans h₁.host.input
  · exact h₂.host.draws.trans h₁.host.draws
  · exact h₂.pred.xs.trans h₁.pred.xs
  · exact h₂.pred.nrows.trans h₁.pred.nrows
  · exact h₂.pred.cur.trans h₁.pred.cur
  · exact h₂.pred.prev.trans h₁.pred.prev
  · exact h₂.pred.res.trans h₁.pred.res
  · exact h₂.pred.resn.trans h₁.pred.resn
  · exact h₂.regs.trans h₁.regs
  · exact h₂.hists.trans h₁.hists
  · exact h₂.codes.trans h₁.codes
  · exact fun v hv => (h₂.others v hv).trans (h₁.others v hv)
  · exact h₂.region.1.trans h₁.region.1
  · exact h₂.region.2.trans h₁.region.2
  · exact Nat.le_trans h₁.grows h₂.grows
  · intro x hx
    have g₁ := h₁.grows
    have g₂ := h₂.grows
    have e : b.outCursor w = a.outCursor w + ((b.writer w).bytes.toNat - (a.writer w).bytes.toNat) := by
      simp only [State.outCursor, h₁.region.1]; omega
    rw [h₂.out x (by rw [e]; omega), h₁.out x (by omega)]

/-- A write that is not refused changes only what R141 says. -/
theorem bwAfter_writesBits {w : Chan} {count value : Nat} {s : State}
    (h : (s.writer w).bytes.toNat + bwDone (s.writer w) count ≤ (s.writer w).limit.toNat) :
    WritesBits w s (bwAfter w count value s) := by
  have hb := bwWriter_bytes_toNat (value := value) h
  refine ⟨⟨rfl, rfl, rfl, rfl, rfl, rfl, rfl, rfl, rfl⟩, ⟨rfl, rfl, rfl, rfl, rfl, rfl⟩, rfl, rfl, rfl, ?_, ?_, ?_, ?_⟩
  · exact fun v hv => bwAfter_writer_ne count value s hv
  · rw [bwAfter_writer]; exact ⟨rfl, rfl⟩
  · rw [bwAfter_writer, hb]; omega
  · intro a ha
    rw [bwAfter_writer, hb] at ha
    rw [bwAfter_outByte, if_neg (by omega)]

/-- A write appends its bits to the stream (R141, in terms of the stream). -/
theorem bwAfter_stream {w : Chan} {count value : Nat} {s : State} (ha : (s.writer w).acc.toNat < 2 ^ (s.writer w).nbits.val)
    (hc : count ≤ 56) (h : (s.writer w).bytes.toNat + bwDone (s.writer w) count ≤ (s.writer w).limit.toNat) :
    (bwAfter w count value s).stream w = s.stream w ++ natBits count value := by
  have hb := bwWriter_bytes_toNat (value := value) h
  have hacc := bwWriter_acc_toNat (value := value) ha hc
  have hbase : (bwWriter (s.writer w) count value).base = (s.writer w).base := rfl
  have hnb : (bwWriter (s.writer w) count value).nbits.val = ((s.writer w).nbits.val + count) % 8 := rfl
  simp only [State.stream, bwAfter_writer, hb, hacc, hbase, hnb, List.append_assoc]
  rw [← natBits_append value ha, List.range_add, List.flatMap_append, List.append_assoc]
  congr 1
  · refine List.flatMap_congr fun i hi => ?_
    have hi := List.mem_range.1 hi
    rw [bwAfter_outByte, if_neg (by simp only [State.outCursor]; omega)]
  · rw [List.flatMap_map]
    have : ∀ i ∈ List.range (bwDone (s.writer w) count),
        byteBits ((bwAfter w count value s).outByte ((s.writer w).base.toNat + ((s.writer w).bytes.toNat + i))) =
          natBits 8 (bwAcc (s.writer w) count value / 256 ^ i) := by
      intro i hi
      have hi := List.mem_range.1 hi
      rw [bwAfter_outByte, if_pos (by simp only [State.outCursor]; omega), byteBits_ofNat]
      congr 3
      simp only [State.outCursor]; omega
    rw [List.flatMap_congr this, flatMap_bytes]
    have hsplit : (s.writer w).nbits.val + count =
        8 * bwDone (s.writer w) count + ((s.writer w).nbits.val + count) % 8 := by
      simp only [bwDone]; omega
    conv_rhs => rw [hsplit, natBits_add]
    rfl

/-- What is left of the room after a write. -/
theorem bwAfter_room {w : Chan} {count value : Nat} {s : State} (hl : (s.writer w).bytes.toNat ≤ (s.writer w).limit.toNat)
    (hr : count ≤ s.room w) : (bwAfter w count value s).room w = s.room w - count := by
  have hn := (s.writer w).nbits.isLt
  simp only [State.room] at hr
  have hk : (s.writer w).bytes.toNat + bwDone (s.writer w) count ≤ (s.writer w).limit.toNat := by
    simp only [bwDone]; omega
  have hb := bwWriter_bytes_toNat (value := value) hk
  have hlim : (bwWriter (s.writer w) count value).limit = (s.writer w).limit := rfl
  have hnb : (bwWriter (s.writer w) count value).nbits.val = ((s.writer w).nbits.val + count) % 8 := rfl
  simp only [State.room, bwAfter_writer, hb, hlim, hnb]
  simp only [bwDone] at hk ⊢
  omega

/-- All that one write with room does: it goes on, in the frame of R141, with its bits appended. -/
theorem bwWrite_spec {w : Chan} {count value : Nat} {s : State} (hg : (s.writer w).Good s.params.outBytes.val)
    (hc : count ≤ 56) (hr : count ≤ s.room w) :
    ∃ t, bwWrite w count value s = .go t ∧ WritesBits w s t ∧ SameStatus s t ∧ t.pc = s.pc ∧ t.run = s.run ∧
      (t.writer w).Good t.params.outBytes.val ∧ t.room w = s.room w - count ∧
      t.stream w = s.stream w ++ natBits count value := by
  have hn := (s.writer w).nbits.isLt
  have hk : (s.writer w).bytes.toNat + bwDone (s.writer w) count ≤ (s.writer w).limit.toNat := by
    simp only [State.room] at hr
    have := hg.2.1
    simp only [bwDone]; omega
  refine ⟨_, bwWrite_go_of_room hg hc hr, bwAfter_writesBits hk, ⟨rfl, rfl, rfl⟩, rfl, rfl, ?_, bwAfter_room hg.2.1 hr,
    bwAfter_stream hg.1 hc hk⟩
  rw [bwAfter_writer, bwAfter_params]
  exact bwWriter_good hg hc hk

/-- The same for several writes. -/
theorem bwWrites_spec {w : Chan} {l : List (Nat × Nat)} {s : State} (hg : (s.writer w).Good s.params.outBytes.val)
    (hc : ∀ p ∈ l, p.1 ≤ 56) (hr : bitCount l ≤ s.room w) :
    ∃ t, bwWrites w l s = .go t ∧ WritesBits w s t ∧ SameStatus s t ∧ t.pc = s.pc ∧ t.run = s.run ∧
      (t.writer w).Good t.params.outBytes.val ∧ t.room w = s.room w - bitCount l ∧
      t.stream w = s.stream w ++ writesBits l := by
  induction l generalizing s with
  | nil => exact ⟨s, rfl, WritesBits.refl w s, ⟨rfl, rfl, rfl⟩, rfl, rfl, hg, by simp, by simp⟩
  | cons p l ih =>
    rw [bitCount_cons] at hr
    obtain ⟨t, ht, hw, hs, hp, hrun, hg', hroom, hst⟩ := bwWrite_spec (value := p.2) hg (hc p (by simp)) (by omega)
    obtain ⟨u, hu, hw', hs', hp', hrun', hg'', hroom', hst'⟩ := ih hg' (fun q hq => hc q (by simp [hq])) (by omega)
    refine ⟨u, ?_, hw.trans hw', ⟨hs'.seq.trans hs.seq, hs'.cause.trans hs.cause, hs'.fpc.trans hs.fpc⟩, hp'.trans hp,
      hrun'.trans hrun, hg'', ?_, ?_⟩
    · simp only [bwWrites, forEach_cons, ht, Flow.go_andThen]
      exact hu
    · rw [hroom', hroom, bitCount_cons]; omega
    · rw [hst', hst, writesBits_cons, List.append_assoc]

/-- Where a write finds no room: it raises `BwOverflow`, and the writes before it are done (R141, R266). -/
theorem bwWrites_overflow {w : Chan} {pre post : List (Nat × Nat)} {e : Nat × Nat} {s : State}
    (hg : (s.writer w).Good s.params.outBytes.val) (hc : ∀ p ∈ pre ++ e :: post, p.1 ≤ 56) (hr : bitCount pre ≤ s.room w)
    (he : s.room w < bitCount pre + e.1) :
    ∃ u, bwWrites w (pre ++ e :: post) s = .raised .bwOverflow u ∧ WroteOnly w pre s u ∧ u.run = s.run := by
  obtain ⟨u, hu, hw, hs, hp, hrun, hg', hroom, hst⟩ := bwWrites_spec hg (fun p h => hc p (by simp [h])) hr
  refine ⟨u, ?_, ⟨hw, hs, hp, hst⟩, hrun⟩
  have hk : ¬ e.1 > 56 := Nat.not_lt.2 (hc e (by simp))
  have hn := (u.writer w).nbits.isLt
  have hover : (u.writer w).bytes.toNat + ((u.writer w).nbits.val + e.1) / 8 > (u.writer w).limit.toNat := by
    have := hg'.2.1
    simp only [State.room] at hroom he hr
    omega
  have : bwWrite w e.1 e.2 u = .raised .bwOverflow u := by
    simp only [bwWrite]
    rw [if_neg hk, if_pos hover]
  simp only [bwWrites] at hu ⊢
  rw [forEach_append, hu, Flow.go_andThen, forEach_cons, this]
  rfl

end Sys2Proof.Machine
end

