-- ==== Sys2Proof/Laws/Tokenizer.lean ====
section
/-! SUPPORT. What the tokenizer's procedures can do (spec/45_tokenizer.md R233 to R236): a row carries out the decisions of R235 in
order and then sets `RUN[c]`; what one decision counts and what it writes. -/

namespace Sys2Proof.Machine

/-! ## Tokens -/

theorem rawToken_tok_le {v : Nat} (h : v < 2 ^ 18) : (rawToken v).tok ≤ 18 := by
  unfold rawToken
  split
  · simp
  · next hv => have := (Nat.log2_lt hv).2 h; simp only; omega

theorem lt_of_rawToken_tok_le {v : Nat} (h : (rawToken v).tok ≤ 18) : v < 2 ^ 18 := by
  unfold rawToken at h
  split at h
  · next hv => subst hv; decide
  · next hv => exact (Nat.log2_lt hv).1 (by simp only at h; omega)

theorem lzToken_tok_le {u : Nat} (h : u < 2 ^ 21) : (lzToken u).tok ≤ 32 := by
  unfold lzToken
  split
  · simp only; omega
  · next hu => have := (Nat.log2_lt (n := u) (by omega)).2 h; simp only; omega

theorem rawToken_nbits_le {v : Nat} (h : v < 2 ^ 18) : (rawToken v).nbits ≤ 17 := by
  unfold rawToken
  split
  · simp
  · next hv => have := (Nat.log2_lt hv).2 h; simp only; omega

theorem lzToken_nbits_le {u : Nat} (h : u < 2 ^ 21) : (lzToken u).nbits ≤ 20 := by
  unfold lzToken
  split
  · simp
  · next hu => have := (Nat.log2_lt (n := u) (by omega)).2 h; simp only; omega

/-! ## A row as its decisions -/

/-- Carrying out one decision (R233, R234). -/
def decisionStep (mode : Mode) (c : Chan) : Decision → State → Flow
  | .raw v => emitRaw mode c v
  | .run N => flushRun mode c N

/-- A flow with `RUN[c]` set in its state. -/
def Flow.withRun (c : Chan) (u : Word) : Flow → Flow
  | .go s => .go (s.setRun c u)
  | .raised f s => .raised f (s.setRun c u)
  | .stop f => .stop f

@[simp] theorem State.setRun_setRun (s : State) (c : Chan) (u v : Word) : (s.setRun c u).setRun c v = s.setRun c v := by
  simp [State.setRun]

theorem State.setRun_self (s : State) (c : Chan) (u : Word) (h : s.runOf c = u) : s.setRun c u = s := by
  subst h
  simp [State.setRun, State.runOf]

theorem Flow.withRun_andThen {c : Chan} {u : Word} {r : Flow} {k : State → Flow}
    (hk : ∀ s, k (s.setRun c u) = (k s).withRun c u) : (r.withRun c u).andThen k = (r.andThen k).withRun c u := by
  cases r with
  | go s => exact hk s
  | raised f s => rfl
  | stop f => rfl

theorem bwWrite_setRun (w c : Chan) (n v : Nat) (u : Word) (s : State) :
    bwWrite w n v (s.setRun c u) = (bwWrite w n v s).withRun c u := by
  simp only [bwWrite_eq, State.setRun_writer, State.setRun_params]
  have e : (s.setRun c u).outCursor w = s.outCursor w := rfl
  rw [e]
  simp only [apply_ite (Flow.withRun c u)]
  rfl

theorem bwWrites_setRun (w c : Chan) (l : List (Nat × Nat)) (u : Word) (s : State) :
    bwWrites w l (s.setRun c u) = (bwWrites w l s).withRun c u := by
  induction l generalizing s with
  | nil => rfl
  | cons p l ih =>
    simp only [bwWrites, forEach_cons] at ih ⊢
    rw [bwWrite_setRun, Flow.withRun_andThen ih]

/-- A decision does not read `RUN[c]`. -/
theorem decisionStep_setRun (mode : Mode) (c : Chan) (d : Decision) (u : Word) (s : State) :
    decisionStep mode c d (s.setRun c u) = (decisionStep mode c d s).withRun c u := by
  cases d with
  | raw v =>
    cases mode with
    | count =>
      simp only [decisionStep, emitRaw, State.setRun_hist, apply_ite (Flow.withRun c u)]
      rfl
    | emit =>
      simp only [decisionStep, emitRaw, State.setRun_code, apply_ite (Flow.withRun c u), bwWrites_setRun]
      rfl
  | run N =>
    cases mode with
    | count =>
      simp only [decisionStep, flushRun, State.setRun_hist, apply_ite (Flow.withRun c u)]
      rfl
    | emit =>
      simp only [decisionStep, flushRun, State.setRun_code, apply_ite (Flow.withRun c u), bwWrites_setRun]
      rfl

theorem decisions_setRun (mode : Mode) (c : Chan) (ds : List Decision) (u : Word) (s : State) :
    forEach (decisionStep mode c) ds (s.setRun c u) = (forEach (decisionStep mode c) ds s).withRun c u := by
  induction ds generalizing s with
  | nil => rfl
  | cons d ds ih => rw [forEach_cons, forEach_cons, decisionStep_setRun, Flow.withRun_andThen ih]

theorem bwWrite_run (w : Chan) (n v : Nat) (s : State) : (bwWrite w n v s).Rel (fun a b => b.run = a.run) s := by
  rw [bwWrite_eq]
  split
  · rfl
  · split
    · rfl
    · split
      · rfl
      · trivial

theorem bwWrites_run (w : Chan) (l : List (Nat × Nat)) (s : State) :
    (bwWrites w l s).Rel (fun a b => b.run = a.run) s :=
  forEach_rel (R := fun a b : State => b.run = a.run) (fun _ => rfl) (fun _ _ _ h₁ h₂ => h₂.trans h₁) l
    (fun p _ s => bwWrite_run w p.1 p.2 s) s

theorem decisionStep_run (mode : Mode) (c : Chan) (d : Decision) (s : State) :
    (decisionStep mode c d s).Rel (fun a b => b.run = a.run) s := by
  cases d with
  | raw v =>
    simp only [decisionStep, emitRaw]
    split
    · rfl
    · cases mode with
      | count => simp only; split <;> rfl
      | emit => simp only; split; rfl; exact bwWrites_run ..
  | run N =>
    simp only [decisionStep, flushRun]
    split
    · trivial
    · split
      · rfl
      · cases mode with
        | count => simp only; split <;> rfl
        | emit => simp only; split; rfl; exact bwWrites_run ..

/-- Carrying out decisions keeps every run length (R230). -/
theorem decisions_run (mode : Mode) (c : Chan) (ds : List Decision) (s : State) :
    (forEach (decisionStep mode c) ds s).Rel (fun a b => b.run = a.run) s :=
  forEach_rel (R := fun a b : State => b.run = a.run) (fun _ => rfl) (fun _ _ _ h₁ h₂ => h₂.trans h₁) ds
    (fun d _ s => decisionStep_run mode c d s) s

theorem forEach_emitRaw (mode : Mode) (c : Chan) (l : List Word) (s : State) :
    forEach (decisionStep mode c) (l.map .raw) s = forEach (emitRaw mode c) l s := by
  induction l generalizing s with
  | nil => rfl
  | cons v l ih => simp only [List.map_cons, forEach_cons, decisionStep]; congr 1; funext t; exact ih t

theorem leadingZeros_le (r : List Word) : leadingZeros r ≤ r.length := by
  unfold leadingZeros
  exact (List.takeWhile_sublist _).length_le

/-- R235: a chunk carries out its decisions and then sets `RUN[c]`. -/
theorem tokChunk_eq (mode : Mode) (c : Chan) (r : List Word) (s : State)
    (hext : (chunkDecisions (s.runOf c).toNat r).1 = [] → (chunkDecisions (s.runOf c).toNat r).2 < 2 ^ 32) :
    tokChunk mode c r s = (forEach (decisionStep mode c) (chunkDecisions (s.runOf c).toNat r).1 s).andThen fun t =>
      .go (t.setRun c (BitVec.ofNat 32 (chunkDecisions (s.runOf c).toNat r).2)) := by
  unfold tokChunk
  unfold chunkDecisions at hext ⊢
  simp only at hext ⊢
  split
  · next h => rw [if_pos h] at hext; rw [if_neg (by have := hext rfl; simp only at this; omega)]; rfl
  · split
    · simp only [forEach_cons, decisionStep, Flow.andThen_assoc]
      congr 1; funext t
      rw [forEach_emitRaw]
      rfl
    · simp only
      rw [forEach_emitRaw]
      have h := decisions_run mode c (r.map .raw) s
      rw [forEach_emitRaw] at h
      cases hf : forEach (emitRaw mode c) r s with
      | go t =>
        rw [hf] at h
        have hr : t.run = s.run := h
        rw [Flow.go_andThen, State.setRun_self]
        rw [BitVec.ofNat_toNat, BitVec.setWidth_eq]
        simp only [State.runOf, hr]
      | raised f t => rfl
      | stop f => rfl

/-- After a chunk the run is at most what it was and the chunk's length. -/
theorem chunkDecisions_snd_le (n : Nat) (r : List Word) : (chunkDecisions n r).2 ≤ n + r.length := by
  unfold chunkDecisions
  simp only
  split
  · exact Nat.le_refl _
  · split <;> simp

/-- R235: a chunk that would take the pending run past 32 bits raises `RunRange` and does nothing. -/
theorem tokChunk_range (mode : Mode) (c : Chan) (r : List Word) (s : State) (hr : r ≠ [])
    (h : (chunkDecisions (s.runOf c).toNat r).1 = []) (hext : 2 ^ 32 ≤ (chunkDecisions (s.runOf c).toNat r).2) :
    tokChunk mode c r s = .raised .runRange s := by
  unfold tokChunk
  unfold chunkDecisions at h hext
  simp only at h hext ⊢
  split
  · next h' =>
    rw [if_pos h'] at hext
    exact if_pos (by simp only at hext; omega)
  · next h' =>
    rw [if_neg h'] at h
    split at h
    · simp at h
    · exact absurd (by simpa using h) hr

/-- A pending run is never longer than what it becomes: the run after the row, or a run that is flushed. -/
theorem pending_lt {B : Nat} {rs : List (List Word)} {n : Nat} (h : (rowDecisions n rs).2 < B)
    (hf : ∀ N, Decision.run N ∈ (rowDecisions n rs).1 → N < B) : n < B := by
  induction rs generalizing n with
  | nil => exact h
  | cons r rs ih =>
    simp only [rowDecisions, List.mem_append] at h hf
    have hd := ih h fun N hN => hf N (.inr hN)
    unfold chunkDecisions at hd hf
    simp only at hd hf
    split at hd
    · simp only at hd; omega
    · next h1 =>
      rw [if_neg h1] at hf
      split at hd
      · next h2 =>
        rw [if_pos h2] at hf
        have := hf (n + leadingZeros r) (.inl (by simp))
        omega
      · exact hd

/-- R236: a list of chunks carries out its decisions in order and then sets `RUN[c]`, as long as no run passes 32 bits. -/
theorem forEach_tokChunk (mode : Mode) (c : Chan) (rs : List (List Word)) (s u : State)
    (hlen : (rowDecisions (s.runOf c).toNat rs).2 < 2 ^ 32)
    (hf : ∀ N, Decision.run N ∈ (rowDecisions (s.runOf c).toNat rs).1 → N < 2 ^ 32)
    (h : forEach (decisionStep mode c) (rowDecisions (s.runOf c).toNat rs).1 s = .go u) :
    forEach (tokChunk mode c) rs s = .go (u.setRun c (BitVec.ofNat 32 (rowDecisions (s.runOf c).toNat rs).2)) := by
  induction rs generalizing s u with
  | nil =>
    simp only [rowDecisions, forEach_nil, Flow.go.injEq] at h ⊢
    subst h
    rw [State.setRun_self]
    simp
  | cons r rs ih =>
    simp only [rowDecisions, List.mem_append] at hlen hf
    set d := chunkDecisions (s.runOf c).toNat r with hd
    have hd2 : d.2 < 2 ^ 32 := pending_lt hlen fun N hN => hf N (.inr hN)
    have key : ∀ v : State, (((v.setRun c (BitVec.ofNat 32 d.2)).runOf c).toNat = d.2) := fun v => by
      simp only [State.setRun_runOf_self, BitVec.toNat_ofNat]
      exact Nat.mod_eq_of_lt hd2
    have hrow : rowDecisions (s.runOf c).toNat (r :: rs) =
        (d.1 ++ (rowDecisions d.2 rs).1, (rowDecisions d.2 rs).2) := rfl
    rw [hrow] at h ⊢
    rw [forEach_append] at h
    obtain ⟨v, hv, hu⟩ := Flow.andThen_eq_go.1 h
    rw [forEach_cons, tokChunk_eq mode c r s (fun _ => hd2), ← hd, hv, Flow.go_andThen, Flow.go_andThen]
    have ih' := ih (v.setRun c (BitVec.ofNat 32 d.2)) (u.setRun c (BitVec.ofNat 32 d.2))
    rw [key] at ih'
    rw [ih' hlen (fun N hN => hf N (.inr hN)) (by rw [decisions_setRun, hu]; rfl), State.setRun_setRun]

theorem chunks_length_sum {α : Type} (fuel : Nat) (r : List α) : ((chunks fuel r).map List.length).sum ≤ r.length := by
  induction fuel generalizing r with
  | zero => simp [chunks]
  | succ fuel ih =>
    simp only [chunks]
    split
    · simp
    · have := ih (r.drop 16)
      simp only [List.map_cons, List.sum_cons, List.length_take, List.length_drop] at this ⊢
      omega

/-- The chunks of a row of at most `16 * fuel` residuals are the row. -/
theorem chunks_flatten {α : Type} (fuel : Nat) (r : List α) (h : r.length ≤ 16 * fuel) : (chunks fuel r).flatten = r := by
  induction fuel generalizing r with
  | zero =>
    have : r = [] := List.length_eq_zero_iff.1 (by omega)
    simp [chunks, this]
  | succ fuel ih =>
    simp only [chunks]
    split
    · next hr => simp [List.isEmpty_iff.1 hr]
    · rw [List.flatten_cons, ih _ (by rw [List.length_drop]; omega), List.take_append_drop]

theorem State.residuals_length (s : State) : s.residuals.length = s.resn.val := by
  have := s.resn.isLt
  simp only [State.residuals, List.length_take, Vector.length_toList]
  omega

/-- R236: the row's chunks, when whole chunks of 16 and the rest of the row are given. -/
theorem chunks_split {α : Type} (done : List (List α)) (rest : List α) (fuel : Nat) (hd : ∀ q ∈ done, q.length = 16)
    (hr : rest ≠ []) (hf : done.length < fuel) :
    ∃ more, chunks fuel (done.flatten ++ rest) = done ++ rest.take 16 :: more := by
  induction done generalizing fuel with
  | nil =>
    obtain _ | fuel := fuel
    · exact absurd hf (Nat.not_lt_zero _)
    · exact ⟨chunks fuel (rest.drop 16), by simp [chunks, hr]⟩
  | cons q done ih =>
    obtain _ | fuel := fuel
    · exact absurd hf (Nat.not_lt_zero _)
    · have hq := hd q (by simp)
      obtain ⟨more, hm⟩ := ih fuel (fun p hp => hd p (by simp [hp])) (by simpa using hf)
      refine ⟨more, ?_⟩
      have hne : q ≠ [] := by rintro rfl; simp at hq
      have ht : (q ++ (done.flatten ++ rest)).take 16 = q := by rw [← hq]; exact List.take_left
      have hdrop : (q ++ (done.flatten ++ rest)).drop 16 = done.flatten ++ rest := by rw [← hq]; exact List.drop_left
      simp only [List.flatten_cons, List.append_assoc, chunks, ht, hdrop, hm, List.cons_append]
      rw [if_neg (by simp [hne])]

/-- R236: all that a row can do when its decisions go on and no run passes 32 bits. -/
theorem tokRow_of_go {mode : Mode} {c : Chan} {s u : State} (hlen : (s.decisions c).2 < 2 ^ 32)
    (hf : ∀ N, Decision.run N ∈ (s.decisions c).1 → N < 2 ^ 32)
    (h : forEach (decisionStep mode c) (s.decisions c).1 s = .go u) :
    tokRow mode c s = .go (u.setRun c (BitVec.ofNat 32 (s.decisions c).2)) :=
  forEach_tokChunk mode c _ s u hlen hf h

/-- R236: the chunk after the whole chunks `done` is the one that raises, in the state that they leave. -/
theorem tokRow_of_raised {mode : Mode} {c : Chan} {s u v : State} {f : FaultName} {done : List (List Word)} {rest : List Word}
    (hd : ∀ q ∈ done, q.length = 16) (hr : rest ≠ []) (hs : s.residuals = done.flatten ++ rest)
    (hlen : (rowDecisions (s.runOf c).toNat done).2 < 2 ^ 32)
    (hf : ∀ N, Decision.run N ∈ (rowDecisions (s.runOf c).toNat done).1 → N < 2 ^ 32)
    (h : forEach (decisionStep mode c) (rowDecisions (s.runOf c).toNat done).1 s = .go u)
    (hu : tokChunk mode c (rest.take 16) (u.setRun c (BitVec.ofNat 32 (rowDecisions (s.runOf c).toNat done).2)) = .raised f v) :
    tokRow mode c s = .raised f v := by
  have hl : done.length < 16 := by
    have h1 : s.residuals.length = 16 * done.length + rest.length := by
      rw [hs, List.length_append, List.length_flatten, List.map_congr_left hd, List.map_const', List.sum_replicate]
      simp [Nat.mul_comm]
    have h2 := s.residuals_length
    have h3 := s.resn.isLt
    have h4 := List.length_pos_iff.2 hr
    omega
  obtain ⟨more, hm⟩ := chunks_split done rest 16 hd hr hl
  rw [tokRow, hs, hm, forEach_append, forEach_tokChunk mode c done s u hlen hf h, Flow.go_andThen, forEach_cons, hu]
  rfl

/-! ## What the decisions are -/

theorem chunkDecisions_raw_mem {run : Nat} {r : List Word} {d : Decision} {v : Word} (h : d ∈ (chunkDecisions run r).1) (e : d = .raw v) : v ∈ r := by
  subst e; unfold chunkDecisions at h; simp only at h
  split at h
  · simp at h
  · split at h
    · simp only [List.mem_cons, reduceCtorEq, List.mem_map, Decision.raw.injEq, exists_eq_right, false_or] at h
      exact List.mem_of_mem_drop h
    · simpa using h

/-- A run is flushed only when it exceeds the threshold (R235, R241). -/
theorem chunkDecisions_run_mem {run : Nat} {r : List Word} {N : Nat} (h : Decision.run N ∈ (chunkDecisions run r).1) : 8 ≤ N ∧ N ≤ run + r.length := by
  unfold chunkDecisions at h; simp only at h
  have := leadingZeros_le r
  split at h
  · simp at h
  · split at h
    · simp only [List.mem_cons, Decision.run.injEq, List.mem_map, reduceCtorEq, and_false, exists_false, or_false] at h
      omega
    · simp at h

theorem rowDecisions_raw_mem {rs : List (List Word)} : ∀ {run : Nat} {v : Word}, Decision.raw v ∈ (rowDecisions run rs).1 → ∃ r ∈ rs, v ∈ r := by
  induction rs with
  | nil => intro run v h; simp [rowDecisions] at h
  | cons r rs ih =>
    intro run v h
    simp only [rowDecisions, List.mem_append] at h
    rcases h with h | h
    · exact ⟨r, by simp, chunkDecisions_raw_mem h rfl⟩
    · obtain ⟨r', h1, h2⟩ := ih h
      exact ⟨r', by simp [h1], h2⟩

theorem rowDecisions_run_mem {rs : List (List Word)} : ∀ {run N : Nat}, Decision.run N ∈ (rowDecisions run rs).1 → 8 ≤ N ∧ N ≤ run + (rs.map List.length).sum := by
  induction rs with
  | nil => intro run N h; simp [rowDecisions] at h
  | cons r rs ih =>
    intro run N h
    simp only [rowDecisions, List.mem_append] at h
    have := chunkDecisions_snd_le run r
    simp only [List.map_cons, List.sum_cons]
    rcases h with h | h
    · have := chunkDecisions_run_mem h; omega
    · have := ih h; omega

/-- With residuals below `2^18` and no run past `2^21 + 7` every decision of a row is in the alphabet. -/
theorem State.decisions_inAlphabet (s : State) (c : Chan) (hv : ∀ v ∈ s.residuals, v.toNat < 2 ^ 18) (h : (s.runOf c).toNat + s.resn.val < 2 ^ 21 + 8) :
   ∀ d ∈ (s.decisions c).1, d.inAlphabet := by
  intro d hd
  cases d with
  | raw v =>
    obtain ⟨r, hr, hvr⟩ := rowDecisions_raw_mem hd
    have : v ∈ (chunks 16 s.residuals).flatten := List.mem_flatten.2 ⟨r, hr, hvr⟩
    rw [chunks_flatten _ _ (by rw [s.residuals_length]; have := s.resn.isLt; omega)] at this
    exact hv v this
  | run N =>
    have := rowDecisions_run_mem hd
    have h2 := chunks_length_sum 16 s.residuals
    rw [s.residuals_length] at h2
    exact ⟨this.1, by omega⟩

/-! ## One decision -/

/-- A decision whose symbols all have a code writes its writes (R233, R234). -/
theorem decisionStep_emit {c : Chan} {d : Decision} {s : State} (ha : d.inAlphabet) (hc : d.coded (s.code c)) :
    decisionStep .emit c d s = bwWrites c (d.writes (s.code c)) s := by
  cases d with
  | raw v =>
    have := rawToken_tok_le ha
    simp only [decisionStep, emitRaw, Decision.writes]
    rw [if_neg (by omega), if_neg hc]
  | run N =>
    obtain ⟨h1, h2⟩ := ha
    simp only [decisionStep, flushRun, Decision.writes]
    rw [if_neg (by omega), if_neg (by omega), if_neg (by rintro (h | h); exacts [hc.1 h, hc.2 h])]

/-- No single count of a decision's writes is above 20 (R242). -/
theorem Decision.writes_count_le {d : Decision} {t : Code} (ha : d.inAlphabet) : ∀ p ∈ d.writes t, p.1 ≤ 20 := by
  have h4 : ∀ b : BitVec 4, b.toNat ≤ 20 := fun b => by have := b.isLt; omega
  cases d with
  | raw v =>
    have := rawToken_nbits_le ha
    simp only [Decision.writes, List.mem_cons, List.not_mem_nil, or_false]
    rintro p (rfl | rfl)
    · exact h4 _
    · simp only; omega
  | run N =>
    obtain ⟨h1, h2⟩ := ha
    have := lzToken_nbits_le (u := N - 8) (by omega)
    simp only [Decision.writes, List.mem_cons, List.not_mem_nil, or_false]
    rintro p (rfl | rfl | rfl)
    · exact h4 _
    · exact h4 _
    · simpa using this

/-- Decisions whose symbols all have codes, in a writer with room, append their writes in order. -/
theorem decisions_emit_spec {c : Chan} {ds : List Decision} {s : State} {t : Code} (ht : s.code c = t)
    (hd : ∀ d ∈ ds, d.inAlphabet ∧ d.coded t) (hg : (s.writer c).Good s.params.outBytes.val)
    (hr : bitCount (ds.flatMap (Decision.writes t)) ≤ s.room c) :
    ∃ u, forEach (decisionStep .emit c) ds s = .go u ∧ WritesBits c s u ∧ SameStatus s u ∧ u.pc = s.pc ∧ u.run = s.run ∧
      (u.writer c).Good u.params.outBytes.val ∧ u.room c = s.room c - bitCount (ds.flatMap (Decision.writes t)) ∧
      u.stream c = s.stream c ++ writesBits (ds.flatMap (Decision.writes t)) := by
  induction ds generalizing s with
  | nil => exact ⟨s, rfl, WritesBits.refl c s, ⟨rfl, rfl, rfl⟩, rfl, rfl, hg, by simp, by simp⟩
  | cons d ds ih =>
    rw [List.flatMap_cons, bitCount_append] at hr
    obtain ⟨hda, hdc⟩ := hd d (by simp)
    obtain ⟨v, hv, hw, hs, hp, hrun, hg', hroom, hst⟩ :=
      bwWrites_spec (l := d.writes t) hg (fun p hp => by have := Decision.writes_count_le hda p hp; omega) (by omega)
    have hcode : v.code c = t := by rw [← ht]; simp only [State.code, hw.codes]
    obtain ⟨u, hu, hw', hs', hp', hrun', hg'', hroom', hst'⟩ :=
      ih hcode (fun e he => hd e (by simp [he])) hg' (by omega)
    refine ⟨u, ?_, hw.trans hw', ⟨hs'.seq.trans hs.seq, hs'.cause.trans hs.cause, hs'.fpc.trans hs.fpc⟩, hp'.trans hp,
      hrun'.trans hrun, hg'', ?_, ?_⟩
    · rw [forEach_cons, decisionStep_emit hda (by rw [ht]; exact hdc), ht, hv, Flow.go_andThen, hu]
    · rw [hroom', hroom, List.flatMap_cons, bitCount_append]; omega
    · rw [hst', hst, List.flatMap_cons, writesBits_append, List.append_assoc]

theorem Hist.entry_bumpRaw (h : Hist) (t k : Nat) (ht : t < 19) :
    entry (h.bumpRaw t).raw k = if t = k then entry h.raw t + 1 else entry h.raw k :=
  entry_setIfInBounds _ _ _ _ ht

theorem Hist.entry_bumpLz (h : Hist) (t k : Nat) (ht : t < 33) :
    entry (h.bumpLz t).lz k = if t = k then entry h.lz t + 1 else entry h.lz k :=
  entry_setIfInBounds _ _ _ _ ht

theorem counterFull_iff (v : Word) : counterFull v = true ↔ v.toNat = 2 ^ 32 - 1 := by
  simp only [counterFull, beq_iff_eq]
  constructor
  · rintro rfl; decide
  · intro h; exact BitVec.eq_of_toNat_eq (by rw [h]; decide)

theorem toNat_add_one {v : Word} (h : v.toNat ≠ 2 ^ 32 - 1) : (v + 1).toNat = v.toNat + 1 := by
  have := v.isLt
  rw [BitVec.toNat_add]
  exact Nat.mod_eq_of_lt (by simp; omega)

/-- The histograms after a decision is counted (R233, R234). -/
def Decision.count (h : Hist) : Decision → Hist
  | .raw v => h.bumpRaw (rawToken v.toNat).tok
  | .run N => (h.bumpRaw 0).bumpLz (lzToken (N - 8)).tok

/-- A decision in the alphabet either finds a full counter and raises `HistOverflow`, or is counted: each counter grows by how
often the decision counts it. -/
theorem decisionStep_count {c : Chan} {d : Decision} {s : State} (ha : d.inAlphabet) :
    (((∃ k, k < 19 ∧ (entry (s.hist c).raw k).toNat + d.countsRaw k = 2 ^ 32) ∨
        ∃ j, j < 33 ∧ (entry (s.hist c).lz j).toNat + d.countsLz j = 2 ^ 32) ∧
      decisionStep .count c d s = .raised .histOverflow s) ∨
    ((∀ k, k < 19 → (entry (d.count (s.hist c)).raw k).toNat = (entry (s.hist c).raw k).toNat + d.countsRaw k) ∧
      (∀ j, j < 33 → (entry (d.count (s.hist c)).lz j).toNat = (entry (s.hist c).lz j).toNat + d.countsLz j) ∧
      decisionStep .count c d s = .go (s.setHist c (d.count (s.hist c)))) := by
  cases d with
  | raw v =>
    have ht := rawToken_tok_le ha
    simp only [decisionStep, emitRaw, Decision.count, Decision.countsRaw, Decision.countsLz]
    rw [if_neg (by omega)]
    by_cases hf : counterFull (entry (s.hist c).raw (rawToken v.toNat).tok) = true
    · refine .inl ⟨.inl ⟨(rawToken v.toNat).tok, by omega, ?_⟩, if_pos hf⟩
      rw [if_pos rfl, (counterFull_iff _).1 hf]; decide
    · refine .inr ⟨fun k hk => ?_, fun j hj => rfl, if_neg hf⟩
      rw [Hist.entry_bumpRaw _ _ _ (by omega)]
      by_cases hk : (rawToken v.toNat).tok = k
      · rw [if_pos hk, if_pos hk, hk, toNat_add_one]
        rw [← hk]; exact fun h => hf ((counterFull_iff _).2 h)
      · rw [if_neg hk, if_neg hk, Nat.add_zero]
  | run N =>
    obtain ⟨h1, h2⟩ := ha
    have ht := lzToken_tok_le (u := N - 8) (by omega)
    simp only [decisionStep, flushRun, Decision.count, Decision.countsRaw, Decision.countsLz]
    rw [if_neg (by omega), if_neg (by omega)]
    by_cases hf : (counterFull (entry (s.hist c).raw 0) || counterFull (entry (s.hist c).lz (lzToken (N - 8)).tok)) = true
    · refine .inl ⟨?_, if_pos hf⟩
      rcases (Bool.or_eq_true _ _).mp hf with h | h
      · exact .inl ⟨0, by omega, by rw [if_pos rfl, (counterFull_iff _).1 h]; decide⟩
      · exact .inr ⟨(lzToken (N - 8)).tok, by omega, by rw [if_pos rfl, (counterFull_iff _).1 h]; decide⟩
    · simp only [Bool.or_eq_true, not_or] at hf
      refine .inr ⟨fun k hk => ?_, fun j hj => ?_, if_neg (by simp [hf])⟩
      · show (entry ((s.hist c).bumpRaw 0).raw k).toNat = _
        rw [Hist.entry_bumpRaw _ _ _ (by omega)]
        by_cases hk : k = 0
        · subst hk
          rw [if_pos rfl, if_pos rfl, toNat_add_one]
          exact fun h => hf.1 ((counterFull_iff _).2 h)
        · rw [if_neg (fun h => hk h.symm), if_neg hk, Nat.add_zero]
      · rw [Hist.entry_bumpLz _ _ _ (by omega)]
        have e : ∀ i, entry ((s.hist c).bumpRaw 0).lz i = entry (s.hist c).lz i := fun _ => rfl
        simp only [e]
        by_cases hj : (lzToken (N - 8)).tok = j
        · rw [if_pos hj, if_pos hj, hj, toNat_add_one]
          rw [← hj]; exact fun h => hf.2 ((counterFull_iff _).2 h)
        · rw [if_neg hj, if_neg hj, Nat.add_zero]

/-- Decisions in the alphabet whose counts fit the counters are counted, one by one. -/
theorem decisions_count_spec {c : Chan} {ds : List Decision} {s : State} (hd : ∀ d ∈ ds, d.inAlphabet)
    (hraw : ∀ k, k < 19 → (entry (s.hist c).raw k).toNat + (ds.map (Decision.countsRaw k)).sum < 2 ^ 32)
    (hlz : ∀ j, j < 33 → (entry (s.hist c).lz j).toNat + (ds.map (Decision.countsLz j)).sum < 2 ^ 32) :
    ∃ h, forEach (decisionStep .count c) ds s = .go (s.setHist c h) ∧
      (∀ k, k < 19 → (entry h.raw k).toNat = (entry (s.hist c).raw k).toNat + (ds.map (Decision.countsRaw k)).sum) ∧
      ∀ j, j < 33 → (entry h.lz j).toNat = (entry (s.hist c).lz j).toNat + (ds.map (Decision.countsLz j)).sum := by
  induction ds generalizing s with
  | nil =>
    refine ⟨s.hist c, ?_, by simp, by simp⟩
    simp [State.setHist, State.hist]
  | cons d ds ih =>
    simp only [List.map_cons, List.sum_cons] at hraw hlz ⊢
    rcases decisionStep_count (s := s) (c := c) (hd d (by simp)) with ⟨h, _⟩ | ⟨h1, h2, h3⟩
    · exfalso
      rcases h with ⟨k, hk, h⟩ | ⟨j, hj, h⟩
      · have := hraw k hk; omega
      · have := hlz j hj; omega
    · obtain ⟨h, e, e1, e2⟩ := ih (s := s.setHist c (d.count (s.hist c))) (fun e he => hd e (by simp [he]))
        (fun k hk => by rw [State.setHist_hist_self, h1 k hk]; have := hraw k hk; omega)
        (fun j hj => by rw [State.setHist_hist_self, h2 j hj]; have := hlz j hj; omega)
      refine ⟨h, ?_, fun k hk => ?_, fun j hj => ?_⟩
      · rw [forEach_cons, h3, Flow.go_andThen, e]
        simp [State.setHist]
      · rw [e1 k hk, State.setHist_hist_self, h1 k hk]; omega
      · rw [e2 j hj, State.setHist_hist_self, h2 j hj]; omega

end Sys2Proof.Machine
end

