-- ==== Sys2Proof/Tests/Slice0.lean ====
section
/-! SUPPORT. Tests of the model against the vectors of spec/95_test_vectors.md and the encodings of spec/30_encoding.md, and a
witness for each obligation that has hypotheses. "S4", "B16", "H4", ... are the ids of the vectors. -/

namespace Sys2Proof.Tests

open Sys2Proof Sys2Proof.Machine

-- One theorem after the other: many kernel evaluations at the same time take more memory than there is.
set_option Elab.async false

/-! ## Decoding: words of 95_test_vectors.md section 2 and its programs, and of R99 -/

theorem test_decode_sequencer :
    decode 0x00000000#32 = some .nop ∧ decode 0x00000001#32 = some .halt ∧
    decode 0xABCD0602#32 = some (.liK 1 2 0xABCD) ∧ decode 0xABCD2902#32 = some (.liZ 2 1 0xABCD) ∧
    decode 0x80000403#32 = some (.addi 1 0x8000) ∧ decode 0x00010C04#32 = some (.loop 3 1) := by decide

theorem test_decode_bitWriter :
    decode 0x0000DF10#32 = some (.bwInit 3 7 6) ∧ decode 0x00381F11#32 = some (.bwWrite 3 56 7) ∧
    decode 0x00000212#32 = some (.bwZpad 2) ∧ decode 0x12345613#32 = some (.bwWritem 2 4660 5 2) := by decide

theorem test_decode_prefixCode :
    decode 0x00000120#32 = some (.pcHclr 1) ∧ decode 0x00000221#32 = some (.pcBuild 2) ∧
    decode 0x00020122#32 = some (.pcSerial 1 2) ∧ decode 0x00030322#32 = some (.pcSerial 3 3) := by decide

theorem test_decode_predictor :
    decode 0x01000030#32 = some (.prStart 256) ∧ decode 0x00001C31#32 = some (.prLoad 7) ∧
    decode 0x00000332#32 = some (.prPred 3) := by decide

theorem test_decode_tokenizer :
    decode 0x00000140#32 = some (.tkRowc 1) ∧ decode 0x00000241#32 = some (.tkRowe 2) ∧
    decode 0x00000142#32 = some (.tkFinc 1) ∧ decode 0x00000343#32 = some (.tkFine 3) := by decide

/-- One word of each family bit by bit: `imm`, then `rb`, `ra`, `ch`, `op` (R91, R94). -/
theorem test_decode_bits :
    decode (0b0000000000000101#16 ++ (0b001#3 ++ (0b010#3 ++ (0b00#2 ++ 0b00000010#8)))) = some (.liZ 2 0 5) ∧
    decode (0b0000000000000011#16 ++ (0b000#3 ++ (0b010#3 ++ (0b00#2 ++ 0b00010001#8)))) = some (.bwWrite 0 3 2) ∧
    decode (0b0000000000000010#16 ++ (0b000#3 ++ (0b000#3 ++ (0b01#2 ++ 0b00100010#8)))) = some (.pcSerial 1 2) ∧
    decode (0b0000000000000000#16 ++ (0b000#3 ++ (0b111#3 ++ (0b00#2 ++ 0b00110001#8)))) = some (.prLoad 7) ∧
    decode (0b0000000000000000#16 ++ (0b000#3 ++ (0b000#3 ++ (0b11#2 ++ 0b01000011#8)))) = some (.tkFine 3) := by decide

/-- The illegal words of 95_test_vectors.md section 2. -/
theorem test_decode_illegal :
    decode 0x00000100#32 = none ∧ decode 0x00004002#32 = none ∧ decode 0x00010010#32 = none ∧ decode 0x00040022#32 = none ∧
    decode 0x00000131#32 = none ∧ decode 0x00002031#32 = none ∧ decode 0x00000005#32 = none ∧ decode 0x00000044#32 = none ∧
    decode 0xFFFFFFFF#32 = none := by decide

/-- The host's two questions, on one word: what the decoder reads from a table word, and what runs first. -/
theorem test_tableWord : decodeTableWord 32 0x00052802 = some (.liZ 2 0 5) := by decide

theorem test_fetchWord :
    (match step (State.reset.withFetchWord 32 0x00052802) with | .next t => t.reg 2 == 5 && t.pc == 1 | _ => false) = true := by
  decide +kernel

/-! ## WellFormed: what each check refuses -/

/-- A set bit that the format does not use (R92), one format after the other, and an opcode outside the table (R95). -/
theorem test_wellFormed_unused :
    legalWord 0x00000401#32 = false ∧ legalWord 0x00004002#32 = false ∧ legalWord 0x00008002#32 = false ∧
    legalWord 0x00002003#32 = false ∧ legalWord 0x00000104#32 = false ∧ legalWord 0x00000412#32 = false ∧
    legalWord 0x00002011#32 = false ∧ legalWord 0x00010010#32 = false ∧ legalWord 0x00040022#32 = false ∧
    legalWord 0x00000422#32 = false ∧ legalWord 0x00000130#32 = false ∧ legalWord 0x00010031#32 = false ∧
    legalWord 0x00000014#32 = false := by decide

/-- Each field too large, and fields that fit but make an illegal word. -/
theorem test_wellFormed_fields :
    (RawFields.mk 256 0 0 0 0).wellFormed = false ∧ (RawFields.mk 0x13 4 0 0 0).wellFormed = false ∧
    (RawFields.mk 0x13 0 8 0 0).wellFormed = false ∧ (RawFields.mk 0x13 0 0 8 0).wellFormed = false ∧
    (RawFields.mk 0x13 0 0 0 65536).wellFormed = false ∧ (RawFields.mk 0x12 0 1 0 0).wellFormed = false ∧
    (RawFields.mk 0x13 3 7 7 65535).wellFormed = true := by decide

/-- Operands of a source line that do not fit (R93, R97, R98). -/
theorem test_wellFormed_lines :
    (AsmLine.liZ 8 0 0).wellFormed = false ∧ (AsmLine.liK 0 4 0).wellFormed = false ∧
    (AsmLine.liK 0 0 65536).wellFormed = false ∧ (AsmLine.addi 0 32768).wellFormed = false ∧
    (AsmLine.addi 0 (-32769)).wellFormed = false ∧ (AsmLine.loop 0 (-1)).wellFormed = false ∧
    (AsmLine.bwInit 4 0 0).wellFormed = false ∧ (AsmLine.pcSerial 0 4).wellFormed = false ∧
    (AsmLine.prStart 65536).wellFormed = false ∧ (AsmLine.prLoad (-1)).wellFormed = false ∧
    (AsmLine.movi 0 65536).wellFormed = false ∧ (AsmLine.li32 0 4294967296).wellFormed = false ∧
    (AsmLine.li64 0 18446744073709551616).wellFormed = false ∧ (AsmLine.subi 0 32769).wellFormed = false := by decide

/-- R97, R98: the first program P1 with a label and a pseudo-instruction. -/
theorem test_assemble :
    assemble 0 [⟨none, .movi 2 5⟩, ⟨some "again", .bwWrite 0 3 2⟩, ⟨none, .loopTo 3 "again"⟩, ⟨none, .subi 0 2⟩] =
      some [0x00052802, 0x00030811, 0x00010C04, 0xFFFE0003] := by decide

/-! ## One step, on small states -/

/-- The state a command answers, and the state it began in when it answers none. -/
def after (i : Instr) (s : State) : State := match exec i s with | .next t => t | _ => s

/-- A running block at `pc` 0 with the bytes of IN from address 0 up. -/
def running (input : List Byte) : State :=
  { State.reset with seq := .run, input := input.zipIdx.map fun p => (p.2, p.1) }

/-- Writer 0 with the region of `limit` bytes at address 0, and what is pending in it. -/
def withWriter (limit : Word) (acc : BitVec 64) (nbits : Fin 8) (s : State) : State :=
  s.setWriter 0 { base := 0, limit := limit, bytes := 0, acc := acc, nbits := nbits }

/-- Residuals in `RES` from entry 0 up. -/
def withResiduals (l : List Word) (s : State) : State :=
  { s with res := Vector.ofFn fun i => l.getD i.val 0, resn := Fin.ofNat 257 l.length, xs := Fin.ofNat 257 l.length, nrows := 1 }

/-- Histogram counts of channel 0, and all bounds `MAXLEN[0..18] = 7`, `MAXLEN[19] = 10` as the vectors have them. -/
def withCounts (raw lz : List Word) (s : State) : State :=
  { s.setHist 0 { raw := Vector.ofFn fun i => raw.getD i.val 0, lz := Vector.ofFn fun i => lz.getD i.val 0 } with
    maxlen := (Vector.replicate 20 7).set 19 10 }

/-- Code tables of channel 0, each entry a length and its bits. -/
def withCode (raw lz : List (BitVec 4 × BitVec 16)) (s : State) : State :=
  s.setCode 0
    { rawLen := Vector.ofFn fun i => (raw.getD i.val (0, 0)).1, rawBits := Vector.ofFn fun i => (raw.getD i.val (0, 0)).2,
      lzLen := Vector.ofFn fun i => (lz.getD i.val (0, 0)).1, lzBits := Vector.ofFn fun i => (lz.getD i.val (0, 0)).2 }

/-- What writer 0 holds: `BYTES`, `ACC`, `NBITS`. -/
def tail (s : State) : Nat × Nat × Nat :=
  ((s.writer 0).bytes.toNat, (s.writer 0).acc.toNat, (s.writer 0).nbits.val)

theorem test_nop : (after .nop (running [])).pc = 1 ∧ (after .nop (running [])).seq = .run := by decide +kernel
theorem test_halt : (after .halt (running [])).pc = 1 ∧ (after .halt (running [])).seq = .halted := by decide +kernel

/-- S1: a slice replaced, the others kept; then a slice loaded, the others 0. -/
theorem test_li :
    (after (.liK 1 2 0xABCD) ((running []).setReg 1 0x1111222233334444)).reg 1 = 0x1111ABCD33334444 ∧
    (after (.liZ 2 1 0xABCD) ((running []).setReg 2 0x1111222233334444)).reg 2 = 0x00000000ABCD0000 := by decide +kernel

/-- S2. -/
theorem test_addi :
    (after (.addi 0 0xFFFF) (running [])).reg 0 = 0xFFFFFFFFFFFFFFFF ∧
    (after (.addi 1 0x8000) ((running []).setReg 1 32767)).reg 1 = 0xFFFFFFFFFFFFFFFF := by decide +kernel

/-- S4: the fault comes before the decrement. S5: no fault when the loop ends, whatever the offset. -/
theorem test_loop_range :
    (after (.loop 3 2) ((running []).setReg 3 2)).cause = 0x03 ∧ (after (.loop 3 2) ((running []).setReg 3 2)).reg 3 = 2 := by
  decide +kernel
theorem test_loop_end :
    (after (.loop 3 2) ((running []).setReg 3 1)).pc = 1 ∧ (after (.loop 3 2) ((running []).setReg 3 1)).seq = .run := by
  decide +kernel

/-- B19, B21: the top of OUT. -/
theorem test_bwInit_range : (after (.bwInit 0 0 1) (((running []).setReg 0 65535).setReg 1 2)).cause = 0x12 := by decide +kernel
theorem test_bwInit_empty :
    ((after (.bwInit 0 0 1) ((running []).setReg 0 65536)).writer 0).base = 65536 ∧
    (after (.bwInit 0 0 1) ((running []).setReg 0 65536)).seq = .run := by decide +kernel

/-- B4, its second write, and B11, its second write. -/
theorem test_bwWrite_long :
    tail (after (.bwWrite 0 56 2) (withWriter 64 0x7F 7 ((running []).setReg 2 0x00123456789ABCDE))) = (7, 0x09, 7) ∧
    (after (.bwWrite 0 56 2) (withWriter 64 0x7F 7 ((running []).setReg 2 0x00123456789ABCDE))).out.map (·.2) =
      [0x7F, 0x6F, 0x5E, 0x4D, 0x3C, 0x2B, 0x1A] := by decide +kernel
theorem test_bwWrite_overflow :
    (after (.bwWrite 0 9 2) (withWriter 1 0x55 7 ((running []).setReg 2 0x1FF))).cause = 0x11 ∧
    tail (after (.bwWrite 0 9 2) (withWriter 1 0x55 7 ((running []).setReg 2 0x1FF))) = (0, 0x55, 7) := by decide +kernel

/-- B3: `ZPAD` of three pending bits, and of none. -/
theorem test_bwZpad :
    (after (.bwZpad 0) (withWriter 64 5 3 (running []))).out = [(0, 0x05)] ∧
    tail (after (.bwZpad 0) (withWriter 64 5 3 (running []))) = (1, 0, 0) ∧
    (after (.bwZpad 0) (withWriter 64 0 0 (running []))).out = [] := by decide +kernel

/-- IN of B16 and B17: three counts, then at 8 the values 5, 0x1A and 2^64 - 1. -/
def writemInput (count : Byte) : List Byte :=
  [3, count, 8, 0, 0, 0, 0, 0] ++ [5, 0, 0, 0, 0, 0, 0, 0] ++ [0x1A, 0, 0, 0, 0, 0, 0, 0] ++ List.replicate 8 0xFF

theorem test_bwWritem :
    (after (.bwWritem 0 3 4 5) (withWriter 16 0 0 ((running (writemInput 5)).setReg 5 8))).out = [(0, 0xD5), (1, 0xFF)] := by
  decide +kernel
theorem test_bwWritem_count :
    (after (.bwWritem 0 3 4 5) (withWriter 16 0 0 ((running (writemInput 60)).setReg 5 8))).cause = 0x10 ∧
    tail (after (.bwWritem 0 3 4 5) (withWriter 16 0 0 ((running (writemInput 60)).setReg 5 8))) = (0, 5, 3) := by
  decide +kernel

theorem test_pcHclr : ((after (.pcHclr 0) (withCounts [9] [8] (running []))).hist 0).raw[0] = 0 := by decide +kernel

/-- H4: one run-length symbol, whose code is the escape's. -/
theorem test_pcBuild :
    ((after (.pcBuild 0) (withCounts [3, 0, 0, 0, 0, 1] [5] (running []))).code 0).rawLen.toList.take 6 = [2, 0, 0, 0, 0, 2] ∧
    ((after (.pcBuild 0) (withCounts [3, 0, 0, 0, 0, 1] [5] (running []))).code 0).rawBits.toList.take 6 = [1, 0, 0, 0, 0, 3] ∧
    ((after (.pcBuild 0) (withCounts [3, 0, 0, 0, 0, 1] [5] (running []))).code 0).lzLen[0] = 1 := by decide +kernel
/-- H6. -/
theorem test_pcBuild_single : (after (.pcBuild 0) (withCounts [0, 0, 0, 0, 9] [] (running []))).cause = 0x21 := by decide +kernel

/-- Z1 and Z8. -/
theorem test_pcSerial :
    (after (.pcSerial 0 0) (withWriter 64 0 0 (withCode [(1, 0), (0, 0), (0, 0), (0, 0), (0, 0), (1, 1)] [] (running [])))).out =
      [(0, 0x1C), (1, 0x70)] ∧
    tail (after (.pcSerial 0 0)
      (withWriter 64 0 0 (withCode [(1, 0), (0, 0), (0, 0), (0, 0), (0, 0), (1, 1)] [] (running [])))) = (2, 0x21, 6) := by
  decide +kernel
theorem test_pcSerial_none : (after (.pcSerial 0 0) (withWriter 64 0 0 (running []))).cause = 0x21 := by decide +kernel

theorem test_prStart :
    (after (.prStart 257) (running [])).cause = 0x30 ∧ (after (.prStart 256) (running [])).xs = 256 := by decide +kernel

/-- A running block with `CFG`, a row length and IN. -/
def withRow (cfg : Word) (xs : Fin 257) (input : List Byte) : State := { running input with cfg := cfgOfWord cfg, xs := xs }

/-- U2v (`NC` 1, `BPS` 16, big-endian) and U7v (`NC` 3, `BPS` 16, big-endian). -/
theorem test_prLoad_bigEndian :
    (after (.prLoad 0) (withRow 0x281 2 [0x34, 0x12, 0xFF, 0xFF])).cur[0].toList.take 2 = [0x3412, 0xFFFF] := by decide +kernel
theorem test_prLoad_colour :
    (after (.prLoad 0) (withRow 0x283 1 [0xFF, 0xFF, 0, 0, 0xFF, 0xFF])).cur.toList.map (fun r => r[0]) =
      [32767, 0, 0xFFFF0001, 0] := by decide +kernel

/-- W2, its second row. -/
theorem test_prPred :
    (after (.prPred 0) { withRow 0x41 4 [] with
      nrows := 2, cur := (Vector.replicate 4 zeroRow).set 0 (Vector.ofFn fun i => [7, 9, 1, 190].getD i.val 0)
      prev := (Vector.replicate 4 zeroRow).set 0 (Vector.ofFn fun i => [5, 9, 4, 200].getD i.val 0) }).residuals =
      [4, 0, 5, 13] := by decide +kernel
/-- `ChRange` is checked before `NoRow`. -/
theorem test_prPred_faults :
    (after (.prPred 1) (withRow 0x41 1 [])).cause = 0x31 ∧ (after (.prPred 0) (withRow 0x41 1 [])).cause = 0x32 := by
  decide +kernel

/-- K8: a pending run of 8, two more zeros, then a 7. -/
theorem test_tkRowc :
    ((after (.tkRowc 0) ((withResiduals [0, 0, 7] (running [])).setRun 0 8)).hist 0).raw.toList.take 4 = [1, 0, 0, 1] ∧
    ((after (.tkRowc 0) ((withResiduals [0, 0, 7] (running [])).setRun 0 8)).hist 0).lz.toList.take 4 = [0, 0, 1, 0] ∧
    (after (.tkRowc 0) ((withResiduals [0, 0, 7] (running [])).setRun 0 8)).runOf 0 = 0 := by decide +kernel
/-- K13: what is counted before the fault stays counted. -/
theorem test_tkRowc_range :
    (after (.tkRowc 0) (withResiduals [1, 262144] (running []))).cause = 0x41 ∧
    ((after (.tkRowc 0) (withResiduals [1, 262144] (running []))).hist 0).raw[1] = 1 := by decide +kernel

/-- The code of program P6. -/
def codeP6 (s : State) : State := withCode [(1, 0), (0, 0), (0, 0), (0, 0), (0, 0), (1, 1)] [] s

/-- P6 at address 6: the token before the fault stays written. P2 at address 20, its first pass: both residuals written. -/
theorem test_tkRowe_uncoded :
    (after (.tkRowe 0) (withWriter 16 0 0 (codeP6 (withResiduals [20, 2] (running []))))).cause = 0x40 ∧
    tail (after (.tkRowe 0) (withWriter 16 0 0 (codeP6 (withResiduals [20, 2] (running []))))) = (0, 0x09, 5) := by
  decide +kernel
theorem test_tkRowe :
    (after (.tkRowe 0) (withWriter 64 0x21 6 (codeP6 (withResiduals [20, 0] (running []))))).out = [(0, 0x61)] ∧
    tail (after (.tkRowe 0) (withWriter 64 0x21 6 (codeP6 (withResiduals [20, 0] (running []))))) = (1, 2, 4) := by
  decide +kernel

/-- The longest run that `TK.FINC` takes, and one more. -/
theorem test_tkFinc :
    ((after (.tkFinc 0) ((running []).setRun 0 2097159)).hist 0).lz[32] = 1 ∧
    (after (.tkFinc 0) ((running []).setRun 0 2097159)).runOf 0 = 0 := by decide +kernel
theorem test_tkFinc_range :
    (after (.tkFinc 0) ((running []).setRun 0 2097160)).cause = 0x42 ∧
    (after (.tkFinc 0) ((running []).setRun 0 2097160)).runOf 0 = 2097160 := by decide +kernel

/-- The code of P4 as far as a run of 24 needs it: raw token 0 and run-length token 16. -/
def codeP4 (s : State) : State := withCode [(1, 0)] (List.replicate 16 (0, 0) ++ [(6, 63)]) s

/-- P4 at address 11: a run of 24. -/
theorem test_tkFine :
    (after (.tkFine 0) (withWriter 32 0 0 (codeP4 ((running []).setRun 0 24)))).out = [(0, 0x7E)] ∧
    tail (after (.tkFine 0) (withWriter 32 0 0 (codeP4 ((running []).setRun 0 24)))) = (1, 0, 3) := by decide +kernel

/-- S7 at its end: the fetch past CMD; S9: an illegal word. -/
theorem test_step_range :
    (match step { running [] with pc := 4096 } with | .next t => t.cause == 0x02 && t.fpc == 4096 | _ => false) = true := by
  decide +kernel
theorem test_step_illegal :
    (match step (State.reset.withFetchWord 32 0x00000100) with | .next t => t.cause == 0x01 && t.pc == 0 | _ => false) = true := by
  decide +kernel

/-! ## The host -/

/-- R38: half of a register, and a code length cut to its four bits, through the table window. -/
theorem test_tableWindow :
    (((State.reset.writeRegister 7 0x00B).writeRegister 8 0x12345678).reg 3) = 0x1234567800000000 ∧
    ((State.reset.writeRegister 7 0x150).writeRegister 8 0xF3).readRegister 8 = 3 ∧
    ((State.reset.writeRegister 7 0x024).writeRegister 8 0xF3).readRegister 8 = 0 := by decide +kernel

/-- R7, at the ends of its classes. -/
theorem test_depthClass : [1, 8, 9, 13, 14, 15, 32].map depthClass = [0, 0, 1, 1, 2, 3, 3] := by decide

/-- R29 and R25: `CFG` keeps its ten bits; `START` and `IE`. -/
theorem test_registers :
    (State.reset.writeRegister 5 0xFFFFFFFF).readRegister 5 = 0x3FF ∧ (State.reset.writeRegister 0 5).seq = .run ∧
    (State.reset.writeRegister 0 7).seq = .idle ∧ (State.reset.writeRegister 0 5).readRegister 1 = 1 := by decide +kernel

/-! ## Witnesses: for each obligation with hypotheses, states and operands that meet them, one for each clause -/

/-- The command answers a next state that satisfies `p`. -/
def answers (p : State → Bool) (i : Instr) (s : State) : Bool := match exec i s with | .next t => p t | _ => false

theorem exists_of_answers {p : State → Bool} {i : Instr} {s : State} (h : answers p i s = true) :
    ∃ t, exec i s = .next t ∧ p t = true := by
  unfold answers at h
  split at h
  · exact ⟨_, by assumption, h⟩
  · cases h

/-- The command completes, so the hypotheses `exec i s = .next t` and `t.seq ≠ .fault` are met. -/
theorem completes_of_answers {i : Instr} {s : State} (h : answers (fun t => t.seq != .fault) i s = true) :
    ∃ t, exec i s = .next t ∧ t.seq ≠ .fault := by
  obtain ⟨t, ht, hf⟩ := exists_of_answers h
  exact ⟨t, ht, by simpa using hf⟩

theorem witness_StepRunsDecoded :
    let s := State.reset.withFetchWord 32 0x00052802
    s.seq = .run ∧ s.pc.toNat < s.params.cmdWords.val ∧ decode (s.fetchWord s.pc) = some (.liZ 2 0 5) := by decide +kernel

theorem witness_StepFaultsOfTheFetch :
    (let s := { running [] with pc := 4096 }
     s.seq = .run ∧ s.params.cmdWords.val ≤ s.pc.toNat) ∧
    (let s := { State.reset with pc := 4095 }.withFetchWord 32 0x00000100
     s.seq = .run ∧ s.pc.toNat < s.params.cmdWords.val ∧ decode (s.fetchWord s.pc) = none) ∧
    State.reset.seq ≠ .run := by decide +kernel

theorem witness_PlacedCommandRuns :
    (State.reset.seq = .idle ∧ State.reset.pc.toNat < State.reset.params.cmdWords.val) ∧
    (let s := { State.reset with seq := .halted, pc := 4095 }
     s.seq = .halted ∧ s.pc.toNat < s.params.cmdWords.val) := by decide +kernel

/-- A branch of one command more than there are, one to address 0, a register of 0, and the last turn. -/
theorem witness_LoopCases :
    (((running []).setReg 3 2).reg 3 - 1 ≠ 0 ∧ (running []).pc.toNat < (1 : BitVec 16).toNat) ∧
    (({ running [] with pc := 1 }.setReg 3 2).reg 3 - 1 ≠ 0 ∧ (1 : BitVec 16).toNat ≤ ({ running [] with pc := 1 } : State).pc.toNat) ∧
    (running []).reg 3 - 1 ≠ 0 ∧ ((running []).setReg 3 1).reg 3 - 1 = 0 := by decide +kernel

theorem witness_LoopOnItselfCountsDown :
    let s := (State.reset.withFetchWord 32 0x00000C04).setReg 3 1
    s.seq = .run ∧ s.pc.toNat < s.params.cmdWords.val ∧ decode (s.fetchWord s.pc) = some (.loop 3 0) ∧ 1 ≤ (s.reg 3).toNat := by
  decide +kernel

/-- Each cause of `MemRange`, and a region that ends at the end of OUT. -/
theorem witness_BwInitGivesRegion :
    2 ^ 32 ≤ (((running []).setReg 0 0x100000000).reg 0).toNat ∧ 2 ^ 32 ≤ (((running []).setReg 1 0x100000000).reg 1).toNat ∧
    (let s := ((running []).setReg 0 65535).setReg 1 2
     s.params.outBytes.val < (s.reg 0).toNat + (s.reg 1).toNat) ∧
    (let s := ((running []).setReg 0 65535).setReg 1 1
     (s.reg 0).toNat < 2 ^ 32 ∧ (s.reg 1).toNat < 2 ^ 32 ∧ (s.reg 0).toNat + (s.reg 1).toNat ≤ s.params.outBytes.val) := by
  decide +kernel

/-- A writer with seven bits pending in a region of 7 bytes. -/
theorem good_writer : ((withWriter 7 0x7F 7 (running [])).writer 0).Good (running []).params.outBytes.val := by
  refine ⟨?_, ?_, ?_⟩ <;> decide +kernel

/-- Counts 57 and 56, with a byte too few and with just enough (B4). -/
theorem witness_BwWriteAppendsBits :
    56 < (57 : BitVec 16).toNat ∧ (56 : BitVec 16).toNat ≤ 56 ∧
    (let wr := (withWriter 6 0x7F 7 (running [])).writer 0
     wr.limit.toNat < wr.bytes.toNat + (wr.nbits.val + (56 : BitVec 16).toNat) / 8) ∧
    (let wr := (withWriter 7 0x7F 7 (running [])).writer 0
     wr.bytes.toNat + (wr.nbits.val + (56 : BitVec 16).toNat) / 8 ≤ wr.limit.toNat ∧
     wr.Good (running []).params.outBytes.val) :=
  ⟨by decide, by decide, by decide +kernel, by decide +kernel, good_writer⟩

/-- The hypotheses of the last clause: two writes, of 1 and of 55 bits, that both go through. -/
theorem witness_BwWriteConsequences :
    ((withWriter 7 0x7F 7 (running [])).writer 0).Good (running []).params.outBytes.val ∧
    ∃ s₁ t, bwWrite 0 1 1 (withWriter 7 0x7F 7 (running [])) = .go s₁ ∧ bwWrite 0 55 2 s₁ = .go t := by
  refine ⟨good_writer, ?_⟩
  have h : (match bwWrite 0 1 1 (withWriter 7 0x7F 7 (running [])) with
      | .go s₁ => (match bwWrite 0 55 2 s₁ with | .go _ => true | _ => false)
      | _ => false) = true := by decide +kernel
  split at h
  · next s₁ h₁ =>
    refine ⟨s₁, ?_⟩
    split at h
    · next t h₂ => exact ⟨t, h₁, h₂⟩
    · cases h
  · cases h

theorem witness_ZeroPadAligns :
    ((withWriter 7 0 0 (running [])).writer 0).nbits = 0 ∧
    (((withWriter 0 0x25 7 (running [])).writer 0).nbits ≠ 0 ∧
      ((withWriter 0 0x25 7 (running [])).writer 0).bytes = ((withWriter 0 0x25 7 (running [])).writer 0).limit) ∧
    (((withWriter 7 0x7F 7 (running [])).writer 0).nbits ≠ 0 ∧
      ((withWriter 7 0x7F 7 (running [])).writer 0).bytes ≠ ((withWriter 7 0x7F 7 (running [])).writer 0).limit ∧
      ((withWriter 7 0x7F 7 (running [])).writer 0).Good (running []).params.outBytes.val) :=
  ⟨by decide +kernel, ⟨by decide +kernel, by decide +kernel⟩, by decide +kernel, by decide +kernel, good_writer⟩

/-- The state of B16 (`count` 5) and of B17 (`count` 60). -/
def writemState (count : Byte) : State := withWriter 16 0 0 ((running (writemInput count)).setReg 5 8)

/-- B18; B16; B17: the entry before the one that faults is `(3, 5)`. A region of 0 bytes: `BwOverflow` at the same entry. -/
theorem witness_BwWritemWritesEntries :
    (let s := ((running []).setReg 4 65534).setReg 5 8
     ¬ (s.reg 4).toNat + (3 : BitVec 16).toNat ≤ s.params.inBytes.val) ∧
    (let s := writemState 5
     (s.reg 4).toNat < 2 ^ 32 ∧ (s.reg 5).toNat < 2 ^ 32 ∧ (s.reg 4).toNat + 3 ≤ s.params.inBytes.val ∧
     (s.reg 5).toNat + 8 * 3 ≤ s.params.inBytes.val ∧ (s.writer 0).acc.toNat < 2 ^ (s.writer 0).nbits.val ∧
     (∀ e ∈ s.writemEntries 0 8 3, e.1 ≤ 56) ∧ bitCount (s.writemEntries 0 8 3) ≤ s.room 0) ∧
    (let s := writemState 60
     s.writemEntries 0 8 3 = [(3, 5)] ++ (60, 0x1A) :: [(8, 2 ^ 64 - 1)] ∧ bitCount [(3, 5)] ≤ s.room 0 ∧ 56 < 60) ∧
    (let s := withWriter 0 0 0 (writemState 5)
     s.writemEntries 0 8 3 = [(3, 5)] ++ (5, 0x1A) :: [(8, 2 ^ 64 - 1)] ∧ bitCount [(3, 5)] ≤ s.room 0 ∧
     s.room 0 < bitCount [(3, 5)] + 5) := by decide +kernel

theorem witness_WritemEqualsRepeatedWrites :
    (writemState 5).seq ≠ .fault ∧ ∃ t, exec (.bwWritem 0 3 4 5) (writemState 5) = .next t ∧ t.seq ≠ .fault :=
  ⟨by decide +kernel, completes_of_answers (by decide +kernel)⟩

/-- L5. -/
theorem witness_LengthLimitedIsOptimal :
    lengthLimited [⟨10, 0, 3⟩, ⟨0, 0, 3⟩, ⟨1, 0, 3⟩, ⟨1, 0, 3⟩, ⟨1, 0, 3⟩, ⟨1, 0, 3⟩] = .ok [1, 0, 3, 3, 3, 3] := by decide +kernel

/-- L9, L8 and L1: a bound of 0, a symbol alone, and lengths that fill the budget. -/
theorem witness_LengthLimitedAnswers :
    (∃ y ∈ usedSyms [⟨1, 0, 0⟩, ⟨1, 0, 0⟩], y.hi < max 1 y.lo) ∧
    lengthLimited [⟨1, 0, 15⟩] = .error .buildInfeasible ∧
    ((∀ y ∈ usedSyms [⟨1, 1, 1⟩, ⟨1, 0, 15⟩], max 1 y.lo ≤ y.hi) ∧ Feasible (usedSyms [⟨1, 1, 1⟩, ⟨1, 0, 15⟩])) := by
  refine ⟨by decide +kernel, by decide +kernel, by decide +kernel, [1, 1], ?_, by decide⟩
  exact .cons (by decide) (.cons (by decide) .nil)

/-- H7; H1 with no run-length symbol; two run-length symbols under an escape of 1 bit where 10 are allowed; as H12, two under
an escape of 1 bit where 15 are allowed. -/
theorem witness_PcBuildMakesCode :
    usedSyms ((withCounts [] [] (running [])).firstLevel 0) = [] ∧
    (let s := withCounts [3, 0, 0, 0, 0, 1] [] (running [])
     Feasible (usedSyms (s.firstLevel 0)) ∧
     lengthLimited (s.firstLevel 0) = .ok [1, 0, 0, 0, 0, 1, 0, 0, 0, 0, 0, 0, 0, 0, 0, 0, 0, 0, 0, 0] ∧
     ((s.hist 0).lz.toList.filter (· ≠ 0)).length ≤ 1) ∧
    (let s := withCounts [3, 1] [2, 1] (running [])
     lengthLimited (s.firstLevel 0) = .ok [2, 2, 0, 0, 0, 0, 0, 0, 0, 0, 0, 0, 0, 0, 0, 0, 0, 0, 0, 1] ∧
     2 ≤ ((s.hist 0).lz.toList.filter (· ≠ 0)).length ∧ ((s.hist 0).lz.toList.filter (· ≠ 0)).length ≤ 2 ^ (15 - 1)) ∧
    (let s := { withCounts [3, 1] [2, 1] (running []) with maxlen := Vector.replicate 20 15 }
     lengthLimited (s.firstLevel 0) = .ok [2, 2, 0, 0, 0, 0, 0, 0, 0, 0, 0, 0, 0, 0, 0, 0, 0, 0, 0, 1] ∧
     entry s.maxlen 19 = 15) := by
  have h : usedSyms ((withCounts [3, 0, 0, 0, 0, 1] [] (running [])).firstLevel 0) = [⟨3, 0, 7⟩, ⟨1, 0, 7⟩] := by decide +kernel
  refine ⟨by decide +kernel, ⟨?_, by decide +kernel, by decide +kernel⟩, by decide +kernel, by decide +kernel⟩
  rw [h]; exact ⟨[1, 1], .cons (by decide) (.cons (by decide) .nil), by decide⟩

/-- H9; three symbols of at most one bit; H6; H10's second level, in small: an escape of 15 bits over two symbols, and one of
14 bits over three. -/
theorem witness_PcBuildFaults :
    (∃ y ∈ usedSyms (((running []).setHist 0 { Hist.zero with raw := Hist.zero.raw.set 0 1 }).firstLevel 0),
      y.hi < max 1 y.lo) ∧
    (let used := usedSyms (({ withCounts [1, 1, 1] [] (running []) with maxlen := Vector.replicate 20 1 } : State).firstLevel 0)
     (∀ y ∈ used, max 1 y.lo ≤ y.hi) ∧ used ≠ [] ∧ ¬ Feasible used) ∧
    (let used := usedSyms ((withCounts [0, 0, 0, 0, 9] [] (running [])).firstLevel 0)
     (∀ y ∈ used, max 1 y.lo ≤ y.hi) ∧ used.length = 1) := by
  have h : usedSyms (({ withCounts [1, 1, 1] [] (running []) with maxlen := Vector.replicate 20 1 } : State).firstLevel 0) =
      [⟨1, 0, 1⟩, ⟨1, 0, 1⟩, ⟨1, 0, 1⟩] := by decide +kernel
  refine ⟨by decide +kernel, ?_, by decide +kernel⟩
  rw [h]
  refine ⟨by decide, by decide, ?_⟩
  rintro ⟨lens, hw, hs⟩
  match lens, hw with
  | [a, b, c], .cons ha (.cons hb (.cons hc .nil)) =>
    obtain rfl : a = 1 := by simp at ha; omega
    obtain rfl : b = 1 := by simp at hb; omega
    obtain rfl : c = 1 := by simp at hc; omega
    exact absurd hs (by decide)

/-- Bounds that leave each raw token `t` the one length `t + 1`, and the escape the one length `E`; `n` raw tokens are counted,
and the run-length tokens of `lz` (H10 with its lengths forced). -/
def withForced (n : Nat) (E : BitVec 4) (lz : List Word) : State :=
  let bounds := (Vector.ofFn fun i : Fin 20 => BitVec.ofNat 4 (i.val + 1)).set 19 E
  { withCounts (List.replicate n 1) lz (running []) with minlen := bounds, maxlen := bounds }

/-- Two run-length symbols under an escape of 15 bits, and three under one of 14. -/
theorem witness_PcBuildFaults_second :
    (let s := withForced 15 15 [1, 1]
     (∃ L1, lengthLimited (s.firstLevel 0) = .ok L1 ∧ L1.getD 19 0 = 15) ∧
     2 ≤ ((s.hist 0).lz.toList.filter (· ≠ 0)).length) ∧
    (let s := withForced 14 14 [1, 1, 1]
     (∃ L1, lengthLimited (s.firstLevel 0) = .ok L1 ∧ L1.getD 19 0 = 14) ∧
     2 ^ (15 - 14) < ((s.hist 0).lz.toList.filter (· ≠ 0)).length) :=
  ⟨⟨⟨[1, 2, 3, 4, 5, 6, 7, 8, 9, 10, 11, 12, 13, 14, 15, 0, 0, 0, 0, 15], by decide +kernel, rfl⟩, by decide +kernel⟩,
    ⟨[1, 2, 3, 4, 5, 6, 7, 8, 9, 10, 11, 12, 13, 14, 0, 0, 0, 0, 0, 14], by decide +kernel, rfl⟩, by decide +kernel⟩

/-- H4, of a state in which a symbol is counted. -/
theorem witness_BuiltCode :
    let s := withCounts [3, 0, 0, 0, 0, 1] [5] (running [])
    s.seq ≠ .fault ∧ (∃ t, exec (.pcBuild 0) s = .next t ∧ t.seq ≠ .fault) ∧ usedSyms (s.firstLevel 0) ≠ [] ∧
    entry (s.hist 0).raw 1 = 0 ∧ entry (s.hist 0).raw 0 ≠ 0 :=
  ⟨by decide +kernel, completes_of_answers (by decide +kernel), by decide +kernel, by decide +kernel, by decide +kernel⟩

/-- Z8; Z1 on a writer with two bytes and seven bits of room, which its 22 bits fit; and on one with nine bits of room, where
its first three writes go through and the fourth does not. -/
theorem witness_PcSerialAppends :
    (∀ L ∈ ((running []).code 0).combined, L = 0) ∧
    (let CL := ((codeP6 (running [])).code 0).combined
     CL.getD 5 0 ≠ 0 ∧ (∀ i, i < 257 → 5 < i → CL.getD i 0 = 0) ∧ CL.length = 257) ∧
    (let l := [(2, 0), (4, 7), (2, 0), (2, 0), (2, 0), (4, 7), (1, 1), (1, 0), (1, 0), (1, 0), (1, 0), (1, 1)]
     serialWrites ((codeP6 (running [])).code 0).combined = .ok l ∧
     bitCount l ≤ (withWriter 2 0 0 (codeP6 (running []))).room 0 ∧
     (let s := withWriter 1 0 6 (codeP6 (running []))
      bitCount [(2, 0), (4, 7), (2, 0)] ≤ s.room 0 ∧ s.room 0 < bitCount [(2, 0), (4, 7), (2, 0)] + 2)) ∧
    (let s := withWriter 1 0 6 (codeP6 (running []))
     (s.writer 0).acc.toNat < 2 ^ (s.writer 0).nbits.val ∧ (s.writer 0).bytes.toNat ≤ (s.writer 0).limit.toNat ∧
     (s.writer 0).base.toNat + (s.writer 0).limit.toNat ≤ s.params.outBytes.val) := by decide +kernel

/-- The last used symbol a raw token, and the last run-length token (H4's lengths, and one more). -/
theorem witness_SerialItemsExpand :
    lastUsed (combine (2 :: List.replicate 18 0) (List.replicate 33 0)) = some 0 ∧
    lastUsed (combine (2 :: List.replicate 18 0) (List.replicate 32 0 ++ [1])) = some 256 := by decide +kernel

theorem witness_PrStartBeginsGroup :
    (0 : BitVec 16).toNat = 0 ∧ 256 < (257 : BitVec 16).toNat ∧ 1 ≤ (1 : BitVec 16).toNat ∧ (256 : BitVec 16).toNat ≤ 256 := by
  decide

/-- Each configuration that is refused; U11v; U2v and U7v, the last pixel of a row that ends at the end of IN. -/
theorem witness_PrLoadTakesRow :
    ((withRow 0x40 1 []).cfg.nc.toNat = 0 ∧ 4 < (withRow 0x45 1 []).cfg.nc.toNat ∧ (withRow 0x01 1 []).cfg.bps.toNat = 0 ∧
      32 < (withRow 0x109 1 []).cfg.bps.toNat ∧ (withRow 0x41 0 []).xs = 0) ∧
    (let s := (withRow 0x43 256 []).setReg 0 (65536 - 767)
     ¬ (s.cfg.nc.toNat = 0 ∨ 4 < s.cfg.nc.toNat ∨ s.cfg.bps.toNat = 0 ∨ 32 < s.cfg.bps.toNat ∨ s.xs = 0) ∧
     s.params.inBytes.val < (s.reg 0).toNat + s.xs.val * s.cfg.nc.toNat * 1) ∧
    2 ^ 32 ≤ (((withRow 0x41 1 []).setReg 0 0x100000000).reg 0).toNat ∧
    (let s := (withRow 0x43 256 []).setReg 0 (65536 - 768)
     ¬ (s.cfg.nc.toNat = 0 ∨ 4 < s.cfg.nc.toNat ∨ s.cfg.bps.toNat = 0 ∨ 32 < s.cfg.bps.toNat ∨ s.xs = 0) ∧
     (s.reg 0).toNat < 2 ^ 32 ∧ (s.reg 0).toNat + s.xs.val * s.cfg.nc.toNat * 1 ≤ s.params.inBytes.val ∧
     3 ≤ s.cfg.nc.toNat ∧ 255 < s.xs.val) ∧
    (let s := withRow 0x102 2 []
     ¬ (s.cfg.nc.toNat = 0 ∨ 4 < s.cfg.nc.toNat ∨ s.cfg.bps.toNat = 0 ∨ 32 < s.cfg.bps.toNat ∨ s.xs = 0) ∧
     (s.reg 0).toNat + s.xs.val * s.cfg.nc.toNat * 4 ≤ s.params.inBytes.val ∧ s.cfg.nc.toNat < 3) := by decide +kernel

theorem witness_PackSignedZigzag : (0 : Int) ≤ (0 : Word).toInt ∧ (-1 : Word).toInt < 0 ∧ (0x80000000 : Word).toInt < 0 := by decide

theorem witness_PredictorIsMedian :
    ∀ v ∈ [BitVec.ofInt 32 (2 ^ 29 - 1), BitVec.ofInt 32 (1 - 2 ^ 29), (0 : Word)], -2 ^ 29 < v.toInt ∧ v.toInt < 2 ^ 29 := by
  simp only [List.forall_mem_cons, List.not_mem_nil, false_implies, implies_true, and_true]
  decide

/-- A row of two pixels, the first loaded (1 row) or the second (2 rows), or none. -/
def predState (rows : Fin 3) : State :=
  { withRow 0x41 2 [] with
    nrows := rows, cur := (Vector.replicate 4 zeroRow).set 0 (Vector.ofFn fun i => [7, 9].getD i.val 0)
    prev := (Vector.replicate 4 zeroRow).set 0 (Vector.ofFn fun i => [5, 9].getD i.val 0) }

theorem witness_PrPredWritesResiduals :
    (predState 0).cfg.nc.toNat ≤ (1 : Chan).val ∧ ((0 : Chan).val < (predState 0).cfg.nc.toNat ∧ (predState 0).nrows = 0) ∧
    ((0 : Chan).val < (predState 1).cfg.nc.toNat ∧ (predState 1).nrows ≠ 0 ∧ (predState 1).nrows = 1 ∧ 1 < (predState 1).xs.val) ∧
    ((0 : Chan).val < (predState 2).cfg.nc.toNat ∧ (predState 2).nrows ≠ 0 ∧ (predState 2).nrows = 2 ∧ 1 < (predState 2).xs.val) := by
  decide +kernel

/-- Two states that differ in the registers leave the same residuals. -/
theorem witness_PredictorIsLossless :
    let s₁ := predState 2
    let s₂ := (predState 2).setReg 0 1
    s₁.seq ≠ .fault ∧ s₂.seq ≠ .fault ∧ s₁.nrows = s₂.nrows ∧ s₁.xs = s₂.xs ∧ s₁.prev[0] = s₂.prev[0] ∧
    ∃ t₁ t₂, exec (.prPred 0) s₁ = .next t₁ ∧ exec (.prPred 0) s₂ = .next t₂ ∧ t₁.seq ≠ .fault ∧ t₂.seq ≠ .fault ∧
      ∀ x, x < s₁.xs.val → Row.at t₁.res x = Row.at t₂.res x := by
  refine ⟨by decide +kernel, by decide +kernel, rfl, rfl, rfl, _, _, rfl, rfl, by decide +kernel, by decide +kernel, ?_⟩
  intro x _
  rfl

/-- Samples at the ends of 29 bits; rows of small values, the first of a group and a later one, and residuals of them. -/
theorem witness_ResidualsAreBounded :
    ((0x1FFFFFFF : Word).toNat < 2 ^ 29 ∧ (0 : Word).toNat < 2 ^ 29) ∧
    (∀ rows, rows = 1 ∨ rows = 2 → (predState rows).seq ≠ .fault ∧ (predState rows).nrows = rows ∧
      ∀ x, x < (predState rows).xs.val →
        (-2 ^ 8 < (Row.at (predState rows).cur[0] x).toInt ∧ (Row.at (predState rows).cur[0] x).toInt < 2 ^ 8) ∧
        (-2 ^ 8 < (Row.at (predState rows).prev[0] x).toInt ∧ (Row.at (predState rows).prev[0] x).toInt < 2 ^ 8)) ∧
    (∃ t, exec (.prPred 0) (predState 1) = .next t ∧ t.seq ≠ .fault) ∧
    ∃ t, exec (.prPred 0) (predState 2) = .next t ∧ t.seq ≠ .fault :=
  ⟨by decide, by decide +kernel, completes_of_answers (by decide +kernel), completes_of_answers (by decide +kernel)⟩

/-- Two states that differ in `RES` past its end, and step. -/
theorem witness_StaleEntriesAreNeverSeen :
    let s := State.reset.withFetchWord 32 0x00052802
    SameButStale s { s with res := s.res.set 255 7 } ∧ ∃ t, step s = .next t := by
  refine ⟨⟨rfl, fun h => absurd rfl h, fun h => absurd h (by decide), fun i h => absurd h (Nat.not_lt_zero i)⟩, ?_⟩
  have h : (match step (State.reset.withFetchWord 32 0x00052802) with | .next _ => true | _ => false) = true := by decide +kernel
  split at h
  · exact ⟨_, by assumption⟩
  · cases h

theorem witness_TokensDetermineValues : 0 < 1 ∧ 15 < 16 ∧ 16 ≤ 16 ∧ 2 ^ 18 - 1 < 2 ^ 18 ∧ 2 ^ 21 - 1 < 2 ^ 21 := by decide

/-- The largest residual and the longest run of the alphabets. -/
theorem witness_TokenWritesAreSmall : (Decision.raw 0x3FFFF).inAlphabet ∧ (Decision.run 2097159).inAlphabet :=
  ⟨show (0x3FFFF : Word).toNat < 2 ^ 18 by decide, show 8 ≤ 2097159 ∧ 2097159 < 2 ^ 21 + 8 by decide⟩

/-- A pending run of 8 and the residuals of K8, on tables that have every token. -/
def rowState : State :=
  withWriter 7 0x7F 7 (withCode (List.replicate 4 (2, 0)) (List.replicate 3 (2, 1)) ((withResiduals [0, 0, 7] (running [])).setRun 0 8))

theorem decisions_rowState : rowState.decisions 0 = ([.run 10, .raw 7], 0) := by decide +kernel

theorem good_rowState : (rowState.writer 0).Good rowState.params.outBytes.val := by
  refine ⟨?_, ?_, ?_⟩ <;> decide +kernel

theorem runGood_rowState : runGood (rowState.runOf 0) := .inr (by decide +kernel)

theorem inAlphabet_rowState : ∀ d ∈ (rowState.decisions 0).1, d.inAlphabet := by
  rw [decisions_rowState]
  intro d hd
  obtain rfl | rfl : d = .run 10 ∨ d = .raw 7 := by simpa using hd
  · exact ⟨by decide, by decide⟩
  · exact show (7 : Word).toNat < 2 ^ 18 by decide

theorem witness_TkRowcCounts :
    runGood (rowState.runOf 0) ∧ (∀ d ∈ (rowState.decisions 0).1, d.inAlphabet) ∧ (rowState.decisions 0).2 < 2 ^ 32 ∧
    (rowState.hist 0).Fits (rowState.decisions 0).1 := by
  refine ⟨runGood_rowState, inAlphabet_rowState, ?_, ?_⟩ <;> rw [decisions_rowState]
  · decide
  · exact ⟨by decide +kernel, by decide +kernel⟩

theorem coded_rowState : ∀ d ∈ (rowState.decisions 0).1, d.inAlphabet ∧ d.coded (rowState.code 0) := by
  intro d hd
  refine ⟨inAlphabet_rowState d hd, ?_⟩
  rw [decisions_rowState] at hd
  obtain rfl | rfl : d = .run 10 ∨ d = .raw 7 := by simpa using hd
  · exact ⟨by decide +kernel, by decide +kernel⟩
  · exact show entry _ _ ≠ 0 by decide +kernel

theorem witness_TkRoweWritesTokens :
    runGood (rowState.runOf 0) ∧ (∀ d ∈ (rowState.decisions 0).1, d.inAlphabet ∧ d.coded (rowState.code 0)) ∧
    (rowState.decisions 0).2 < 2 ^ 32 ∧ (rowState.writer 0).Good rowState.params.outBytes.val ∧
    bitCount ((rowState.decisions 0).1.flatMap (Decision.writes (rowState.code 0))) ≤ rowState.room 0 := by
  refine ⟨runGood_rowState, coded_rowState, ?_, good_rowState, ?_⟩ <;> rw [decisions_rowState] <;> decide +kernel

/-- A zero after a run of `2^32 - 1`; K12 after a chunk of 16 zeros that is done; a run of `2^21 + 8`; P6; and P6's code with
room for one bit. -/
theorem witness_TkRoweFaultsPartWay :
    (let s := (withResiduals [0] (running [])).setRun 0 0xFFFFFFFF
     7 < (s.runOf 0).toNat ∧ s.residuals = [].flatten ++ [0] ∧
     chunkDecisions (rowDecisions (s.runOf 0).toNat []).2 ([0].take 16) = ([], 2 ^ 32)) ∧
    (let s := withResiduals (List.replicate 16 0 ++ [0x40000]) (running [])
     let done := [List.replicate 16 (0 : Word)]
     s.runOf 0 = 0 ∧ s.residuals = done.flatten ++ [0x40000] ∧ (∀ q ∈ done, q.length = 16) ∧
     rowDecisions (s.runOf 0).toNat done = ([], 16) ∧ chunkDecisions 16 ([0x40000].take 16) = ([.run 16, .raw 0x40000], 0) ∧
     ¬ (0x40000 : Word).toNat < 2 ^ 18) ∧
    (let s := (withResiduals [7] (running [])).setRun 0 2097160
     7 < (s.runOf 0).toNat ∧ chunkDecisions (s.runOf 0).toNat ([7].take 16) = ([] ++ .run 2097160 :: [.raw 7], 0) ∧
     ¬ 2097160 < 2 ^ 21 + 8) ∧
    (let s := withWriter 16 0 0 (codeP6 (withResiduals [20, 2] (running [])))
     chunkDecisions (s.runOf 0).toNat ([20, 2].take 16) = ([.raw 20] ++ .raw 2 :: [], 0) ∧
     entry (s.code 0).rawLen (rawToken 20).tok ≠ 0 ∧ entry (s.code 0).rawLen (rawToken 2).tok = 0 ∧
     bitCount ([Decision.raw 20].flatMap (Decision.writes (s.code 0))) ≤ s.room 0) ∧
    (let s := withWriter 0 0 6 (codeP6 (withResiduals [20] (running [])))
     chunkDecisions (s.runOf 0).toNat ([20].take 16) = ([] ++ .raw 20 :: [], 0) ∧
     (Decision.raw 20).writes (s.code 0) = [(1, 1)] ++ (4, 4) :: [] ∧ bitCount [(1, 1)] ≤ s.room 0 ∧
     s.room 0 < bitCount [(1, 1)] + 4 ∧ (s.writer 0).acc.toNat < 2 ^ (s.writer 0).nbits.val) := by decide +kernel

/-- The first three as for TK.ROWE; K13; K14, and a run whose run-length token's counter is full. -/
theorem witness_TkRowcFaultsPartWay :
    (let s := (withResiduals [0] (running [])).setRun 0 0xFFFFFFFF
     chunkDecisions (s.runOf 0).toNat ([0].take 16) = ([], 2 ^ 32) ∧ ∀ k, k < 19 → (s.hist 0).rawAfter [] k < 2 ^ 32) ∧
    (let s := withResiduals [1, 0x40000] (running [])
     s.residuals = [].flatten ++ [1, 0x40000] ∧
     chunkDecisions (rowDecisions (s.runOf 0).toNat []).2 ([1, 0x40000].take 16) = ([.raw 1] ++ .raw 0x40000 :: [], 0) ∧
     ¬ (0x40000 : Word).toNat < 2 ^ 18 ∧ ∀ k, k < 19 → (s.hist 0).rawAfter [.raw 1] k < 2 ^ 32) ∧
    (let s := withCounts [0xFFFFFFFF] [] (withResiduals [0] (running []))
     chunkDecisions (s.runOf 0).toNat ([0].take 16) = ([] ++ .raw 0 :: [], 0) ∧ ¬ (s.hist 0).rawAfter [.raw 0] 0 < 2 ^ 32) ∧
    (let s := withCounts [] [0, 0, 0xFFFFFFFF] rowState
     chunkDecisions (s.runOf 0).toNat ([0, 0, 7].take 16) = ([] ++ .run 10 :: [.raw 7], 0) ∧
     (∀ j, j < 33 → (s.hist 0).lzAfter [] j < 2 ^ 32) ∧ ¬ (s.hist 0).lzAfter [.run 10] 2 < 2 ^ 32) := by decide +kernel

/-- The code of P6 is prefix-free and has the tokens of P2's row. -/
theorem witness_TokensAreLossless :
    runGood (rowState.runOf 0) ∧ PrefixFree ((codeP6 (running [])).code 0).words ∧
    ∀ d ∈ [Decision.raw 20, Decision.raw 0], d.inAlphabet ∧ d.coded ((codeP6 (running [])).code 0) := by
  refine ⟨runGood_rowState, ?_, ?_⟩
  · have hw : ((codeP6 (running [])).code 0).words =
        [[false], [], [], [], [], [true]] ++ List.replicate 46 [] := by decide +kernel
    rw [hw]
    intro i j u v hi hj hij hu hv
    have key : ∀ (i : Nat) (u : List Bool), ([[false], [], [], [], [], [true]] ++ List.replicate 46 [])[i]? = some u → u ≠ [] →
        (i = 0 ∧ u = [false]) ∨ (i = 5 ∧ u = [true]) := by
      intro i u h hu
      have hi : i < 52 := by
        by_contra hn
        rw [List.getElem?_eq_none (by simpa using hn)] at h
        cases h
      have all : ∀ i : Fin 52, ([[false], [], [], [], [], [true]] ++ List.replicate 46 [] : List (List Bool))[i.val]? = some [] ∨
          (i = 0 ∨ i = 5) := by decide
      obtain h' | h' | h' := all ⟨i, hi⟩
      · rw [h'] at h
        exact absurd (Option.some.inj h).symm hu
      · obtain rfl : i = 0 := congrArg Fin.val h'
        exact .inl ⟨rfl, (Option.some.inj h).symm⟩
      · obtain rfl : i = 5 := congrArg Fin.val h'
        exact .inr ⟨rfl, (Option.some.inj h).symm⟩
    obtain ⟨rfl, rfl⟩ | ⟨rfl, rfl⟩ := key i u hi hu <;> obtain ⟨rfl, rfl⟩ | ⟨rfl, rfl⟩ := key j v hj hv
    · exact absurd rfl hij
    · decide
    · decide
    · exact absurd rfl hij
  · intro d hd
    obtain rfl | rfl : d = .raw 20 ∨ d = .raw 0 := by simpa using hd
    · exact ⟨show (20 : Word).toNat < 2 ^ 18 by decide, show entry _ _ ≠ 0 by decide +kernel⟩
    · exact ⟨show (0 : Word).toNat < 2 ^ 18 by decide, show entry _ _ ≠ 0 by decide +kernel⟩

theorem all_zero_of_list {l : List Word} (h : l.all (· == 0) = true) : ∀ v ∈ l, v = 0 := by
  simpa using h

/-- K3, K7 with one zero, K2; `RUN + RESN` at `2^32 - 1`. -/
theorem witness_AllZeroRowOnlyExtendsRun :
    (let s := withResiduals (List.replicate 8 0) (running [])
     (∀ v ∈ s.residuals, v = 0) ∧ 8 ≤ s.resn.val ∧ (s.runOf 0).toNat + s.resn.val < 2 ^ 32) ∧
    (let s := (withResiduals [0] (running [])).setRun 0 0xFFFFFFFE
     (∀ v ∈ s.residuals, v = 0) ∧ s.runOf 0 ≠ 0 ∧ 1 ≤ s.resn.val ∧ (s.runOf 0).toNat + s.resn.val < 2 ^ 32) ∧
    (let s := withResiduals (List.replicate 7 0) (running [])
     (∀ v ∈ s.residuals, v = 0) ∧ s.resn.val ≤ 7 ∧ s.runOf 0 = 0) :=
  ⟨⟨all_zero_of_list (by decide +kernel), by decide +kernel⟩, ⟨all_zero_of_list (by decide +kernel), by decide +kernel⟩,
    all_zero_of_list (by decide +kernel), by decide +kernel⟩

/-- No run; a run past the alphabet; each counter full; the longest run with counters one below. -/
theorem witness_FinalizeCounts :
    (running []).runOf 0 = 0 ∧ 2 ^ 21 + 8 ≤ (((running []).setRun 0 2097160).runOf 0).toNat ∧
    (let s := withCounts [0xFFFFFFFF] [] ((running []).setRun 0 8)
     8 ≤ (s.runOf 0).toNat ∧ (s.runOf 0).toNat < 2 ^ 21 + 8 ∧ (entry (s.hist 0).raw 0).toNat = 2 ^ 32 - 1) ∧
    (let s := withCounts [] [0xFFFFFFFF] ((running []).setRun 0 8)
     (entry (s.hist 0).lz (lzToken ((s.runOf 0).toNat - 8)).tok).toNat = 2 ^ 32 - 1) ∧
    (let s := withCounts [0xFFFFFFFE] [] ((running []).setRun 0 2097159)
     8 ≤ (s.runOf 0).toNat ∧ (s.runOf 0).toNat < 2 ^ 21 + 8 ∧ (entry (s.hist 0).raw 0).toNat < 2 ^ 32 - 1 ∧
     (entry (s.hist 0).lz (lzToken ((s.runOf 0).toNat - 8)).tok).toNat < 2 ^ 32 - 1) := by decide +kernel

/-- No run; a run past the alphabet; a run whose tokens have no code; P4's last run, with room, and with room for the first of
its three writes. -/
theorem witness_FinalizeWrites :
    (running []).runOf 0 = 0 ∧ 2 ^ 21 + 8 ≤ (((running []).setRun 0 2097160).runOf 0).toNat ∧
    (let s := (running []).setRun 0 8
     8 ≤ (s.runOf 0).toNat ∧ (s.runOf 0).toNat < 2 ^ 21 + 8 ∧ ¬ (Decision.run 8).coded (s.code 0)) ∧
    (let s := withWriter 32 0 0 (codeP4 ((running []).setRun 0 24))
     8 ≤ (s.runOf 0).toNat ∧ (s.runOf 0).toNat < 2 ^ 21 + 8 ∧ (Decision.run 24).coded (s.code 0) ∧
     (s.writer 0).Good s.params.outBytes.val ∧ bitCount ((Decision.run 24).writes (s.code 0)) ≤ s.room 0) ∧
    (let s := withWriter 0 0 2 (codeP4 ((running []).setRun 0 24))
     (Decision.run 24).writes (s.code 0) = [(1, 0)] ++ (6, 63) :: [(4, 0)] ∧ bitCount [(1, 0)] ≤ s.room 0 ∧
     s.room 0 < bitCount [(1, 0)] + 6 ∧ (s.writer 0).acc.toNat < 2 ^ (s.writer 0).nbits.val) := by
  refine ⟨by decide +kernel, by decide +kernel, ⟨by decide +kernel, by decide +kernel, ?_⟩, ⟨by decide +kernel, by decide +kernel,
    ⟨by decide +kernel, by decide +kernel⟩, ?_, by decide +kernel⟩, by decide +kernel⟩
  · rintro ⟨h, _⟩
    exact h (by decide +kernel)
  · refine ⟨?_, ?_, ?_⟩ <;> decide +kernel

/-- A command that writes a register, one that writes a byte of OUT, and one that writes a counter and a run. -/
theorem witness_OnlyNamedCommandsWrite :
    (∃ t, exec (.addi 0 1) (running []) = .next t ∧ (t.reg 0 != (running []).reg 0) = true) ∧
    (∃ t, exec (.bwZpad 0) (withWriter 64 5 3 (running [])) = .next t ∧ (t.out != []) = true) ∧
    (∃ t, exec (.tkRowc 0) rowState = .next t ∧ (t.hist 0 != rowState.hist 0 && t.runOf 0 != rowState.runOf 0) = true) :=
  ⟨exists_of_answers (by decide +kernel), exists_of_answers (by decide +kernel), exists_of_answers (by decide +kernel)⟩

/-- A running block whose command goes on, branches, halts and faults. -/
theorem witness_RunEndsOnlyByHaltOrFault :
    (running []).seq = .run ∧
    (∃ t, exec (.loop 0 0) (running []) = .next t ∧ (t.seq == .run && t.pc == 0) = true) ∧
    (∃ t, exec .halt (running []) = .next t ∧ (t.seq == .halted) = true) ∧
    (∃ t, exec (.prStart 0) (running []) = .next t ∧ (t.seq == .fault) = true) :=
  ⟨by decide +kernel, exists_of_answers (by decide +kernel), exists_of_answers (by decide +kernel),
    exists_of_answers (by decide +kernel)⟩

/-- A fault of the fetch, and one of a command. -/
theorem witness_FaultEntry :
    (let s := { running [] with pc := 4096 }
     s.seq = .run ∧ (match step s with | .next t => t.seq == .fault | _ => false) = true) ∧
    (let s := State.reset.withFetchWord 32 0x00000030
     s.seq = .run ∧ (match step s with | .next t => t.seq == .fault | _ => false) = true) := by decide +kernel

theorem witness_FaultsOfEachCommand :
    (running []).seq ≠ .fault ∧ ∃ t, exec (.prStart 0) (running []) = .next t ∧ (t.seq == .fault) = true :=
  ⟨by decide +kernel, exists_of_answers (by decide +kernel)⟩

/-- A running block about to run `LI.Z x2, 0, 5` meets the invariant; with it `step` has a next state. -/
theorem witness_Inv : (State.reset.withFetchWord 32 0x00052802).Inv where
  writers w := by revert w; unfold Writer.Good; decide +kernel
  runs c := by revert c; unfold runGood; decide +kernel
  residuals := by decide +kernel
  rows h := absurd rfl h
  cause := .inr ⟨by decide +kernel, rfl, rfl⟩
  cmd := ⟨by decide +kernel, by decide +kernel⟩
  input := ⟨by decide +kernel, by decide +kernel⟩
  out := ⟨by decide +kernel, by decide +kernel⟩

theorem witness_InvariantKept :
    ∃ s t : State, s.Inv ∧ step s = .next t := by
  refine ⟨_, after (.liZ 2 0 5) (State.reset.withFetchWord 32 0x00052802), witness_Inv, ?_⟩
  have h : fetchDecode (State.reset.withFetchWord 32 0x00052802) = .ok (.liZ 2 0 5) := by
    have hp : ¬ (State.reset.withFetchWord 32 0x00052802).pc.toNat ≥ (State.reset.withFetchWord 32 0x00052802).params.cmdWords.val := by
      decide +kernel
    have hd : decode ((State.reset.withFetchWord 32 0x00052802).fetchWord (State.reset.withFetchWord 32 0x00052802).pc) =
        some (.liZ 2 0 5) := by decide +kernel
    rw [fetchDecode, if_neg hp, hd]
  unfold step
  rw [show (State.reset.withFetchWord 32 0x00052802).seq = .run from rfl]
  simp only [h]
  rfl

theorem witness_InvariantKeptByHost :
    ∃ (m : HostMove) (s t : State), s.Inv ∧ hostAct m s = .next t := ⟨.hardReset, _, _, witness_Inv, rfl⟩

theorem witness_ResetsGiveTheTable :
    (2 : Word).getLsbD 1 = true ∧ (HostMove.hardReset = .hardReset ∨ HostMove.hardReset = .writeReg 0 2) := by decide

/-- A stopped block; the reserved numbers at the ends of their ranges. -/
theorem witness_RegistersRead :
    State.reset.stopped = true ∧ (0x09 ≤ (0x0F : BitVec 6).toNat ∧ (0x0F : BitVec 6).toNat < 0x10) ∧ 0x24 ≤ (0x24 : BitVec 6).toNat := by
  decide +kernel

theorem witness_RegistersWrite :
    (2 : Word).getLsbD 1 = true ∧ ((5 : Word).getLsbD 1 = false ∧ (5 : Word).getLsbD 0 = true ∧ State.reset.seq = .idle) ∧
    ((4 : Word).getLsbD 1 = false ∧ (4 : Word).getLsbD 0 = false) ∧ (running []).seq = .run ∧
    ({ State.reset with seq := .fault } : State).seq = .fault ∧ (9 : BitVec 6) ∉ [(0 : BitVec 6), 4, 5, 7, 8] := by decide +kernel

theorem witness_TableWindowReadsBack :
    State.reset.stopped = true ∧ tableEntry ({ State.reset with taddr := 0x024 } : State).taddr.toNat = none ∧
    tableEntry ({ State.reset with taddr := 0x4E0 } : State).taddr.toNat = some (.lzBits 3 32) := by decide +kernel

/-- Running; stopped, the first address past a memory, and its last. -/
theorem witness_HostMemoryAccess :
    (running []).seq = .run ∧ (State.reset.seq ≠ .run ∧ State.reset.params.bytes .output ≤ 65536) ∧
    (State.reset.seq ≠ .run ∧ 65535 < State.reset.params.bytes .output) ∧ 4095 < State.reset.params.cmdWords.val := by
  decide +kernel

end Sys2Proof.Tests
end

/-! SUPPORT. What a command can do, said once over all commands: `Effect i s u` is what the pseudocode of `i` has done when it
stands in `u` (it goes on there or raises there), and `exec_next_cases` says how a command ends. -/

namespace Sys2Proof.Machine

/-! ## The invariant without the status -/

/-- R42 and the canonical form of the memories: `State.Inv` without what it says of `STATE`, `CAUSE` and `FPC`. -/
structure State.Sound (s : State) : Prop where
  writers : ∀ w : Chan, (s.writer w).Good s.params.outBytes.val
  runs : ∀ c : Chan, runGood (s.runOf c)
  residuals : s.resn.val ≤ s.xs.val
  rows : s.nrows ≠ 0 → s.xs ≠ 0
  cmd : Memory.Good s.cmd (s.params.bytes .cmd)
  input : Memory.Good s.input (s.params.bytes .input)
  out : Memory.Good s.out (s.params.bytes .output)

theorem State.Inv.sound {s : State} (h : s.Inv) : s.Sound :=
  ⟨h.writers, h.runs, h.residuals, h.rows, h.cmd, h.input, h.out⟩

/-- What `State.Inv` adds to `State.Sound`: `CAUSE` and `FPC` tell whether there was a fault (R27, R261). -/
def State.CauseTells (s : State) : Prop :=
  (s.seq = .fault ∧ ∃ f : FaultName, s.cause = f.code) ∨ (s.seq ≠ .fault ∧ s.cause = 0 ∧ s.fpc = 0)

theorem State.Sound.inv {s : State} (h : s.Sound) (hc : s.CauseTells) : s.Inv :=
  ⟨h.writers, h.runs, h.residuals, h.rows, hc, h.cmd, h.input, h.out⟩

/-- `State.Sound` reads only the sizes, the writers, the runs, three counters of the predictor and the memories. -/
theorem State.Sound.congr {s t : State} (h : s.Sound) (params : t.params = s.params := by rfl)
    (writers : t.writers = s.writers := by rfl) (run : t.run = s.run := by rfl) (xs : t.xs = s.xs := by rfl)
    (nrows : t.nrows = s.nrows := by rfl) (resn : t.resn = s.resn := by rfl) (cmd : t.cmd = s.cmd := by rfl)
    (input : t.input = s.input := by rfl) (out : t.out = s.out := by rfl) : t.Sound where
  writers w := by simpa only [State.writer, writers, params] using h.writers w
  runs c := by simpa only [State.runOf, run] using h.runs c
  residuals := by simpa only [resn, xs] using h.residuals
  rows := by simpa only [nrows, xs] using h.rows
  cmd := by simpa only [cmd, params] using h.cmd
  input := by simpa only [input, params] using h.input
  out := by simpa only [out, params] using h.out

/-! ## Who writes what -/

/-- What differs between `s` and `t` is what the spec lets command `i` write (R21, R31 to R37, R61 to R63, R173, R280); a writer
that `i` sends bits to keeps its region and its cursor does not go back. -/
structure WritesOnlyNamed (i : Instr) (s t : State) : Prop where
  host : SameHostSide s t := by exact ⟨rfl, rfl, rfl, rfl, rfl, rfl, rfl, rfl, rfl⟩
  regs : ∀ r, t.reg r ≠ s.reg r → destination i = some r := by simp
  writers : ∀ w, t.writer w ≠ s.writer w → writesTo i = some w ∨ ∃ a b, i = .bwInit w a b := by simp
  region : ∀ w, writesTo i = some w → (t.writer w).base = (s.writer w).base ∧ (t.writer w).limit = (s.writer w).limit ∧
    (s.writer w).bytes.toNat ≤ (t.writer w).bytes.toNat := by simp
  out : ∀ a, t.outByte a ≠ s.outByte a → ∃ w, writesTo i = some w ∧ s.outCursor w ≤ a ∧
    a < (s.writer w).base.toNat + (s.writer w).limit.toNat := by simp
  runs : ∀ c, t.runOf c ≠ s.runOf c → i = .tkRowc c ∨ i = .tkRowe c ∨ i = .tkFinc c ∨ i = .tkFine c := by simp
  hists : ∀ c, t.hist c ≠ s.hist c → i = .pcHclr c ∨ i = .tkRowc c ∨ i = .tkFinc c := by simp
  codes : ∀ c, t.code c ≠ s.code c → i = .pcBuild c := by simp
  xs : t.xs ≠ s.xs → ∃ len, i = .prStart len := by simp
  nrows : t.nrows ≠ s.nrows → (∃ len, i = .prStart len) ∨ ∃ a, i = .prLoad a := by simp
  rows : t.cur ≠ s.cur ∨ t.prev ≠ s.prev → ∃ a, i = .prLoad a := by simp
  res : t.res ≠ s.res → ∃ c, i = .prPred c := by simp
  resn : t.resn ≠ s.resn → (∃ len, i = .prStart len) ∨ ∃ c, i = .prPred c := by simp

/-- A change over two stretches is a change over one of them. -/
theorem ne_left_or_right {α : Type} {a b c : α} (h : c ≠ a) : b ≠ a ∨ c ≠ b :=
  (h.ne_or_ne b).symm.imp_left Ne.symm

theorem SameHostSide.trans {a b c : State} (h₁ : SameHostSide a b) (h₂ : SameHostSide b c) : SameHostSide a c :=
  ⟨h₂.params.trans h₁.params, h₂.ie.trans h₁.ie, h₂.cfg.trans h₁.cfg, h₂.minlen.trans h₁.minlen, h₂.maxlen.trans h₁.maxlen,
    h₂.taddr.trans h₁.taddr, h₂.cmd.trans h₁.cmd, h₂.input.trans h₁.input, h₂.draws.trans h₁.draws⟩

theorem SameStatus.trans {a b c : State} (h₁ : SameStatus a b) (h₂ : SameStatus b c) : SameStatus a c :=
  ⟨h₂.seq.trans h₁.seq, h₂.cause.trans h₁.cause, h₂.fpc.trans h₁.fpc⟩

theorem WritesOnlyNamed.trans {i : Instr} {a b c : State} (h₁ : WritesOnlyNamed i a b) (h₂ : WritesOnlyNamed i b c) :
    WritesOnlyNamed i a c where
  host := h₁.host.trans h₂.host
  regs r h := (ne_left_or_right h).elim (h₁.regs r) (h₂.regs r)
  writers w h := (ne_left_or_right h).elim (h₁.writers w) (h₂.writers w)
  region w hw := by
    obtain ⟨hb, hl, hn⟩ := h₁.region w hw
    obtain ⟨hb', hl', hn'⟩ := h₂.region w hw
    exact ⟨hb'.trans hb, hl'.trans hl, hn.trans hn'⟩
  out x h := by
    rcases ne_left_or_right (b := b.outByte x) h with h | h
    · exact h₁.out x h
    · obtain ⟨w, hw, hlo, hhi⟩ := h₂.out x h
      obtain ⟨hb, hl, hn⟩ := h₁.region w hw
      rw [State.outCursor, hb] at hlo
      exact ⟨w, hw, (Nat.add_le_add_left hn _).trans hlo, by rwa [hb, hl] at hhi⟩
  runs r h := (ne_left_or_right h).elim (h₁.runs r) (h₂.runs r)
  hists r h := (ne_left_or_right h).elim (h₁.hists r) (h₂.hists r)
  codes r h := (ne_left_or_right h).elim (h₁.codes r) (h₂.codes r)
  xs h := (ne_left_or_right h).elim h₁.xs h₂.xs
  nrows h := (ne_left_or_right h).elim h₁.nrows h₂.nrows
  rows h := by
    rcases h with h | h
    · exact (ne_left_or_right h).elim (h₁.rows ∘ .inl) (h₂.rows ∘ .inl)
    · exact (ne_left_or_right h).elim (h₁.rows ∘ .inr) (h₂.rows ∘ .inr)
  res h := (ne_left_or_right h).elim h₁.res h₂.res
  resn h := (ne_left_or_right h).elim h₁.resn h₂.resn

/-! ## The effect of a pseudocode -/

/-- What the pseudocode of command `i`, started in `s`, has done when it stands in `u`: it wrote only what `i` may write, it left
`STATE`, `CAUSE`, `FPC` and `pc` alone, and it kept R42. -/
structure Effect (i : Instr) (s u : State) : Prop extends WritesOnlyNamed i s u where
  status : SameStatus s u := by exact ⟨rfl, rfl, rfl⟩
  pc : u.pc = s.pc := by rfl
  sound : s.Sound → u.Sound := by exact fun h => h.congr

theorem Effect.refl (i : Instr) (s : State) : Effect i s s where

theorem Effect.trans {i : Instr} (a b c : State) (h₁ : Effect i a b) (h₂ : Effect i b c) : Effect i a c where
  toWritesOnlyNamed := h₁.toWritesOnlyNamed.trans h₂.toWritesOnlyNamed
  status := h₁.status.trans h₂.status
  pc := h₂.pc.trans h₁.pc
  sound := h₂.sound ∘ h₁.sound

/-! ### One update of the state -/

theorem effect_setReg {i : Instr} {d : Reg} (hi : destination i = some d) (v : DWord) (s : State) :
    Effect i s (s.setReg d v) where
  regs r h := by
    by_cases hr : r = d
    · rw [hi, hr]
    · exact absurd (State.setReg_reg_ne s d v r hr) h

theorem effect_setHist {i : Instr} {c : Chan} (hi : i = .pcHclr c ∨ i = .tkRowc c ∨ i = .tkFinc c) (v : Hist) (s : State) :
    Effect i s (s.setHist c v) where
  hists r h := by
    by_cases hr : r = c
    · rwa [hr]
    · exact absurd (State.setHist_hist_ne s c v r hr) h

theorem effect_setCode (c : Chan) (v : Code) (s : State) : Effect (.pcBuild c) s (s.setCode c v) where
  codes r h := by
    by_cases hr : r = c
    · rw [hr]
    · exact absurd (State.setCode_code_ne s c v r hr) h

theorem effect_setRun {i : Instr} {c : Chan} (hi : i = .tkRowc c ∨ i = .tkRowe c ∨ i = .tkFinc c ∨ i = .tkFine c) {v : Word}
    {s : State} (hv : runGood (s.runOf c) → runGood v) : Effect i s (s.setRun c v) where
  runs r h := by
    by_cases hr : r = c
    · rwa [hr]
    · exact absurd (State.setRun_runOf_ne s c v r hr) h
  sound h :=
    { h with
      runs := fun r => by
        by_cases hr : r = c
        · rw [hr, State.setRun_runOf_self]; exact hv (h.runs c)
        · rw [State.setRun_runOf_ne s c v r hr]; exact h.runs r }

theorem effect_bwInit {w : Chan} (a b : Reg) {v : Writer} {s : State} (hv : v.Good s.params.outBytes.val) :
    Effect (.bwInit w a b) s (s.setWriter w v) where
  writers r h := by
    by_cases hr : r = w
    · exact .inr ⟨a, b, by rw [hr]⟩
    · exact absurd (State.setWriter_writer_ne s w v r hr) h
  region r h := by cases h
  sound h :=
    { h with
      writers := fun r => by
        by_cases hr : r = w
        · rwa [hr, State.setWriter_writer_self]
        · rw [State.setWriter_writer_ne s w v r hr]; exact h.writers r }

/-! ### Sending bits -/

@[simp] theorem bwAfter_reg (w : Chan) (n v : Nat) (s : State) (r : Reg) : (bwAfter w n v s).reg r = s.reg r := rfl
@[simp] theorem bwAfter_runOf (w : Chan) (n v : Nat) (s : State) (c : Chan) : (bwAfter w n v s).runOf c = s.runOf c := rfl
@[simp] theorem bwAfter_hist (w : Chan) (n v : Nat) (s : State) (c : Chan) : (bwAfter w n v s).hist c = s.hist c := rfl
@[simp] theorem bwAfter_code (w : Chan) (n v : Nat) (s : State) (c : Chan) : (bwAfter w n v s).code c = s.code c := rfl
@[simp] theorem bwAfter_xs (w : Chan) (n v : Nat) (s : State) : (bwAfter w n v s).xs = s.xs := rfl
@[simp] theorem bwAfter_nrows (w : Chan) (n v : Nat) (s : State) : (bwAfter w n v s).nrows = s.nrows := rfl
@[simp] theorem bwAfter_cur (w : Chan) (n v : Nat) (s : State) : (bwAfter w n v s).cur = s.cur := rfl
@[simp] theorem bwAfter_prev (w : Chan) (n v : Nat) (s : State) : (bwAfter w n v s).prev = s.prev := rfl
@[simp] theorem bwAfter_res (w : Chan) (n v : Nat) (s : State) : (bwAfter w n v s).res = s.res := rfl
@[simp] theorem bwAfter_resn (w : Chan) (n v : Nat) (s : State) : (bwAfter w n v s).resn = s.resn := rfl

/-- Completed bytes go where OUT exists: below the limit of a region that lies inside OUT (R142 (7)). -/
theorem outGood_bwAfter {w : Chan} {count value : Nat} {s : State} (h : s.Sound)
    (hl : (s.writer w).bytes.toNat + bwDone (s.writer w) count ≤ (s.writer w).limit.toNat) :
    Memory.Good (bwAfter w count value s).out (s.params.bytes .output) := by
  obtain ⟨hwf, hbelow⟩ := h.out
  obtain ⟨-, -, hregion⟩ := h.writers w
  refine ⟨Memory.wf_putBytes _ _ _ hwf, Memory.below_putBytes _ _ _ _ hbelow ?_⟩
  rw [lowBytes_length]
  simp only [State.outCursor, Config.Sizes.bytes]
  omega

/-- A write of bits that is not refused (R141). -/
theorem effect_bwAfter {i : Instr} {w : Chan} (hi : writesTo i = some w) {count value : Nat} {s : State} (hc : count ≤ 56)
    (hl : (s.writer w).bytes.toNat + bwDone (s.writer w) count ≤ (s.writer w).limit.toNat) :
    Effect i s (bwAfter w count value s) where
  writers v h := by
    by_cases hv : v = w
    · exact .inl (by rw [hi, hv])
    · exact absurd (bwAfter_writer_ne count value s hv) h
  region v hv := by
    obtain rfl : w = v := Option.some.inj (hi.symm.trans hv)
    have frame := bwAfter_writesBits (value := value) hl
    exact ⟨frame.region.1, frame.region.2, frame.grows⟩
  out a h := by
    rw [bwAfter_outByte] at h
    split at h
    · next ha =>
      refine ⟨w, hi, ha.1, ?_⟩
      simp only [State.outCursor] at ha
      omega
    · exact absurd rfl h
  sound h :=
    { h with
      out := outGood_bwAfter h hl
      writers := fun v => by
        by_cases hv : v = w
        · rw [hv, bwAfter_writer]; exact bwWriter_good (h.writers w) hc hl
        · rw [bwAfter_writer_ne count value s hv]; exact h.writers v }

theorem bwWrite_effect {i : Instr} {w : Chan} (hi : writesTo i = some w) (count value : Nat) (s : State) :
    (bwWrite w count value s).Rel (Effect i) s := by
  cases h : bwWrite w count value s with
  | go t =>
    obtain ⟨hc, hl, rfl⟩ := bwWrite_eq_go h
    exact effect_bwAfter hi hc hl
  | raised f t =>
    obtain ⟨rfl, -⟩ := bwWrite_eq_raised h
    exact Effect.refl i t
  | stop f => trivial

/-- A loop has the effect that each of its rounds has. -/
theorem forEach_effect {α : Type} {i : Instr} {body : α → State → Flow} (l : List α)
    (h : ∀ a ∈ l, ∀ s, (body a s).Rel (Effect i) s) (s : State) : (forEach body l s).Rel (Effect i) s :=
  forEach_rel (Effect.refl i) Effect.trans l h s

theorem bwWrites_effect {i : Instr} {w : Chan} (hi : writesTo i = some w) (l : List (Nat × Nat)) (s : State) :
    (bwWrites w l s).Rel (Effect i) s :=
  forEach_effect l (fun p _ => bwWrite_effect hi p.1 p.2) s

theorem writemEntry_effect {i : Instr} {w : Chan} (hi : writesTo i = some w) (A B n : Nat) (s : State) :
    (writemEntry w A B n s).Rel (Effect i) s := by
  simp only [writemEntry, memRead_eq]
  split
  · split
    · exact bwWrite_effect hi _ _ s
    · exact Effect.refl i s
  · exact Effect.refl i s

/-! ### Tokens -/

/-- The tokenizer commands of a pass (R237 to R240). -/
def tokenizes (i : Instr) (c : Chan) : Mode → Prop
  | .count => i = .tkRowc c ∨ i = .tkFinc c
  | .emit => i = .tkRowe c ∨ i = .tkFine c

theorem tokenizes.counts {i : Instr} {c : Chan} (h : tokenizes i c .count) :
    i = .pcHclr c ∨ i = .tkRowc c ∨ i = .tkFinc c := .inr h

theorem tokenizes.writesTo {i : Instr} {c : Chan} (h : tokenizes i c .emit) : writesTo i = some c := by
  rcases h with rfl | rfl <;> rfl

theorem tokenizes.setsRun {i : Instr} {c : Chan} {mode : Mode} (h : tokenizes i c mode) :
    i = .tkRowc c ∨ i = .tkRowe c ∨ i = .tkFinc c ∨ i = .tkFine c := by
  cases mode <;> rcases h with rfl | rfl <;> simp

section
variable {i : Instr} {c : Chan} {mode : Mode} (hi : tokenizes i c mode)
include hi

theorem emitRaw_effect (v : Word) (s : State) : (emitRaw mode c v s).Rel (Effect i) s := by
  unfold emitRaw
  simp only
  split
  · exact Effect.refl i s
  · cases mode with
    | count =>
      simp only
      split
      · exact Effect.refl i s
      · exact effect_setHist hi.counts _ s
    | emit =>
      simp only
      split
      · exact Effect.refl i s
      · exact bwWrites_effect hi.writesTo _ s

theorem flushRun_effect (N : Nat) (s : State) : (flushRun mode c N s).Rel (Effect i) s := by
  unfold flushRun
  split
  · trivial
  · simp only
    split
    · exact Effect.refl i s
    · cases mode with
      | count =>
        simp only
        split
        · exact Effect.refl i s
        · exact effect_setHist hi.counts _ s
      | emit =>
        simp only
        split
        · exact Effect.refl i s
        · exact bwWrites_effect hi.writesTo _ s

theorem clearRun_effect (s : State) : (Flow.go (s.setRun c 0)).Rel (Effect i) s :=
  effect_setRun hi.setsRun fun _ => .inl rfl

/-- A run is only begun above the threshold, and one that is pending only grows (R235, R241). -/
theorem tokChunk_effect (r : List Word) (s : State) : (tokChunk mode c r s).Rel (Effect i) s := by
  unfold tokChunk
  simp only
  split
  · next hzero =>
    split
    · exact Effect.refl i s
    · next hfits =>
      refine effect_setRun hi.setsRun fun hg => .inr ?_
      rw [BitVec.toNat_ofNat, Nat.mod_eq_of_lt (by omega)]
      rcases hg with hg | hg
      · rw [hg] at hzero ⊢
        simp only [BitVec.ofNat_eq_ofNat, BitVec.toNat_ofNat, Nat.zero_mod, lt_self_iff_false, false_or] at hzero ⊢
        omega
      · omega
  · split
    · exact (flushRun_effect hi _ s).andThen Effect.trans fun s₁ =>
        (forEach_effect _ (fun v _ => emitRaw_effect hi v) s₁).andThen Effect.trans (clearRun_effect hi)
    · exact forEach_effect r (fun v _ => emitRaw_effect hi v) s

theorem tokRow_effect (s : State) : (tokRow mode c s).Rel (Effect i) s :=
  forEach_effect _ (fun r _ => tokChunk_effect hi r) s

theorem finalize_effect (s : State) : (finalize mode c s).Rel (Effect i) s := by
  refine Flow.Rel.andThen Effect.trans ?_ (clearRun_effect hi)
  split
  · exact flushRun_effect hi _ s
  · exact Effect.refl i s

end

/-! ### Rows -/

theorem effect_startGroup (len : BitVec 16) (n : Fin 257) (s : State) : Effect (.prStart len) s (s.startGroup n) where
  sound h := { h with residuals := Nat.zero_le _, rows := fun h0 => absurd rfl h0 }

theorem effect_loadRow (a : Reg) (cur prev : Vector Row 4) (n : Fin 3) {s : State} (hxs : s.xs ≠ 0) :
    Effect (.prLoad a) s (s.loadRow cur prev n) where
  sound h := { h with rows := fun _ => hxs }

theorem effect_setResiduals (c : Chan) (r : Row) (s : State) : Effect (.prPred c) s (s.setResiduals r s.xs) where
  sound h := { h with residuals := Nat.le_refl _ }

/-! ## How a command ends -/

/-- How a command that answers `t` has ended: it completed, it raised a fault, it was `HALT`, or it was a `LOOP` that branched
back (R22, R122, R125, R264). -/
inductive Ends (i : Instr) (s : State) : State → Prop
  | completed {u : State} (h : Effect i s u) : Ends i s u.advance
  | raised {u : State} (f : FaultName) (h : Effect i s u) : Ends i s (u.raiseFault f)
  | halted (h : i = .halt) : Ends i s { s with seq := .halted }.advance
  | branched {r : Reg} {off : BitVec 16} (v : DWord) (h : i = .loop r off) (hoff : off.toNat ≤ s.pc.toNat) :
      Ends i s { s.setReg r v with pc := s.pc - off.setWidth 32 }

theorem Ends.of_finish {i : Instr} {s t : State} {r : Flow} (hr : r.Rel (Effect i) s) (h : r.finish = .next t) : Ends i s t := by
  rcases Flow.finish_eq_next.1 h with ⟨u, rfl, rfl⟩ | ⟨f, u, rfl, rfl⟩
  · exact .completed hr
  · exact .raised f hr

/-- A fault that is raised before anything is done. -/
theorem Ends.of_raise {i : Instr} {s t : State} {f : FaultName}
    (h : (.next (s.raiseFault f) : Host.Outcome State Fault Refusal) = .next t) : Ends i s t := by
  cases h
  exact .raised f (Effect.refl i s)

/-- A command that comes to the end of its pseudocode. -/
theorem Ends.of_go {i : Instr} {s t u : State} (hu : Effect i s u) (h : (Flow.go u).finish = .next t) : Ends i s t :=
  Ends.of_finish (r := .go u) hu h

theorem Writer.good_init {size : Nat} {base limit : DWord} (hb : isAddress base = true) (hl : isAddress limit = true)
    (h : base.toNat + limit.toNat ≤ size) :
    Writer.Good size { base := base.setWidth 32, limit := limit.setWidth 32, bytes := 0, acc := 0, nbits := 0 } := by
  simp only [isAddress, decide_eq_true_eq] at hb hl
  refine ⟨Nat.one_pos, Nat.zero_le _, ?_⟩
  simpa only [BitVec.toNat_setWidth, Nat.mod_eq_of_lt hb, Nat.mod_eq_of_lt hl] using h

theorem execLoop_ends {r : Reg} {off : BitVec 16} {s t : State} (h : execLoop r off s = .next t) : Ends (.loop r off) s t := by
  simp only [execLoop] at h
  split at h
  · split at h
    · exact .of_raise h
    · next hoff =>
      cases h
      exact .branched _ rfl (Nat.le_of_not_lt hoff)
  · exact .of_go (effect_setReg rfl _ s) h

theorem execBwInit_ends {w : Chan} {a b : Reg} {s t : State} (h : execBwInit w a b s = .next t) : Ends (.bwInit w a b) s t := by
  simp only [execBwInit] at h
  split at h
  · exact .of_raise h
  · next haddr =>
    split at h
    · exact .of_raise h
    · next hfit =>
      simp only [Bool.not_eq_true', Bool.not_eq_false, Bool.and_eq_true] at haddr
      exact .of_go (effect_bwInit a b (Writer.good_init haddr.1 haddr.2 (Nat.le_of_not_lt hfit))) h

theorem execBwZpad_ends {w : Chan} {s t : State} (h : execBwZpad w s = .next t) : Ends (.bwZpad w) s t := by
  refine .of_finish ?_ h
  split
  · exact bwWrite_effect rfl _ _ s
  · exact Effect.refl _ s

theorem execBwWritem_ends {w : Chan} {n : BitVec 16} {a b : Reg} {s t : State} (h : execBwWritem w n a b s = .next t) :
    Ends (.bwWritem w n a b) s t := by
  simp only [execBwWritem] at h
  split at h
  · exact .of_raise h
  · split at h
    · exact .of_raise h
    · exact .of_finish (forEach_effect _ (fun k _ => writemEntry_effect rfl _ _ k) s) h

theorem execPcBuild_ends {c : Chan} {s t : State} (h : execPcBuild c s = .next t) : Ends (.pcBuild c) s t := by
  unfold execPcBuild at h
  split at h
  · exact .of_raise h
  · exact .of_go (effect_setCode c _ s) h

theorem execPcSerial_ends {c w : Chan} {s t : State} (h : execPcSerial c w s = .next t) : Ends (.pcSerial c w) s t := by
  unfold execPcSerial at h
  split at h
  · exact .of_raise h
  · exact .of_finish (bwWrites_effect rfl _ s) h

theorem execPrStart_ends {len : BitVec 16} {s t : State} (h : execPrStart len s = .next t) : Ends (.prStart len) s t := by
  unfold execPrStart at h
  split at h
  · exact .of_raise h
  · exact .of_go (effect_startGroup len _ s) h

theorem State.xs_ne_zero_of_cfg {s : State} (h : ¬ s.cfgInvalid = true) : s.xs ≠ 0 := by
  intro h0
  simp [State.cfgInvalid, h0] at h

theorem execPrLoad_ends {a : Reg} {s t : State} (h : execPrLoad a s = .next t) : Ends (.prLoad a) s t := by
  simp only [execPrLoad] at h
  split at h
  · exact .of_raise h
  · next hcfg =>
    split at h
    · exact .of_raise h
    · exact .of_go (effect_loadRow a _ _ _ (State.xs_ne_zero_of_cfg hcfg)) h

theorem execPrPred_ends {c : Chan} {s t : State} (h : execPrPred c s = .next t) : Ends (.prPred c) s t := by
  unfold execPrPred at h
  split at h
  · exact .of_raise h
  · split at h
    · exact .of_raise h
    · exact .of_go (effect_setResiduals c _ s) h

/-- All that a command which answers a next state can have done. -/
theorem exec_ends {i : Instr} {s t : State} (h : exec i s = .next t) : Ends i s t := by
  cases i with
  | nop => exact .of_go (Effect.refl _ s) h
  | halt => cases h; exact .halted rfl
  | liK d sh imm => exact .of_go (effect_setReg rfl _ s) h
  | liZ d sh imm => exact .of_go (effect_setReg rfl _ s) h
  | addi d imm => exact .of_go (effect_setReg rfl _ s) h
  | loop r off => exact execLoop_ends h
  | bwInit w a b => exact execBwInit_ends h
  | bwWrite w cnt r => exact .of_finish (bwWrite_effect rfl _ _ s) h
  | bwZpad w => exact execBwZpad_ends h
  | bwWritem w n a b => exact execBwWritem_ends h
  | pcHclr c => exact .of_go (effect_setHist (.inl rfl) _ s) h
  | pcBuild c => exact execPcBuild_ends h
  | pcSerial c w => exact execPcSerial_ends h
  | prStart len => exact execPrStart_ends h
  | prLoad a => exact execPrLoad_ends h
  | prPred c => exact execPrPred_ends h
  | tkRowc c => exact .of_finish (tokRow_effect (mode := .count) (.inl rfl) s) h
  | tkRowe c => exact .of_finish (tokRow_effect (mode := .emit) (.inl rfl) s) h
  | tkFinc c => exact .of_finish (finalize_effect (mode := .count) (.inr rfl) s) h
  | tkFine c => exact .of_finish (finalize_effect (mode := .emit) (.inr rfl) s) h

end Sys2Proof.Machine

/-! SUPPORT. The statements over all commands: who writes what, how a run ends, and that R42 is kept. -/

namespace Sys2Proof.Machine

/-! ## Who writes what, over all commands -/

/-- Everything but `pc`, `STATE`, `CAUSE` and `FPC` is as it was: what completing a command and entering a fault write. -/
theorem WritesOnlyNamed.of_status (i : Instr) (s : State) (seq : SeqState) (pc : Word) (cause : BitVec 8) (fpc : Word) :
    WritesOnlyNamed i s { s with seq := seq, pc := pc, cause := cause, fpc := fpc } where
  regs r h := absurd rfl h
  writers w h := absurd rfl h
  region w _ := ⟨rfl, rfl, Nat.le_refl _⟩
  out a h := absurd rfl h
  runs c h := absurd rfl h
  hists c h := absurd rfl h
  codes c h := absurd rfl h

theorem Ends.writesOnlyNamed {i : Instr} {s t : State} (h : Ends i s t) : WritesOnlyNamed i s t := by
  cases h with
  | @completed u h => exact h.toWritesOnlyNamed.trans (.of_status i u u.seq (u.pc + 1) u.cause u.fpc)
  | @raised u f h => exact h.toWritesOnlyNamed.trans (.of_status i u .fault u.pc f.code u.pc)
  | halted h => exact .of_status i s .halted (s.pc + 1) s.cause s.fpc
  | @branched r off v h hoff =>
    have hreg := effect_setReg (i := i) (d := r) (by rw [h]; rfl) v s
    exact hreg.toWritesOnlyNamed.trans (.of_status i (s.setReg r v) s.seq (s.pc - off.setWidth 32) s.cause s.fpc)

/-- Settles O48: each command ends in a state that differs from its start only where `WritesOnlyNamed` lets it. -/
theorem onlyNamedCommandsWrite : Obligations.OnlyNamedCommandsWrite := by
  intro i s t h
  have w := (exec_ends h).writesOnlyNamed
  exact ⟨w.host, w.regs, w.writers, w.out, w.runs, w.hists, w.codes, w.xs, w.nrows, w.rows, w.res, w.resn⟩

/-! ## How a run ends -/

/-- The branch target of `LOOP`, with the range of `off` checked, does not wrap (R125). -/
theorem branchTarget_toNat {pc : Word} {off : BitVec 16} (h : off.toNat ≤ pc.toNat) :
    (pc - off.setWidth 32).toNat = pc.toNat - off.toNat := by
  have hoff : (off.setWidth 32).toNat = off.toNat := by
    rw [BitVec.toNat_setWidth, Nat.mod_eq_of_lt (off.isLt.trans (by decide))]
  rw [BitVec.toNat_sub_of_le (by rwa [BitVec.le_def, hoff]), hoff]

/-- Settles O49, case by case over how a command ends. -/
theorem runEndsOnlyByHaltOrFault : Obligations.RunEndsOnlyByHaltOrFault := by
  intro i s t hrun h
  cases exec_ends h with
  | completed hu => exact .inl ⟨hu.status.seq.trans hrun, .inl (congrArg (· + 1) hu.pc)⟩
  | raised f hu => exact .inr (.inr ⟨rfl, hu.pc⟩)
  | halted hi => exact .inr (.inl ⟨rfl, hi, rfl⟩)
  | branched v hi hoff => exact .inl ⟨hrun, .inr ⟨_, _, hi, hoff, branchTarget_toNat hoff⟩⟩

/-! ## The invariant -/

theorem State.CauseTells.congr {s t : State} (h : s.CauseTells) (hs : SameStatus s t) : t.CauseTells := by
  simpa only [State.CauseTells, hs.seq, hs.cause, hs.fpc] using h

theorem State.causeTells_raiseFault (f : FaultName) (s : State) : (s.raiseFault f).CauseTells := .inl ⟨rfl, f, rfl⟩

/-- Without a fault, `CAUSE` and `FPC` stay 0 in whatever other `STATE`. -/
theorem State.CauseTells.of_not_fault {s t : State} (h : s.CauseTells) (hs : s.seq ≠ .fault) (ht : t.seq ≠ .fault)
    (hcause : t.cause = s.cause) (hfpc : t.fpc = s.fpc) : t.CauseTells := by
  rcases h with ⟨hf, -⟩ | ⟨-, h1, h2⟩
  · exact absurd hf hs
  · exact .inr ⟨ht, hcause.trans h1, hfpc.trans h2⟩

/-- Entering a fault state keeps the invariant of a sound state. -/
theorem State.Sound.inv_raiseFault {s : State} (h : s.Sound) (f : FaultName) : (s.raiseFault f).Inv :=
  h.congr.inv (s.causeTells_raiseFault f)

/-- A command of a running block ends in a state that R42 allows. -/
theorem Ends.inv {i : Instr} {s t : State} (hs : s.Inv) (hrun : s.seq = .run) (h : Ends i s t) : t.Inv := by
  have cause : s.CauseTells := hs.cause
  cases h with
  | @completed u hu =>
    exact (hu.sound hs.sound).congr.inv (cause.congr ⟨hu.status.seq, hu.status.cause, hu.status.fpc⟩)
  | raised f hu => exact (hu.sound hs.sound).inv_raiseFault f
  | halted hi => exact hs.sound.congr.inv (cause.of_not_fault (by simp [hrun]) (by simp) rfl rfl)
  | branched v hi hoff => exact hs.sound.congr.inv (cause.congr ⟨rfl, rfl, rfl⟩)

/-- Settles O53: a step leaves a stopped block alone, enters the fault of the fetch, or ends a command. -/
theorem invariantKept : Obligations.InvariantKept := by
  intro s t hs h
  unfold step at h
  split at h
  · next hrun =>
    split at h
    · cases h; exact hs.sound.inv_raiseFault _
    · exact (exec_ends h).inv hs hrun
  · cases h; exact hs

end Sys2Proof.Machine

/-! SUPPORT. The host's side: the resets, the registers and the table window (spec/10_state.md R24 to R32, R38, R41). -/

namespace Sys2Proof.Machine

/-! ## What a reset leaves -/

@[simp] theorem State.softReset_reg (s : State) (i : Reg) : s.softReset.reg i = 0 := by
  simp [State.softReset, State.reset, State.reg]
@[simp] theorem State.softReset_writer (s : State) (w : Chan) : s.softReset.writer w = Writer.zero := by
  simp [State.softReset, State.reset, State.writer]
@[simp] theorem State.softReset_runOf (s : State) (c : Chan) : s.softReset.runOf c = 0 := by
  simp [State.softReset, State.reset, State.runOf]
@[simp] theorem State.softReset_hist (s : State) (c : Chan) : s.softReset.hist c = Hist.zero := by
  simp [State.softReset, State.reset, State.hist]
@[simp] theorem State.softReset_code (s : State) (c : Chan) : s.softReset.code c = Code.zero := by
  simp [State.softReset, State.reset, State.code]
@[simp] theorem State.softReset_minlen (s : State) : s.softReset.minlen = Vector.replicate 20 0 := rfl
@[simp] theorem State.softReset_maxlen (s : State) : s.softReset.maxlen = Vector.replicate 20 0 := rfl

@[simp] theorem entry_zeros (w n k : Nat) : entry (Vector.replicate n 0#w) k = 0 := by
  unfold entry
  rw [Vector.getElem?_replicate]
  split <;> rfl

theorem Writer.good_zero (size : Nat) : Writer.Good size .zero := ⟨Nat.one_pos, Nat.le_refl _, Nat.zero_le _⟩

/-- R41 is within R42, over memories in canonical form. -/
theorem State.softReset_inv {s : State} (cmd : Memory.Good s.cmd (s.params.bytes .cmd))
    (input : Memory.Good s.input (s.params.bytes .input)) (out : Memory.Good s.out (s.params.bytes .output)) :
    s.softReset.Inv where
  writers w := by rw [State.softReset_writer]; exact Writer.good_zero _
  runs c := .inl (s.softReset_runOf c)
  residuals := Nat.le_refl _
  rows h := absurd rfl h
  cause := .inr ⟨nofun, rfl, rfl⟩
  cmd := cmd
  input := input
  out := out

/-- Settles O52: the state after a hard reset at power-up is a reset of itself, and its memories list nothing. -/
theorem invariantAtReset : Obligations.InvariantAtReset :=
  State.softReset_inv (s := State.reset) ⟨rfl, rfl⟩ ⟨rfl, rfl⟩ ⟨rfl, rfl⟩

theorem hostAct_reset {s : State} {v : Word} (hv : v.getLsbD 1 = true) {m : HostMove}
    (hm : m = .hardReset ∨ m = .writeReg 0 v) : hostAct m s = .next s.softReset := by
  rcases hm with rfl | rfl
  · rfl
  · simp [hostAct, State.writeRegister, State.writeCtrl, hv]

/-- Settles O56: both moves are the one reset, and every element of it has its value of R41. -/
theorem resetsGiveTheTable : Obligations.ResetsGiveTheTable := by
  intro s v hv m hm
  refine ⟨s.softReset, hostAct_reset hv hm, rfl, rfl, s.softReset_reg, rfl, rfl, rfl, rfl, rfl, rfl, rfl, fun w => ?_,
    s.softReset_runOf, fun c k => ?_, fun k => ?_, fun c k => ?_, rfl, rfl, rfl, rfl, rfl, rfl, rfl⟩
  · simp [Writer.zero]
  · simp [Hist.zero]
  · simp
  · simp [Code.zero]

/-! ## The moves of the host -/

/-- A host access to memory that is answered is made to a stopped block, and the bytes exist (R61 to R63, R66). -/
theorem State.hostAccess_eq_next {s t : State} {sp : Config.Space} {a n : Nat}
    {k : State → Host.Outcome State Fault Refusal} (h : s.hostAccess sp a n k = .next t) :
    a + n ≤ s.params.bytes sp ∧ k s = .next t := by
  unfold State.hostAccess at h
  split at h
  · cases h
  · split at h
    · cases h
    · exact ⟨by omega, h⟩

theorem Memory.Good.put {m : Memory} {size a : Nat} (h : m.Good size) (v : Byte) (ha : a < size) :
    (Memory.put m a v).Good size :=
  ⟨Memory.wf_put m a v h.1, Memory.below_put m size a v h.2 ha⟩

theorem Memory.Good.cmdWithWord {m : Memory} {size a : Nat} (h : m.Good size) (w : Word) (ha : 4 * a + 4 ≤ size) :
    (cmdWithWord m a w).Good size :=
  ⟨wf_cmdWithWord m a w h.1, below_cmdWithWord m size a w h.2 ha⟩

theorem State.Inv.memory {s : State} (h : s.Inv) (sp : Config.Space) : Memory.Good (s.memory sp) (s.params.bytes sp) := by
  cases sp
  exacts [h.cmd, h.input, h.out]

theorem State.Inv.setMemory {s : State} (h : s.Inv) (sp : Config.Space) {m : Memory} (hm : m.Good (s.params.bytes sp)) :
    (s.setMemory m sp).Inv := by
  cases sp
  · exact { h with cmd := hm }
  · exact { h with input := hm }
  · exact { h with out := hm }

/-- A table entry is no part of what R42 speaks of. -/
theorem State.Inv.writeEntry {s : State} (h : s.Inv) (v : Word) (e : TableEntry) : (s.writeEntry v e).Inv := by
  cases e <;> exact { h with }

theorem State.Inv.writeTable {s : State} (h : s.Inv) (a : BitVec 12) (v : Word) : (s.writeTable a v).Inv := by
  unfold State.writeTable
  split
  · exact h.writeEntry v _
  · exact h

theorem State.Inv.writeStopped {s : State} (h : s.Inv) (n : BitVec 6) (v : Word) : (s.writeStopped n v).Inv := by
  unfold State.writeStopped
  simp only
  split
  · exact { h with }
  split
  · exact { h with }
  split
  · exact { h with }
  split
  · exact h.writeTable _ v
  · exact h

/-- `START` acts on an idle or a halted block, which has no fault (R25). -/
theorem State.Inv.writeCtrl {s : State} (h : s.Inv) (v : Word) : (s.writeCtrl v).Inv := by
  have cause : s.CauseTells := h.cause
  unfold State.writeCtrl
  split
  · exact State.softReset_inv h.cmd h.input h.out
  · split
    · next hstart =>
      have hs : s.seq ≠ .fault := fun hf => by simp [hf] at hstart
      exact { h with cause := cause.of_not_fault hs nofun rfl rfl }
    · exact { h with }

theorem State.Inv.writeRegister {s : State} (h : s.Inv) (n : BitVec 6) (v : Word) : (s.writeRegister n v).Inv := by
  unfold State.writeRegister
  split
  · exact h.writeCtrl v
  split
  · exact h.writeStopped n v
  · exact h

theorem State.Inv.afterRead {s : State} (h : s.Inv) (n : BitVec 6) : (s.afterRead n).Inv := by
  unfold State.afterRead
  split
  · exact h
  · exact { h with }

/-- Settles O54, move by move. -/
theorem invariantKeptByHost : Obligations.InvariantKeptByHost := by
  intro m s t hs h
  cases m with
  | readReg n => cases h; exact hs.afterRead n
  | writeReg n v => cases h; exact hs.writeRegister n v
  | readByte sp a =>
    simp only [hostAct] at h
    obtain ⟨-, hk⟩ := State.hostAccess_eq_next h
    cases hk; exact hs
  | writeByte sp a v =>
    simp only [hostAct] at h
    obtain ⟨ha, hk⟩ := State.hostAccess_eq_next h
    cases hk; exact hs.setMemory sp ((hs.memory sp).put v ha)
  | readCmd a =>
    simp only [hostAct] at h
    obtain ⟨-, hk⟩ := State.hostAccess_eq_next h
    cases hk; exact hs
  | writeCmd a v =>
    simp only [hostAct] at h
    obtain ⟨ha, hk⟩ := State.hostAccess_eq_next h
    cases hk; exact hs.setMemory .cmd (hs.cmd.cmdWithWord v ha)
  | hardReset => cases h; exact State.softReset_inv hs.cmd hs.input hs.out

/-! ## What the registers read as -/

theorem State.stopped_iff (s : State) : s.stopped = true ↔ s.seq ≠ .run := by
  simp [State.stopped]

/-- A read of a stopped block has a specified value and changes nothing (R24). -/
theorem hostSees_readReg {s : State} (h : s.stopped = true) (n : BitVec 6) : hostSees (.readReg n) s = s.readStopped n := by
  simp [hostSees, State.readRegister, h]

theorem hostAct_readReg {s : State} (h : s.stopped = true) (n : BitVec 6) : hostAct (.readReg n) s = .next s := by
  simp [hostAct, State.afterRead, h]

theorem State.irq_iff (s : State) : s.irq = true ↔ s.ie = true ∧ (s.seq = .halted ∨ s.seq = .fault) := by
  simp [State.irq]

theorem State.statusWord_toNat (s : State) : s.statusWord.toNat = s.seq.code.toNat + 4 * s.irq.toNat := by
  simp only [State.statusWord, append_toNat, BitVec.toNat_ofBool, BitVec.ofNat_eq_ofNat, BitVec.toNat_ofNat]
  omega

theorem State.ctrlWord_toNat (s : State) : s.ctrlWord.toNat = 4 * s.ie.toNat := by
  simp only [State.ctrlWord, append_toNat, BitVec.toNat_ofBool, BitVec.ofNat_eq_ofNat, BitVec.toNat_ofNat]
  omega

theorem State.cfgWord_toNat (s : State) :
    s.cfgWord.toNat = s.cfg.nc.toNat + 2 ^ 3 * s.cfg.bps.toNat + 2 ^ 9 * s.cfg.be.toNat := by
  simp only [State.cfgWord, append_toNat, BitVec.toNat_ofBool, BitVec.ofNat_eq_ofNat, BitVec.toNat_ofNat]
  omega

theorem State.prstatWord_toNat (s : State) :
    s.prstatWord.toNat = s.xs.val + 2 ^ 9 * s.nrows.val + 2 ^ 16 * s.resn.val := by
  have := s.xs.isLt
  have := s.nrows.isLt
  have := s.resn.isLt
  simp only [State.prstatWord, append_toNat, BitVec.ofNat_eq_ofNat, BitVec.toNat_ofNat]
  omega

theorem Writer.tailWord_toNat (wr : Writer) : wr.tailWord.toNat = wr.acc.toNat % 2 ^ 8 + 2 ^ 8 * wr.nbits.val := by
  have := wr.nbits.isLt
  simp only [Writer.tailWord, append_toNat, extract_toNat, BitVec.ofNat_eq_ofNat, BitVec.toNat_ofNat]
  omega

/-- The four registers of writer `w` follow one another from `0x10 + 4w` on (R24). -/
theorem State.readStopped_writer (s : State) (w : Chan) (j : Fin 4) :
    s.readStopped (BitVec.ofNat 6 (0x10 + j.val + 4 * w.val)) = (s.writer w).readReg j := by
  have hw := w.isLt
  have hj := j.isLt
  have hk : (BitVec.ofNat 6 (0x10 + j.val + 4 * w.val)).toNat = 0x10 + j.val + 4 * w.val := by
    rw [BitVec.toNat_ofNat, Nat.mod_eq_of_lt (by omega)]
  have hi : Fin.ofNat 4 ((0x10 + j.val + 4 * w.val) / 4) = w := Fin.ext (by simp only [Fin.ofNat]; omega)
  have hn : Fin.ofNat 4 (0x10 + j.val + 4 * w.val) = j := Fin.ext (by simp only [Fin.ofNat]; omega)
  unfold State.readStopped
  simp (disch := omega) only [hk, if_neg, if_pos, hi, hn]

theorem State.readStopped_run (s : State) (c : Chan) : s.readStopped (BitVec.ofNat 6 (0x20 + c.val)) = s.runOf c := by
  have hc := c.isLt
  have hk : (BitVec.ofNat 6 (0x20 + c.val)).toNat = 0x20 + c.val := by
    rw [BitVec.toNat_ofNat, Nat.mod_eq_of_lt (by omega)]
  have hn : Fin.ofNat 4 (0x20 + c.val) = c := Fin.ext (by simp only [Fin.ofNat]; omega)
  unfold State.readStopped
  simp (disch := omega) only [hk, if_neg, if_pos, hn]

/-- A reserved number reads 0 (R24). -/
theorem State.readStopped_reserved (s : State) {n : BitVec 6} (h : (0x09 ≤ n.toNat ∧ n.toNat < 0x10) ∨ 0x24 ≤ n.toNat) :
    s.readStopped n = 0 := by
  unfold State.readStopped
  simp (disch := omega) only [if_neg]

/-- Settles O57, register by register. -/
theorem registersRead : Obligations.RegistersRead := by
  intro s
  have status : hostSees (.readReg 1) s = s.statusWord := by simp [hostSees, State.readRegister, State.readStopped]
  refine ⟨s.irq_iff, by simp [hostAct, State.afterRead], ?_, fun h => ?_⟩
  · rw [status, s.statusWord_toNat]
    cases s.seq <;> rfl
  simp only [hostSees_readReg h]
  refine ⟨hostAct_readReg h, s.ctrlWord_toNat, BitVec.toNat_setWidth_of_le (b := s.cause) (w' := 32) (by decide), rfl, rfl,
    s.cfgWord_toNat, s.prstatWord_toNat, BitVec.toNat_setWidth_of_le (b := s.taddr) (w' := 32) (by decide), fun w => ⟨?_, ?_, ?_, ?_⟩, s.readStopped_run,
    fun n hn => s.readStopped_reserved hn⟩
  · exact s.readStopped_writer w 0
  · exact s.readStopped_writer w 1
  · exact s.readStopped_writer w 2
  · exact (congrArg BitVec.toNat (s.readStopped_writer w 3)).trans (s.writer w).tailWord_toNat

/-! ## What writes of the registers do -/

theorem hostAct_writeCtrl (s : State) (v : Word) : hostAct (.writeReg 0 v) s = .next (s.writeCtrl v) := rfl

/-- A write of `CTRL` without `SRESET` (R25). -/
theorem State.writeCtrl_of_not_reset (s : State) {v : Word} (h : v.getLsbD 1 = false) :
    s.writeCtrl v = { s with
      ie := v.getLsbD 2
      seq := if v.getLsbD 0 && (s.seq == .idle || s.seq == .halted) then .run else s.seq } :=
  if_neg (by rw [h]; decide)

theorem State.writeCtrl_start {s : State} {v : Word} (h1 : v.getLsbD 1 = false) (h0 : v.getLsbD 0 = true)
    (hs : s.seq = .idle ∨ s.seq = .halted) : s.writeCtrl v = { s with ie := v.getLsbD 2, seq := .run } := by
  rw [s.writeCtrl_of_not_reset h1, h0]
  rcases hs with hs | hs <;> rw [hs] <;> rfl

/-- A block that runs or has faulted cannot be started (R25). -/
theorem State.writeCtrl_no_start {s : State} {v : Word} (h1 : v.getLsbD 1 = false)
    (h : v.getLsbD 0 = false ∨ s.seq = .run ∨ s.seq = .fault) : s.writeCtrl v = { s with ie := v.getLsbD 2 } := by
  have hstart : (v.getLsbD 0 && (s.seq == .idle || s.seq == .halted)) = false := by
    rcases h with h | h | h <;> rw [h]
    · exact Bool.false_and _
    · exact Bool.and_false _
    · exact Bool.and_false _
  rw [s.writeCtrl_of_not_reset h1, hstart]
  rfl

theorem hostAct_writeReg_of_ne {s : State} {n : BitVec 6} (hn : n ≠ 0) (v : Word) :
    hostAct (.writeReg n v) s = .next (if s.stopped then s.writeStopped n v else s) := by
  simp only [hostAct, State.writeRegister]
  rw [if_neg hn]

theorem hostAct_writeReg_stopped {s : State} (hs : s.stopped = true) {n : BitVec 6} (hn : n ≠ 0) (v : Word) :
    hostAct (.writeReg n v) s = .next (s.writeStopped n v) := by
  rw [hostAct_writeReg_of_ne hn, if_pos hs]

theorem State.writeStopped_ignored (s : State) {n : BitVec 6} (hn : n ∉ [(0 : BitVec 6), 4, 5, 7, 8]) (v : Word) :
    s.writeStopped n v = s := by
  simp only [List.mem_cons, List.not_mem_nil, or_false, not_or, ← BitVec.toNat_inj, BitVec.ofNat_eq_ofNat, BitVec.toNat_ofNat]
    at hn
  obtain ⟨-, h4, h5, h7, h8⟩ := hn
  unfold State.writeStopped
  simp (disch := omega) only [if_neg]

theorem cfgOfWord_toNat (v : Word) :
    (cfgOfWord v).nc.toNat = v.toNat % 2 ^ 3 ∧ (cfgOfWord v).bps.toNat = v.toNat / 2 ^ 3 % 2 ^ 6 ∧
      (cfgOfWord v).be.toNat = v.toNat / 2 ^ 9 % 2 := by
  refine ⟨(extract_toNat v 0 3).trans ?_, extract_toNat v 3 6, Nat.toNat_testBit v.toNat 9⟩
  rw [Nat.pow_zero, Nat.div_one]

/-- Settles O58, register by register. -/
theorem registersWrite : Obligations.RegistersWrite := by
  intro s v
  refine ⟨fun h => ?_, fun h1 h0 hs => ?_, fun h1 h => ?_, fun hrun n hn => ?_, fun hs => ?_⟩
  · exact hostAct_reset h (.inr rfl)
  · rw [hostAct_writeCtrl, State.writeCtrl_start h1 h0 hs]
  · rw [hostAct_writeCtrl, State.writeCtrl_no_start h1 h]
  · rw [hostAct_writeReg_of_ne hn, if_neg (by simp [State.stopped, hrun])]
  · have stopped : s.stopped = true := s.stopped_iff.2 hs
    refine ⟨hostAct_writeReg_stopped stopped (by decide) v,
      ⟨cfgOfWord v, hostAct_writeReg_stopped stopped (by decide) v, cfgOfWord_toNat v⟩,
      ⟨v.setWidth 12, hostAct_writeReg_stopped stopped (by decide) v, BitVec.toNat_setWidth 12 v⟩, fun n hn => ?_⟩
    have hn0 : n ≠ 0 := fun h => hn (by simp [h])
    rw [hostAct_writeReg_stopped stopped hn0, s.writeStopped_ignored hn]

end Sys2Proof.Machine

/-! SUPPORT. The table window (spec/10_state.md R38): addresses, and what a write of an entry leaves in every entry. -/

namespace Sys2Proof.Machine

/-! ## Addresses of entries -/

/-- An index that is read back from its offset `b + i`. -/
theorem ofNat_eq_index {n : Nat} [NeZero n] (i : Fin n) {k : Nat} (h : k = i.val) : Fin.ofNat n k = i := by
  rw [h, Fin.ofNat_val_eq_self]

/-- The part of the table space that belongs to channel `c`. -/
theorem tableEntry_channel (c : Fin 4) {o : Nat} (ho : o < 0x100) :
    tableEntry (0x100 + 0x100 * c.val + o) = channelEntry c o := by
  have hc := c.isLt
  have hi : Fin.ofNat 4 ((0x100 + 0x100 * c.val + o) / 0x100 - 1) = c := ofNat_eq_index c (by omega)
  have hmod : (0x100 + 0x100 * c.val + o) % 0x100 = o := by omega
  unfold tableEntry
  simp (disch := omega) only [if_neg, if_pos, hi, hmod]

/-- Every entry stands at its address (R38). -/
theorem tableEntry_address (e : TableEntry) : tableEntry e.address = some e := by
  cases e with
  | xLow i =>
    have hi := i.isLt
    rw [TableEntry.address, tableEntry, if_pos (by omega), ofNat_eq_index i (by omega)]
  | xHigh i =>
    have hi := i.isLt
    rw [TableEntry.address, tableEntry, if_neg (by omega), if_pos (by omega), ofNat_eq_index i (by omega)]
  | minlen k =>
    have hk := k.isLt
    rw [TableEntry.address, tableEntry, if_neg (by omega), if_neg (by omega), if_pos (by omega), ofNat_eq_index k (by omega)]
  | maxlen k =>
    have hk := k.isLt
    rw [TableEntry.address, tableEntry, if_neg (by omega), if_neg (by omega), if_neg (by omega), if_pos (by omega),
      ofNat_eq_index k (by omega)]
  | hraw c t =>
    have ht := t.isLt
    rw [TableEntry.address, Nat.add_assoc, tableEntry_channel c (by omega), channelEntry,
      if_pos (by omega), ofNat_eq_index t (by omega)]
  | hlz c j =>
    have hj := j.isLt
    rw [TableEntry.address, Nat.add_assoc, tableEntry_channel c (by omega), channelEntry,
      if_neg (by omega), if_pos (by omega), ofNat_eq_index j (by omega)]
  | rawLen c t =>
    have ht := t.isLt
    rw [TableEntry.address, Nat.add_assoc, tableEntry_channel c (by omega), channelEntry,
      if_neg (by omega), if_neg (by omega), if_pos (by omega), ofNat_eq_index t (by omega)]
  | rawBits c t =>
    have ht := t.isLt
    rw [TableEntry.address, Nat.add_assoc, tableEntry_channel c (by omega), channelEntry,
      if_neg (by omega), if_neg (by omega), if_neg (by omega), if_pos (by omega), ofNat_eq_index t (by omega)]
  | lzLen c j =>
    have hj := j.isLt
    rw [TableEntry.address, Nat.add_assoc, tableEntry_channel c (by omega), channelEntry,
      if_neg (by omega), if_neg (by omega), if_neg (by omega), if_neg (by omega), if_pos (by omega),
      ofNat_eq_index j (by omega)]
  | lzBits c j =>
    have hj := j.isLt
    rw [TableEntry.address, Nat.add_assoc, tableEntry_channel c (by omega), channelEntry,
      if_neg (by omega), if_neg (by omega), if_neg (by omega), if_neg (by omega), if_neg (by omega), if_pos (by omega),
      ofNat_eq_index j (by omega)]

theorem address_of_channelEntry {c : Fin 4} {o : Nat} {e : TableEntry} (h : channelEntry c o = some e) :
    e.address = 0x100 + 0x100 * c.val + o := by
  unfold channelEntry at h
  split_ifs at h <;> cases h <;> simp only [TableEntry.address, Fin.ofNat] <;> omega

theorem address_of_tableEntry {a : Nat} {e : TableEntry} (h : tableEntry a = some e) : e.address = a := by
  unfold tableEntry at h
  split_ifs at h
  on_goal 5 =>
    rw [address_of_channelEntry h]
    simp only [Fin.ofNat]
    omega
  all_goals
    cases h
    simp only [TableEntry.address, Fin.ofNat]
    omega

/-! ## Reading an entry after another is written -/

/-- What is read of a register after a register is written, when the write kept that part of it. -/
theorem State.setReg_part {α : Type} (f : DWord → α) (s : State) (i j : Reg) (v : DWord) (h : j = i → f v = f (s.reg i)) :
    f ((s.setReg i v).reg j) = f (s.reg j) := by
  by_cases hij : j = i
  · rw [hij, State.setReg_reg_self, h hij]
  · rw [State.setReg_reg_ne s i v j hij]

theorem State.setHist_part {α : Type} (f : Hist → α) (s : State) (c d : Chan) (v : Hist) (h : d = c → f v = f (s.hist c)) :
    f ((s.setHist c v).hist d) = f (s.hist d) := by
  by_cases hcd : d = c
  · rw [hcd, State.setHist_hist_self, h hcd]
  · rw [State.setHist_hist_ne s c v d hcd]

theorem State.setCode_part {α : Type} (f : Code → α) (s : State) (c d : Chan) (v : Code) (h : d = c → f v = f (s.code c)) :
    f ((s.setCode c v).code d) = f (s.code d) := by
  by_cases hcd : d = c
  · rw [hcd, State.setCode_code_self, h hcd]
  · rw [State.setCode_code_ne s c v d hcd]

theorem getElem_set_of_ne {α : Type} {n : Nat} (v : Vector α n) {i j : Fin n} (x : α) (h : i ≠ j) : (v.set i x)[j] = v[j] :=
  Vector.getElem_set_ne i.isLt j.isLt fun hij => h (Fin.ext hij)

/-- The low bits of a written value, as the entry reads back (R38). -/
theorem setWidth_setWidth_eq_mod (v : Word) {w : Nat} (h : w ≤ 32) :
    (v.setWidth w).setWidth 32 = BitVec.ofNat 32 (v.toNat % 2 ^ w) := by
  refine BitVec.eq_of_toNat_eq ?_
  rw [BitVec.toNat_setWidth_of_le h, BitVec.toNat_setWidth, BitVec.toNat_ofNat]
  exact (Nat.mod_eq_of_lt ((Nat.mod_lt _ (Nat.two_pow_pos w)).trans_le (Nat.pow_le_pow_right (by decide) h))).symm

theorem ofNat_mod_word (v : Word) : BitVec.ofNat 32 (v.toNat % 2 ^ 32) = v := by
  rw [Nat.mod_eq_of_lt v.isLt, BitVec.ofNat_toNat, BitVec.setWidth_eq]

/-- An entry reads back the low bits that were written to it, as many as it is wide. -/
theorem State.readEntry_writeEntry_self (s : State) (v : Word) (e : TableEntry) :
    (s.writeEntry v e).readEntry e = BitVec.ofNat 32 (v.toNat % 2 ^ e.width) := by
  cases e with
  | xLow i =>
    simp only [State.writeEntry, State.readEntry, State.setReg_reg_self, TableEntry.width]
    exact BitVec.extractLsb'_append_eq_right.trans (ofNat_mod_word v).symm
  | xHigh i =>
    simp only [State.writeEntry, State.readEntry, State.setReg_reg_self, TableEntry.width]
    exact BitVec.extractLsb'_append_eq_left.trans (ofNat_mod_word v).symm
  | minlen k =>
    simpa [State.writeEntry, State.readEntry, TableEntry.width] using setWidth_setWidth_eq_mod v (w := 4) (by decide)
  | maxlen k =>
    simpa [State.writeEntry, State.readEntry, TableEntry.width] using setWidth_setWidth_eq_mod v (w := 4) (by decide)
  | hraw c t => simpa [State.writeEntry, State.readEntry, TableEntry.width] using (ofNat_mod_word v).symm
  | hlz c j => simpa [State.writeEntry, State.readEntry, TableEntry.width] using (ofNat_mod_word v).symm
  | rawLen c t =>
    simpa [State.writeEntry, State.readEntry, TableEntry.width] using setWidth_setWidth_eq_mod v (w := 4) (by decide)
  | rawBits c t =>
    simpa [State.writeEntry, State.readEntry, TableEntry.width] using setWidth_setWidth_eq_mod v (w := 16) (by decide)
  | lzLen c j =>
    simpa [State.writeEntry, State.readEntry, TableEntry.width] using setWidth_setWidth_eq_mod v (w := 4) (by decide)
  | lzBits c j =>
    simpa [State.writeEntry, State.readEntry, TableEntry.width] using setWidth_setWidth_eq_mod v (w := 16) (by decide)

/-- Every other entry reads as before: one in another element of the state, in another channel, in another table of the same
channel, or at another index of the same table. -/
theorem State.readEntry_writeEntry_ne (s : State) (v : Word) {d e : TableEntry} (h : d ≠ e) :
    (s.writeEntry v d).readEntry e = s.readEntry e := by
  cases d with
  | xLow i =>
    cases e with
    | xLow j => exact s.setReg_part (·.extractLsb' 0 32) i j _ fun hij => absurd (congrArg TableEntry.xLow hij.symm) h
    | xHigh j => exact s.setReg_part (·.extractLsb' 32 32) i j _ fun _ => BitVec.extractLsb'_append_eq_left
    | _ => rfl
  | xHigh i =>
    cases e with
    | xLow j => exact s.setReg_part (·.extractLsb' 0 32) i j _ fun _ => BitVec.extractLsb'_append_eq_right
    | xHigh j => exact s.setReg_part (·.extractLsb' 32 32) i j _ fun hij => absurd (congrArg TableEntry.xHigh hij.symm) h
    | _ => rfl
  | minlen k =>
    cases e with
    | minlen l => exact congrArg (BitVec.setWidth 32) (getElem_set_of_ne s.minlen _ fun hkl => h (congrArg _ hkl))
    | _ => rfl
  | maxlen k =>
    cases e with
    | maxlen l => exact congrArg (BitVec.setWidth 32) (getElem_set_of_ne s.maxlen _ fun hkl => h (congrArg _ hkl))
    | _ => rfl
  | hraw c t =>
    cases e with
    | hraw d u =>
      exact s.setHist_part (·.raw[u]) c d _ fun hcd => getElem_set_of_ne _ _ fun (htu : t = u) => h (by rw [hcd, htu])
    | hlz d j => exact s.setHist_part (·.lz[j]) c d _ fun _ => rfl
    | _ => rfl
  | hlz c j =>
    cases e with
    | hraw d u => exact s.setHist_part (·.raw[u]) c d _ fun _ => rfl
    | hlz d l =>
      exact s.setHist_part (·.lz[l]) c d _ fun hcd => getElem_set_of_ne _ _ fun (hjl : j = l) => h (by rw [hcd, hjl])
    | _ => rfl
  | rawLen c t =>
    cases e with
    | rawLen d u =>
      exact s.setCode_part (·.rawLen[u].setWidth 32) c d _ fun hcd =>
        congrArg (BitVec.setWidth 32) (getElem_set_of_ne _ _ fun (htu : t = u) => h (by rw [hcd, htu]))
    | rawBits d u => exact s.setCode_part (·.rawBits[u].setWidth 32) c d _ fun _ => rfl
    | lzLen d l => exact s.setCode_part (·.lzLen[l].setWidth 32) c d _ fun _ => rfl
    | lzBits d l => exact s.setCode_part (·.lzBits[l].setWidth 32) c d _ fun _ => rfl
    | _ => rfl
  | rawBits c t =>
    cases e with
    | rawLen d u => exact s.setCode_part (·.rawLen[u].setWidth 32) c d _ fun _ => rfl
    | rawBits d u =>
      exact s.setCode_part (·.rawBits[u].setWidth 32) c d _ fun hcd =>
        congrArg (BitVec.setWidth 32) (getElem_set_of_ne _ _ fun (htu : t = u) => h (by rw [hcd, htu]))
    | lzLen d l => exact s.setCode_part (·.lzLen[l].setWidth 32) c d _ fun _ => rfl
    | lzBits d l => exact s.setCode_part (·.lzBits[l].setWidth 32) c d _ fun _ => rfl
    | _ => rfl
  | lzLen c j =>
    cases e with
    | rawLen d u => exact s.setCode_part (·.rawLen[u].setWidth 32) c d _ fun _ => rfl
    | rawBits d u => exact s.setCode_part (·.rawBits[u].setWidth 32) c d _ fun _ => rfl
    | lzLen d l =>
      exact s.setCode_part (·.lzLen[l].setWidth 32) c d _ fun hcd =>
        congrArg (BitVec.setWidth 32) (getElem_set_of_ne _ _ fun (hjl : j = l) => h (by rw [hcd, hjl]))
    | lzBits d l => exact s.setCode_part (·.lzBits[l].setWidth 32) c d _ fun _ => rfl
    | _ => rfl
  | lzBits c j =>
    cases e with
    | rawLen d u => exact s.setCode_part (·.rawLen[u].setWidth 32) c d _ fun _ => rfl
    | rawBits d u => exact s.setCode_part (·.rawBits[u].setWidth 32) c d _ fun _ => rfl
    | lzLen d l => exact s.setCode_part (·.lzLen[l].setWidth 32) c d _ fun _ => rfl
    | lzBits d l =>
      exact s.setCode_part (·.lzBits[l].setWidth 32) c d _ fun hcd =>
        congrArg (BitVec.setWidth 32) (getElem_set_of_ne _ _ fun (hjl : j = l) => h (by rw [hcd, hjl]))
    | _ => rfl

/-- A write of the table window touches only the elements that have entries. -/
theorem State.writeEntry_frame (s : State) (v : Word) (e : TableEntry) :
    let t := s.writeEntry v e
    t = { s with x := t.x, minlen := t.minlen, maxlen := t.maxlen, hists := t.hists, codes := t.codes } := by
  cases e <;> rfl

theorem State.writeTable_some {s : State} {a : BitVec 12} {v : Word} {e : TableEntry} (h : tableEntry a.toNat = some e) :
    s.writeTable a v = s.writeEntry v e := by
  simp [State.writeTable, h]

theorem State.writeTable_none {s : State} {a : BitVec 12} {v : Word} (h : tableEntry a.toNat = none) :
    s.writeTable a v = s := by
  simp [State.writeTable, h]

/-- Settles O59: by the address table, and by reading each entry after a write of the addressed one. -/
theorem tableWindowReadsBack : Obligations.TableWindowReadsBack := by
  refine ⟨fun a e => ⟨fun h => (address_of_tableEntry h).symm, fun h => h ▸ tableEntry_address e⟩, rfl, fun s v hs => ?_⟩
  refine ⟨hostSees_readReg hs 7, hostSees_readReg hs 8, hostAct_readReg hs 8, s.writeTable s.taddr v,
    hostAct_writeReg_stopped hs (by decide) v, ?_⟩
  cases ha : tableEntry s.taddr.toNat with
  | none =>
    rw [State.writeTable_none ha]
    exact ⟨rfl, fun _ => rfl, fun e => rfl⟩
  | some d =>
    rw [State.writeTable_some ha]
    refine ⟨s.writeEntry_frame v d, nofun, fun e => ?_⟩
    by_cases hde : d = e
    · rw [hde, if_pos rfl, s.readEntry_writeEntry_self]
    · rw [if_neg fun h => hde (Option.some.inj h), s.readEntry_writeEntry_ne v hde]

end Sys2Proof.Machine

/-! SUPPORT. Entries of the line buffers that hold no row are never seen (spec/10_state.md R36, R37, R42 (4)): what does not read
`CUR`, `PREV` and `RES` does the same whatever they hold, and what reads them reads entries that hold a row only. -/

namespace Sys2Proof.Machine

/-! ## The same state with other buffers -/

/-- The contents of `CUR`, `PREV` and `RES`. -/
structure Buffers where
  cur : Vector Row 4
  prev : Vector Row 4
  res : Row

def State.buffers (s : State) : Buffers := ⟨s.cur, s.prev, s.res⟩

/-- The state `s` with the contents `b` in its buffers. -/
def State.withBuffers (b : Buffers) (s : State) : State := { s with cur := b.cur, prev := b.prev, res := b.res }

/-- A flow with the contents `b` in the buffers of its state. -/
def Flow.withBuffers (b : Buffers) : Flow → Flow
  | .go s => .go (s.withBuffers b)
  | .raised f s => .raised f (s.withBuffers b)
  | .stop f => .stop f

/-- An outcome with the contents `b` in the buffers of the next state. -/
def outcomeWithBuffers (b : Buffers) : Host.Outcome State Fault Refusal → Host.Outcome State Fault Refusal
  | .next s => .next (s.withBuffers b)
  | .fault f => .fault f
  | .refused r => .refused r

@[simp] theorem State.withBuffers_params (s : State) (b : Buffers) : (s.withBuffers b).params = s.params := rfl
@[simp] theorem State.withBuffers_seq (s : State) (b : Buffers) : (s.withBuffers b).seq = s.seq := rfl
@[simp] theorem State.withBuffers_pc (s : State) (b : Buffers) : (s.withBuffers b).pc = s.pc := rfl
@[simp] theorem State.withBuffers_cfg (s : State) (b : Buffers) : (s.withBuffers b).cfg = s.cfg := rfl
@[simp] theorem State.withBuffers_xs (s : State) (b : Buffers) : (s.withBuffers b).xs = s.xs := rfl
@[simp] theorem State.withBuffers_nrows (s : State) (b : Buffers) : (s.withBuffers b).nrows = s.nrows := rfl
@[simp] theorem State.withBuffers_resn (s : State) (b : Buffers) : (s.withBuffers b).resn = s.resn := rfl
@[simp] theorem State.withBuffers_reg (s : State) (b : Buffers) (r : Reg) : (s.withBuffers b).reg r = s.reg r := rfl
@[simp] theorem State.withBuffers_writer (s : State) (b : Buffers) (w : Chan) : (s.withBuffers b).writer w = s.writer w := rfl
@[simp] theorem State.withBuffers_runOf (s : State) (b : Buffers) (c : Chan) : (s.withBuffers b).runOf c = s.runOf c := rfl
@[simp] theorem State.withBuffers_hist (s : State) (b : Buffers) (c : Chan) : (s.withBuffers b).hist c = s.hist c := rfl
@[simp] theorem State.withBuffers_code (s : State) (b : Buffers) (c : Chan) : (s.withBuffers b).code c = s.code c := rfl
@[simp] theorem State.withBuffers_stopped (s : State) (b : Buffers) : (s.withBuffers b).stopped = s.stopped := rfl
@[simp] theorem State.withBuffers_inBytes (s : State) (b : Buffers) (a n : Nat) :
    (s.withBuffers b).inBytes a n = s.inBytes a n :=
  State.inBytes_congr (s := s) (t := s.withBuffers b) rfl a n

theorem finish_withBuffers (b : Buffers) (r : Flow) : (r.withBuffers b).finish = outcomeWithBuffers b r.finish := by
  cases r <;> rfl

/-! ## What does not read the buffers -/

/-- The pseudocode `k` does the same whatever the buffers hold, and leaves them as they are. -/
def IgnoresBuffers (k : State → Flow) : Prop := ∀ b s, k (s.withBuffers b) = (k s).withBuffers b

theorem IgnoresBuffers.go {f : State → State} (h : ∀ b s, f (s.withBuffers b) = (f s).withBuffers b) :
    IgnoresBuffers fun s => .go (f s) :=
  fun b s => congrArg Flow.go (h b s)

theorem IgnoresBuffers.andThen {j k : State → Flow} (hj : IgnoresBuffers j) (hk : IgnoresBuffers k) :
    IgnoresBuffers fun s => (j s).andThen k := by
  intro b s
  simp only [hj b s]
  cases j s with
  | go t => exact hk b t
  | raised f t => rfl
  | stop f => rfl

theorem IgnoresBuffers.forEach {α : Type} {body : α → State → Flow} (h : ∀ a, IgnoresBuffers (body a)) (l : List α) :
    IgnoresBuffers (forEach body l) := by
  induction l with
  | nil => exact fun _ _ => rfl
  | cons a l ih => exact (h a).andThen ih

theorem bwWrite_ignoresBuffers (w : Chan) (n v : Nat) : IgnoresBuffers (bwWrite w n v) := by
  intro b s
  have hcursor : (s.withBuffers b).outCursor w = s.outCursor w := rfl
  simp only [bwWrite_eq, State.withBuffers_writer, State.withBuffers_params, hcursor, apply_ite (Flow.withBuffers b)]
  rfl

theorem bwWrites_ignoresBuffers (w : Chan) (l : List (Nat × Nat)) : IgnoresBuffers (bwWrites w l) :=
  .forEach (fun p : Nat × Nat => bwWrite_ignoresBuffers w p.1 p.2) l

theorem writemEntry_ignoresBuffers (w : Chan) (A B n : Nat) : IgnoresBuffers (writemEntry w A B n) := by
  intro b s
  simp only [writemEntry, memRead_eq, State.withBuffers_params, State.withBuffers_inBytes, bwWrite_ignoresBuffers w _ _ b s,
    apply_ite (Flow.withBuffers b)]
  rfl

theorem emitRaw_ignoresBuffers (mode : Mode) (c : Chan) (v : Word) : IgnoresBuffers (emitRaw mode c v) := by
  intro b s
  cases mode with
  | count =>
    simp only [emitRaw, State.withBuffers_hist, apply_ite (Flow.withBuffers b)]
    rfl
  | emit =>
    simp only [emitRaw, State.withBuffers_code, bwWrites_ignoresBuffers c _ b s, apply_ite (Flow.withBuffers b)]
    rfl

theorem flushRun_ignoresBuffers (mode : Mode) (c : Chan) (N : Nat) : IgnoresBuffers (flushRun mode c N) := by
  intro b s
  cases mode with
  | count =>
    simp only [flushRun, State.withBuffers_hist, apply_ite (Flow.withBuffers b)]
    rfl
  | emit =>
    simp only [flushRun, State.withBuffers_code, bwWrites_ignoresBuffers c _ b s, apply_ite (Flow.withBuffers b)]
    rfl

theorem clearRun_ignoresBuffers (c : Chan) : IgnoresBuffers fun s => .go (s.setRun c 0) := .go fun _ _ => rfl

theorem tokChunk_ignoresBuffers (mode : Mode) (c : Chan) (r : List Word) : IgnoresBuffers (tokChunk mode c r) := by
  have raws := IgnoresBuffers.forEach (emitRaw_ignoresBuffers mode c)
  intro b s
  have flush := (flushRun_ignoresBuffers mode c ((s.runOf c).toNat + leadingZeros r)).andThen
    ((raws (r.drop (leadingZeros r))).andThen (clearRun_ignoresBuffers c)) b s
  simp only [tokChunk, State.withBuffers_runOf, apply_ite (Flow.withBuffers b), raws r b s, flush]
  rfl

theorem finalize_ignoresBuffers (mode : Mode) (c : Chan) : IgnoresBuffers (finalize mode c) := by
  refine IgnoresBuffers.andThen (fun b s => ?_) (clearRun_ignoresBuffers c)
  simp only [State.withBuffers_runOf, apply_ite (Flow.withBuffers b), flushRun_ignoresBuffers mode c _ b s]
  rfl

/-- A command whose pseudocode ignores the buffers ignores them. -/
theorem IgnoresBuffers.finish {k : State → Flow} (h : IgnoresBuffers k) (b : Buffers) (s : State) :
    (k (s.withBuffers b)).finish = outcomeWithBuffers b (k s).finish := by
  rw [h b s, finish_withBuffers]

theorem execLoop_withBuffers (r : Reg) (off : BitVec 16) (b : Buffers) (s : State) :
    execLoop r off (s.withBuffers b) = outcomeWithBuffers b (execLoop r off s) := by
  simp only [execLoop, State.withBuffers_reg, State.withBuffers_pc, apply_ite (outcomeWithBuffers b)]
  rfl

theorem execBwInit_withBuffers (w : Chan) (x y : Reg) (b : Buffers) (s : State) :
    execBwInit w x y (s.withBuffers b) = outcomeWithBuffers b (execBwInit w x y s) := by
  simp only [execBwInit, State.withBuffers_reg, State.withBuffers_params, apply_ite (outcomeWithBuffers b)]
  rfl

theorem execBwZpad_withBuffers (w : Chan) (b : Buffers) (s : State) :
    execBwZpad w (s.withBuffers b) = outcomeWithBuffers b (execBwZpad w s) := by
  simp only [execBwZpad, ← finish_withBuffers, State.withBuffers_writer, bwWrite_ignoresBuffers w _ _ b s,
    apply_ite (Flow.withBuffers b)]
  rfl

theorem execBwWritem_withBuffers (w : Chan) (n : BitVec 16) (x y : Reg) (b : Buffers) (s : State) :
    execBwWritem w n x y (s.withBuffers b) = outcomeWithBuffers b (execBwWritem w n x y s) := by
  have entries := fun A B => (IgnoresBuffers.forEach (writemEntry_ignoresBuffers w A B) (List.range n.toNat)).finish b s
  simp only [execBwWritem, State.withBuffers_reg, State.withBuffers_params, entries, apply_ite (outcomeWithBuffers b)]
  rfl

theorem execPcBuild_withBuffers (c : Chan) (b : Buffers) (s : State) :
    execPcBuild c (s.withBuffers b) = outcomeWithBuffers b (execPcBuild c s) := by
  have hlen : (s.withBuffers b).buildLengths c = s.buildLengths c := rfl
  unfold execPcBuild
  rw [hlen]
  cases s.buildLengths c <;> rfl

theorem execPcSerial_withBuffers (c w : Chan) (b : Buffers) (s : State) :
    execPcSerial c w (s.withBuffers b) = outcomeWithBuffers b (execPcSerial c w s) := by
  unfold execPcSerial
  rw [State.withBuffers_code]
  cases serialWrites (s.code c).combined with
  | error f => rfl
  | ok l => exact (bwWrites_ignoresBuffers w l).finish b s

/-- The commands that begin, load, predict or tokenize a row. -/
def usesRows : Instr → Bool
  | .prStart _ | .prLoad _ | .prPred _ | .tkRowc _ | .tkRowe _ => true
  | _ => false

/-- Every other command does the same whatever the buffers hold. -/
theorem exec_withBuffers {i : Instr} (hi : usesRows i = false) (b : Buffers) (s : State) :
    exec i (s.withBuffers b) = outcomeWithBuffers b (exec i s) := by
  cases i with
  | prStart _ | prLoad _ | prPred _ | tkRowc _ | tkRowe _ => exact Bool.noConfusion hi
  | nop | halt | liK _ _ _ | liZ _ _ _ | addi _ _ | pcHclr _ => rfl
  | loop r off => exact execLoop_withBuffers r off b s
  | bwInit w x y => exact execBwInit_withBuffers w x y b s
  | bwWrite w n r => exact (bwWrite_ignoresBuffers w _ _).finish b s
  | bwZpad w => exact execBwZpad_withBuffers w b s
  | bwWritem w n x y => exact execBwWritem_withBuffers w n x y b s
  | pcBuild c => exact execPcBuild_withBuffers c b s
  | pcSerial c w => exact execPcSerial_withBuffers c w b s
  | tkFinc c => exact (finalize_ignoresBuffers .count c).finish b s
  | tkFine c => exact (finalize_ignoresBuffers .emit c).finish b s

/-! ## States that differ in stale entries -/

theorem SameButStale.eq_withBuffers {s t : State} (h : SameButStale s t) : t = s.withBuffers t.buffers := h.rest

theorem SameButStale.refl (s : State) : SameButStale s s := ⟨rfl, fun _ _ _ _ => rfl, fun _ _ _ _ => rfl, fun _ _ => rfl⟩

/-- What keeps the predictor's state keeps which entries are stale. -/
theorem SameButStale.of_samePredictor {s t s' : State} (h : SameButStale s t) (hp : SamePredictor s s') :
    SameButStale s' (s'.withBuffers t.buffers) where
  rest := rfl
  cur hn c i hi := by
    rw [hp.nrows] at hn
    rw [hp.xs] at hi
    rw [hp.cur]
    exact h.cur hn c i hi
  prev hn c i hi := by
    rw [hp.nrows] at hn
    rw [hp.xs] at hi
    rw [hp.prev]
    exact h.prev hn c i hi
  res i hi := by
    rw [hp.resn] at hi
    rw [hp.res]
    exact h.res i hi

/-- When no row is loaded and `RES` is empty, every entry is stale. -/
theorem SameButStale.of_empty {s : State} (hn : s.nrows = 0) (hr : s.resn = 0) (b : Buffers) :
    SameButStale s (s.withBuffers b) where
  rest := rfl
  cur h := absurd hn h
  prev h := absurd (hn.symm.trans h) (by decide)
  res i hi := by simp [hr] at hi

/-- Something that does the same whatever the buffers hold, and keeps the predictor's state, keeps the relation. -/
theorem SameButStale.outcome {s₁ s₂ t₁ : State} {o₁ o₂ : Host.Outcome State Fault Refusal} (h : SameButStale s₁ s₂)
    (ho : o₂ = outcomeWithBuffers s₂.buffers o₁) (ht : o₁ = .next t₁) (hp : SamePredictor s₁ t₁) :
    ∃ t₂, o₂ = .next t₂ ∧ SameButStale t₁ t₂ :=
  ⟨t₁.withBuffers s₂.buffers, by rw [ho, ht]; rfl, h.of_samePredictor hp⟩

theorem samePredictor_raiseFault (s : State) (f : FaultName) : SamePredictor s (s.raiseFault f) := ⟨rfl, rfl, rfl, rfl, rfl, rfl⟩

theorem SameButStale.raiseFault {s₁ s₂ t₁ : State} {f : FaultName} (h : SameButStale s₁ s₂)
    (ht : (.next (s₁.raiseFault f) : Host.Outcome State Fault Refusal) = .next t₁) :
    ∃ t₂, (.next (s₂.raiseFault f) : Host.Outcome State Fault Refusal) = .next t₂ ∧ SameButStale t₁ t₂ :=
  h.outcome (congrArg (Host.Outcome.next <| State.raiseFault f ·) h.eq_withBuffers) ht
    (by cases ht; exact samePredictor_raiseFault s₁ f)

theorem SameButStale.advance {s t : State} (h : SameButStale s t) : SameButStale s.advance t.advance :=
  ⟨by rw [h.eq_withBuffers]; rfl, h.cur, h.prev, h.res⟩

/-- Commands that neither begin a group nor load or predict a row keep the predictor's state. -/
theorem WritesOnlyNamed.samePredictor {i : Instr} {s t : State} (h : WritesOnlyNamed i s t) (hstart : ∀ len, i ≠ .prStart len)
    (hload : ∀ a, i ≠ .prLoad a) (hpred : ∀ c, i ≠ .prPred c) : SamePredictor s t where
  xs := by_contra fun hne => (h.xs hne).elim hstart
  nrows := by_contra fun hne => (h.nrows hne).elim (·.elim hstart) (·.elim hload)
  cur := by_contra fun hne => (h.rows (.inl hne)).elim hload
  prev := by_contra fun hne => (h.rows (.inr hne)).elim hload
  res := by_contra fun hne => (h.res hne).elim hpred
  resn := by_contra fun hne => (h.resn hne).elim (·.elim hstart) (·.elim hpred)

/-! ## The commands of the predictor -/

theorem execPrStart_stale {len : BitVec 16} {s₁ s₂ t₁ : State} (h : SameButStale s₁ s₂) (ht : execPrStart len s₁ = .next t₁) :
    ∃ t₂, execPrStart len s₂ = .next t₂ ∧ SameButStale t₁ t₂ := by
  unfold execPrStart at ht ⊢
  split at ht
  · next hlen => rw [dif_pos hlen]; exact h.raiseFault ht
  · next hlen =>
    rw [dif_neg hlen, h.eq_withBuffers]
    cases ht
    exact ⟨_, rfl, .of_empty rfl rfl _⟩

theorem nextRows_eq_two {n : Fin 3} (h : nextRows n = 2) : n ≠ 0 := by
  rintro rfl
  exact absurd h (by decide)

/-- What `PR.LOAD` of the row at `A` makes of the predictor's state (R204). -/
def State.loaded (A : Nat) (s : State) : State :=
  s.loadRow (Vector.ofFn fun c : Fin 4 => Row.fill (s.pixel A c) s.xs.val s.cur[c])
    (Vector.ofFn fun c : Fin 4 => Row.fill (Row.at s.cur[c]) s.xs.val s.prev[c]) (nextRows s.nrows)

/-- The row that `PR.LOAD` names does not lie in IN (R204). -/
def State.loadOutOfRange (a : Reg) (s : State) : Bool :=
  !isAddress (s.reg a) ||
    decide ((s.reg a).toNat + s.xs.val * s.cfg.nc.toNat * sampleBytes s.cfg.bps > s.params.inBytes.val)

theorem execPrLoad_eq (a : Reg) (s : State) :
    execPrLoad a s =
      if s.cfgInvalid then .next (s.raiseFault .cfgInvalid)
      else if s.loadOutOfRange a then .next (s.raiseFault .memRange)
      else .next (s.loaded (s.reg a).toNat).advance := rfl

theorem State.loaded_cur (A : Nat) (s : State) (c : Chan) {i : Nat} (hi : i < s.xs.val) :
    Row.at (s.loaded A).cur[c] i = s.pixel A c i := by
  have hxs : s.xs.val ≤ 256 := Nat.le_of_lt_succ s.xs.isLt
  simp only [State.loaded, State.loadRow_cur, Fin.getElem_fin, Vector.getElem_ofFn, Row.at_fill _ _ _ _ hxs, if_pos hi]

theorem State.loaded_prev (A : Nat) (s : State) (c : Chan) {i : Nat} (hi : i < s.xs.val) :
    Row.at (s.loaded A).prev[c] i = Row.at s.cur[c] i := by
  have hxs : s.xs.val ≤ 256 := Nat.le_of_lt_succ s.xs.isLt
  simp only [State.loaded, State.loadRow_prev, Fin.getElem_fin, Vector.getElem_ofFn, Row.at_fill _ _ _ _ hxs, if_pos hi]

theorem State.withBuffers_pixel (b : Buffers) (s : State) (A : Nat) (c : Chan) (p : Nat) :
    (s.withBuffers b).pixel A c p = s.pixel A c p := by
  simp only [State.pixel, State.sample, State.withBuffers_cfg, State.withBuffers_inBytes]

/-- A load fills what is in use: `CUR` from IN, and `PREV` from the entries of `CUR` that held a row. -/
theorem SameButStale.loaded {s : State} {b : Buffers} (h : SameButStale s (s.withBuffers b)) (A : Nat) :
    SameButStale (s.loaded A) ((s.withBuffers b).loaded A) where
  rest := rfl
  cur _ c i hi := by
    rw [State.loaded_cur A s c hi, State.loaded_cur A (s.withBuffers b) c hi, State.withBuffers_pixel]
  prev hn c i hi := by
    rw [State.loaded_prev A s c hi, State.loaded_prev A (s.withBuffers b) c hi]
    exact h.cur (nextRows_eq_two hn) c i hi
  res := h.res

theorem execPrLoad_stale {a : Reg} {s₁ s₂ t₁ : State} (h : SameButStale s₁ s₂) (ht : execPrLoad a s₁ = .next t₁) :
    ∃ t₂, execPrLoad a s₂ = .next t₂ ∧ SameButStale t₁ t₂ := by
  obtain ⟨b, rfl⟩ : ∃ b, s₂ = s₁.withBuffers b := ⟨_, h.eq_withBuffers⟩
  have hcfg : (s₁.withBuffers b).cfgInvalid = s₁.cfgInvalid := rfl
  have hrange : (s₁.withBuffers b).loadOutOfRange a = s₁.loadOutOfRange a := rfl
  rw [execPrLoad_eq] at ht ⊢
  rw [hcfg, hrange]
  split at ht
  · next hbad => rw [if_pos hbad]; exact h.raiseFault ht
  · next hbad =>
    rw [if_neg hbad]
    split at ht
    · next hout => rw [if_pos hout]; exact h.raiseFault ht
    · next hout =>
      rw [if_neg hout]
      cases ht
      exact ⟨_, rfl, (h.loaded _).advance⟩

/-- The neighbours of a pixel of the row are entries that hold a row (R205). -/
theorem neighbours_congr {rows : Fin 3} {cur prev cur' prev' : Row} {x : Nat} (hcur : ∀ i, i ≤ x → cur'.at i = cur.at i)
    (hprev : rows = 2 → ∀ i, i ≤ x → prev'.at i = prev.at i) : neighbours rows cur' prev' x = neighbours rows cur prev x := by
  unfold neighbours
  split
  · next h2 =>
    rw [hcur (x - 1) (Nat.sub_le x 1), hprev h2 0 (Nat.zero_le x), hprev h2 x (Nat.le_refl x), hprev h2 (x - 1) (Nat.sub_le x 1)]
  · rw [hcur (x - 1) (Nat.sub_le x 1)]

theorem SameButStale.residualAt {s t : State} (h : SameButStale s t) (hn : s.nrows ≠ 0) (c : Chan) {x : Nat}
    (hx : x < s.xs.val) : t.residualAt c x = s.residualAt c x := by
  have hcur : ∀ i, i ≤ x → Row.at t.cur[c] i = Row.at s.cur[c] i := fun i hi => h.cur hn c i (hi.trans_lt hx)
  have hprev : s.nrows = 2 → ∀ i, i ≤ x → Row.at t.prev[c] i = Row.at s.prev[c] i :=
    fun h2 i hi => h.prev h2 c i (hi.trans_lt hx)
  have hrows : t.nrows = s.nrows := by rw [h.eq_withBuffers, State.withBuffers_nrows]
  simp only [State.residualAt]
  rw [hrows, neighbours_congr hcur hprev, hcur x (Nat.le_refl x)]

/-- The residuals of the row are made from entries that hold a row. -/
theorem SameButStale.setResiduals {s : State} {b : Buffers} (h : SameButStale s (s.withBuffers b)) (hn : s.nrows ≠ 0)
    (c : Chan) :
    SameButStale (s.setResiduals (Row.fill (s.residualAt c) s.xs.val s.res) s.xs)
      ((s.withBuffers b).setResiduals (Row.fill ((s.withBuffers b).residualAt c) s.xs.val b.res) s.xs) where
  rest := rfl
  cur := h.cur
  prev := h.prev
  res i hi := by
    have hxs : s.xs.val ≤ 256 := Nat.le_of_lt_succ s.xs.isLt
    simp only [State.setResiduals_resn, State.setResiduals_res] at hi ⊢
    rw [Row.at_fill _ _ _ _ hxs, Row.at_fill _ _ _ _ hxs, if_pos hi, if_pos hi, h.residualAt hn c hi]

theorem execPrPred_stale {c : Chan} {s₁ s₂ t₁ : State} (h : SameButStale s₁ s₂) (ht : execPrPred c s₁ = .next t₁) :
    ∃ t₂, execPrPred c s₂ = .next t₂ ∧ SameButStale t₁ t₂ := by
  obtain ⟨b, rfl⟩ : ∃ b, s₂ = s₁.withBuffers b := ⟨_, h.eq_withBuffers⟩
  unfold execPrPred at ht ⊢
  rw [State.withBuffers_cfg, State.withBuffers_nrows]
  split at ht
  · next hch => rw [if_pos hch]; exact h.raiseFault ht
  · next hch =>
    rw [if_neg hch]
    split at ht
    · next hrow => rw [if_pos hrow]; exact h.raiseFault ht
    · next hrow =>
      rw [if_neg hrow]
      cases ht
      exact ⟨_, rfl, (h.setResiduals hrow c).advance⟩

/-! ## The commands that read `RES` -/

/-- The residual row is made of entries below `RESN` (R236). -/
theorem SameButStale.residuals {s t : State} (h : SameButStale s t) : t.residuals = s.residuals := by
  have hresn : t.resn = s.resn := by rw [h.eq_withBuffers, State.withBuffers_resn]
  refine List.ext_getElem (by rw [State.residuals_length, State.residuals_length, hresn]) fun i hi _ => ?_
  rw [State.residuals_length, hresn] at hi
  have hsize : i < 256 := hi.trans_le (Nat.le_of_lt_succ s.resn.isLt)
  have hat := h.res i hi
  simp only [Row.at, entry_eq _ hsize] at hat
  simpa only [State.residuals, List.getElem_take, Vector.getElem_toList] using hat

theorem SameButStale.tokRow {s t : State} (h : SameButStale s t) (mode : Mode) (c : Chan) :
    (tokRow mode c t).finish = outcomeWithBuffers t.buffers (tokRow mode c s).finish := by
  have chunks_row := (IgnoresBuffers.forEach (tokChunk_ignoresBuffers mode c) (chunks 16 s.residuals)).finish t.buffers s
  rw [← h.eq_withBuffers] at chunks_row
  rwa [Machine.tokRow, Machine.tokRow, h.residuals]

/-! ## Every step -/

/-- A command does to the states that differ in stale entries the same, but for stale entries. -/
theorem exec_stale {i : Instr} {s₁ s₂ t₁ : State} (h : SameButStale s₁ s₂) (ht : exec i s₁ = .next t₁) :
    ∃ t₂, exec i s₂ = .next t₂ ∧ SameButStale t₁ t₂ := by
  have frame := (exec_ends ht).writesOnlyNamed.samePredictor
  have ignoring : usesRows i = false → SamePredictor s₁ t₁ → ∃ t₂, exec i s₂ = .next t₂ ∧ SameButStale t₁ t₂ := fun hi hp =>
    h.outcome ((congrArg (exec i) h.eq_withBuffers).trans (exec_withBuffers hi _ s₁)) ht hp
  cases i with
  | prStart len => exact execPrStart_stale h ht
  | prLoad a => exact execPrLoad_stale h ht
  | prPred c => exact execPrPred_stale h ht
  | tkRowc c => exact h.outcome (h.tokRow .count c) ht (frame nofun nofun nofun)
  | tkRowe c => exact h.outcome (h.tokRow .emit c) ht (frame nofun nofun nofun)
  | _ => exact ignoring rfl (frame nofun nofun nofun)

theorem step_stale {s₁ s₂ t₁ : State} (h : SameButStale s₁ s₂) (ht : step s₁ = .next t₁) :
    ∃ t₂, step s₂ = .next t₂ ∧ SameButStale t₁ t₂ := by
  have hseq : s₂.seq = s₁.seq := by rw [h.eq_withBuffers, State.withBuffers_seq]
  have hfetch : fetchDecode s₂ = fetchDecode s₁ := by rw [h.eq_withBuffers]; rfl
  unfold step at ht ⊢
  rw [hseq, hfetch]
  cases hs : s₁.seq with
  | run =>
    simp only [hs] at ht ⊢
    cases hf : fetchDecode s₁ with
    | error f => simp only [hf] at ht ⊢; exact h.raiseFault ht
    | ok i => simp only [hf] at ht ⊢; exact exec_stale h ht
  | _ =>
    simp only [hs] at ht ⊢
    cases ht
    exact ⟨s₂, rfl, h⟩

/-! ## The host -/

/-- No move of the host reads a buffer. -/
theorem hostSees_withBuffers (m : HostMove) (b : Buffers) (s : State) : hostSees m (s.withBuffers b) = hostSees m s := by
  cases m with
  | readByte sp a => cases sp <;> rfl
  | _ => rfl

/-- The moves that reset the block (R25, R300). -/
def HostMove.resets (m : HostMove) : Prop := m = .hardReset ∨ ∃ v : Word, v.getLsbD 1 = true ∧ m = .writeReg 0 v

theorem HostMove.resets.act {m : HostMove} (h : m.resets) (s : State) : hostAct m s = .next s.softReset := by
  rcases h with rfl | ⟨v, hv, rfl⟩
  · rfl
  · exact hostAct_reset hv (.inr rfl)

/-- The update `f` does the same whatever the buffers hold, and keeps the predictor's state. -/
def SparesPredictor (f : State → State) : Prop :=
  (∀ b s, f (s.withBuffers b) = (f s).withBuffers b) ∧ ∀ s, SamePredictor s (f s)

theorem sparesPredictor_writeEntry (v : Word) (e : TableEntry) : SparesPredictor fun s => s.writeEntry v e := by
  refine ⟨fun b s => ?_, fun s => ?_⟩
  · cases e <;> rfl
  · cases e <;> exact ⟨rfl, rfl, rfl, rfl, rfl, rfl⟩

theorem sparesPredictor_id : SparesPredictor fun s => s := ⟨fun _ _ => rfl, fun _ => ⟨rfl, rfl, rfl, rfl, rfl, rfl⟩⟩

theorem sparesPredictor_writeTable (a : BitVec 12) (v : Word) : SparesPredictor fun s => s.writeTable a v := by
  cases ha : tableEntry a.toNat with
  | none => simpa only [State.writeTable_none ha] using sparesPredictor_id
  | some e => simpa only [State.writeTable_some ha] using sparesPredictor_writeEntry v e

theorem sparesPredictor_writeStopped (n : BitVec 6) (v : Word) : SparesPredictor fun s => s.writeStopped n v := by
  refine ⟨fun b s => ?_, fun s => ?_⟩ <;> simp only [State.writeStopped]
  · split
    · rfl
    split
    · rfl
    split
    · rfl
    split
    · exact (sparesPredictor_writeTable s.taddr v).1 b s
    · rfl
  · split
    · exact ⟨rfl, rfl, rfl, rfl, rfl, rfl⟩
    split
    · exact ⟨rfl, rfl, rfl, rfl, rfl, rfl⟩
    split
    · exact ⟨rfl, rfl, rfl, rfl, rfl, rfl⟩
    split
    · exact (sparesPredictor_writeTable s.taddr v).2 s
    · exact ⟨rfl, rfl, rfl, rfl, rfl, rfl⟩

theorem SparesPredictor.ite {p : State → Bool} (hp : ∀ b s, p (s.withBuffers b) = p s) {f g : State → State}
    (hf : SparesPredictor f) (hg : SparesPredictor g) : SparesPredictor fun s => if p s then f s else g s := by
  refine ⟨fun b s => ?_, fun s => ?_⟩
  · simp only [hp b s]
    split
    · exact hf.1 b s
    · exact hg.1 b s
  · simp only
    split
    · exact hf.2 s
    · exact hg.2 s

theorem sparesPredictor_afterRead (n : BitVec 6) : SparesPredictor fun s => s.afterRead n :=
  .ite (fun _ _ => rfl) sparesPredictor_id ⟨fun _ _ => rfl, fun _ => ⟨rfl, rfl, rfl, rfl, rfl, rfl⟩⟩

/-- A register write that does not reset the block. -/
theorem sparesPredictor_writeRegister {n : BitVec 6} {v : Word} (h : ¬ (HostMove.writeReg n v).resets) :
    SparesPredictor fun s => s.writeRegister n v := by
  by_cases hn : n = 0
  · have hv : v.getLsbD 1 = false := by
      by_contra hv
      exact h (.inr ⟨v, by simpa using hv, by rw [hn]⟩)
    simp only [State.writeRegister, if_pos hn, State.writeCtrl_of_not_reset _ hv]
    exact ⟨fun _ _ => rfl, fun _ => ⟨rfl, rfl, rfl, rfl, rfl, rfl⟩⟩
  · simp only [State.writeRegister, if_neg hn]
    exact .ite (fun _ _ => rfl) (sparesPredictor_writeStopped n v) sparesPredictor_id

theorem sparesPredictor_setMemory (f : State → Memory) (hf : ∀ b s, f (s.withBuffers b) = f s) (sp : Config.Space) :
    SparesPredictor fun s => s.setMemory (f s) sp := by
  refine ⟨fun b s => ?_, fun s => ?_⟩
  · simp only [hf b s]
    cases sp <;> rfl
  · cases sp <;> exact ⟨rfl, rfl, rfl, rfl, rfl, rfl⟩

/-- The same result in the states that differ in stale entries, but for stale entries. -/
theorem SameButStale.spared {s₁ s₂ t₁ : State} {f : State → State} (h : SameButStale s₁ s₂) (hf : SparesPredictor f)
    (ht : (.next (f s₁) : Host.Outcome State Fault Refusal) = .next t₁) :
    ∃ t₂, (.next (f s₂) : Host.Outcome State Fault Refusal) = .next t₂ ∧ SameButStale t₁ t₂ := by
  cases ht
  refine ⟨f s₂, rfl, ?_⟩
  rw [h.eq_withBuffers, hf.1]
  exact h.of_samePredictor (hf.2 s₁)

theorem SameButStale.hostAccess {s₁ s₂ t₁ : State} {f : State → State} (h : SameButStale s₁ s₂) (hf : SparesPredictor f)
    {sp : Config.Space} {a n : Nat} (ht : s₁.hostAccess sp a n (fun s => .next (f s)) = .next t₁) :
    ∃ t₂, s₂.hostAccess sp a n (fun s => .next (f s)) = .next t₂ ∧ SameButStale t₁ t₂ := by
  have hstopped : s₂.stopped = s₁.stopped := by rw [h.eq_withBuffers, State.withBuffers_stopped]
  have hparams : s₂.params = s₁.params := by rw [h.eq_withBuffers, State.withBuffers_params]
  unfold State.hostAccess at ht ⊢
  rw [hstopped, hparams]
  split at ht
  · cases ht
  · next hrun =>
    rw [if_neg hrun]
    split at ht
    · cases ht
    · next hrange =>
      rw [if_neg hrange]
      exact h.spared hf ht

theorem hostAct_stale {m : HostMove} {s₁ s₂ t₁ : State} (h : SameButStale s₁ s₂) (ht : hostAct m s₁ = .next t₁) :
    ∃ t₂, hostAct m s₂ = .next t₂ ∧ SameButStale t₁ t₂ := by
  by_cases hm : m.resets
  · have hreset : s₂.softReset = s₁.softReset := by rw [h.eq_withBuffers]; rfl
    rw [hm.act s₁] at ht
    rw [hm.act s₂, hreset]
    cases ht
    exact ⟨_, rfl, .refl _⟩
  · cases m with
    | readReg n => exact h.spared (sparesPredictor_afterRead n) ht
    | writeReg n v => exact h.spared (sparesPredictor_writeRegister hm) ht
    | readByte sp a => exact h.hostAccess sparesPredictor_id ht
    | writeByte sp a v =>
      have spares := sparesPredictor_setMemory (fun s => Memory.put (s.memory sp) a v) (fun b s => by cases sp <;> rfl) sp
      exact h.hostAccess spares ht
    | readCmd a => exact h.hostAccess sparesPredictor_id ht
    | writeCmd a v => exact h.hostAccess (sparesPredictor_setMemory (fun s => cmdWithWord s.cmd a v) (fun _ _ => rfl) .cmd) ht
    | hardReset => exact absurd (.inl rfl) hm

/-- Settles O37: for steps command by command, for the host move by move. -/
theorem staleEntriesAreNeverSeen : Obligations.StaleEntriesAreNeverSeen := by
  intro s₁ s₂ h
  refine ⟨fun t₁ ht => step_stale h ht, fun m => ⟨?_, fun t₁ ht => hostAct_stale h ht⟩⟩
  rw [h.eq_withBuffers, hostSees_withBuffers]

end Sys2Proof.Machine

/-! SUPPORT. The memories as the host and the commands see them (spec/20_memory.md): samples of IN, and the host's access to bytes
and CMD words. -/

namespace Sys2Proof.Machine

/-! ## Samples, R65 and R74 -/

/-- The place value of the next byte. -/
theorem placeValue_succ (n : Nat) : 2 ^ (8 * (n + 1)) = 256 * 2 ^ (8 * n) := by
  rw [Nat.mul_succ, Nat.pow_add, Nat.mul_comm]

/-- One byte more at the most significant end. -/
theorem leValue_append_singleton (l : List Byte) (b : Byte) : leValue (l ++ [b]) = leValue l + b.toNat * 2 ^ (8 * l.length) := by
  induction l with
  | nil => simp [leValue]
  | cons c l ih =>
    simp only [List.cons_append, leValue, ih, List.length_cons, placeValue_succ]
    ring

theorem leValue_lt (l : List Byte) : leValue l < 2 ^ (8 * l.length) := by
  induction l with
  | nil => simp [leValue]
  | cons b l ih =>
    have hb := b.isLt
    simp only [leValue, List.length_cons, placeValue_succ]
    omega

theorem sampleValue_lt (be : Bool) (l : List Byte) : sampleValue be l < 2 ^ (8 * l.length) := by
  cases be with
  | false => exact leValue_lt l
  | true => simpa [sampleValue] using leValue_lt l.reverse

/-- Least significant first, the byte at `a + i` counts `2^(8i)`. -/
theorem leValue_inBytes (s : State) (a n : Nat) :
    leValue (s.inBytes a n) = ((List.range n).map fun i => (s.inByte (a + i)).toNat * 2 ^ (8 * i)).sum := by
  induction n generalizing a with
  | zero => rfl
  | succ n ih =>
    have tail (i : Nat) : (s.inByte (a + (i + 1))).toNat * 2 ^ (8 * (i + 1)) =
        256 * ((s.inByte (a + 1 + i)).toNat * 2 ^ (8 * i)) := by
      rw [show a + (i + 1) = a + 1 + i by omega, placeValue_succ]
      ring
    simp [State.inBytes, leValue, ih, List.range_succ_eq_map, Function.comp_def, tail, List.sum_map_mul_left]

/-- Most significant first, the byte at `a + i` of `n` bytes counts `2^(8(n-1-i))`. -/
theorem leValue_inBytes_reverse (s : State) (a n : Nat) :
    leValue (s.inBytes a n).reverse = ((List.range n).map fun i => (s.inByte (a + i)).toNat * 2 ^ (8 * (n - 1 - i))).sum := by
  induction n generalizing a with
  | zero => rfl
  | succ n ih =>
    have tail (i : Nat) : (s.inByte (a + (i + 1))).toNat * 2 ^ (8 * (n - (i + 1))) =
        (s.inByte (a + 1 + i)).toNat * 2 ^ (8 * (n - 1 - i)) := by
      rw [show a + (i + 1) = a + 1 + i by omega, show n - (i + 1) = n - 1 - i by omega]
    simp [State.inBytes, leValue_append_singleton, ih, List.range_succ_eq_map, Function.comp_def, tail, Nat.add_comm]

theorem sampleBytes_le_four (bps : BitVec 6) : sampleBytes bps ≤ 4 := by
  unfold sampleBytes
  split_ifs <;> decide

/-- No sample is cut: at most four bytes fit in 32 bits. -/
theorem State.sample_toNat (s : State) (A p c : Nat) :
    (s.sample A p c).toNat = sampleValue s.cfg.be
      (s.inBytes (A + (p * s.cfg.nc.toNat + c) * sampleBytes s.cfg.bps) (sampleBytes s.cfg.bps)) := by
  have hlt := sampleValue_lt s.cfg.be
    (s.inBytes (A + (p * s.cfg.nc.toNat + c) * sampleBytes s.cfg.bps) (sampleBytes s.cfg.bps))
  rw [State.inBytes_length] at hlt
  have h4 := sampleBytes_le_four s.cfg.bps
  rw [State.sample, BitVec.toNat_ofNat]
  exact Nat.mod_eq_of_lt (hlt.trans_le (Nat.pow_le_pow_right (by decide) (by omega)))

/-- Settles O30, by the place value of each byte in either order. -/
theorem sampleByteOrder : Obligations.SampleByteOrder := by
  intro s A p c
  change (s.sample A p c).toNat = ((List.range (sampleBytes s.cfg.bps)).map _).sum
  rw [s.sample_toNat]
  cases hbe : s.cfg.be with
  | false => exact leValue_inBytes s _ _
  | true => exact leValue_inBytes_reverse s _ _

/-! ## The host's access, R66 -/

theorem State.hostAccess_run {s : State} (h : s.seq = .run) (sp : Config.Space) (a n : Nat)
    (k : State → Host.Outcome State Fault Refusal) : s.hostAccess sp a n k = .refused .hostMemoryWhileRunning := by
  simp [State.hostAccess, State.stopped, h]

theorem State.hostAccess_outside {s : State} (h : s.seq ≠ .run) {sp : Config.Space} {a n : Nat} (ha : s.params.bytes sp < a + n)
    (k : State → Host.Outcome State Fault Refusal) : s.hostAccess sp a n k = .fault .hostAddress := by
  simp [State.hostAccess, State.stopped, h, ha]

theorem State.hostAccess_inside {s : State} (h : s.seq ≠ .run) {sp : Config.Space} {a n : Nat}
    (ha : a + n ≤ s.params.bytes sp) (k : State → Host.Outcome State Fault Refusal) : s.hostAccess sp a n k = k s := by
  simp [State.hostAccess, State.stopped, h, Nat.not_lt.2 ha]

@[simp] theorem State.setMemory_seq (s : State) (m : Memory) (sp : Config.Space) : (s.setMemory m sp).seq = s.seq := by
  cases sp <;> rfl

@[simp] theorem State.setMemory_params (s : State) (m : Memory) (sp : Config.Space) : (s.setMemory m sp).params = s.params := by
  cases sp <;> rfl

/-- The four bytes of CMD word `a` exist when the word does (R61). -/
theorem cmdWord_bytes_le {z : Config.Sizes} {a : Nat} (h : a < z.cmdWords.val) : 4 * a + 4 ≤ z.bytes .cmd := by
  simp only [Config.Sizes.bytes]
  omega

theorem hostAct_writeByte {s : State} (h : s.seq ≠ .run) {sp : Config.Space} {a : Nat} (ha : a < s.params.bytes sp) (v : Byte) :
    hostAct (.writeByte sp a v) s = .next (s.setMemory (Memory.put (s.memory sp) a v) sp) := by
  rw [hostAct, State.hostAccess_inside h ha]

theorem hostAct_readByte {s : State} (h : s.seq ≠ .run) {sp : Config.Space} {a : Nat} (ha : a < s.params.bytes sp) :
    hostAct (.readByte sp a) s = .next s := by
  rw [hostAct, State.hostAccess_inside h ha]

theorem hostAct_writeCmd {s : State} (h : s.seq ≠ .run) {a : Nat} (ha : a < s.params.cmdWords.val) (w : Word) :
    hostAct (.writeCmd a w) s = .next (s.setMemory (cmdWithWord s.cmd a w) .cmd) := by
  rw [hostAct, State.hostAccess_inside h (cmdWord_bytes_le ha)]

theorem hostAct_readCmd {s : State} (h : s.seq ≠ .run) {a : Nat} (ha : a < s.params.cmdWords.val) :
    hostAct (.readCmd a) s = .next s := by
  rw [hostAct, State.hostAccess_inside h (cmdWord_bytes_le ha)]

/-! ## Bytes and words read back -/

theorem hostSees_readByte_setMemory_put (s : State) (sp sp' : Config.Space) (a b : Nat) (v : Byte) :
    hostSees (.readByte sp' b) (s.setMemory (Memory.put (s.memory sp) a v) sp) =
      if sp' = sp ∧ b = a then v.setWidth 32 else hostSees (.readByte sp' b) s := by
  simp only [hostSees, memory_setMemory]
  by_cases hsp : sp' = sp
  · subst hsp
    by_cases hb : b = a
    · simp [hb]
    · simp [hb, Memory.byte_put_ne _ _ _ hb]
  · simp [hsp]

/-- A placed word stands at its four byte addresses, least significant byte first (R61). -/
theorem cmdByte_placed (s : State) (a : Nat) (w : Word) {k : Nat} (hk : k < 4) :
    (s.setMemory (cmdWithWord s.cmd a w) .cmd).cmdByte (4 * a + k) = w.extractLsb' (8 * k) 8 := by
  simp only [State.cmdByte, State.setMemory, Memory.byte, get_cmdWithWord]
  obtain rfl | rfl | rfl | rfl : k = 0 ∨ k = 1 ∨ k = 2 ∨ k = 3 := by omega
  all_goals simp

theorem cmdByte_placed_ne (s : State) {a b : Nat} (w : Word) (hb : b ≠ a) {k : Nat} (hk : k < 4) :
    (s.setMemory (cmdWithWord s.cmd a w) .cmd).cmdByte (4 * b + k) = s.cmdByte (4 * b + k) := by
  have h0 : 4 * b + k ≠ 4 * a := by omega
  have h1 : 4 * b + k ≠ 4 * a + 1 := by omega
  have h2 : 4 * b + k ≠ 4 * a + 2 := by omega
  have h3 : 4 * b + k ≠ 4 * a + 3 := by omega
  simp only [State.cmdByte, State.setMemory, Memory.byte, get_cmdWithWord, if_neg h0, if_neg h1, if_neg h2, if_neg h3]

/-- The word at a word address that exists is made of the four bytes from `4b` up. -/
theorem hostSees_readCmd {s : State} {b : Nat} (hb : b < s.params.cmdWords.val) :
    hostSees (.readCmd b) s =
      wordOfBytes (s.cmdByte (4 * b + 0)) (s.cmdByte (4 * b + 1)) (s.cmdByte (4 * b + 2)) (s.cmdByte (4 * b + 3)) := by
  have hlt : b < 2 ^ 32 := hb.trans s.params.cmdWords.isLt
  simp only [hostSees, State.fetchWord, BitVec.toNat_ofNat, Nat.mod_eq_of_lt hlt, Nat.add_zero]

theorem hostSees_readCmd_placed (s : State) {a : Nat} (ha : a < s.params.cmdWords.val) (w : Word) :
    hostSees (.readCmd a) (s.setMemory (cmdWithWord s.cmd a w) .cmd) = w := by
  rw [hostSees_readCmd (by simpa using ha), cmdByte_placed s a w (k := 0) (by decide), cmdByte_placed s a w (k := 1) (by decide),
    cmdByte_placed s a w (k := 2) (by decide), cmdByte_placed s a w (k := 3) (by decide)]
  exact wordOfBytes_bytes w

theorem hostSees_readCmd_placed_ne (s : State) {a b : Nat} (hb : b < s.params.cmdWords.val) (w : Word) (hne : b ≠ a) :
    hostSees (.readCmd b) (s.setMemory (cmdWithWord s.cmd a w) .cmd) = hostSees (.readCmd b) s := by
  rw [hostSees_readCmd (by simpa using hb), hostSees_readCmd hb, cmdByte_placed_ne s w hne (k := 0) (by decide),
    cmdByte_placed_ne s w hne (k := 1) (by decide), cmdByte_placed_ne s w hne (k := 2) (by decide),
    cmdByte_placed_ne s w hne (k := 3) (by decide)]

/-- Settles O60: a refusal while running, a stop outside the memory, and the bytes and words read back. -/
theorem hostMemoryAccess : Obligations.HostMemoryAccess := by
  intro s sp a v w
  refine ⟨fun hrun m hm => ?_, fun hstop ha m hm => ?_, fun hstop ha => ?_, fun hstop ha => ?_⟩
  · rcases hm with rfl | rfl | rfl | rfl <;> rw [hostAct, State.hostAccess_run hrun]
  · have outside : s.params.bytes sp < a + 1 := Nat.lt_succ_of_le ha
    rcases hm with rfl | rfl <;> rw [hostAct, State.hostAccess_outside hstop outside]
  · refine ⟨_, hostAct_writeByte hstop ha v, hostAct_readByte (by simpa using hstop) (by simpa using ha), ?_,
      fun sp' b hne => ?_⟩
    · rw [hostSees_readByte_setMemory_put, if_pos ⟨rfl, rfl⟩]
    · rw [hostSees_readByte_setMemory_put, if_neg (not_and_or.2 hne)]
  · refine ⟨_, hostAct_writeCmd hstop ha w, hostAct_readCmd (by simpa using hstop) (by simpa using ha),
      hostSees_readCmd_placed s ha w, fun k hk => ?_, fun b hb hne => hostSees_readCmd_placed_ne s hb w hne⟩
    rw [cmdByte_placed s a w hk, extract_toNat]

/-! ## The command placed at `pc`, R302 -/

/-- R96: the word of a command decodes to it. The fields of `mkWord` read back; `PC.SERIAL` holds its writer number in the low
bits of the immediate. -/
theorem decode_encode (i : Instr) : decode (encode i) = some i := by
  cases i with
  | pcSerial c w =>
    have low : (BitVec.ofNat 16 w.val).extractLsb' 0 2 = chanBits w := by revert w; decide
    have high : (BitVec.ofNat 16 w.val).extractLsb' 2 14 = 0 := by revert w; decide
    simp [encode, decode, low, high]
  | _ => simp [encode, decode]

/-- R120: a running block does what the command fetched at `pc` does. -/
theorem step_eq_exec {s : State} {i : Instr} (hrun : s.seq = .run) (hpc : s.pc.toNat < s.params.cmdWords.val)
    (hi : decode (s.fetchWord s.pc) = some i) : step s = exec i s := by
  have hfetch : fetchDecode s = .ok i := by rw [fetchDecode, if_neg (Nat.not_le.2 hpc), hi]
  simp only [step, hrun, hfetch]

/-- The `CTRL` value that starts the block and writes back the `IE` that it holds (R25). -/
theorem startWord_bits (ie : Bool) :
    let v : Word := if ie then 5 else 1
    v.getLsbD 0 = true ∧ v.getLsbD 1 = false ∧ v.getLsbD 2 = ie := by
  cases ie <;> decide

theorem State.withFetchWord_word (s : State) (w : Word) :
    s.withFetchWord 32 w.toNat = { s.setMemory (cmdWithWord s.cmd s.pc.toNat w) .cmd with seq := .run } := by
  simp only [State.setMemory, State.withFetchWord, Nat.mod_eq_of_lt w.isLt, BitVec.ofNat_toNat, BitVec.setWidth_eq]

/-- Settles O7: the word is placed, `START` runs the block with `IE` as it was, and the fetch at `pc` finds the word. -/
theorem placedCommandRuns : Obligations.PlacedCommandRuns := by
  intro s i hs hpc
  have hstop : s.seq ≠ .run := by rcases hs with h | h <;> simp [h]
  obtain ⟨hstart, hreset, hie⟩ := startWord_bits s.ie
  refine ⟨_, s.withFetchWord 32 (encode i).toNat, hostAct_writeCmd hstop hpc (encode i), ?_, rfl, ?_⟩
  · rw [hostAct_writeCtrl, State.writeCtrl_start hreset hstart (by simpa using hs), hie, s.withFetchWord_word]
    rfl
  · refine step_eq_exec rfl hpc ?_
    rw [fetchWord_of_placed (congrArg State.cmd (s.withFetchWord_word (encode i))), decode_encode]

end Sys2Proof.Machine

/-! SUPPORT. The statements of spec/30_encoding.md: decoding and encoding are inverse, the command table of R94, and the sum of
R91. A word is taken apart into its five fields once, by `exists_mkWord`, and every proof here speaks of the fields. -/

namespace Sys2Proof.Machine

/-! ## Decode inverts encode, R96 -/

theorem exists_mkWord (w : Word) : ∃ op ch ra rb imm, w = mkWord op ch ra rb imm :=
  ⟨_, _, _, _, _, (mkWord_fields w).symm⟩

/-- A `PC.SERIAL` immediate is its writer number when the bits above that number are 0 (R92, R93). -/
theorem chanOf_low_of_high_eq_zero {imm : BitVec 16} (h : imm.extractLsb' 2 14 = 0) :
    BitVec.ofNat 16 (chanOf (imm.extractLsb' 0 2)).val = imm := by
  have hlt := imm.isLt
  have hhigh : imm.toNat / 2 ^ 2 % 2 ^ 14 = 0 := by rw [← extract_toNat, h]; rfl
  refine BitVec.eq_of_toNat_eq ?_
  simp only [extract_toNat, chanOf, BitVec.toNat_ofNat]
  omega

/-- R96: a word that decodes is the word of its command, because `decode` has found the bits that the format does not use to
be 0, as `encode` writes them. -/
theorem encode_of_decode {w : Word} {i : Instr} (h : decode w = some i) : encode i = w := by
  obtain ⟨op, ch, ra, rb, imm, rfl⟩ := exists_mkWord w
  simp only [decode, opField_mkWord, chField_mkWord, raField_mkWord, rbField_mkWord, immField_mkWord] at h
  split at h
  case h_3 => -- LI.K and LI.Z, told apart by `rb`
    split at h
    · next hrb => cases h; simp [encode, hrb]
    · split at h
      · next hrb => cases h; simp [encode, hrb]
      · cases h
  case h_9 => -- BW.WRITEM uses every bit
    cases h; simp [encode]
  case h_12 => -- PC.SERIAL uses two bits of `imm`
    simp only [onlyIf_eq_some, Bool.and_eq_true, beq_iff_eq] at h
    obtain ⟨⟨hregs, hhigh⟩, rfl⟩ := h
    simp [encode, hregs, chanOf_low_of_high_eq_zero hhigh]
  case h_20 => cases h -- no opcode of R94
  all_goals
    simp only [onlyIf_eq_some, Bool.and_eq_true, beq_iff_eq] at h
    obtain ⟨hunused, rfl⟩ := h
    simp [encode, hunused]

/-- Settles O1, by the fields of `mkWord` read back and, the other way, by the cases of `decode`. -/
theorem decodeInvertsEncode : Obligations.DecodeInvertsEncode :=
  ⟨decode_encode, fun _ _ => encode_of_decode⟩

/-! ## The command table, R94 and R95 -/

theorem mkWord_inj {op op' : BitVec 8} {ch ch' : BitVec 2} {ra ra' rb rb' : BitVec 3} {imm imm' : BitVec 16} :
    mkWord op ch ra rb imm = mkWord op' ch' ra' rb' imm' ↔ op = op' ∧ ch = ch' ∧ ra = ra' ∧ rb = rb' ∧ imm = imm' := by
  refine ⟨fun h => ⟨?_, ?_, ?_, ?_, ?_⟩, fun ⟨ho, hc, ha, hb, hi⟩ => by rw [ho, hc, ha, hb, hi]⟩
  · simpa using congrArg opField h
  · simpa using congrArg chField h
  · simpa using congrArg raField h
  · simpa using congrArg rbField h
  · simpa using congrArg immField h

/-- R94's comparison of a word with a row, field by field. -/
theorem mkWord_and_eq_iff {op : BitVec 8} {ch : BitVec 2} {ra rb : BitVec 3} {imm : BitVec 16} {mask pattern : Word} :
    mkWord op ch ra rb imm &&& mask = pattern ↔
      op &&& opField mask = opField pattern ∧ ch &&& chField mask = chField pattern ∧
      ra &&& raField mask = raField pattern ∧ rb &&& rbField mask = rbField pattern ∧
      imm &&& immField mask = immField pattern := by
  rw [← mkWord_inj, ← mkWord_and, mkWord_fields, mkWord_fields]

/-- The part of `imm` that the mask of `PC.SERIAL` covers is what `decode` asks to be 0. -/
theorem high_eq_zero_of_and {imm : BitVec 16} (h : imm &&& 0xFFFC#16 = 0#16) : imm.extractLsb' 2 14 = 0#14 :=
  calc imm.extractLsb' 2 14
    _ = imm.extractLsb' 2 14 &&& (0xFFFC#16).extractLsb' 2 14 := BitVec.and_allOnes.symm
    _ = (imm &&& 0xFFFC#16).extractLsb' 2 14 := BitVec.extractLsb'_and.symm
    _ = 0#14 := by rw [h]; rfl

/-- A word of a row decodes to a command of that row. The mask covers the opcode and the unused bits of the row's format, so
the comparison gives exactly what `decode` tests. -/
theorem decode_of_row {w : Word} {r : OpRow} (hr : r ∈ opcodeTable) (hw : w &&& r.mask = r.pattern) :
    ∃ i, decode w = some i ∧ i.mnemonic = r.mnemonic := by
  obtain ⟨op, ch, ra, rb, imm, rfl⟩ := exists_mkWord w
  have hop : op &&& 0xFF#8 = op := BitVec.and_allOnes
  have hch : ch &&& 3#2 = ch := BitVec.and_allOnes
  have hra : ra &&& 7#3 = ra := BitVec.and_allOnes
  have hrb : rb &&& 7#3 = rb := BitVec.and_allOnes
  have himm : imm &&& 0xFFFF#16 = imm := BitVec.and_allOnes
  rw [mkWord_and_eq_iff] at hw
  fin_cases hr
  all_goals
    simp only [opField, chField, raField, rbField, immField, BitVec.ofNat_eq_ofNat, BitVec.reduceExtractLsb', BitVec.and_zero,
      true_and, and_true, hop, hch, hra, hrb, himm] at hw
    simp [decode, hw, Instr.mnemonic, high_eq_zero_of_and]

theorem legalWord_encode (i : Instr) : legalWord (encode i) = true := by
  cases i with
  | nop => exact Laws.EncodesLegal.nop
  | halt => exact Laws.EncodesLegal.halt
  | liK d sh imm => exact Laws.EncodesLegal.liK d sh imm
  | liZ d sh imm => exact Laws.EncodesLegal.liZ d sh imm
  | addi d imm => exact Laws.EncodesLegal.addi d imm
  | loop r off => exact Laws.EncodesLegal.loop r off
  | bwInit w a b => exact Laws.EncodesLegal.bwInit w a b
  | bwWrite w cnt r => exact Laws.EncodesLegal.bwWrite w cnt r
  | bwZpad w => exact Laws.EncodesLegal.bwZpad w
  | bwWritem w n a b => exact Laws.EncodesLegal.bwWritem w n a b
  | pcHclr c => exact Laws.EncodesLegal.pcHclr c
  | pcBuild c => exact Laws.EncodesLegal.pcBuild c
  | pcSerial c w => exact Laws.EncodesLegal.pcSerial c w
  | prStart len => exact Laws.EncodesLegal.prStart len
  | prLoad a => exact Laws.EncodesLegal.prLoad a
  | prPred c => exact Laws.EncodesLegal.prPred c
  | tkRowc c => exact Laws.EncodesLegal.tkRowc c
  | tkRowe c => exact Laws.EncodesLegal.tkRowe c
  | tkFinc c => exact Laws.EncodesLegal.tkFinc c
  | tkFine c => exact Laws.EncodesLegal.tkFine c

/-- The row of a word that decodes: its word is legal, and what decodes from that row is the command itself. -/
theorem exists_row_of_decode {w : Word} {i : Instr} (h : decode w = some i) :
    ∃ r ∈ opcodeTable, w &&& r.mask = r.pattern ∧ r.mnemonic = i.mnemonic := by
  obtain ⟨r, hr, hmatch⟩ := List.any_eq_true.1 (legalWord_encode i)
  rw [encode_of_decode h, OpRow.matchesWord, beq_iff_eq] at hmatch
  obtain ⟨j, hj, hname⟩ := decode_of_row hr hmatch
  obtain rfl : i = j := Option.some.inj (h.symm.trans hj)
  exact ⟨r, hr, hmatch, hname.symm⟩

/-- A mnemonic names one row. -/
theorem opcodeTable_mnemonic_inj : ∀ r ∈ opcodeTable, ∀ r' ∈ opcodeTable, r.mnemonic = r'.mnemonic → r = r' := by
  decide

/-- Settles O2: a word of a row decodes to a command of that row, and a word that decodes has a row; since `decode` is a
function and a mnemonic names one row, the row is the only one. -/
theorem decodeFollowsTable : Obligations.DecodeFollowsTable := by
  intro w
  refine ⟨⟨fun hnone r hr hw => ?_, fun hrows => ?_⟩, fun i hi r hr => ⟨fun hw => ?_, fun hname => ?_⟩⟩
  · obtain ⟨i, hi, -⟩ := decode_of_row hr hw
    simp [hnone] at hi
  · refine Option.eq_none_iff_forall_ne_some.2 fun i hi => ?_
    obtain ⟨r, hr, hw, -⟩ := exists_row_of_decode hi
    exact hrows r hr hw
  · obtain ⟨j, hj, hname⟩ := decode_of_row hr hw
    obtain rfl : i = j := Option.some.inj (hi.symm.trans hj)
    exact hname.symm
  · obtain ⟨r', hr', hw, hname'⟩ := exists_row_of_decode hi
    obtain rfl := opcodeTable_mnemonic_inj r hr r' hr' (hname.trans hname'.symm)
    exact hw

/-! ## The word as a sum, R91 -/

/-- R91: a word is the sum of what stands at its fields. -/
theorem word_toNat (w : Word) :
    w.toNat = (opField w).toNat + (chField w).toNat * 2 ^ 8 + (raField w).toNat * 2 ^ 10 + (rbField w).toNat * 2 ^ 13 +
      (immField w).toNat * 2 ^ 16 := by
  rw [← mkWord_toNat, mkWord_fields]

/-- The fields of a command's word are the numbers of its operands (R97). `PC.SERIAL` is the one command that puts a number
into `imm`, its writer's, which fits. -/
theorem fields_encode (i : Instr) :
    (opField (encode i)).toNat = i.fields.op ∧ (chField (encode i)).toNat = i.fields.ch ∧
    (raField (encode i)).toNat = i.fields.ra ∧ (rbField (encode i)).toNat = i.fields.rb ∧
    (immField (encode i)).toNat = i.fields.imm := by
  cases i with
  | pcSerial c w =>
    have hw : w.val < 65536 := by omega
    simp [encode, Instr.fields, hw]
  | _ => simp [encode, Instr.fields]

/-- Settles O3: each field reads back, and the word is the sum of its fields. -/
theorem encodeIsFieldSum : Obligations.EncodeIsFieldSum := by
  intro i
  obtain ⟨hop, hch, hra, hrb, himm⟩ := fields_encode i
  exact ⟨by rw [word_toNat, hop, hch, hra, hrb, himm], hop, hch, hra, hrb, himm⟩

/-- Settles O4: a word decodes to a command when it is that command's word; the two illegal words are decoded. -/
theorem writtenWordsDecode : Obligations.WrittenWordsDecode :=
  ⟨decode_encode (.liZ 2 0 5), decode_encode (.bwWrite 0 3 2), decode_encode (.loop 3 1), decode_encode (.pcSerial 1 2),
    decode_encode (.prStart 256), decode_encode (.addi 0 0xFFFE), decode_encode (.tkRowe 3), decode_encode .nop,
    by decide, by decide⟩

end Sys2Proof.Machine

/-! SUPPORT. The statements of spec/40_sequencer.md R120 to R125: the step and the faults of the fetch, and what each sequencer
command does. `execLoop` is said once by its three cases; the count of a `LOOP` to itself is an induction over them. -/

namespace Sys2Proof.Machine

/-! ## The step, R120 -/

/-- Settles O5: the fetch finds the command, so the step is its `exec`. -/
theorem stepRunsDecoded : Obligations.StepRunsDecoded := fun _ _ => step_eq_exec

theorem fetchDecode_past_end {s : State} (h : s.params.cmdWords.val ≤ s.pc.toNat) : fetchDecode s = .error .pcRange :=
  if_pos h

theorem fetchDecode_illegal {s : State} (hpc : s.pc.toNat < s.params.cmdWords.val) (h : decode (s.fetchWord s.pc) = none) :
    fetchDecode s = .error .illegalCommand := by
  rw [fetchDecode, if_neg (Nat.not_le.2 hpc), h]

/-- A running block whose fetch faults enters that fault and does nothing else (R264). -/
theorem step_of_fetch_error {s : State} {f : FaultName} (hrun : s.seq = .run) (h : fetchDecode s = .error f) :
    step s = .next (s.raiseFault f) := by
  simp only [step, hrun, h]

/-- A block that does not run stays as it is (log 6). -/
theorem step_of_not_run {s : State} (h : s.seq ≠ .run) : step s = .next s := by
  unfold step
  split
  · next hrun => exact absurd hrun h
  · rfl

/-- Settles O6: the two ways `fetchDecode` fails, and the step of a block that does not run. -/
theorem stepFaultsOfTheFetch : Obligations.StepFaultsOfTheFetch := fun _ =>
  ⟨fun hrun hpc => step_of_fetch_error hrun (fetchDecode_past_end hpc),
    fun hrun hpc hw => step_of_fetch_error hrun (fetchDecode_illegal hpc hw), step_of_not_run⟩

theorem steps_succ_of_next {s t : State} (n : Nat) (h : step s = .next t) : steps (n + 1) s = steps n t := by
  simp only [steps, h]

/-! ## NOP and HALT, R121 and R122 -/

theorem State.irq_of_halted {s : State} (h : s.seq = .halted) : s.irq = s.ie := by
  simp [State.irq, h]

/-- Settles O8: both commands go on from where they stand to the end of the command, `HALT` with `STATE` set. -/
theorem nopAndHalt : Obligations.NopAndHalt :=
  ⟨by decide, by decide, fun _ => ⟨rfl, rfl, State.irq_of_halted rfl⟩⟩

/-! ## LI.K and LI.Z, R123 -/

/-- R91, with the fields that `Instr.fields` names: the word of a command as a number. -/
theorem encode_toNat (i : Instr) :
    (encode i).toNat =
      i.fields.op + i.fields.ch * 2 ^ 8 + i.fields.ra * 2 ^ 10 + i.fields.rb * 2 ^ 13 + i.fields.imm * 2 ^ 16 :=
  (encodeIsFieldSum i).1

theorem sliceMask_getLsbD (sh : Fin 4) (j : Nat) :
    (sliceMask sh).getLsbD j = decide (16 * sh.val ≤ j ∧ j < 16 * sh.val + 16) := by
  have ones : (0xFFFF#64 : DWord) = (BitVec.allOnes 16).setWidth 64 := by decide
  rw [Bool.eq_iff_iff]
  simp only [sliceMask, ones, BitVec.getLsbD_shiftLeft, BitVec.getLsbD_setWidth, BitVec.getLsbD_allOnes, Bool.and_eq_true,
    Bool.not_eq_true', decide_eq_true_eq, decide_eq_false_iff_not]
  omega

/-- R123: the mask keeps each bit outside slice `sh`, and the immediate stands at the bits of the slice. -/
theorem putSlice_getLsbD (old : DWord) (sh : Fin 4) (imm : BitVec 16) {j : Nat} (hj : j < 64) :
    (putSlice old sh imm).getLsbD j =
      if 16 * sh.val ≤ j ∧ j < 16 * sh.val + 16 then imm.getLsbD (j - 16 * sh.val) else old.getLsbD j := by
  simp only [putSlice, BitVec.getLsbD_or, BitVec.getLsbD_and, BitVec.getLsbD_not, sliceMask_getLsbD,
    BitVec.getLsbD_shiftLeft, BitVec.getLsbD_setWidth]
  split
  · next hin =>
    have hlt : j - 16 * sh.val < 64 := by omega
    simp [hin, hj, hlt]
  · next hout =>
    by_cases hlow : j < 16 * sh.val
    · simp [hj, hlow, hout]
    · have hhigh : imm.getLsbD (j - 16 * sh.val) = false := BitVec.getLsbD_of_ge _ _ (by omega)
      simp [hj, hhigh, hout]

theorem slice_getLsbD (v : DWord) (k : Fin 4) {i : Nat} (hi : i < 16) : (slice v k).getLsbD i = v.getLsbD (16 * k.val + i) := by
  simp only [slice, BitVec.getLsbD_extractLsb', hi, decide_true, Bool.true_and]

/-- Replacing slice `sh` puts the immediate there and keeps the other slices. -/
theorem slice_putSlice (old : DWord) (sh : Fin 4) (imm : BitVec 16) (k : Fin 4) :
    slice (putSlice old sh imm) k = if k = sh then imm else slice old k := by
  refine BitVec.eq_of_getLsbD_eq fun i hi => ?_
  rw [slice_getLsbD _ k hi, putSlice_getLsbD old sh imm (by omega)]
  by_cases h : k = sh
  · subst h
    rw [if_pos (by omega), if_pos rfl, Nat.add_sub_cancel_left]
  · have hne : k.val ≠ sh.val := fun e => h (Fin.ext e)
    rw [if_neg (by omega), if_neg h, slice_getLsbD _ k hi]

theorem slice_zero (k : Fin 4) : slice 0 k = 0 := by
  simp [slice]

/-- Settles O9: the words by R91's sum, the slices by `slice_putSlice`, of the register for `LI.K` and of 0 for `LI.Z`. -/
theorem loadImmediateSlices : Obligations.LoadImmediateSlices := by
  intro s d sh imm
  refine ⟨?_, ?_, ⟨putSlice (s.reg d) sh imm, rfl, slice_putSlice _ sh imm⟩, ⟨putSlice 0 sh imm, rfl, fun k => ?_⟩⟩
  · simpa [Instr.fields] using encode_toNat (.liK d sh imm)
  · simpa [Instr.fields] using encode_toNat (.liZ d sh imm)
  · rw [slice_putSlice, slice_zero]

/-! ## ADDI, R124 -/

/-- The sum with a sign-extended immediate, as integers modulo 2^64. -/
theorem add_sext16_toNat (a : DWord) (imm : BitVec 16) :
    ((a + sext16 imm).toNat : Int) = (a.toNat + imm.toInt) % 2 ^ 64 := by
  rw [sext16, BitVec.signExtend, BitVec.toNat_add, BitVec.toNat_ofInt]
  omega

/-- Settles O10: the register takes the sum of `add_sext16_toNat`. -/
theorem addImmediateWraps : Obligations.AddImmediateWraps := by
  intro s d imm
  refine ⟨?_, s.reg d + sext16 imm, rfl, add_sext16_toNat _ imm⟩
  simpa [Instr.fields] using encode_toNat (.addi d imm)

/-! ## LOOP, R125 -/

section
variable {s : State} {r : Reg} {off : BitVec 16}

/-- The register counted down is not 0 and the branch would pass below 0. -/
theorem exec_loop_out_of_range (hv : s.reg r - 1 ≠ 0) (hoff : s.pc.toNat < off.toNat) :
    exec (.loop r off) s = .next (s.raiseFault .loopRange) := by
  simp only [exec, execLoop, if_pos hv, if_pos hoff]

/-- The register counted down is not 0 and the branch is taken. -/
theorem exec_loop_branch (hv : s.reg r - 1 ≠ 0) (hoff : off.toNat ≤ s.pc.toNat) :
    exec (.loop r off) s = .next { s.setReg r (s.reg r - 1) with pc := s.pc - off.setWidth 32 } := by
  simp only [exec, execLoop, if_pos hv, if_neg (Nat.not_lt.2 hoff)]

/-- The register counted down is 0: the range of `off` is not looked at. -/
theorem exec_loop_last (hv : s.reg r - 1 = 0) :
    exec (.loop r off) s = .next (s.setReg r (s.reg r - 1)).advance := by
  simp only [exec, execLoop, if_neg (not_not.2 hv), Flow.finish_go]

end

theorem sub_one_toNat (a : DWord) : (a - 1).toNat = (a.toNat + (2 ^ 64 - 1)) % 2 ^ 64 := by
  bv_omega

theorem sub_one_toNat_of_eq_succ {a : DWord} {n : Nat} (h : a.toNat = n + 1) : (a - 1).toNat = n := by
  bv_omega

/-- Settles O11: the three cases of `LOOP`; the branch target does not wrap. -/
theorem loopCases : Obligations.LoopCases := by
  intro s r off
  refine ⟨?_, s.reg r - 1, sub_one_toNat _, exec_loop_out_of_range, fun hv hoff => ?_, exec_loop_last⟩
  · simpa [Instr.fields] using encode_toNat (.loop r off)
  · exact ⟨_, branchTarget_toNat hoff, exec_loop_branch hv hoff⟩

@[simp] theorem State.setReg_setReg (s : State) (r : Reg) (u v : DWord) : (s.setReg r u).setReg r v = s.setReg r v := by
  simp [State.setReg]

/-- A `LOOP` to itself that is not at its last turn only counts its register down: the target is its own `pc`. -/
theorem exec_loop_to_itself {s : State} {r : Reg} (hv : s.reg r - 1 ≠ 0) :
    exec (.loop r 0) s = .next (s.setReg r (s.reg r - 1)) := by
  have hpc : s.pc - (0 : BitVec 16).setWidth 32 = s.pc := by simp
  rw [exec_loop_branch hv (Nat.zero_le _), hpc]
  rfl

/-- Turn by turn, with the register at `n + 1`: the state after a turn has the same `LOOP` at the same `pc`. -/
theorem steps_loop_to_itself (n : Nat) {s : State} {r : Reg} (hrun : s.seq = .run)
    (hpc : s.pc.toNat < s.params.cmdWords.val) (hw : decode (s.fetchWord s.pc) = some (.loop r 0))
    (hn : (s.reg r).toNat = n + 1) : steps (n + 1) s = .next (s.setReg r 0).advance := by
  induction n generalizing s with
  | zero =>
    have hv : s.reg r - 1 = 0 := BitVec.eq_of_toNat_eq (sub_one_toNat_of_eq_succ hn)
    rw [steps_succ_of_next 0 ((step_eq_exec hrun hpc hw).trans (exec_loop_last hv)), hv]
    rfl
  | succ n ih =>
    have hdown := sub_one_toNat_of_eq_succ hn
    have hv : s.reg r - 1 ≠ 0 := fun h => by rw [h] at hdown; cases hdown
    have hnext := ih (s := s.setReg r (s.reg r - 1)) hrun hpc hw (by rwa [State.setReg_reg_self])
    rw [steps_succ_of_next (n + 1) ((step_eq_exec hrun hpc hw).trans (exec_loop_to_itself hv)), hnext, State.setReg_setReg]

/-- Settles O12, by the turns of `steps_loop_to_itself`. -/
theorem loopOnItselfCountsDown : Obligations.LoopOnItselfCountsDown := by
  intro s r hrun hpc hw hpos
  obtain ⟨n, hn⟩ := Nat.exists_eq_add_of_le' hpos
  rw [hn]
  exact steps_loop_to_itself n hrun hpc hw hn

end Sys2Proof.Machine

/-! SUPPORT. The statements of spec/41_bit_writer.md R141 to R147: the commands of the bit writer. Each is a use of `bwWrite` or of
`bwWrites`, so what a command does is said through `bwAfter`, the state after one write. -/

namespace Sys2Proof.Machine

/-! ## From a pseudocode to its command -/

@[simp] theorem State.advance_stream (s : State) (w : Chan) : s.advance.stream w = s.stream w := rfl

theorem WritesBits.advance {w : Chan} {s t : State} (h : WritesBits w s t) : WritesBits w s t.advance :=
  h.trans ⟨⟨rfl, rfl, rfl, rfl, rfl, rfl, rfl, rfl, rfl⟩, ⟨rfl, rfl, rfl, rfl, rfl, rfl⟩, rfl, rfl, rfl, fun _ _ => rfl, ⟨rfl, rfl⟩,
    Nat.le_refl _, fun _ _ => rfl⟩

theorem Completes.of_finish {i : Instr} {s u : State} {r : Flow} (hi : exec i s = r.finish) (hr : r = .go u)
    (hstatus : SameStatus s u) (hpc : u.pc = s.pc) : Completes i s u.advance := by
  subst hr
  exact ⟨hi, congrArg (· + 1) hpc, hstatus.seq, hstatus.cause, hstatus.fpc⟩

theorem RaisesOnly.of_finish {i : Instr} {s : State} {f : FaultName} {r : Flow} (hi : exec i s = r.finish)
    (hr : r = .raised f s) : RaisesOnly i s f := by
  subst hr
  exact hi

/-! ## BW.INIT, R143 -/

theorem isAddress_eq_true {v : DWord} : isAddress v = true ↔ v.toNat < 2 ^ 32 := decide_eq_true_iff

theorem toNat_setWidth_of_lt {v : DWord} (h : v.toNat < 2 ^ 32) : (v.setWidth 32).toNat = v.toNat := by
  rw [BitVec.toNat_setWidth, Nat.mod_eq_of_lt h]

/-- A register that is no address, or a region that leaves OUT. -/
theorem exec_bwInit_memRange {s : State} {a b : Reg} (w : Chan)
    (h : 2 ^ 32 ≤ (s.reg a).toNat ∨ 2 ^ 32 ≤ (s.reg b).toNat ∨ s.params.outBytes.val < (s.reg a).toNat + (s.reg b).toNat) :
    RaisesOnly (.bwInit w a b) s .memRange := by
  simp only [RaisesOnly, exec, execBwInit]
  split
  · rfl
  · next haddr =>
    simp only [Bool.not_eq_true', Bool.not_eq_false, Bool.and_eq_true, isAddress_eq_true] at haddr
    rw [if_pos (by omega)]

theorem exec_bwInit_region {s : State} {a b : Reg} (w : Chan) (ha : (s.reg a).toNat < 2 ^ 32) (hb : (s.reg b).toNat < 2 ^ 32)
    (h : (s.reg a).toNat + (s.reg b).toNat ≤ s.params.outBytes.val) :
    exec (.bwInit w a b) s = .next (s.setWriter w
      { base := (s.reg a).setWidth 32, limit := (s.reg b).setWidth 32, bytes := 0, acc := 0, nbits := 0 }).advance := by
  simp only [exec, execBwInit, isAddress_eq_true.2 ha, isAddress_eq_true.2 hb]
  exact if_neg (Nat.not_lt.2 h)

/-- Settles O13: the two ways out of the checks; nothing is cut when both registers are addresses. -/
theorem bwInitGivesRegion : Obligations.BwInitGivesRegion := by
  intro s w a b
  refine ⟨?_, exec_bwInit_memRange w, fun ha hb hfit => ⟨_, exec_bwInit_region w ha hb hfit, ?_⟩⟩
  · simpa [Instr.fields] using encode_toNat (.bwInit w a b)
  · exact ⟨toNat_setWidth_of_lt ha, toNat_setWidth_of_lt hb, rfl, rfl, rfl⟩

/-! ## When a write is refused and when it goes on, R141 -/

theorem Writer.Good.acc_lt {size : Nat} {wr : Writer} (h : wr.Good size) : wr.acc.toNat < 2 ^ wr.nbits.val := h.1

theorem Writer.Good.bytes_le {size : Nat} {wr : Writer} (h : wr.Good size) : wr.bytes.toNat ≤ wr.limit.toNat := h.2.1

section
variable {s : State} {w : Chan} {count value : Nat}

theorem bwWrite_count (h : 56 < count) : bwWrite w count value s = .raised .bwCount s := by
  rw [bwWrite_eq, if_pos h]

theorem bwWrite_overflow (hc : count ≤ 56)
    (h : (s.writer w).limit.toNat < (s.writer w).bytes.toNat + bwDone (s.writer w) count) :
    bwWrite w count value s = .raised .bwOverflow s := by
  rw [bwWrite_eq, if_neg (Nat.not_lt.2 hc), if_pos h]

/-- The room counts in bits what the check of R141 counts in bytes. -/
theorem State.le_room_iff (hl : (s.writer w).bytes.toNat ≤ (s.writer w).limit.toNat) :
    count ≤ s.room w ↔ (s.writer w).bytes.toNat + bwDone (s.writer w) count ≤ (s.writer w).limit.toNat := by
  have hn := (s.writer w).nbits.isLt
  simp only [State.room, bwDone]
  omega

theorem bwWrite_go_of_fits (hg : (s.writer w).Good s.params.outBytes.val) (hc : count ≤ 56)
    (h : (s.writer w).bytes.toNat + bwDone (s.writer w) count ≤ (s.writer w).limit.toNat) :
    bwWrite w count value s = .go (bwAfter w count value s) :=
  bwWrite_go_of_room hg hc ((State.le_room_iff hg.bytes_le).2 h)

/-- A command that is one write, when the write goes on. -/
theorem completes_of_bwWrite {i : Instr} (hi : exec i s = (bwWrite w count value s).finish)
    (hg : (s.writer w).Good s.params.outBytes.val) (hc : count ≤ 56)
    (h : (s.writer w).bytes.toNat + bwDone (s.writer w) count ≤ (s.writer w).limit.toNat) :
    ∃ t, Completes i s t ∧ WritesBits w s t ∧ t.run = s.run ∧ t.writer w = bwWriter (s.writer w) count value ∧
      t.stream w = s.stream w ++ natBits count value :=
  ⟨(bwAfter w count value s).advance, .of_finish hi (bwWrite_go_of_fits hg hc h) ⟨rfl, rfl, rfl⟩ rfl,
    (bwAfter_writesBits h).advance, rfl, bwAfter_writer w count value s, bwAfter_stream hg.acc_lt hc h⟩

end

/-! ## BW.WRITE, R144 -/

theorem exec_bwWrite (w : Chan) (cnt : BitVec 16) (r : Reg) (s : State) :
    exec (.bwWrite w cnt r) s = (bwWrite w cnt.toNat (s.reg r).toNat s).finish := rfl

/-- Settles O14: the two refusals and the one write of R141. -/
theorem bwWriteAppendsBits : Obligations.BwWriteAppendsBits := by
  intro s w cnt r
  have hi := exec_bwWrite w cnt r s
  refine ⟨?_, fun hc => .of_finish hi (bwWrite_count hc), fun hc hk => .of_finish hi (bwWrite_overflow hc hk),
    fun hc hk hg => ?_⟩
  · simpa [Instr.fields] using encode_toNat (.bwWrite w cnt r)
  · obtain ⟨t, hdone, hframe, hrun, hwriter, hstream⟩ := completes_of_bwWrite hi hg hc hk
    refine ⟨t, hdone, hframe, hrun, ?_, ?_, ?_, hstream⟩
    · rw [hwriter]; exact bwWriter_bytes_toNat hk
    · rw [hwriter]; rfl
    · rw [hwriter]; exact bwWriter_acc_lt hg.acc_lt hc

/-! ## BW.ZPAD, R145 -/

theorem exec_bwZpad_aligned {s : State} {w : Chan} (h : (s.writer w).nbits = 0) : exec (.bwZpad w) s = .next s.advance := by
  simp only [exec, execBwZpad, h]
  rfl

theorem exec_bwZpad_pending {s : State} {w : Chan} (h : (s.writer w).nbits ≠ 0) :
    exec (.bwZpad w) s = (bwWrite w (8 - (s.writer w).nbits.val) 0 s).finish :=
  congrArg Flow.finish (if_pos (Fin.pos_iff_ne_zero.2 h))

/-- The padding completes the one pending byte. -/
theorem bwDone_padding {wr : Writer} (h : wr.nbits ≠ 0) : bwDone wr (8 - wr.nbits.val) = 1 := by
  have hpos := Fin.pos_iff_ne_zero.2 h
  have hlt := wr.nbits.isLt
  simp only [bwDone]
  omega

theorem bwWriter_padding_nbits (wr : Writer) : (bwWriter wr (8 - wr.nbits.val) 0).nbits = 0 := by
  have hlt := wr.nbits.isLt
  apply Fin.ext
  simp only [bwWriter]
  omega

/-- Settles O16: nothing to do on a byte boundary, else one write of zeros that completes one byte. -/
theorem zeroPadAligns : Obligations.ZeroPadAligns := by
  intro s w
  have hc : 8 - (s.writer w).nbits.val ≤ 56 := by omega
  refine ⟨?_, exec_bwZpad_aligned, fun hn hfull => ?_, fun hn hroom hg => ?_⟩
  · simpa [Instr.fields] using encode_toNat (.bwZpad w)
  · refine .of_finish (exec_bwZpad_pending hn) (bwWrite_overflow hc ?_)
    rw [bwDone_padding hn, hfull]
    exact Nat.lt_succ_self _
  · have hfits : (s.writer w).bytes.toNat + bwDone (s.writer w) (8 - (s.writer w).nbits.val) ≤ (s.writer w).limit.toNat := by
      rw [bwDone_padding hn]
      exact Nat.lt_of_le_of_ne hg.bytes_le fun h => hroom (BitVec.eq_of_toNat_eq h)
    obtain ⟨t, hdone, hframe, hrun, hwriter, hstream⟩ := completes_of_bwWrite (exec_bwZpad_pending hn) hg hc hfits
    have hbits := bwWriter_padding_nbits (s.writer w)
    refine ⟨t, hdone, hframe, hrun, ?_, ?_, ?_, ?_⟩
    · rw [hwriter, bwWriter_bytes_toNat hfits, bwDone_padding hn]
    · rw [hwriter, hbits]
    · have hlt := bwWriter_acc_lt (value := 0) hg.acc_lt hc
      rw [hbits] at hlt
      rw [hwriter]
      exact BitVec.eq_of_toNat_eq (Nat.lt_one_iff.1 hlt)
    · rw [hstream, natBits_zero_value]

/-! ## The consequences of the write primitive, R142 -/

theorem Memory.putBytes_append (m : Memory) (a : Nat) (l₁ l₂ : List Byte) :
    Memory.putBytes m a (l₁ ++ l₂) = Memory.putBytes (Memory.putBytes m a l₁) (a + l₁.length) l₂ := by
  induction l₁ generalizing m a with
  | nil => rfl
  | cons b l ih =>
    simp only [List.cons_append, Memory.putBytes, ih, List.length_cons]
    congr 1
    omega

theorem lowBytes_add (v k₁ k₂ : Nat) : lowBytes v (k₁ + k₂) = lowBytes v k₁ ++ lowBytes (v / 2 ^ (8 * k₁)) k₂ := by
  induction k₁ generalizing v with
  | zero => simp [lowBytes]
  | succ k ih =>
    rw [Nat.succ_add, lowBytes, lowBytes, ih, Nat.div_div_eq_div_mul, Nat.mul_succ, Nat.pow_add, Nat.mul_comm (2 ^ (8 * k))]
    rfl

/-- The `k` low bytes are those of the `8 k` low bits. -/
theorem lowBytes_add_mul (u v k : Nat) : lowBytes (u + v * 2 ^ (8 * k)) k = lowBytes u k := by
  induction k generalizing u v with
  | zero => rfl
  | succ k ih =>
    have hsplit : u + v * 2 ^ (8 * (k + 1)) = u + v * 2 ^ (8 * k) * 256 := by rw [Nat.mul_succ, Nat.pow_add, Nat.mul_assoc]
    have hbyte : BitVec.ofNat 8 (u + v * 2 ^ (8 * k) * 256) = BitVec.ofNat 8 u :=
      BitVec.eq_of_toNat_eq (by simp only [BitVec.toNat_ofNat]; omega)
    rw [hsplit, lowBytes, lowBytes, hbyte, Nat.add_mul_div_right _ _ (by decide), ih]

@[simp] theorem State.setWriter_setWriter (s : State) (w : Chan) (u v : Writer) :
    (s.setWriter w u).setWriter w v = s.setWriter w v := by
  simp [State.setWriter]

@[simp] theorem State.setWriter_self (s : State) (w : Chan) : s.setWriter w (s.writer w) = s := by
  simp [State.setWriter, State.writer]

/-- R142 (3). -/
theorem bwAfter_zero (w : Chan) (value : Nat) (s : State) : bwAfter w 0 value s = s := by
  have hdone : bwDone (s.writer w) 0 = 0 := Nat.div_eq_of_lt (s.writer w).nbits.isLt
  have hwriter : bwWriter (s.writer w) 0 value = s.writer w := by
    have hbits : (s.writer w).nbits.val % 8 = (s.writer w).nbits.val := Nat.mod_eq_of_lt (s.writer w).nbits.isLt
    simp [bwWriter, bwAcc, hdone, hbits, Nat.mod_one]
  rw [bwAfter, hdone, hwriter]
  exact s.setWriter_self w

/-! Two writes, the first of `a` bits of `u` and the second of `b` bits of `v`, and the one write of `a + b` bits that R142 (5)
names. -/

section
variable {wr : Writer} {a b u v : Nat}

/-- The one write puts the bits of the second above what the first has. -/
theorem bwAcc_joined : bwAcc wr (a + b) (u % 2 ^ a + v % 2 ^ b * 2 ^ a) = bwAcc wr a u + v % 2 ^ b * 2 ^ (wr.nbits.val + a) := by
  have hu : u % 2 ^ a < 2 ^ a := Nat.mod_lt _ (Nat.two_pow_pos a)
  have hv : (v % 2 ^ b + 1) * 2 ^ a ≤ 2 ^ b * 2 ^ a := Nat.mul_le_mul_right _ (Nat.mod_lt _ (Nat.two_pow_pos b))
  have hlt : u % 2 ^ a + v % 2 ^ b * 2 ^ a < 2 ^ (a + b) := by
    rw [Nat.pow_add]
    linarith
  rw [bwAcc, bwAcc, Nat.mod_eq_of_lt hlt, Nat.pow_add]
  ring

/-- The bits that the first write leaves pending are those that its bytes do not take. -/
theorem bwWriter_nbits_add : (bwWriter wr a u).nbits.val + 8 * bwDone wr a = wr.nbits.val + a := by
  simp only [bwWriter, bwDone]
  omega

theorem bwDone_joined : bwDone wr (a + b) = bwDone wr a + bwDone (bwWriter wr a u) b := by
  have hbits := bwWriter_nbits_add (wr := wr) (a := a) (u := u)
  simp only [bwDone] at hbits ⊢
  omega

/-- The bits of the second write stand above the bytes that the first completes. -/
theorem bwAcc_joined_eq_add_mul : bwAcc wr (a + b) (u % 2 ^ a + v % 2 ^ b * 2 ^ a) =
    bwAcc wr a u + v % 2 ^ b * 2 ^ (bwWriter wr a u).nbits.val * 2 ^ (8 * bwDone wr a) := by
  rw [bwAcc_joined, ← bwWriter_nbits_add (u := u), Nat.pow_add, Nat.mul_assoc]

/-- Without those bytes, the one write has before it what the second has. -/
theorem bwAcc_joined_div (h : wr.acc.toNat < 2 ^ wr.nbits.val) (hc : a ≤ 56) :
    bwAcc wr (a + b) (u % 2 ^ a + v % 2 ^ b * 2 ^ a) / 2 ^ (8 * bwDone wr a) = bwAcc (bwWriter wr a u) b v := by
  rw [bwAcc_joined_eq_add_mul, Nat.add_mul_div_right _ _ (Nat.two_pow_pos _), ← bwWriter_acc_toNat h hc, bwAcc]

theorem lowBytes_joined (h : wr.acc.toNat < 2 ^ wr.nbits.val) (hc : a ≤ 56) :
    lowBytes (bwAcc wr (a + b) (u % 2 ^ a + v % 2 ^ b * 2 ^ a)) (bwDone wr (a + b)) =
      lowBytes (bwAcc wr a u) (bwDone wr a) ++ lowBytes (bwAcc (bwWriter wr a u) b v) (bwDone (bwWriter wr a u) b) := by
  rw [bwDone_joined (u := u), lowBytes_add, bwAcc_joined_div h hc, bwAcc_joined_eq_add_mul, lowBytes_add_mul]

theorem bwWriter_joined (h : wr.acc.toNat < 2 ^ wr.nbits.val) (hc : a ≤ 56) :
    bwWriter wr (a + b) (u % 2 ^ a + v % 2 ^ b * 2 ^ a) = bwWriter (bwWriter wr a u) b v := by
  have hacc : bwAcc wr (a + b) (u % 2 ^ a + v % 2 ^ b * 2 ^ a) / 2 ^ (8 * bwDone wr (a + b)) =
      bwAcc (bwWriter wr a u) b v / 2 ^ (8 * bwDone (bwWriter wr a u) b) := by
    rw [bwDone_joined (u := u), Nat.mul_add, Nat.pow_add, ← Nat.div_div_eq_div_mul, bwAcc_joined_div h hc]
  have hbits : (wr.nbits.val + (a + b)) % 8 = ((wr.nbits.val + a) % 8 + b) % 8 := by omega
  have hbytes : wr.bytes + BitVec.ofNat 32 (bwDone wr (a + b)) =
      wr.bytes + BitVec.ofNat 32 (bwDone wr a) + BitVec.ofNat 32 (bwDone (bwWriter wr a u) b) := by
    rw [bwDone_joined (u := u), BitVec.ofNat_add, BitVec.add_assoc]
  rw [bwWriter, hacc, hbytes]
  simp only [hbits]
  rfl

end

/-- R142 (5), on the whole state. -/
theorem bwAfter_joined {s : State} {w : Chan} {a b u v : Nat} (h : (s.writer w).acc.toNat < 2 ^ (s.writer w).nbits.val)
    (hc : a ≤ 56) (hfits : (s.writer w).bytes.toNat + bwDone (s.writer w) a ≤ (s.writer w).limit.toNat) :
    bwAfter w (a + b) (u % 2 ^ a + v % 2 ^ b * 2 ^ a) s = bwAfter w b v (bwAfter w a u s) := by
  have hcursor : (bwAfter w a u s).outCursor w = s.outCursor w + bwDone (s.writer w) a := by
    rw [State.outCursor, bwAfter_writer, bwWriter_bytes_toNat hfits, ← Nat.add_assoc]
    rfl
  have hout : (bwAfter w a u s).out =
      Memory.putBytes s.out (s.outCursor w) (lowBytes (bwAcc (s.writer w) a u) (bwDone (s.writer w) a)) := rfl
  rw [bwAfter, bwAfter, bwAfter_writer, hcursor, hout, lowBytes_joined h hc, bwWriter_joined h hc, Memory.putBytes_append,
    lowBytes_length]
  exact (State.setWriter_setWriter _ w _ _).symm

/-- R142 (1). -/
theorem bwAcc_lt_two_pow_63 {wr : Writer} {count value : Nat} (h : wr.acc.toNat < 2 ^ wr.nbits.val) (hc : count ≤ 56) :
    bwAcc wr count value < 2 ^ 63 := by
  have hlt := wr.nbits.isLt
  exact (bwAcc_lt h).trans_le (Nat.pow_le_pow_right (by decide) (by omega))

/-- Settles O15: the joined write goes on where the two did, to the state of `bwAfter_joined`. -/
theorem bwWriteConsequences : Obligations.BwWriteConsequences := by
  intro s w hg
  have hfits : (s.writer w).bytes.toNat + bwDone (s.writer w) 0 ≤ (s.writer w).limit.toNat :=
    (State.le_room_iff hg.bytes_le).1 (Nat.zero_le _)
  refine ⟨fun n v hn => bwAcc_lt_two_pow_63 hg.acc_lt hn, fun n v t h => ?_, fun v => ?_, fun n u v h => ?_,
    fun a b u v s₁ t hab h₁ h₂ => ?_⟩
  · obtain ⟨hc, hn, rfl⟩ := bwWrite_eq_go h
    rw [bwAfter_writer, bwAfter_params]
    exact bwWriter_good hg hc hn
  · rw [bwWrite_go_of_fits hg (Nat.zero_le _) hfits, bwAfter_zero]
  · simp only [bwWrite, h]
  · obtain ⟨ha, hfits₁, rfl⟩ := bwWrite_eq_go h₁
    obtain ⟨-, hfits₂, rfl⟩ := bwWrite_eq_go h₂
    rw [bwAfter_writer, bwWriter_bytes_toNat hfits₁, Nat.add_assoc, ← bwDone_joined] at hfits₂
    rw [bwWrite_go_of_fits hg hab hfits₂, bwAfter_joined hg.acc_lt ha hfits₁]

/-! ## BW.WRITEM, R146 -/

/-- Entry `i` of a `BW.WRITEM` as a write. -/
def State.writemPair (s : State) (A B i : Nat) : Nat × Nat := ((s.inByte (A + i)).toNat, leValue (s.inBytes (B + 8 * i) 8))

theorem State.writemEntries_eq_map (s : State) (A B n : Nat) :
    s.writemEntries A B n = (List.range n).map (s.writemPair A B) := rfl

theorem State.writemPair_congr {s t : State} (h : t.input = s.input) (A B : Nat) : t.writemPair A B = s.writemPair A B := by
  funext i
  simp only [State.writemPair, State.inByte, h, State.inBytes_congr h]

theorem writemEntry_eq_bwWrite {s : State} {A B i : Nat} (w : Chan) (hA : A + i + 1 ≤ s.params.inBytes.val)
    (hB : B + 8 * i + 8 ≤ s.params.inBytes.val) :
    writemEntry w A B i s = bwWrite w (s.writemPair A B i).1 (s.writemPair A B i).2 s := by
  simp only [writemEntry, memRead_eq, if_pos hA, if_pos hB]
  rfl

/-- No write changes IN, so the entries of the rest stay those of the start. -/
theorem forEach_writemEntry {s : State} {A B n : Nat} (w : Chan) (hA : A + n ≤ s.params.inBytes.val)
    (hB : B + 8 * n ≤ s.params.inBytes.val) (l : List Nat) (hl : ∀ i ∈ l, i < n) :
    forEach (writemEntry w A B) l s = bwWrites w (l.map (s.writemPair A B)) s := by
  induction l generalizing s with
  | nil => rfl
  | cons i l ih =>
    have hi : i < n := hl i List.mem_cons_self
    simp only [List.map_cons, bwWrites, forEach_cons]
    rw [writemEntry_eq_bwWrite w (by omega) (by omega)]
    cases h : bwWrite w (s.writemPair A B i).1 (s.writemPair A B i).2 s with
    | go t =>
      obtain ⟨-, -, rfl⟩ := bwWrite_eq_go h
      have hrest := ih (s := bwAfter w (s.writemPair A B i).1 (s.writemPair A B i).2 s) hA hB
        fun j hj => hl j (List.mem_cons_of_mem i hj)
      rwa [State.writemPair_congr (s := s) rfl] at hrest
    | raised f t => rfl
    | stop f => rfl

/-- Both registers are addresses and both arrays lie in IN (R146). -/
def State.WritemInRange (s : State) (n : BitVec 16) (a b : Reg) : Prop :=
  (s.reg a).toNat < 2 ^ 32 ∧ (s.reg b).toNat < 2 ^ 32 ∧ (s.reg a).toNat + n.toNat ≤ s.params.inBytes.val ∧
    (s.reg b).toNat + 8 * n.toNat ≤ s.params.inBytes.val

theorem exec_bwWritem_memRange {s : State} {n : BitVec 16} {a b : Reg} (w : Chan) (h : ¬ s.WritemInRange n a b) :
    RaisesOnly (.bwWritem w n a b) s .memRange := by
  simp only [RaisesOnly, exec, execBwWritem]
  split
  · rfl
  · next haddr =>
    simp only [Bool.not_eq_true', Bool.not_eq_false, Bool.and_eq_true, isAddress_eq_true] at haddr
    rw [if_pos (by simp only [State.WritemInRange] at h; omega)]

/-- With its arrays in range, the command is the writes of its entries. -/
theorem exec_bwWritem_inRange {s : State} {n : BitVec 16} {a b : Reg} (w : Chan) (h : s.WritemInRange n a b) :
    exec (.bwWritem w n a b) s =
      (bwWrites w (s.writemEntries (s.reg a).toNat (s.reg b).toNat n.toNat) s).finish := by
  obtain ⟨ha, hb, hA, hB⟩ := h
  have hfits : ¬ ((s.reg a).toNat + n.toNat > s.params.inBytes.val ∨ (s.reg b).toNat + 8 * n.toNat > s.params.inBytes.val) := by
    omega
  simp only [exec, execBwWritem, isAddress_eq_true.2 ha, isAddress_eq_true.2 hb]
  rw [State.writemEntries_eq_map, ← forEach_writemEntry w hA hB _ fun i hi => List.mem_range.1 hi]
  exact if_neg hfits

/-- A write that R141 refuses, for its count first. -/
theorem bwWrite_raised_of_refused {s : State} {w : Chan} {count value : Nat} (hg : (s.writer w).Good s.params.outBytes.val)
    (h : 56 < count ∨ s.room w < count) :
    bwWrite w count value s = .raised (if 56 < count then .bwCount else .bwOverflow) s := by
  by_cases hc : 56 < count
  · rw [if_pos hc, bwWrite_count hc]
  · rw [if_neg hc]
    refine bwWrite_overflow (Nat.not_lt.1 hc) (Nat.not_le.1 fun hfits => ?_)
    exact absurd ((State.le_room_iff hg.bytes_le).2 hfits) (Nat.not_le.2 (h.resolve_left hc))

/-- Where the first refused write stands, the writes before it are done (R266). -/
theorem bwWrites_raised_of_refused {s : State} {w : Chan} {pre post : List (Nat × Nat)} {e : Nat × Nat}
    (hg : (s.writer w).Good s.params.outBytes.val) (hpre : ∀ d ∈ pre, d.1 ≤ 56) (hroom : bitCount pre ≤ s.room w)
    (h : 56 < e.1 ∨ s.room w < bitCount pre + e.1) :
    ∃ u, bwWrites w (pre ++ e :: post) s = .raised (if 56 < e.1 then .bwCount else .bwOverflow) u ∧ WroteOnly w pre s u ∧
      u.run = s.run := by
  obtain ⟨u, hu, hframe, hstatus, hpc, hrun, hgood, hleft, hstream⟩ := bwWrites_spec hg hpre hroom
  refine ⟨u, ?_, ⟨hframe, hstatus, hpc, hstream⟩, hrun⟩
  have hrefused : 56 < e.1 ∨ u.room w < e.1 := by omega
  rw [bwWrites] at hu ⊢
  rw [forEach_append, hu, Flow.go_andThen, forEach_cons, bwWrite_raised_of_refused hgood hrefused, Flow.raised_andThen]

/-- Settles O17: the range check, then the writes of the entries up to their end or to the first that is refused. -/
theorem bwWritemWritesEntries : Obligations.BwWritemWritesEntries := by
  intro s w n a b
  refine ⟨?_, exec_bwWritem_memRange w, fun hin hg hc hroom => ?_, fun hin hg pre e post hes hpre hroom hbad => ?_⟩
  · simpa [Instr.fields] using encode_toNat (.bwWritem w n a b)
  · obtain ⟨u, hu, hframe, hstatus, hpc, hrun, -, -, hstream⟩ := bwWrites_spec hg hc hroom
    exact ⟨u.advance, .of_finish (exec_bwWritem_inRange w hin) hu hstatus hpc, hframe.advance, hrun, hstream⟩
  · obtain ⟨u, hu, hwrote, hrun⟩ := bwWrites_raised_of_refused (post := post) hg hpre hroom hbad
    refine ⟨u, ?_, hwrote.frame, hwrote.status, hwrote.pc, hrun, hwrote.stream⟩
    rw [exec_bwWritem_inRange w hin]
    exact congrArg Flow.finish ((congrArg (bwWrites w · s) hes).trans hu)

/-! ## BW.WRITEM as repeated BW.WRITE, R147 -/

/-- Two states that a write to `w` cannot tell apart: registers and `pc` may differ. -/
structure AlikeForWriter (w : Chan) (s t : State) : Prop where
  params : t.params = s.params
  seq : t.seq = s.seq
  out : t.out = s.out
  writer : t.writer w = s.writer w

theorem AlikeForWriter.refl (w : Chan) (s : State) : AlikeForWriter w s s := ⟨rfl, rfl, rfl, rfl⟩

theorem AlikeForWriter.setReg {w : Chan} {s t : State} (h : AlikeForWriter w s t) (r : Reg) (v : DWord) :
    AlikeForWriter w s (t.setReg r v) := ⟨h.params, h.seq, h.out, h.writer⟩

theorem AlikeForWriter.advance {w : Chan} {s t : State} (h : AlikeForWriter w s t) : AlikeForWriter w s t.advance :=
  ⟨h.params, h.seq, h.out, h.writer⟩

theorem AlikeForWriter.outCursor {w : Chan} {s t : State} (h : AlikeForWriter w s t) : t.outCursor w = s.outCursor w := by
  rw [State.outCursor, State.outCursor, h.writer]

theorem AlikeForWriter.bwAfter {w : Chan} {s t : State} (h : AlikeForWriter w s t) (count value : Nat) :
    AlikeForWriter w (bwAfter w count value s) (bwAfter w count value t) where
  params := h.params
  seq := h.seq
  out := by
    simp only [Machine.bwAfter, State.setWriter_out, State.setOut_out, h.outCursor, h.out, h.writer]
  writer := by rw [bwAfter_writer, bwAfter_writer, h.writer]

theorem AlikeForWriter.bwWrite_go {w : Chan} {s t s₁ : State} (h : AlikeForWriter w s t) {count value : Nat}
    (hs : bwWrite w count value s = .go s₁) :
    ∃ t₁, bwWrite w count value t = .go t₁ ∧ AlikeForWriter w s₁ t₁ := by
  obtain ⟨-, -, rfl⟩ := bwWrite_eq_go hs
  refine ⟨_, ?_, h.bwAfter count value⟩
  rw [bwWrite_eq, h.outCursor, h.params, h.writer]
  rw [bwWrite_eq] at hs
  split at hs
  · cases hs
  · split at hs
    · cases hs
    · split at hs
      · next hc hfits hin => rw [if_neg hc, if_neg hfits, if_pos hin]
      · cases hs

/-- A `BW.WRITE` with its bits in `x0` does the write of the entry: no count above 56 and no 64-bit value is cut. -/
theorem exec_bwWrite_entry {w : Chan} {e : Nat × Nat} {s t s₁ : State} (h : AlikeForWriter w s t) (hv : e.2 < 2 ^ 64)
    (hs : bwWrite w e.1 e.2 s = .go s₁) :
    ∃ t₁, exec (.bwWrite w (BitVec.ofNat 16 e.1) 0) (t.setReg 0 (BitVec.ofNat 64 e.2)) = .next t₁ ∧
      AlikeForWriter w s₁ t₁ := by
  obtain ⟨hcount, -, -⟩ := bwWrite_eq_go hs
  obtain ⟨t₁, ht, halike⟩ := (h.setReg 0 (BitVec.ofNat 64 e.2)).bwWrite_go hs
  refine ⟨t₁.advance, ?_, halike.advance⟩
  have hn : (BitVec.ofNat 16 e.1).toNat = e.1 := Nat.mod_eq_of_lt (by omega)
  have hx : (BitVec.ofNat 64 e.2).toNat = e.2 := Nat.mod_eq_of_lt hv
  rw [exec_bwWrite, State.setReg_reg_self, hn, hx, ht, Flow.finish_go]

theorem repeatedWrites_of_bwWrites {w : Chan} {l : List (Nat × Nat)} {s t s₁ : State} (h : AlikeForWriter w s t)
    (hv : ∀ e ∈ l, e.2 < 2 ^ 64) (hs : bwWrites w l s = .go s₁) :
    ∃ t₁, repeatedWrites w l t = .next t₁ ∧ AlikeForWriter w s₁ t₁ := by
  induction l generalizing s t with
  | nil =>
    cases hs
    exact ⟨t, rfl, h⟩
  | cons e l ih =>
    obtain ⟨s', hfirst, hrest⟩ := Flow.andThen_eq_go.1 hs
    obtain ⟨t', ht', halike⟩ := exec_bwWrite_entry h (hv e List.mem_cons_self) hfirst
    rw [repeatedWrites, ht']
    exact ih halike (fun d hd => hv d (List.mem_cons_of_mem e hd)) hrest

theorem State.writemEntries_value_lt (s : State) (A B n : Nat) : ∀ e ∈ s.writemEntries A B n, e.2 < 2 ^ 64 := by
  intro e he
  obtain ⟨i, -, rfl⟩ := List.mem_map.1 he
  have hlt := leValue_lt (s.inBytes (B + 8 * i) 8)
  rwa [State.inBytes_length] at hlt

/-- A `BW.WRITEM` that ends without a fault came to the end of its writes. -/
theorem exec_bwWritem_no_fault {s t : State} {w : Chan} {n : BitVec 16} {a b : Reg}
    (h : exec (.bwWritem w n a b) s = .next t) (ht : t.seq ≠ .fault) :
    ∃ u, bwWrites w (s.writemEntries (s.reg a).toNat (s.reg b).toNat n.toNat) s = .go u ∧ t = u.advance := by
  by_cases hin : s.WritemInRange n a b
  · rw [exec_bwWritem_inRange w hin] at h
    rcases Flow.finish_eq_next.1 h with ⟨u, hu, rfl⟩ | ⟨f, u, -, rfl⟩
    · exact ⟨u, hu, rfl⟩
    · exact absurd rfl ht
  · cases (exec_bwWritem_memRange w hin).symm.trans h
    exact absurd rfl ht

/-- Settles O18: entry by entry the two runs agree on all that a write reads. -/
theorem writemEqualsRepeatedWrites : Obligations.WritemEqualsRepeatedWrites := by
  intro s t w n a b _ h ht
  obtain ⟨u, hu, rfl⟩ := exec_bwWritem_no_fault h ht
  obtain ⟨v, hv, halike⟩ := repeatedWrites_of_bwWrites (.refl w s) (s.writemEntries_value_lt _ _ _) hu
  exact ⟨v, hv, fun hfault => ht (halike.seq.symm.trans hfault), halike.out, halike.writer⟩

end Sys2Proof.Machine

/-! SUPPORT. The statements of spec/42_prefix_code.md R161: when the length-limited construction answers, and that its answer
is the least one. -/

namespace Sys2Proof.Machine

/-! ## The used symbols and their lengths -/

theorem usedSyms_cons_unused {y : Sym} (h : y.freq = 0) (ys : List Sym) : usedSyms (y :: ys) = usedSyms ys :=
  List.filter_cons_of_neg (by simp [h])

theorem usedSyms_cons_used {y : Sym} (h : y.freq ≠ 0) (ys : List Sym) : usedSyms (y :: ys) = y :: usedSyms ys :=
  List.filter_cons_of_pos (by simpa using Nat.pos_of_ne_zero h)

theorem mem_usedSyms {y : Sym} {ys : List Sym} : y ∈ usedSyms ys ↔ y ∈ ys ∧ y.freq ≠ 0 := by
  simp [usedSyms, Nat.pos_iff_ne_zero]

/-- What R161 gives a symbol: 0 when it is not used, else a length within its bounds. -/
def Sym.Takes (y : Sym) (L : Nat) : Prop := (y.freq = 0 → L = 0) ∧ (y.freq ≠ 0 → max 1 y.lo ≤ L ∧ L ≤ y.hi)

theorem Sym.takes_zero {y : Sym} (h : y.freq = 0) : y.Takes 0 := ⟨fun _ => rfl, fun h' => absurd h h'⟩

theorem Sym.takes_of_bounds {y : Sym} {L : Nat} (h : y.freq ≠ 0) (hL : max 1 y.lo ≤ L ∧ L ≤ y.hi) : y.Takes L :=
  ⟨fun h' => absurd h' h, fun _ => hL⟩

theorem Sym.Takes.pos_iff {y : Sym} {L : Nat} (h : y.Takes L) : 0 < L ↔ y.freq ≠ 0 := by
  obtain ⟨hunused, hused⟩ := h
  omega

theorem spreadLengths_takes {ys : List Sym} {ls : List Nat} (h : WithinBounds (usedSyms ys) ls) :
    List.Forall₂ Sym.Takes ys (spreadLengths ys ls) := by
  induction ys generalizing ls with
  | nil => exact .nil
  | cons y ys ih =>
    by_cases hy : y.freq = 0
    · rw [usedSyms_cons_unused hy] at h
      rw [spreadLengths, if_pos hy]
      exact .cons (Sym.takes_zero hy) (ih h)
    · rw [usedSyms_cons_used hy] at h
      obtain ⟨L, ls, hL, hls, rfl⟩ := List.forall₂_cons_left_iff.1 h
      rw [spreadLengths, if_neg hy]
      exact .cons (Sym.takes_of_bounds hy hL) (ih hls)

theorem usedLengths_spreadLengths {ys : List Sym} {ls : List Nat} (h : ls.length = (usedSyms ys).length) :
    usedLengths ys (spreadLengths ys ls) = ls := by
  induction ys generalizing ls with
  | nil => exact (List.length_eq_zero_iff.1 h).symm
  | cons y ys ih =>
    by_cases hy : y.freq = 0
    · rw [usedSyms_cons_unused hy] at h
      simp only [spreadLengths, usedLengths, if_pos hy, List.tail_cons, ih h]
    · rw [usedSyms_cons_used hy] at h
      obtain ⟨L, ls, rfl⟩ := List.exists_cons_of_length_eq_add_one h
      simp only [spreadLengths, usedLengths, if_neg hy, List.headD_cons, List.tail_cons, ih (Nat.succ.inj h)]

theorem spreadLengths_nil {ys : List Sym} (h : usedSyms ys = []) : spreadLengths ys [] = ys.map fun _ => 0 := by
  induction ys with
  | nil => rfl
  | cons y ys ih =>
    have hy : y.freq = 0 := by
      by_contra hy
      rw [usedSyms_cons_used hy] at h
      cases h
    rw [usedSyms_cons_unused hy] at h
    simp only [spreadLengths, if_pos hy, ih h, List.map_cons]

/-! ## The cases of the construction -/

theorem firstRow_at {b u : Nat} : firstRow.at b = some u ↔ b = 0 ∧ u = 0 := by
  rw [firstRow, BudgetRow.at_cons]
  by_cases hb : b = 0
  · simp [hb, eq_comm]
  · simp [hb]

/-- From the first row, the two passes leave nothing of the budget. -/
theorem assignLengths_firstRow {ys : List Sym} {ls : List Nat} {b : Nat} (h : assignLengths ys firstRow = some (ls, b)) :
    b = 0 ∧ WithinBounds ys ls ∧ spent ls = budget := by
  obtain ⟨hw, hspent, u, hu, -⟩ := assignLengths_sound firstRow_rises h
  obtain rfl := (firstRow_at.1 hu).1
  exact ⟨rfl, hw, by omega⟩

theorem assignLengths_firstRow_of_feasible {ys : List Sym} (h : Feasible ys) : ∃ ls, assignLengths ys firstRow = some (ls, 0) := by
  obtain ⟨ls, hw, hspent⟩ := h
  obtain ⟨⟨ls', b⟩, hp⟩ := assignLengths_complete firstRow_rises hw (b := 0) (u := 0) (by omega) (firstRow_at.2 ⟨rfl, rfl⟩)
  obtain ⟨rfl, -, -⟩ := assignLengths_firstRow hp
  exact ⟨ls', hp⟩

theorem Feasible.ne_nil {ys : List Sym} (h : Feasible ys) : ys ≠ [] := by
  rintro rfl
  obtain ⟨ls, hw, hspent⟩ := h
  cases hw
  exact absurd hspent (by decide)

theorem WithinBounds.bounds {ys : List Sym} {ls : List Nat} (h : WithinBounds ys ls) : ∀ y ∈ ys, max 1 y.lo ≤ y.hi := by
  induction h with
  | nil => simp
  | cons hL _ ih => exact List.forall_mem_cons.2 ⟨hL.1.trans hL.2, ih⟩

theorem Feasible.bounds {ys : List Sym} (h : Feasible ys) : ∀ y ∈ ys, max 1 y.lo ≤ y.hi := by
  obtain ⟨ls, hw, -⟩ := h
  exact hw.bounds

theorem lengthLimited_of_unused {ys : List Sym} (h : usedSyms ys = []) : lengthLimited ys = .ok (spreadLengths ys []) := by
  simp only [lengthLimited, h, List.isEmpty_nil, if_true, spreadLengths_nil h]

theorem any_bad_bounds_eq_false {ys : List Sym} (h : ∀ y ∈ ys, max 1 y.lo ≤ y.hi) :
    ys.any (fun y => decide (y.hi < max 1 y.lo)) = false :=
  List.any_eq_false.2 fun y hy hbad => absurd (h y hy) (Nat.not_le.2 (of_decide_eq_true hbad))

theorem lengthLimited_of_bad_bounds {ys : List Sym} (h : ∃ y ∈ usedSyms ys, y.hi < max 1 y.lo) :
    lengthLimited ys = .error .buildBounds := by
  have hne : (usedSyms ys).isEmpty = false := by
    obtain ⟨y, hy, -⟩ := h
    rw [List.isEmpty_eq_false_iff]
    exact List.ne_nil_of_mem hy
  have hany : (usedSyms ys).any (fun y => decide (y.hi < max 1 y.lo)) = true := by simpa using h
  simp only [lengthLimited, hne, hany, Bool.false_eq_true, if_false, if_true]

/-- With a length for every used symbol, the construction answers as the two passes do. -/
theorem lengthLimited_of_none {ys : List Sym} (hb : ∀ y ∈ usedSyms ys, max 1 y.lo ≤ y.hi) (hne : usedSyms ys ≠ [])
    (h : assignLengths (usedSyms ys) firstRow = none) : lengthLimited ys = .error .buildInfeasible := by
  simp only [lengthLimited, List.isEmpty_eq_false_iff.2 hne, any_bad_bounds_eq_false hb, h, Bool.false_eq_true, if_false]

theorem lengthLimited_of_some {ys : List Sym} (hb : ∀ y ∈ usedSyms ys, max 1 y.lo ≤ y.hi) (hne : usedSyms ys ≠ [])
    {ls : List Nat} {b : Nat} (h : assignLengths (usedSyms ys) firstRow = some (ls, b)) :
    lengthLimited ys = .ok (spreadLengths ys ls) := by
  simp only [lengthLimited, List.isEmpty_eq_false_iff.2 hne, any_bad_bounds_eq_false hb, h, Bool.false_eq_true, if_false]

theorem lengthLimited_of_infeasible {ys : List Sym} (hb : ∀ y ∈ usedSyms ys, max 1 y.lo ≤ y.hi) (hne : usedSyms ys ≠ [])
    (h : ¬ Feasible (usedSyms ys)) : lengthLimited ys = .error .buildInfeasible := by
  have hnone : assignLengths (usedSyms ys) firstRow = none := by
    rw [Option.eq_none_iff_forall_ne_some]
    rintro ⟨ls, b⟩ hp
    obtain ⟨-, hw, hspent⟩ := assignLengths_firstRow hp
    exact h ⟨ls, hw, hspent⟩
  exact lengthLimited_of_none hb hne hnone

theorem lengthLimited_of_feasible {ys : List Sym} (h : Feasible (usedSyms ys)) :
    ∃ ls, assignLengths (usedSyms ys) firstRow = some (ls, 0) ∧ lengthLimited ys = .ok (spreadLengths ys ls) := by
  obtain ⟨ls, hp⟩ := assignLengths_firstRow_of_feasible h
  exact ⟨ls, hp, lengthLimited_of_some h.bounds h.ne_nil hp⟩

/-- One of the four cases above holds. -/
theorem lengthLimited_cases (ys : List Sym) :
    usedSyms ys = [] ∨ (∃ y ∈ usedSyms ys, y.hi < max 1 y.lo) ∨
      ((∀ y ∈ usedSyms ys, max 1 y.lo ≤ y.hi) ∧ usedSyms ys ≠ [] ∧ ¬ Feasible (usedSyms ys)) ∨ Feasible (usedSyms ys) := by
  by_cases hf : Feasible (usedSyms ys)
  · exact .inr (.inr (.inr hf))
  by_cases hb : ∃ y ∈ usedSyms ys, y.hi < max 1 y.lo
  · exact .inr (.inl hb)
  by_cases hu : usedSyms ys = []
  · exact .inl hu
  · exact .inr (.inr (.inl ⟨fun y hy => Nat.not_lt.1 fun h => hb ⟨y, hy, h⟩, hu, hf⟩))

/-- Settles O21: each of the four cases has its answer, and the cases exclude each other. -/
theorem lengthLimitedAnswers : Obligations.LengthLimitedAnswers := by
  intro ys
  rcases lengthLimited_cases ys with hu | hbad | ⟨hb, hne, hinf⟩ | hf
  · have heq := lengthLimited_of_unused hu
    simp [heq, hu]
  · have heq := lengthLimited_of_bad_bounds hbad
    have hnot : ¬ ∀ y ∈ usedSyms ys, max 1 y.lo ≤ y.hi := by
      obtain ⟨y, hy, hlt⟩ := hbad
      exact fun hall => absurd (hall y hy) (Nat.not_le.2 hlt)
    exact ⟨iff_of_true heq hbad, iff_of_false (by rw [heq]; simp) (fun h => hnot h.1), fun h => absurd h hnot⟩
  · have heq := lengthLimited_of_infeasible hb hne hinf
    refine ⟨iff_of_false (by rw [heq]; simp) ?_, iff_of_true heq ⟨hb, hne, hinf⟩, fun _ h => absurd h (not_or_intro hne hinf)⟩
    rintro ⟨y, hy, hlt⟩
    exact absurd (hb y hy) (Nat.not_le.2 hlt)
  · obtain ⟨ls, -, heq⟩ := lengthLimited_of_feasible hf
    refine ⟨iff_of_false (by rw [heq]; simp) ?_, iff_of_false (by rw [heq]; simp) (fun h => h.2.2 hf), fun _ _ => ⟨_, heq⟩⟩
    rintro ⟨y, hy, hlt⟩
    exact absurd (hf.bounds y hy) (Nat.not_le.2 hlt)

/-- All that an answer can be: every symbol has what R161 gives it, and the used ones fill the budget. -/
theorem lengthLimited_eq_ok {ys : List Sym} {lens : List Nat} (h : lengthLimited ys = .ok lens) :
    ∃ ls, lens = spreadLengths ys ls ∧ WithinBounds (usedSyms ys) ls ∧
      (usedSyms ys = [] ∨ assignLengths (usedSyms ys) firstRow = some (ls, 0) ∧ spent ls = budget) := by
  rcases lengthLimited_cases ys with hu | hbad | ⟨hb, hne, hinf⟩ | hf
  · rw [lengthLimited_of_unused hu] at h
    exact ⟨[], (Except.ok.inj h).symm, hu ▸ .nil, .inl hu⟩
  · rw [lengthLimited_of_bad_bounds hbad] at h
    cases h
  · rw [lengthLimited_of_infeasible hb hne hinf] at h
    cases h
  · obtain ⟨ls, hp, heq⟩ := lengthLimited_of_feasible hf
    obtain ⟨-, hw, hspent⟩ := assignLengths_firstRow hp
    rw [heq] at h
    exact ⟨ls, (Except.ok.inj h).symm, hw, .inr ⟨hp, hspent⟩⟩

theorem lengthLimited_takes {ys : List Sym} {lens : List Nat} (h : lengthLimited ys = .ok lens) :
    List.Forall₂ Sym.Takes ys lens := by
  obtain ⟨ls, rfl, hw, -⟩ := lengthLimited_eq_ok h
  exact spreadLengths_takes hw

theorem takes_getElem? {ys : List Sym} {lens : List Nat} (h : List.Forall₂ Sym.Takes ys lens) {i : Nat} {y : Sym}
    (hy : ys[i]? = some y) : lens[i]? = some (lens.getD i 0) ∧ y.Takes (lens.getD i 0) := by
  obtain ⟨hi, rfl⟩ := List.getElem?_eq_some_iff.1 hy
  have hi' : i < lens.length := h.length_eq ▸ hi
  rw [List.getElem?_eq_getElem hi', List.getD_eq_getElem _ _ hi']
  exact ⟨rfl, h.get hi hi'⟩

/-! ## The tie-break -/

theorem lex_append_of_length_eq {l₁ l₂ : List Nat} (h : List.Lex (· < ·) l₁ l₂) (hl : l₁.length = l₂.length) (m₁ m₂ : List Nat) :
    List.Lex (· < ·) (l₁ ++ m₁) (l₂ ++ m₂) := by
  induction h with
  | nil => cases hl
  | cons _ ih => exact .cons (ih (Nat.succ.inj hl))
  | rel hlt => exact .rel hlt

theorem WithinBounds.length_eq {ys : List Sym} {ls : List Nat} (h : WithinBounds ys ls) : ls.length = ys.length :=
  (List.Forall₂.length_eq h).symm

/-- The backward pass takes the smallest of the lengths that the table allows at its budget. -/
theorem pickLength_le {y : Sym} {r r' : BudgetRow} {b L L' u : Nat} (h : pickLength y r r' b = some L) (hL' : L' ∈ y.lengths)
    (hcost : lengthCost L' ≤ b) (hu : r.at (b - lengthCost L') = some u) (hv : r'.at b = some (u + y.freq * L')) : L ≤ L' := by
  obtain ⟨-, as, bs, hsplit, hfirst⟩ := List.find?_eq_some_iff_append.1 h
  have hnot : L' ∉ as := fun hmem => by simpa [hcost, hu, hv] using hfirst L' hmem
  have hmem : L' ∈ L :: bs := (List.mem_append.1 (hsplit ▸ hL')).resolve_left hnot
  have hsorted : (as ++ L :: bs).Pairwise (· < ·) := hsplit ▸ List.pairwise_lt_range'
  rcases List.mem_cons.1 hmem with rfl | hmem
  · exact Nat.le_refl _
  · exact Nat.le_of_lt (List.rel_of_pairwise_cons (List.pairwise_append.1 hsorted).2.1 hmem)

/-- Among the lengths of least cost, the two passes take those that come first from the last symbol back. -/
theorem assignLengths_lex {ys : List Sym} {r : BudgetRow} (h : r.RisesFrom 0) {ls : List Nat} {b u : Nat}
    (ha : assignLengths ys r = some (ls, b)) (hu : r.at b = some u) {ls' : List Nat} {b' u' : Nat} (hw : WithinBounds ys ls')
    (hb' : b' + spent ls' = budget) (hu' : r.at b' = some u') (hcost : u + totalCost ys ls = u' + totalCost ys ls') :
    ls = ls' ∨ List.Lex (· < ·) ls.reverse ls'.reverse := by
  induction ys generalizing r ls b u ls' b' u' with
  | nil =>
    obtain ⟨hls, -⟩ := assignLengths_sound h ha
    cases hls
    cases hw
    exact .inl rfl
  | cons y ys ih =>
    simp only [assignLengths] at ha
    cases hrest : assignLengths ys (nextRow y r) with
    | none => rw [hrest] at ha; cases ha
    | some p =>
      obtain ⟨ms, b₁⟩ := p
      rw [hrest] at ha
      have hrow := (budgetRow_next y r h).1
      obtain ⟨hms, hspent, v, hv, hleast⟩ := assignLengths_sound hrow hrest
      obtain ⟨L, w, hpick, -, -, hw', hvw⟩ := pickLength_some h (by omega) hv
      simp only [hpick, Option.some.injEq, Prod.mk.injEq] at ha
      obtain ⟨rfl, rfl⟩ := ha
      obtain rfl : w = u := Option.some.inj (hw'.symm.trans hu)
      obtain ⟨L', ms', hL', hms', rfl⟩ := List.forall₂_cons_left_iff.1 hw
      simp only [spent, List.map_cons, List.sum_cons] at hb'
      simp only [totalCost, List.zipWith_cons_cons, List.sum_cons] at hcost hleast
      have hL' := Sym.mem_lengths.2 hL'
      have hterm : lengthTerm y r (b' + lengthCost L') L' = some (u' + y.freq * L') := by simp [lengthTerm, hu']
      obtain ⟨v', hv'⟩ := optMin_foldr_isSome hL' hterm
      have hle : v' ≤ u' + y.freq * L' := (optMin_foldr_some hv').2 L' hL' _ hterm
      rw [← (budgetRow_next y r h).2 _ (by omega)] at hv'
      have hfill : b' + lengthCost L' + spent ms' = budget := by simp only [spent]; omega
      have hge := hleast ms' _ v' hms' hfill hv'
      obtain rfl : v' = u' + y.freq * L' := by omega
      simp only [List.reverse_cons]
      rcases ih hrow hrest hv hms' hfill hv' (by simp only [totalCost]; omega) with rfl | hlex
      · obtain rfl : b₁ = b' + lengthCost L' := by omega
        have hLL' : L ≤ L' := pickLength_le hpick hL' (by omega) (by simpa using hu') hv'
        rcases Nat.eq_or_lt_of_le hLL' with rfl | hlt
        · exact .inl rfl
        · exact .inr (List.Lex.append_left _ (.rel hlt) _)
      · exact .inr (lex_append_of_length_eq hlex (by simp [hms.length_eq, hms'.length_eq]) _ _)

/-- Settles O20: the least cost is `assignLengths_sound`'s, the tie-break `assignLengths_lex`'s, both from the first row. -/
theorem lengthLimitedIsOptimal : Obligations.LengthLimitedIsOptimal := by
  intro ys lens hok
  have htakes := lengthLimited_takes hok
  obtain ⟨ls, rfl, hw, hcase⟩ := lengthLimited_eq_ok hok
  have hmine : usedLengths ys (spreadLengths ys ls) = ls := usedLengths_spreadLengths hw.length_eq
  refine ⟨htakes.length_eq.symm, fun i y hy hfreq => ?_, hmine.symm ▸ hw, fun hne => ?_, fun other ho hspent => ?_⟩
  · obtain ⟨hlen, hunused, -⟩ := takes_getElem? htakes hy
    rw [hlen, hunused hfreq]
  · rw [hmine]
    exact (hcase.resolve_left hne).2
  · rw [hmine]
    rcases hcase with hu | ⟨hp, -⟩
    · rw [hu] at hw ho
      cases hw
      cases ho
      exact .inr ⟨rfl, .inl rfl⟩
    · obtain ⟨-, -, u, hu, hleast⟩ := assignLengths_sound firstRow_rises hp
      obtain ⟨-, rfl⟩ := firstRow_at.1 hu
      have hle := hleast other 0 0 ho (by omega) hu
      rcases Nat.lt_or_eq_of_le hle with hlt | heq
      · exact .inl (by omega)
      · exact .inr ⟨by omega, assignLengths_lex firstRow_rises hp hu ho (by omega) hu heq⟩

end Sys2Proof.Machine

/-! SUPPORT. The statements of spec/42_prefix_code.md R162 to R169: `PC.HCLR` and `PC.BUILD`, which writes the lengths of the two
levels of R161's construction and their canonical codes. -/

namespace Sys2Proof.Machine

/-! ## PC.HCLR, R167 -/

/-- Settles O19: the cleared histograms are `Hist.zero`. -/
theorem histogramsClear : Obligations.HistogramsClear := by
  intro s c
  refine ⟨by simpa [Instr.fields] using encode_toNat (.pcHclr c), Hist.zero, rfl, fun t => ?_, fun j => ?_⟩
  · exact Vector.getElem_replicate t.isLt
  · exact Vector.getElem_replicate j.isLt

/-! ## Which alphabets have a complete code -/

/-- `2^depth` symbols or fewer have a complete code of that depth: two halves, each one step deeper. -/
theorem exists_complete_lengths (depth n : Nat) (hpos : 1 ≤ n) (hle : n ≤ 2 ^ depth) :
    ∃ ls : List Nat, ls.length = n ∧ (∀ L ∈ ls, L ≤ depth) ∧ (2 ≤ n → ∀ L ∈ ls, 1 ≤ L) ∧
      (ls.map fun L => 2 ^ (depth - L)).sum = 2 ^ depth := by
  induction depth generalizing n with
  | zero =>
    obtain rfl : n = 1 := by omega
    exact ⟨[0], by simp⟩
  | succ depth ih =>
    by_cases hn : n = 1
    · subst hn
      exact ⟨[0], by simp⟩
    · rw [Nat.pow_succ] at hle
      obtain ⟨as, halen, hadepth, -, hasum⟩ := ih (n / 2) (by omega) (by omega)
      obtain ⟨bs, hblen, hbdepth, -, hbsum⟩ := ih (n - n / 2) (by omega) (by omega)
      have hdepth : ∀ L ∈ as ++ bs, L ≤ depth := fun L hL => (List.mem_append.1 hL).elim (hadepth L) (hbdepth L)
      refine ⟨(as ++ bs).map (· + 1), by simp only [List.length_map, List.length_append]; omega, ?_, ?_, ?_⟩
      · exact List.forall_mem_map.2 fun L hL => Nat.succ_le_succ (hdepth L hL)
      · exact fun _ => List.forall_mem_map.2 fun L _ => Nat.succ_pos L
      · simp [Function.comp_def, hasum, hbsum, Nat.pow_succ, Nat.mul_two]

theorem lengthCost_mul_two_pow {L h : Nat} (hL : L ≤ h) (h15 : h ≤ 15) : lengthCost L = 2 ^ (h - L) * lengthCost h := by
  rw [lengthCost, lengthCost, ← Nat.pow_add]
  congr 1
  omega

theorem two_pow_mul_lengthCost {L : Nat} (hL : L ≤ 15) : 2 ^ L * lengthCost L = budget := by
  rw [lengthCost, budget, ← Nat.pow_add]
  congr 1
  omega

/-- Symbols with the same upper bound `depth` and no lower bound have a complete code when they are two or more and no more
than fit. -/
theorem feasible_of_depth {ys : List Sym} {depth : Nat} (hys : ∀ y ∈ ys, y.lo = 0 ∧ y.hi = depth) (hdepth : depth ≤ 15)
    (htwo : 2 ≤ ys.length) (hfit : ys.length ≤ 2 ^ depth) : Feasible ys := by
  obtain ⟨ls, hlen, hle, hpos, hsum⟩ := exists_complete_lengths depth ys.length (by omega) hfit
  refine ⟨ls, List.forall₂_iff_zip.2 ⟨hlen.symm, fun {y L} hmem => ?_⟩, ?_⟩
  · obtain ⟨hy, hL⟩ := List.of_mem_zip hmem
    obtain ⟨hlo, hhi⟩ := hys y hy
    have hL1 := hpos htwo L hL
    have hLd := hle L hL
    omega
  · have hcost : ls.map lengthCost = ls.map fun L => 2 ^ (depth - L) * lengthCost depth :=
      List.map_congr_left fun L hL => lengthCost_mul_two_pow (hle L hL) hdepth
    rw [spent, hcost, List.sum_map_mul_right, hsum, two_pow_mul_lengthCost hdepth]

theorem length_mul_le_spent {ls : List Nat} {depth : Nat} (h : ∀ L ∈ ls, L ≤ depth) : ls.length * lengthCost depth ≤ spent ls := by
  induction ls with
  | nil => simp
  | cons L ls ih =>
    obtain ⟨hL, hls⟩ := List.forall_mem_cons.1 h
    have hcost : lengthCost depth ≤ lengthCost L := Nat.pow_le_pow_right (by decide) (by omega)
    have hrest := ih hls
    simp only [spent, List.map_cons, List.sum_cons, List.length_cons, Nat.succ_mul] at hrest ⊢
    omega

theorem WithinBounds.le_depth {ys : List Sym} {ls : List Nat} {depth : Nat} (h : WithinBounds ys ls)
    (hys : ∀ y ∈ ys, y.hi ≤ depth) : ∀ L ∈ ls, L ≤ depth := by
  induction h with
  | nil => simp
  | cons hL _ ih =>
    obtain ⟨hy, hys⟩ := List.forall_mem_cons.1 hys
    exact List.forall_mem_cons.2 ⟨hL.2.trans hy, ih hys⟩

/-- A complete code of a depth up to 15 has no more symbols than fit. -/
theorem Feasible.length_le {ys : List Sym} {depth : Nat} (h : Feasible ys) (hys : ∀ y ∈ ys, y.hi ≤ depth) (hdepth : depth ≤ 15) :
    ys.length ≤ 2 ^ depth := by
  obtain ⟨ls, hw, hspent⟩ := h
  have hbound := length_mul_le_spent (hw.le_depth hys)
  rw [hspent, ← two_pow_mul_lengthCost hdepth, hw.length_eq] at hbound
  exact Nat.le_of_mul_le_mul_right hbound (Nat.two_pow_pos _)

/-- One symbol alone cannot fill the budget: its code has a length of at least 1. -/
theorem Feasible.two_le_length {ys : List Sym} (h : Feasible ys) : 2 ≤ ys.length := by
  obtain ⟨ls, hw, hspent⟩ := h
  match ys, ls, hw with
  | [], [], _ => exact absurd hspent (by decide)
  | [y], [L], .cons hL .nil =>
    have hcost : lengthCost L ≤ 2 ^ 14 := Nat.pow_le_pow_right (by decide) (by omega)
    simp only [spent, budget, List.map_cons, List.map_nil, List.sum_cons, List.sum_nil] at hspent
    omega
  | _ :: _ :: _, _, _ => simp

end Sys2Proof.Machine

/-! SUPPORT. The tables of a built code and the two levels of its lengths (spec/42_prefix_code.md R162 to R166). -/

namespace Sys2Proof.Machine

/-! ## Kraft sums, R168 -/

@[simp] theorem kraft_nil : kraft [] = 0 := rfl

theorem kraft_cons (L : Nat) (ls : List Nat) : kraft (L :: ls) = (if L = 0 then 0 else lengthCost L) + kraft ls := by
  by_cases hL : L = 0
  · simp [kraft, hL]
  · simp [kraft, hL, Nat.pos_of_ne_zero hL]

theorem kraft_append (ls ms : List Nat) : kraft (ls ++ ms) = kraft ls + kraft ms := by simp [kraft]

@[simp] theorem kraft_replicate_zero (n : Nat) : kraft (List.replicate n 0) = 0 := by simp [kraft]

theorem kraft_spreadLengths {ys : List Sym} {ls : List Nat} (h : WithinBounds (usedSyms ys) ls) :
    kraft (spreadLengths ys ls) = spent ls := by
  induction ys generalizing ls with
  | nil => cases h; rfl
  | cons y ys ih =>
    by_cases hy : y.freq = 0
    · rw [usedSyms_cons_unused hy] at h
      rw [spreadLengths, if_pos hy, kraft_cons, if_pos rfl, ih h, Nat.zero_add]
    · rw [usedSyms_cons_used hy] at h
      obtain ⟨L, ls, hL, hls, rfl⟩ := List.forall₂_cons_left_iff.1 h
      rw [spreadLengths, if_neg hy, List.headD_cons, List.tail_cons, kraft_cons, if_neg (by omega), ih hls]
      rfl

/-- R168 (1), (2): the lengths of a level with a used symbol are a complete code. -/
theorem kraft_of_lengthLimited {ys : List Sym} {lens : List Nat} (h : lengthLimited ys = .ok lens) (hne : usedSyms ys ≠ []) :
    kraft lens = budget := by
  obtain ⟨ls, rfl, hw, hcase⟩ := lengthLimited_eq_ok h
  rw [kraft_spreadLengths hw]
  exact (hcase.resolve_left hne).2

/-- Lengths put behind a common part of `E` bits take `2^E` times less of the budget. -/
theorem kraft_map_add {E : Nat} {ls : List Nat} (h : ∀ L ∈ ls, L ≤ 15 - E) (hE : E ≤ 15) :
    kraft (ls.map fun L => if L > 0 then E + L else 0) * 2 ^ E = kraft ls := by
  induction ls with
  | nil => simp
  | cons L ls ih =>
    obtain ⟨hL, hls⟩ := List.forall_mem_cons.1 h
    rw [List.map_cons, kraft_cons, kraft_cons, Nat.add_mul, ih hls]
    by_cases h0 : L = 0
    · simp [h0]
    · have hcost : lengthCost (E + L) * 2 ^ E = lengthCost L := by
        rw [lengthCost, lengthCost, ← Nat.pow_add]
        congr 1
        omega
      rw [if_pos (Nat.pos_of_ne_zero h0), if_neg (by omega), if_neg h0, hcost]

/-! ## Tables of numbers -/

theorem entry_toTable {w n : Nat} (l : List Nat) {k : Nat} (hk : k < n) : entry (toTable w n l) k = BitVec.ofNat w (l.getD k 0) := by
  rw [entry_eq _ hk, toTable, Vector.getElem_ofFn]

/-- A number that fits its entry reads back. -/
theorem entry_toTable_toNat {w n : Nat} {l : List Nat} {k : Nat} (hk : k < n) (hl : l.getD k 0 < 2 ^ w) :
    (entry (toTable w n l) k).toNat = l.getD k 0 := by
  rw [entry_toTable l hk, BitVec.toNat_ofNat, Nat.mod_eq_of_lt hl]

theorem getElem?_toList_entry {w n : Nat} (v : Vector (BitVec w) n) {k : Nat} (hk : k < n) : v.toList[k]? = some (entry v k) := by
  rw [entry_eq v hk, Vector.getElem?_toList, Vector.getElem?_eq_getElem hk]

/-- The numbers of a table, in order. -/
theorem getD_map_toNat {w n : Nat} (v : Vector (BitVec w) n) {k : Nat} (hk : k < n) :
    (v.toList.map BitVec.toNat).getD k 0 = (entry v k).toNat := by
  rw [List.getD_eq_getElem?_getD, List.getElem?_map, getElem?_toList_entry v hk]
  rfl

theorem toTable_map_toNat {w n : Nat} {l : List Nat} (hn : l.length = n) (hl : ∀ L ∈ l, L < 2 ^ w) :
    (toTable w n l).toList.map BitVec.toNat = l := by
  refine List.ext_getElem (by simp [hn]) fun k h₁ h₂ => ?_
  have hk : k < n := hn ▸ h₂
  have hget : l.getD k 0 = l[k] := List.getD_eq_getElem _ _ h₂
  rw [← List.getD_eq_getElem _ 0 h₁, getD_map_toNat _ hk, entry_toTable_toNat hk (hget ▸ hl _ (List.getElem_mem h₂)), hget]

/-! ## The combined space, R164 -/

theorem combine_getD_raw {raw : List Nat} (lz : List Nat) {k : Nat} (hk : k < raw.length) :
    (combine raw lz).getD k 0 = raw.getD k 0 :=
  List.getD_append _ _ _ _ hk

theorem combine_getD_lz {raw : List Nat} (hraw : raw.length = 19) (lz : List Nat) (j : Nat) :
    (combine raw lz).getD (224 + j) 0 = lz.getD j 0 := by
  have hlow : raw.length ≤ 224 + j := by omega
  have hzeros : (List.replicate 205 0).length ≤ 224 + j - raw.length := by rw [List.length_replicate]; omega
  rw [combine, List.getD_append_right _ _ _ _ hlow, List.getD_append_right _ _ _ _ hzeros, List.length_replicate, hraw,
    show 224 + j - 19 - 205 = j by omega]

theorem combine_getD_reserved {raw : List Nat} (hraw : raw.length = 19) (lz : List Nat) {k : Nat} (hlo : 19 ≤ k) (hhi : k < 224) :
    (combine raw lz).getD k 0 = 0 := by
  have hlow : raw.length ≤ k := by omega
  have hzeros : k - raw.length < (List.replicate 205 0).length := by rw [List.length_replicate]; omega
  rw [combine, List.getD_append_right _ _ _ _ hlow, List.getD_append _ _ _ _ hzeros, List.getD_replicate]
  rwa [List.length_replicate] at hzeros

theorem combine_length {raw lz : List Nat} (hraw : raw.length = 19) (hlz : lz.length = 33) : (combine raw lz).length = 257 := by
  rw [combine, List.length_append, List.length_append, List.length_replicate, hraw, hlz]

theorem mem_combine {raw lz : List Nat} {L : Nat} : L ∈ combine raw lz → L ∈ raw ∨ L = 0 ∨ L ∈ lz := by
  simp only [combine, List.mem_append, List.mem_replicate]
  tauto

theorem kraft_combine (raw lz : List Nat) : kraft (combine raw lz) = kraft raw + kraft lz := by
  rw [combine, kraft_append, kraft_append, kraft_replicate_zero, Nat.zero_add]

/-! ## The first level, R162 -/

theorem State.firstLevel_length (s : State) (c : Chan) : (s.firstLevel c).length = 20 := by simp [State.firstLevel]

theorem State.firstLevel_raw (s : State) (c : Chan) {k : Nat} (hk : k < 19) :
    (s.firstLevel c)[k]? = some ⟨(entry (s.hist c).raw k).toNat, (entry s.minlen k).toNat, (entry s.maxlen k).toNat⟩ := by
  rw [State.firstLevel, List.getElem?_map, List.getElem?_range (by omega), Option.map_some, if_pos hk]

theorem State.firstLevel_escape (s : State) (c : Chan) :
    (s.firstLevel c)[19]? = some ⟨(s.hist c).escape, (entry s.minlen 19).toNat, (entry s.maxlen 19).toNat⟩ := rfl

theorem State.firstLevel_hi (s : State) (c : Chan) : ∀ y ∈ s.firstLevel c, y.hi ≤ 15 := by
  refine List.forall_mem_map.2 fun k _ => ?_
  exact Nat.le_of_lt_succ (entry s.maxlen k).isLt

theorem takes_le_depth {ys : List Sym} {lens : List Nat} {depth : Nat} (h : List.Forall₂ Sym.Takes ys lens)
    (hys : ∀ y ∈ ys, y.hi ≤ depth) : ∀ L ∈ lens, L ≤ depth := by
  induction h with
  | nil => simp
  | @cons y L _ _ hL _ ih =>
    obtain ⟨hy, hys⟩ := List.forall_mem_cons.1 hys
    refine List.forall_mem_cons.2 ⟨?_, ih hys⟩
    obtain ⟨hunused, hused⟩ := hL
    omega

/-! ## The second level, R163 -/

/-- How many run-length symbols are counted, `|J|` of R163. -/
def Hist.runSymbols (h : Hist) : Nat := (h.lz.toList.filter (· ≠ 0)).length

theorem word_toNat_eq_zero {f : Word} : f.toNat = 0 ↔ f = 0 := BitVec.toNat_inj (y := 0)

theorem escape_eq_zero_iff {h : Hist} : h.escape = 0 ↔ ∀ f ∈ h.lz.toList, f = 0 := by
  rw [Hist.escape, List.sum_eq_zero_iff, List.forall_mem_map]
  exact forall₂_congr fun f _ => word_toNat_eq_zero

theorem runSymbols_eq_zero_iff {h : Hist} : h.runSymbols = 0 ↔ ∀ f ∈ h.lz.toList, f = 0 := by
  simp [Hist.runSymbols]

theorem length_usedSyms_subLevel (h : Hist) (E : Nat) : (usedSyms (h.subLevel E)).length = h.runSymbols := by
  have hfreq : (fun f : Word => decide (0 < f.toNat)) = fun f => decide (f ≠ 0) := by
    funext f
    rw [decide_eq_decide, Nat.pos_iff_ne_zero, Ne, word_toNat_eq_zero]
  rw [usedSyms, Hist.subLevel, List.filter_map, List.length_map, Hist.runSymbols, ← hfreq]
  rfl

theorem subLevel_bounds {h : Hist} {E : Nat} {y : Sym} (hy : y ∈ usedSyms (h.subLevel E)) : y.lo = 0 ∧ y.hi = 15 - E := by
  obtain ⟨hmem, -⟩ := mem_usedSyms.1 hy
  obtain ⟨f, -, rfl⟩ := List.mem_map.1 hmem
  exact ⟨rfl, rfl⟩

/-- No run-length symbol, or one alone, which takes the escape's code. -/
theorem secondLevel_of_le_one {h : Hist} (hm : h.runSymbols ≤ 1) (E : Nat) :
    h.secondLevel E = .ok (h.lz.toList.map fun f => if f = 0 then 0 else E) := by
  by_cases hzero : h.runSymbols = 0
  · have hall := runSymbols_eq_zero_iff.1 hzero
    have hmap : (h.lz.toList.map fun f => if f = 0 then 0 else E) = List.replicate 33 0 := by
      refine List.eq_replicate_iff.2 ⟨by simp, List.forall_mem_map.2 fun f hf => if_pos (hall f hf)⟩
    rw [Hist.secondLevel, if_pos (escape_eq_zero_iff.2 hall), hmap]
  · have hesc : h.escape ≠ 0 := fun he => hzero (runSymbols_eq_zero_iff.2 (escape_eq_zero_iff.1 he))
    rw [Hist.secondLevel, if_neg hesc, if_pos (by rw [← Hist.runSymbols]; omega)]

section
variable {h : Hist} (hm : 2 ≤ h.runSymbols) {E : Nat}
include hm

theorem escape_ne_zero_of_two_le : h.escape ≠ 0 := fun he => by
  have hzero := runSymbols_eq_zero_iff.2 (escape_eq_zero_iff.1 he)
  omega

theorem secondLevel_of_ok {L2 : List Nat} (hL : lengthLimited (h.subLevel E) = .ok L2) :
    h.secondLevel E = .ok (L2.map fun l => if l > 0 then E + l else 0) := by
  rw [Hist.secondLevel, if_neg (escape_ne_zero_of_two_le hm), if_neg (by rw [← Hist.runSymbols]; omega), hL]

theorem secondLevel_of_error {f : FaultName} (hf : lengthLimited (h.subLevel E) = .error f) : h.secondLevel E = .error f := by
  rw [Hist.secondLevel, if_neg (escape_ne_zero_of_two_le hm), if_neg (by rw [← Hist.runSymbols]; omega), hf]

/-- Two or more run-length symbols have a sub-code exactly when they fit behind the escape. -/
theorem feasible_subLevel_iff : Feasible (usedSyms (h.subLevel E)) ↔ h.runSymbols ≤ 2 ^ (15 - E) := by
  rw [← length_usedSyms_subLevel h E] at hm ⊢
  refine ⟨fun hf => hf.length_le (fun y hy => Nat.le_of_eq (subLevel_bounds hy).2) (Nat.sub_le 15 E), fun hfit => ?_⟩
  exact feasible_of_depth (fun y hy => subLevel_bounds hy) (Nat.sub_le 15 E) hm hfit

end

/-- What R163 gives a run-length symbol: 0 when it is not counted, else the escape's length or more. -/
def RunTakes (E : Nat) (f : Word) (L : Nat) : Prop := (f = 0 → L = 0) ∧ (f ≠ 0 → E ≤ L ∧ L ≤ 15)

theorem forall₂_map_right {α β : Type} {R : α → β → Prop} {l : List α} {g : α → β} (h : ∀ a ∈ l, R a (g a)) :
    List.Forall₂ R l (l.map g) :=
  List.forall₂_map_right_iff.2 (List.forall₂_same.2 h)

theorem kraft_map_escape (l : List Word) (E : Nat) :
    kraft (l.map fun f => if f = 0 then 0 else E) = (l.filter (· ≠ 0)).length * kraft [E] := by
  induction l with
  | nil => simp
  | cons f l ih =>
    rw [List.map_cons, kraft_cons, ih]
    by_cases hf : f = 0
    · rw [if_pos hf, if_pos rfl, Nat.zero_add, List.filter_cons_of_neg (by simp [hf])]
    · rw [if_neg hf, List.filter_cons_of_pos (by simpa using hf), List.length_cons, Nat.succ_mul, kraft_cons, kraft_nil,
        Nat.add_zero, Nat.add_comm]

theorem subLevel_takes {h : Hist} {E : Nat} {L2 : List Nat} (hL : lengthLimited (h.subLevel E) = .ok L2) :
    (∀ L ∈ L2, L ≤ 15 - E) ∧ List.Forall₂ (fun f L => (f = 0 → L = 0) ∧ (f ≠ 0 → 0 < L ∧ L ≤ 15 - E)) h.lz.toList L2 := by
  have htakes := lengthLimited_takes hL
  refine ⟨takes_le_depth htakes (List.forall_mem_map.2 fun f _ => Nat.le_refl _), ?_⟩
  refine (List.forall₂_map_left_iff.1 htakes).imp fun f L hfL => ⟨fun hf => hfL.1 (word_toNat_eq_zero.2 hf), fun hf => ?_⟩
  exact hfL.2 (mt word_toNat_eq_zero.1 hf)

/-- All that the second level can answer behind an escape of length `E`, which is 0 when there is nothing to put behind it: a
length for every symbol, and together they take what the escape alone would (R168 (3)). -/
theorem secondLevel_spec {h : Hist} {E : Nat} {LZ : List Nat} (hok : h.secondLevel E = .ok LZ) (hE : E ≤ 15)
    (hesc : E = 0 ↔ h.escape = 0) : List.Forall₂ (RunTakes E) h.lz.toList LZ ∧ kraft LZ = kraft [E] := by
  by_cases hm : h.runSymbols ≤ 1
  · rw [secondLevel_of_le_one hm] at hok
    cases hok
    refine ⟨forall₂_map_right fun f _ => ⟨fun hf => if_pos hf, fun hf => ?_⟩, ?_⟩
    · rw [if_neg hf]
      exact ⟨Nat.le_refl E, hE⟩
    · rw [kraft_map_escape, ← Hist.runSymbols]
      by_cases hzero : h.runSymbols = 0
      · have hE0 : E = 0 := hesc.2 (escape_eq_zero_iff.2 (runSymbols_eq_zero_iff.1 hzero))
        simp [hzero, hE0, kraft_cons]
      · rw [show h.runSymbols = 1 by omega, Nat.one_mul]
  · have hm : 2 ≤ h.runSymbols := Nat.not_le.1 hm
    have hE0 : E ≠ 0 := fun h0 => escape_ne_zero_of_two_le hm (hesc.1 h0)
    cases hL : lengthLimited (h.subLevel E) with
    | error f => rw [secondLevel_of_error hm hL] at hok; cases hok
    | ok L2 =>
      rw [secondLevel_of_ok hm hL] at hok
      cases hok
      obtain ⟨hdepth, htakes⟩ := subLevel_takes hL
      have hlong : ∀ f L, (f = 0 → L = 0) ∧ (f ≠ 0 → 0 < L ∧ L ≤ 15 - E) → RunTakes E f (if L > 0 then E + L else 0) := by
        rintro f L ⟨hunused, hused⟩
        refine ⟨fun hf => by rw [hunused hf]; rfl, fun hf => ?_⟩
        obtain ⟨hpos, hle⟩ := hused hf
        rw [if_pos hpos]
        omega
      refine ⟨List.forall₂_map_right_iff.2 (htakes.imp hlong), ?_⟩
      · have hne : usedSyms (h.subLevel E) ≠ [] := by
          rw [← List.length_pos_iff, length_usedSyms_subLevel]
          omega
        refine Nat.eq_of_mul_eq_mul_right (Nat.two_pow_pos E) ?_
        rw [kraft_map_add hdepth hE, kraft_of_lengthLimited hL hne, kraft_cons, if_neg hE0, kraft_nil, Nat.add_zero, Nat.mul_comm,
          two_pow_mul_lengthCost hE]

end Sys2Proof.Machine

/-! SUPPORT. `PC.BUILD` (spec/42_prefix_code.md R166, R168): when it raises, and the code it writes. -/

namespace Sys2Proof.Machine

/-! ## The lengths of both levels -/

theorem buildLengths_of_first_error {s : State} {c : Chan} {f : FaultName} (h : lengthLimited (s.firstLevel c) = .error f) :
    s.buildLengths c = .error f := by
  simp only [State.buildLengths, h]

theorem buildLengths_of_second_error {s : State} {c : Chan} {f : FaultName} {L1 : List Nat}
    (h1 : lengthLimited (s.firstLevel c) = .ok L1) (h2 : (s.hist c).secondLevel (L1.getD 19 0) = .error f) :
    s.buildLengths c = .error f := by
  simp only [State.buildLengths, h1, h2]

theorem buildLengths_of_ok {s : State} {c : Chan} {L1 LZ : List Nat} (h1 : lengthLimited (s.firstLevel c) = .ok L1)
    (h2 : (s.hist c).secondLevel (L1.getD 19 0) = .ok LZ) : s.buildLengths c = .ok (L1, LZ) := by
  simp only [State.buildLengths, h1, h2]

theorem buildLengths_eq_ok {s : State} {c : Chan} {L1 LZ : List Nat} (h : s.buildLengths c = .ok (L1, LZ)) :
    lengthLimited (s.firstLevel c) = .ok L1 ∧ (s.hist c).secondLevel (L1.getD 19 0) = .ok LZ := by
  cases h1 : lengthLimited (s.firstLevel c) with
  | error f => rw [buildLengths_of_first_error h1] at h; cases h
  | ok M1 =>
    cases h2 : (s.hist c).secondLevel (M1.getD 19 0) with
    | error f => rw [buildLengths_of_second_error h1 h2] at h; cases h
    | ok MZ =>
      rw [buildLengths_of_ok h1 h2] at h
      cases h
      exact ⟨rfl, h2⟩

/-! ## The command -/

theorem exec_pcBuild_of_ok {s : State} {c : Chan} {L1 LZ : List Nat} (h : s.buildLengths c = .ok (L1, LZ)) :
    exec (.pcBuild c) s = .next { s with codes := s.codes.set c (codeOfLengths L1 LZ), pc := s.pc + 1 } := by
  simp only [exec, execPcBuild, h]
  rfl

theorem exec_pcBuild_of_error {s : State} {c : Chan} {f : FaultName} (h : s.buildLengths c = .error f) :
    RaisesOnly (.pcBuild c) s f := by
  simp only [RaisesOnly, exec, execPcBuild, h]

/-- A `PC.BUILD` that does not fault has written the code of both levels' lengths. -/
theorem exec_pcBuild_no_fault {s t : State} {c : Chan} (h : exec (.pcBuild c) s = .next t) (ht : t.seq ≠ .fault) :
    ∃ L1 LZ, lengthLimited (s.firstLevel c) = .ok L1 ∧ (s.hist c).secondLevel (L1.getD 19 0) = .ok LZ ∧
      t.code c = codeOfLengths L1 LZ := by
  cases hb : s.buildLengths c with
  | error f =>
    rw [exec_pcBuild_of_error hb] at h
    cases h
    exact absurd rfl ht
  | ok p =>
    obtain ⟨L1, LZ⟩ := p
    obtain ⟨h1, h2⟩ := buildLengths_eq_ok hb
    rw [exec_pcBuild_of_ok hb] at h
    cases h
    exact ⟨L1, LZ, h1, h2, Vector.getElem_set_self c.isLt⟩

/-! ## What the first level gives -/

section
variable {s : State} {c : Chan} {L1 : List Nat} (h1 : lengthLimited (s.firstLevel c) = .ok L1)
include h1

theorem firstLevel_lengths : L1.length = 20 ∧ ∀ L ∈ L1, L ≤ 15 := by
  have htakes := lengthLimited_takes h1
  exact ⟨htakes.length_eq.symm.trans (s.firstLevel_length c), takes_le_depth htakes (s.firstLevel_hi c)⟩

theorem firstLevel_raw_takes {k : Nat} (hk : k < 19) :
    Sym.Takes ⟨(entry (s.hist c).raw k).toNat, (entry s.minlen k).toNat, (entry s.maxlen k).toNat⟩ (L1.getD k 0) :=
  (takes_getElem? (lengthLimited_takes h1) (s.firstLevel_raw c hk)).2

/-- The escape has a length when a run-length symbol is counted. -/
theorem firstLevel_escape_length : L1.getD 19 0 ≤ 15 ∧ (L1.getD 19 0 = 0 ↔ (s.hist c).escape = 0) := by
  obtain ⟨hget, htakes⟩ := takes_getElem? (lengthLimited_takes h1) (s.firstLevel_escape c)
  refine ⟨(firstLevel_lengths h1).2 _ (List.mem_of_getElem? hget), ?_⟩
  have hpos := htakes.pos_iff
  rw [Nat.pos_iff_ne_zero] at hpos
  exact not_iff_not.1 hpos

end

/-! ## The tables of the two levels -/

/-- Lengths that the tables and R164's space can hold. -/
structure LevelsFit (L1 LZ : List Nat) : Prop where
  first : L1.length = 20
  second : LZ.length = 33
  first_le : ∀ L ∈ L1, L ≤ 15
  second_le : ∀ L ∈ LZ, L ≤ 15

theorem runTakes_le {E : Nat} {l : List Word} {LZ : List Nat} (h : List.Forall₂ (RunTakes E) l LZ) : ∀ L ∈ LZ, L ≤ 15 := by
  induction h with
  | nil => simp
  | @cons f L _ _ hL _ ih =>
    refine List.forall_mem_cons.2 ⟨?_, ih⟩
    by_cases hf : f = 0
    · rw [hL.1 hf]
      exact Nat.zero_le 15
    · exact (hL.2 hf).2

theorem runTakes_entry {E n : Nat} {v : Vector Word n} {LZ : List Nat} (h : List.Forall₂ (RunTakes E) v.toList LZ) {j : Nat}
    (hj : j < n) : RunTakes E (entry v j) (LZ.getD j 0) := by
  have hv : j < v.toList.length := by rwa [Vector.length_toList]
  have hLZ : j < LZ.length := h.length_eq ▸ hv
  rw [entry_eq v hj, List.getD_eq_getElem _ _ hLZ]
  exact h.get hv hLZ

theorem levelsFit_of_ok {s : State} {c : Chan} {L1 LZ : List Nat} (h1 : lengthLimited (s.firstLevel c) = .ok L1)
    (h2 : (s.hist c).secondLevel (L1.getD 19 0) = .ok LZ) : LevelsFit L1 LZ := by
  obtain ⟨hE, hesc⟩ := firstLevel_escape_length h1
  obtain ⟨hrun, -⟩ := secondLevel_spec h2 hE hesc
  obtain ⟨hlen, hle⟩ := firstLevel_lengths h1
  exact ⟨hlen, hrun.length_eq.symm.trans (Vector.length_toList ..), hle, runTakes_le hrun⟩

theorem getD_le_of_forall_mem {l : List Nat} {b : Nat} (hl : ∀ L ∈ l, L ≤ b) (i : Nat) : l.getD i 0 ≤ b := by
  by_cases hi : i < l.length
  · rw [List.getD_eq_getElem _ _ hi]
    exact hl _ (List.getElem_mem hi)
  · rw [List.getD_eq_default _ _ (Nat.not_lt.1 hi)]
    exact Nat.zero_le b

theorem getD_take {n k : Nat} (hk : k < n) (l : List Nat) : (l.take n).getD k 0 = l.getD k 0 := by
  rw [List.getD_eq_getElem?_getD, List.getD_eq_getElem?_getD, List.getElem?_take_of_lt hk]

section
variable {L1 LZ : List Nat} (h : LevelsFit L1 LZ)
include h

theorem LevelsFit.raw_length : (L1.take 19).length = 19 := by
  rw [List.length_take, h.first]
  rfl

theorem LevelsFit.combine_le : ∀ L ∈ combine (L1.take 19) LZ, L ≤ 15 := by
  intro L hL
  rcases mem_combine hL with hraw | rfl | hlz
  · exact h.first_le L (List.mem_of_mem_take hraw)
  · exact Nat.zero_le 15
  · exact h.second_le L hlz

theorem LevelsFit.isCanonical : IsCanonical (combine (L1.take 19) LZ) (canonical (combine (L1.take 19) LZ)) :=
  canonical_isCanonical _ h.combine_le

/-- A code word of up to 15 bits fits its table entry. -/
theorem LevelsFit.bits_lt (i : Nat) : (canonical (combine (L1.take 19) LZ)).getD i 0 < 2 ^ 16 := by
  have hlen := getD_le_of_forall_mem h.combine_le i
  exact (h.isCanonical.small i).trans_le (Nat.pow_le_pow_right (by decide) (by omega))

theorem codeOfLengths_raw {k : Nat} (hk : k < 19) :
    (entry (codeOfLengths L1 LZ).rawLen k).toNat = L1.getD k 0 ∧
      (entry (codeOfLengths L1 LZ).rawBits k).toNat = (canonical (combine (L1.take 19) LZ)).getD k 0 := by
  have hlen := getD_le_of_forall_mem h.first_le k
  have hbits := h.bits_lt k
  rw [← getD_take hk] at hlen hbits
  rw [codeOfLengths, entry_toTable_toNat hk (by omega), entry_toTable_toNat hk hbits, getD_take hk, getD_take hk]
  exact ⟨rfl, rfl⟩

theorem codeOfLengths_lz {j : Nat} (hj : j < 33) :
    (entry (codeOfLengths L1 LZ).lzLen j).toNat = LZ.getD j 0 ∧
      (entry (codeOfLengths L1 LZ).lzBits j).toNat = (canonical (combine (L1.take 19) LZ)).getD (224 + j) 0 := by
  have hdrop (l : List Nat) : (l.drop 224).getD j 0 = l.getD (224 + j) 0 := by
    rw [List.getD_eq_getElem?_getD, List.getD_eq_getElem?_getD, List.getElem?_drop]
  have hlen := getD_le_of_forall_mem h.second_le j
  have hbits := h.bits_lt (224 + j)
  rw [← hdrop] at hbits
  rw [codeOfLengths, entry_toTable_toNat hj (by omega), entry_toTable_toNat hj hbits, hdrop]
  exact ⟨rfl, rfl⟩

/-- The combined lengths of the tables are those of the two levels. -/
theorem codeOfLengths_combined : (codeOfLengths L1 LZ).combined = combine (L1.take 19) LZ := by
  have hraw : ∀ L ∈ L1.take 19, L < 2 ^ 4 := fun L hL => Nat.lt_succ_of_le (h.first_le L (List.mem_of_mem_take hL))
  have hlz : ∀ L ∈ LZ, L < 2 ^ 4 := fun L hL => Nat.lt_succ_of_le (h.second_le L hL)
  rw [Code.combined, codeOfLengths, toTable_map_toNat h.raw_length hraw, toTable_map_toNat h.second hlz]

theorem LevelsFit.first_eq_append : L1 = L1.take 19 ++ [L1.getD 19 0] := by
  have h19 : 19 < L1.length := by rw [h.first]; decide
  rw [List.getD_eq_getElem _ _ h19, ← List.take_succ_eq_append_getElem h19, List.take_of_length_le h.first.le]

end

/-! ## The statements of R166 and R168 -/

theorem codeOfLengths_zero : codeOfLengths (List.replicate 20 0) (List.replicate 33 0) = Code.zero := by rfl

/-- With no counted symbol, both levels give every symbol length 0. -/
theorem buildLengths_of_unused {s : State} {c : Chan} (h : usedSyms (s.firstLevel c) = []) :
    s.buildLengths c = .ok (List.replicate 20 0, List.replicate 33 0) := by
  have h1 : lengthLimited (s.firstLevel c) = .ok (List.replicate 20 0) := by
    rw [lengthLimited_of_unused h, spreadLengths_nil h, List.map_const', s.firstLevel_length]
  have hesc : (s.hist c).escape = 0 := (firstLevel_escape_length h1).2.1 rfl
  exact buildLengths_of_ok h1 (by rw [Hist.secondLevel, if_pos hesc])

theorem getD_map_of_getElem? {α : Type} (l : List α) (g : α → Nat) {j : Nat} {a : α} (h : l[j]? = some a) : (l.map g).getD j 0 = g a := by
  rw [List.getD_eq_getElem?_getD, List.getElem?_map, h]
  rfl

theorem getD_map_add (l : List Nat) (E j : Nat) :
    (l.map fun L => if L > 0 then E + L else 0).getD j 0 = if l.getD j 0 = 0 then 0 else E + l.getD j 0 := by
  have hmap := List.getD_map (l := l) (d := 0) (n := j) fun L => if L > 0 then E + L else 0
  rw [if_neg (Nat.lt_irrefl 0)] at hmap
  rw [hmap]
  split <;> split <;> omega

/-- R163 answers when at most one run-length symbol is counted, or no more than fit behind the escape. -/
theorem exists_secondLevel {h : Hist} (E : Nat) (hm : h.runSymbols ≤ 1 ∨ h.runSymbols ≤ 2 ^ (15 - E)) :
    ∃ LZ, h.secondLevel E = .ok LZ ∧
      (h.runSymbols ≤ 1 → ∀ j, j < 33 → LZ.getD j 0 = if entry h.lz j = 0 then 0 else E) ∧
      (2 ≤ h.runSymbols → ∃ L2, lengthLimited (h.subLevel E) = .ok L2 ∧
        ∀ j, j < 33 → LZ.getD j 0 = if L2.getD j 0 = 0 then 0 else E + L2.getD j 0) := by
  by_cases hone : h.runSymbols ≤ 1
  · refine ⟨_, secondLevel_of_le_one hone E, fun _ j hj => ?_, fun htwo => absurd htwo (by omega)⟩
    exact getD_map_of_getElem? _ _ (getElem?_toList_entry _ hj)
  · have htwo : 2 ≤ h.runSymbols := Nat.not_le.1 hone
    obtain ⟨ls, -, hok⟩ := lengthLimited_of_feasible ((feasible_subLevel_iff htwo).2 (hm.resolve_left hone))
    exact ⟨_, secondLevel_of_ok htwo hok, fun hle => absurd hle hone, fun _ => ⟨_, hok, fun j _ => getD_map_add _ _ j⟩⟩

/-- Settles O22: the first level answers, the second has at most one symbol or a sub-code that fits, and the tables hold both. -/
theorem pcBuildMakesCode : Obligations.PcBuildMakesCode := by
  intro s c
  refine ⟨by simpa [Instr.fields] using encode_toNat (.pcBuild c), ⟨s.firstLevel_length c, fun k => s.firstLevel_raw c,
    s.firstLevel_escape c⟩, fun hu => ?_, fun hf => ?_, fun L1 h1 hm => ?_⟩
  · rw [exec_pcBuild_of_ok (buildLengths_of_unused hu), codeOfLengths_zero]
  · obtain ⟨ls, -, hok⟩ := lengthLimited_of_feasible hf
    exact ⟨_, hok⟩
  · obtain ⟨LZ, h2, hLZone, hLZtwo⟩ := exists_secondLevel (L1.getD 19 0) hm
    have hfit := levelsFit_of_ok h1 h2
    exact ⟨LZ, _, codeOfLengths L1 LZ, hfit.second, hLZone, hLZtwo, hfit.isCanonical,
      exec_pcBuild_of_ok (buildLengths_of_ok h1 h2), fun k hk => codeOfLengths_raw hfit hk, fun j hj => codeOfLengths_lz hfit hj⟩

/-- Settles O23: the first level's faults are those of R161; the second level's bounds are bad when nothing is left of 15 bits. -/
theorem pcBuildFaults : Obligations.PcBuildFaults := by
  intro s c
  have hfirst {f : FaultName} (h : lengthLimited (s.firstLevel c) = .error f) : RaisesOnly (.pcBuild c) s f :=
    exec_pcBuild_of_error (buildLengths_of_first_error h)
  refine ⟨fun hbad => hfirst (lengthLimited_of_bad_bounds hbad),
    fun hb hne hinf => hfirst (lengthLimited_of_infeasible hb hne hinf), fun hb hone => ?_, fun L1 h1 hm => ?_⟩
  · refine hfirst (lengthLimited_of_infeasible hb (List.ne_nil_of_length_eq_add_one hone) fun hf => ?_)
    have := hf.two_le_length
    omega
  · have hm : 2 ≤ (s.hist c).runSymbols := hm
    have hlen := length_usedSyms_subLevel (s.hist c) (L1.getD 19 0)
    have hne : usedSyms ((s.hist c).subLevel (L1.getD 19 0)) ≠ [] := List.ne_nil_of_length_pos (by omega)
    have hsecond {f : FaultName} (h : lengthLimited ((s.hist c).subLevel (L1.getD 19 0)) = .error f) : RaisesOnly (.pcBuild c) s f :=
      exec_pcBuild_of_error (buildLengths_of_second_error h1 (secondLevel_of_error hm h))
    refine ⟨fun h15 => hsecond (lengthLimited_of_bad_bounds ?_), fun hlt hmany => hsecond (lengthLimited_of_infeasible ?_ hne ?_)⟩
    · obtain ⟨y, hy⟩ := List.exists_mem_of_ne_nil _ hne
      have hhi := (subLevel_bounds hy).2
      exact ⟨y, hy, by omega⟩
    · intro y hy
      obtain ⟨hlo, hhi⟩ := subLevel_bounds hy
      omega
    · rw [feasible_subLevel_iff hm]
      exact Nat.not_le.2 hmany

/-- R168 (3): in the combined space the run-length codes take what the escape's code would. -/
theorem kraft_both_levels {s : State} {c : Chan} {L1 LZ : List Nat} (h1 : lengthLimited (s.firstLevel c) = .ok L1)
    (h2 : (s.hist c).secondLevel (L1.getD 19 0) = .ok LZ) : kraft (combine (L1.take 19) LZ) = kraft L1 := by
  obtain ⟨hE, hesc⟩ := firstLevel_escape_length h1
  obtain ⟨-, hkraft⟩ := secondLevel_spec h2 hE hesc
  rw [kraft_combine, hkraft, ← kraft_append, ← (levelsFit_of_ok h1 h2).first_eq_append]

/-- Settles O24: the first level fills the budget, and every symbol has what R161 and R163 give it. -/
theorem builtCodeIsComplete : Obligations.BuiltCodeIsComplete := by
  intro s t c _ h ht
  obtain ⟨L1, LZ, h1, h2, hcode⟩ := exec_pcBuild_no_fault h ht
  have hfit := levelsFit_of_ok h1 h2
  obtain ⟨hE, hesc⟩ := firstLevel_escape_length h1
  obtain ⟨hrun, -⟩ := secondLevel_spec h2 hE hesc
  rw [hcode]
  refine ⟨fun hne => ?_, fun k hk => ?_, fun j hj => ?_⟩
  · rw [codeOfLengths_combined hfit, kraft_both_levels h1 h2, kraft_of_lengthLimited h1 hne]
  · obtain ⟨hlen, -⟩ := codeOfLengths_raw hfit hk
    obtain ⟨hunused, hused⟩ := firstLevel_raw_takes h1 hk
    have hzero : (0 : BitVec 4).toNat = 0 ∧ (0 : Word).toNat = 0 := ⟨rfl, rfl⟩
    simp only [BitVec.le_def, ← BitVec.toNat_inj, hzero, hlen, ne_eq] at hunused hused ⊢
    refine ⟨hunused, fun hcounted => ?_⟩
    obtain ⟨hlo, hhi⟩ := hused hcounted
    exact ⟨by omega, le_of_max_le_right hlo, hhi⟩
  · obtain ⟨hlen, -⟩ := codeOfLengths_lz hfit hj
    obtain ⟨hunused, hused⟩ := runTakes_entry hrun hj
    rw [← BitVec.toNat_inj (x := entry (codeOfLengths L1 LZ).lzLen j), hlen]
    refine ⟨hunused, fun hL => ?_⟩
    by_contra hf
    have hzero : (s.hist c).escape = 0 := hesc.1 (Nat.eq_zero_of_le_zero ((hused hf).1.trans hL.le))
    exact hf (escape_eq_zero_iff.1 hzero _ (List.mem_of_getElem? (getElem?_toList_entry _ hj)))

end Sys2Proof.Machine

/-! SUPPORT. The code words of a canonical code (spec/42_prefix_code.md R165), and that none of them begins another (R168 (5)). -/

namespace Sys2Proof.Machine

/-! ## The code words of each length -/

theorem kraft_filter_succ (L : List Nat) (q : Nat) :
    kraft (L.filter (· ≤ q + 1)) = kraft (L.filter (· ≤ q)) + L.count (q + 1) * lengthCost (q + 1) := by
  induction L with
  | nil => simp
  | cons l L ih =>
    rcases Nat.lt_trichotomy l (q + 1) with hlt | rfl | hgt
    · rw [List.filter_cons_of_pos (by simp; omega), List.filter_cons_of_pos (by simp; omega), kraft_cons, kraft_cons, ih,
        List.count_cons_of_ne (by omega), Nat.add_assoc]
    · rw [List.filter_cons_of_pos (by simp), List.filter_cons_of_neg (by simp), kraft_cons, if_neg (Nat.succ_ne_zero q), ih,
        List.count_cons_self, Nat.succ_mul]
      omega
    · rw [List.filter_cons_of_neg (by simp; omega), List.filter_cons_of_neg (by simp; omega), ih, List.count_cons_of_ne (by omega)]

theorem kraft_filter_le (L : List Nat) (p : Nat → Bool) : kraft (L.filter p) ≤ kraft L := by
  induction L with
  | nil => simp
  | cons l L ih =>
    rw [List.filter_cons, kraft_cons]
    split
    · rw [kraft_cons]
      omega
    · omega

theorem lengthCount_of_ne_zero (L : List Nat) {q : Nat} (h : q ≠ 0) : lengthCount L q = L.count q := if_neg h

/-- The code words up to length `q`, counted at that length, take what the lengths up to `q` take of the budget. -/
theorem firstCode_mul_lengthCost (L : List Nat) {q : Nat} (hq : q ≤ 15) :
    (firstCode L q + lengthCount L q) * lengthCost q = kraft (L.filter (· ≤ q)) := by
  induction q with
  | zero =>
    have hzero : kraft (L.filter (· ≤ 0)) = 0 := by
      rw [List.filter_congr (q := (· == 0)) (fun l _ => Bool.eq_iff_iff.2 (by simp)), List.filter_beq, kraft_replicate_zero]
    rw [hzero, firstCode, lengthCount, if_pos rfl, Nat.zero_add, Nat.zero_mul]
  | succ q ih =>
    have hcost : lengthCost q = 2 * lengthCost (q + 1) := by
      rw [lengthCost, lengthCost, ← Nat.pow_succ']
      congr 1
      omega
    rw [kraft_filter_succ, ← ih (by omega), hcost, firstCode, lengthCount_of_ne_zero L (Nat.succ_ne_zero q)]
    ring

/-- The code words of a longer length begin after those of a shorter one. -/
theorem le_firstCode (L : List Nat) (q d : Nat) : (firstCode L q + lengthCount L q) * 2 ^ (d + 1) ≤ firstCode L (q + d + 1) := by
  induction d with
  | zero => simp [firstCode]
  | succ d ih =>
    rw [Nat.pow_succ, ← Nat.mul_assoc, ← Nat.add_assoc, firstCode]
    exact Nat.mul_le_mul_right 2 (ih.trans (Nat.le_add_right _ _))

/-! ## The word of a symbol -/

theorem codeWord_eq (L : List Nat) (i : Nat) :
    codeWord L i = firstCode L (L.getD i 0) + (L.take i).count (L.getD i 0) := by
  rw [codeWord, firstCode_eq]

theorem lt_length_of_getD_ne_zero {L : List Nat} {i : Nat} (h : L.getD i 0 ≠ 0) : i < L.length :=
  Nat.not_le.1 fun hle => h (List.getD_eq_default _ _ hle)

/-- Of two symbols of the same length, the later has the greater count before it. -/
theorem count_take_lt {L : List Nat} {i j : Nat} (hi : i < L.length) (hij : i < j) :
    (L.take i).count (L.getD i 0) < (L.take j).count (L.getD i 0) := by
  have hsucc : (L.take (i + 1)).count (L.getD i 0) = (L.take i).count (L.getD i 0) + 1 := by
    rw [List.take_succ_eq_append_getElem hi, List.getD_eq_getElem _ _ hi, List.count_append, List.count_singleton_self]
  have hle := (List.take_prefix_take_left (l := L) (Nat.succ_le_of_lt hij)).sublist.count_le (L.getD i 0)
  rw [Nat.succ_eq_add_one, hsucc] at hle
  exact hle

section
variable {L : List Nat} {i : Nat} (hi : L.getD i 0 ≠ 0)
include hi

theorem codeWord_lt_next : codeWord L i < firstCode L (L.getD i 0) + lengthCount L (L.getD i 0) := by
  have hlen := lt_length_of_getD_ne_zero hi
  have hcount := count_take_lt hlen hlen
  rw [List.take_length] at hcount
  rw [codeWord_eq, lengthCount_of_ne_zero L hi]
  omega

/-- A word fits its length when the lengths fit the budget. -/
theorem codeWord_lt (h15 : L.getD i 0 ≤ 15) (hkraft : kraft L ≤ budget) : codeWord L i < 2 ^ L.getD i 0 := by
  refine (codeWord_lt_next hi).trans_le (Nat.le_of_mul_le_mul_right ?_ (Nat.two_pow_pos (15 - L.getD i 0)))
  calc (firstCode L (L.getD i 0) + lengthCount L (L.getD i 0)) * lengthCost (L.getD i 0)
      = kraft (L.filter (· ≤ L.getD i 0)) := firstCode_mul_lengthCost L h15
    _ ≤ kraft L := kraft_filter_le L _
    _ ≤ budget := hkraft
    _ = 2 ^ L.getD i 0 * lengthCost (L.getD i 0) := (two_pow_mul_lengthCost h15).symm

/-- The word of a longer symbol lies past every word that begins with the word of the shorter one. -/
theorem codeWord_lt_div {j : Nat} (hlt : L.getD i 0 < L.getD j 0) :
    codeWord L i < codeWord L j / 2 ^ (L.getD j 0 - L.getD i 0) := by
  obtain ⟨d, hd⟩ := Nat.exists_eq_add_of_lt hlt
  have hfirst := le_firstCode L (L.getD i 0) d
  rw [← hd] at hfirst
  rw [Nat.lt_iff_add_one_le, Nat.le_div_iff_mul_le (Nat.two_pow_pos _), show L.getD j 0 - L.getD i 0 = d + 1 by omega]
  calc (codeWord L i + 1) * 2 ^ (d + 1)
      ≤ (firstCode L (L.getD i 0) + lengthCount L (L.getD i 0)) * 2 ^ (d + 1) := Nat.mul_le_mul_right _ (codeWord_lt_next hi)
    _ ≤ firstCode L (L.getD j 0) := hfirst
    _ ≤ codeWord L j := by rw [codeWord_eq]; exact Nat.le_add_right _ _

end

theorem codeWord_ne_of_length_eq {L : List Nat} {i j : Nat} (hi : L.getD i 0 ≠ 0) (hlen : L.getD i 0 = L.getD j 0) (hij : i < j) :
    codeWord L i ≠ codeWord L j := by
  have hcount := count_take_lt (lt_length_of_getD_ne_zero hi) hij
  rw [codeWord_eq, codeWord_eq, ← hlen]
  omega

/-! ## Beginnings -/

/-- When the bits of one symbol begin those of another, the word of the one is the beginning of the other's. -/
theorem codeWord_eq_of_prefix {L B : List Nat} (hcan : IsCanonical L B) {i j : Nat}
    (hp : natBits (L.getD i 0) (B.getD i 0) <+: natBits (L.getD j 0) (B.getD j 0)) (hi : codeWord L i < 2 ^ L.getD i 0)
    (hj : codeWord L j < 2 ^ L.getD j 0) :
    L.getD i 0 ≤ L.getD j 0 ∧ codeWord L i = codeWord L j / 2 ^ (L.getD j 0 - L.getD i 0) := by
  have hle : L.getD i 0 ≤ L.getD j 0 := by simpa using hp.length_le
  refine ⟨hle, ?_⟩
  have hdiv : codeWord L j / 2 ^ (L.getD j 0 - L.getD i 0) < 2 ^ L.getD i 0 := by
    rw [Nat.div_lt_iff_lt_mul (Nat.two_pow_pos _), ← Nat.pow_add, Nat.add_sub_cancel' hle]
    exact hj
  refine Nat.eq_of_testBit_eq fun k => ?_
  by_cases hk : k < L.getD i 0
  · have hbit : (B.getD i 0).testBit (L.getD i 0 - 1 - k) = (B.getD j 0).testBit (L.getD i 0 - 1 - k) := by
      have hget := hp.getElem (i := L.getD i 0 - 1 - k) (by rw [natBits_length]; omega)
      rwa [natBits_getElem, natBits_getElem] at hget
    rw [hcan.bits i _ (by omega), hcan.bits j _ (by omega)] at hbit
    rw [Nat.testBit_div_two_pow]
    convert hbit using 2 <;> omega
  · have hpow : 2 ^ L.getD i 0 ≤ 2 ^ k := Nat.pow_le_pow_right (by decide) (Nat.not_lt.1 hk)
    rw [Nat.testBit_lt_two_pow (hi.trans_le hpow), Nat.testBit_lt_two_pow (hdiv.trans_le hpow)]

/-- R165, R168 (5): no word of a canonical code that fits the budget begins another. -/
theorem IsCanonical.not_prefix {L B : List Nat} (hcan : IsCanonical L B) (h15 : ∀ l ∈ L, l ≤ 15) (hkraft : kraft L ≤ budget)
    {i j : Nat} (hij : i ≠ j) (hi : L.getD i 0 ≠ 0) (hj : L.getD j 0 ≠ 0) :
    ¬ natBits (L.getD i 0) (B.getD i 0) <+: natBits (L.getD j 0) (B.getD j 0) := by
  intro hp
  have hlt {k : Nat} (hk : L.getD k 0 ≠ 0) : codeWord L k < 2 ^ L.getD k 0 := codeWord_lt hk (getD_le_of_forall_mem h15 k) hkraft
  obtain ⟨hle, heq⟩ := codeWord_eq_of_prefix hcan hp (hlt hi) (hlt hj)
  rcases Nat.lt_or_eq_of_le hle with hshort | hsame
  · exact absurd heq (codeWord_lt_div hi hshort).ne
  · rw [hsame, Nat.sub_self, Nat.pow_zero, Nat.div_one] at heq
    rcases Nat.lt_or_gt_of_ne hij with hbefore | hafter
    · exact codeWord_ne_of_length_eq hi hsame hbefore heq
    · exact codeWord_ne_of_length_eq hj hsame.symm hafter heq.symm

/-! ## The words of a built code -/

/-- The combined index of word `x` of `Code.words`: the raw tokens, then the run-length tokens from 224 (R164). -/
def wordIndex (x : Nat) : Nat := if x < 19 then x else 205 + x

theorem wordIndex_inj {x y : Nat} (h : wordIndex x = wordIndex y) : x = y := by
  simp only [wordIndex] at h
  split at h <;> split at h <;> omega

theorem codeOfLengths_words {L1 LZ : List Nat} (h : LevelsFit L1 LZ) {x : Nat} {u : List Bool}
    (hx : (codeOfLengths L1 LZ).words[x]? = some u) :
    u = natBits ((combine (L1.take 19) LZ).getD (wordIndex x) 0)
      ((canonical (combine (L1.take 19) LZ)).getD (wordIndex x) 0) := by
  by_cases hraw : x < 19
  · obtain ⟨hlen, hbits⟩ := codeOfLengths_raw h hraw
    rw [Code.words, List.getElem?_append_left (by simpa using hraw), List.getElem?_map, List.getElem?_range hraw, Option.map_some,
      hlen, hbits] at hx
    rw [← Option.some.inj hx, wordIndex, if_pos hraw, combine_getD_raw LZ (by rwa [h.raw_length]), getD_take hraw]
  · obtain ⟨j, rfl⟩ := Nat.exists_eq_add_of_le (Nat.not_lt.1 hraw)
    rw [Code.words, List.getElem?_append_right (by simp), List.length_map, List.length_range, Nat.add_sub_cancel_left,
      List.getElem?_map, Option.map_eq_some_iff] at hx
    obtain ⟨k, hk, rfl⟩ := hx
    obtain ⟨hj, rfl⟩ := List.getElem?_eq_some_iff.1 hk
    rw [List.length_range] at hj
    rw [List.getElem_range]
    obtain ⟨hlen, hbits⟩ := codeOfLengths_lz h hj
    rw [hlen, hbits, wordIndex, if_neg hraw, show 205 + (19 + j) = 224 + j by omega, combine_getD_lz h.raw_length]

theorem kraft_le_of_lengthLimited {ys : List Sym} {lens : List Nat} (h : lengthLimited ys = .ok lens) : kraft lens ≤ budget := by
  by_cases hu : usedSyms ys = []
  · rw [lengthLimited_of_unused hu, spreadLengths_nil hu, List.map_const'] at h
    rw [← Except.ok.inj h, kraft_replicate_zero]
    exact Nat.zero_le budget
  · exact (kraft_of_lengthLimited h hu).le

/-- Settles O25: the words are those of the canonical code over the combined lengths, which fit the budget. -/
theorem builtCodeIsPrefixFree : Obligations.BuiltCodeIsPrefixFree := by
  intro s t c _ h ht
  obtain ⟨L1, LZ, h1, h2, hcode⟩ := exec_pcBuild_no_fault h ht
  have hfit := levelsFit_of_ok h1 h2
  have hkraft : kraft (combine (L1.take 19) LZ) ≤ budget := (kraft_both_levels h1 h2).trans_le (kraft_le_of_lengthLimited h1)
  rw [hcode]
  intro x y u v hu hv hxy hune hvne
  obtain rfl := codeOfLengths_words hfit hu
  obtain rfl := codeOfLengths_words hfit hv
  have hlen {n w : Nat} (hne : natBits n w ≠ []) : n ≠ 0 := fun h0 => hne (by rw [h0, natBits_zero_count])
  exact hfit.isCanonical.not_prefix hfit.combine_le hkraft (fun heq => hxy (wordIndex_inj heq)) (hlen hune) (hlen hvne)

end Sys2Proof.Machine

/-! SUPPORT. The statements of spec/42_prefix_code.md R170 and R171: the items of a serialized code, the code they are sent with, and
`PC.SERIAL`. -/

namespace Sys2Proof.Machine

/-! ## The last used index -/

/-- `i` is the largest index with a non-zero entry. -/
def IsLastUsed (l : List Nat) (i : Nat) : Prop := l.getD i 0 ≠ 0 ∧ ∀ k, i < k → l.getD k 0 = 0

theorem IsLastUsed.unique {l : List Nat} {i j : Nat} (hi : IsLastUsed l i) (hj : IsLastUsed l j) : i = j := by
  rcases Nat.lt_trichotomy i j with hlt | heq | hgt
  · exact absurd (hi.2 j hlt) hj.1
  · exact heq
  · exact absurd (hj.2 i hgt) hi.1

/-- Either there is a last used index, or every entry is 0. -/
theorem lastUsed_cases (l : List Nat) :
    (∃ i, lastUsed l = some i ∧ IsLastUsed l i) ∨ (lastUsed l = none ∧ ∀ i, l.getD i 0 = 0) := by
  induction l with
  | nil => exact .inr ⟨rfl, fun _ => rfl⟩
  | cons v l ih =>
    rcases ih with ⟨i, hlast, hne, hzero⟩ | ⟨hlast, hzero⟩
    · refine .inl ⟨i + 1, by simp only [lastUsed, hlast], hne, fun k hk => ?_⟩
      obtain ⟨k, rfl⟩ := Nat.exists_eq_add_of_lt hk
      exact hzero _ (by omega)
    · by_cases hv : v = 0
      · refine .inr ⟨by simp only [lastUsed, hlast, hv, if_true], fun i => ?_⟩
        cases i with
        | zero => exact hv
        | succ i => exact hzero i
      · refine .inl ⟨0, by simp only [lastUsed, hlast, hv, if_false], hv, fun k hk => ?_⟩
        obtain ⟨k, rfl⟩ := Nat.exists_eq_succ_of_ne_zero (Nat.pos_iff_ne_zero.1 hk)
        exact hzero k

theorem lastUsed_eq_some {l : List Nat} {i : Nat} : lastUsed l = some i ↔ IsLastUsed l i := by
  rcases lastUsed_cases l with ⟨j, hlast, hj⟩ | ⟨hlast, hzero⟩
  · rw [hlast, Option.some.injEq]
    exact ⟨fun h => h ▸ hj, hj.unique⟩
  · rw [hlast]
    exact iff_of_false (by simp) fun h => h.1 (hzero i)

theorem lastUsed_eq_none {l : List Nat} (h : ∀ L ∈ l, L = 0) : lastUsed l = none := by
  rcases lastUsed_cases l with ⟨j, -, hne, -⟩ | ⟨hlast, -⟩
  · have hj := lt_length_of_getD_ne_zero hne
    rw [List.getD_eq_getElem _ _ hj] at hne
    exact absurd (h _ (List.getElem_mem hj)) hne
  · exact hlast

/-- No index of the reserved zeros is the last used one (R164). -/
theorem IsLastUsed.not_reserved {raw lz : List Nat} (hraw : raw.length = 19) {last : Nat} (h : IsLastUsed (combine raw lz) last) :
    last < 19 ∨ 224 ≤ last := by
  by_contra hbetween
  exact h.1 (combine_getD_reserved hraw lz (by omega) (by omega))

/-! ## What the items stand for, R170 -/

theorem expandItems_lits_append (l : List Nat) (S : List Item) : expandItems 0 (l.map .lit ++ S) = l ++ expandItems 0 S := by
  induction l with
  | nil => rfl
  | cons v l ih => rw [List.map_cons, List.cons_append, expandItems, ih, List.replicate_zero, List.nil_append, List.cons_append]

theorem expandItems_lits (n : Nat) (l : List Nat) : expandItems n (l.map .lit) = List.replicate n 0 ++ l := by
  cases l with
  | nil => exact (List.append_nil _).symm
  | cons v l =>
    have hrest := expandItems_lits_append l []
    rw [List.append_nil, expandItems, List.replicate_zero, List.append_nil] at hrest
    rw [List.map_cons, expandItems, hrest]

/-- The three repeats stand for the 205 reserved zeros. -/
theorem expandItems_reserved (S : List Item) : expandItems 0 ([.rep 2, .rep 0, .rep 2] ++ S) = expandItems 205 S := rfl

theorem serialItems_of_raw (CL : List Nat) {last : Nat} (h : last < 19) : serialItems CL last = (CL.take (last + 1)).map .lit := by
  rw [serialItems, if_neg (by omega), List.append_nil, Nat.min_eq_left (by omega)]

theorem serialItems_of_lz (CL : List Nat) {last : Nat} (h : 224 ≤ last) :
    serialItems CL last =
      (CL.take 19).map .lit ++ ([.rep 2, .rep 0, .rep 2] ++ ((CL.drop 224).take (last - 223)).map .lit) := by
  rw [serialItems, if_pos h, Nat.min_eq_right (by omega)]

theorem combine_take {raw lz : List Nat} (hraw : raw.length = 19) {n : Nat} :
    (combine raw lz).take (224 + n) = raw ++ (List.replicate 205 0 ++ lz.take n) := by
  rw [combine, show 224 + n = raw.length + ((List.replicate 205 0).length + n) by rw [hraw, List.length_replicate]; omega,
    List.take_length_add_append, List.take_length_add_append]

theorem combine_take_raw {raw : List Nat} (hraw : raw.length = 19) (lz : List Nat) : (combine raw lz).take 19 = raw := by
  rw [combine, ← hraw, List.take_left]

theorem combine_drop {raw : List Nat} (hraw : raw.length = 19) (lz : List Nat) : (combine raw lz).drop 224 = lz := by
  rw [combine, show 224 = raw.length + (List.replicate 205 0).length by rw [hraw, List.length_replicate], ← List.drop_drop,
    List.drop_left, List.drop_left]

/-- Settles O27: a list that stops among the raw lengths is sent as it is; else the repeats stand between the two parts. -/
theorem serialItemsExpand : Obligations.SerialItemsExpand := by
  intro raw lz last hraw hlz hlast
  have hlast := lastUsed_eq_some.1 hlast
  refine ⟨?_, hlast.2⟩
  rcases hlast.not_reserved hraw with hlow | hhigh
  · rw [serialItems_of_raw _ hlow, expandItems_lits, List.replicate_zero, List.nil_append]
  · rw [serialItems_of_lz _ hhigh, expandItems_lits_append, expandItems_reserved, expandItems_lits, combine_take_raw hraw,
      combine_drop hraw, show last + 1 = 224 + (last - 223) by omega, combine_take hraw]

end Sys2Proof.Machine

/-! SUPPORT. `PC.SERIAL` (spec/42_prefix_code.md R170, R171, R149): its items and their code in closed form, and the bits it sends. -/

namespace Sys2Proof.Machine

/-! ## The items -/

theorem take_eq_map_range {l : List Nat} {n : Nat} (h : n ≤ l.length) : l.take n = (List.range n).map fun i => l.getD i 0 := by
  refine List.ext_getElem (by simpa using h) fun i h₁ h₂ => ?_
  have hi : i < l.length := by
    rw [List.length_take] at h₁
    omega
  rw [List.getElem_take, List.getElem_map, List.getElem_range, List.getD_eq_getElem _ _ hi]

theorem serialItems_eq_itemsToSend {CL : List Nat} (hlen : CL.length = 257) {last : Nat} (hlast : last < 257) :
    serialItems CL last = itemsToSend CL last := by
  have hhead : (CL.take (min last 18 + 1)).map Item.lit = (List.range (min last 18 + 1)).map fun i => .lit (CL.getD i 0) := by
    rw [take_eq_map_range (by omega), List.map_map]
    rfl
  have htail : ((CL.drop 224).take (last - 223)).map Item.lit =
      (List.range (last - 223)).map fun j => .lit (CL.getD (224 + j) 0) := by
    rw [take_eq_map_range (by rw [List.length_drop]; omega), List.map_map]
    refine List.map_congr_left fun j _ => ?_
    rw [Function.comp_apply, List.getD_eq_getElem?_getD, List.getElem?_drop, List.getD_eq_getElem?_getD]
  rw [serialItems, itemsToSend, hhead, htail]

theorem mem_itemsToSend_lit {CL : List Nat} {last v : Nat} (h : .lit v ∈ itemsToSend CL last) : ∃ i, v = CL.getD i 0 := by
  rw [itemsToSend, List.mem_append] at h
  rcases h with h | h
  · obtain ⟨i, -, hi⟩ := List.mem_map.1 h
    exact ⟨i, (Item.lit.inj hi).symm⟩
  · split at h
    · obtain ⟨j, -, hj⟩ := List.mem_map.1 ((List.mem_append.1 h).resolve_left (by simp))
      exact ⟨224 + j, (Item.lit.inj hj).symm⟩
    · cases h

/-- Length symbol 16 is never sent, since a length is at most 15. -/
theorem itemCount_eq_timesSent {S : List Item} (h15 : ∀ v, .lit v ∈ S → v ≤ 15) {v : Nat} (hv : v < 18) :
    itemCount S v = timesSent S v := by
  rcases Nat.lt_trichotomy v 16 with hlt | rfl | hgt
  · rw [itemCount, timesSent, if_pos (by omega), if_neg (by omega)]
  · exact (List.count_eq_zero.2 fun hmem => absurd (h15 16 hmem) (by decide)).symm
  · obtain rfl : v = 17 := by omega
    rw [itemCount, if_neg (by decide), if_pos rfl, ← List.countP_eq_length_filter]
    refine Eq.trans ?_ (if_pos rfl).symm
    exact List.countP_congr fun e _ => by cases e <;> exact Iff.rfl

theorem exists_timesSent_pos {CL : List Nat} (h15 : ∀ i, CL.getD i 0 ≤ 15) (last : Nat) :
    ∃ v, v < 18 ∧ 0 < timesSent (itemsToSend CL last) v := by
  have h0 := h15 0
  refine ⟨CL.getD 0 0, by omega, ?_⟩
  rw [timesSent, if_neg (by omega), List.count_pos_iff, itemsToSend]
  exact List.mem_append_left _ (List.mem_map.2 ⟨0, List.mem_range.2 (Nat.succ_pos _), rfl⟩)

/-! ## The code of the length symbols -/

/-- The alphabet of the 18 length symbols: no lower bound, at most 5 (R170). -/
def metaSyms (cnt : Nat → Nat) : List Sym := (List.range 18).map fun v => { freq := cnt v, lo := 0, hi := 5 }

/-- The length symbols in use. -/
def metaUsed (cnt : Nat → Nat) : List Nat := (List.range 18).filter fun v => decide (0 < cnt v)

theorem mem_metaUsed {cnt : Nat → Nat} {v : Nat} : v ∈ metaUsed cnt ↔ v < 18 ∧ 0 < cnt v := by simp [metaUsed]

theorem length_usedSyms_metaSyms (cnt : Nat → Nat) : (usedSyms (metaSyms cnt)).length = (metaUsed cnt).length := by
  rw [usedSyms, metaSyms, List.filter_map, List.length_map]
  rfl

theorem length_filter_counts (cnt : Nat → Nat) :
    (((List.range 18).map cnt).filter (· > 0)).length = (metaUsed cnt).length := by
  rw [List.filter_map, List.length_map]
  rfl

theorem metaSyms_bounds {cnt : Nat → Nat} {y : Sym} (hy : y ∈ metaSyms cnt) : y.lo = 0 ∧ y.hi = 5 := by
  obtain ⟨v, -, rfl⟩ := List.mem_map.1 hy
  exact ⟨rfl, rfl⟩

theorem metaSyms_getElem? (cnt : Nat → Nat) {v : Nat} (hv : v < 18) : (metaSyms cnt)[v]? = some ⟨cnt v, 0, 5⟩ := by
  rw [metaSyms, List.getElem?_map, List.getElem?_range hv]
  rfl

/-- `LengthLimited` cannot fault on two to 18 length symbols (R170). -/
theorem lengthLimited_metaSyms {cnt : Nat → Nat} (h : 2 ≤ (metaUsed cnt).length) : ∃ ML, lengthLimited (metaSyms cnt) = .ok ML := by
  have hle : (metaUsed cnt).length ≤ 18 := (List.length_filter_le _ _).trans (List.length_range ..).le
  rw [← length_usedSyms_metaSyms] at h hle
  obtain ⟨ls, -, hok⟩ := lengthLimited_of_feasible
    (feasible_of_depth (depth := 5) (fun y hy => metaSyms_bounds (mem_usedSyms.1 hy).1) (by decide) h (by omega))
  exact ⟨_, hok⟩

/-- Where the loop on `num` of R170 stops. -/
theorem trimMeta_spec (ML : List Nat) (n : Nat) :
    trimMeta ML n ≤ n ∧ (∀ i, trimMeta ML n ≤ i → i < n → ML.getD (sentOrder.getD i 0) 0 = 0) ∧
      (trimMeta ML n ≠ 0 → ML.getD (sentOrder.getD (trimMeta ML n - 1) 0) 0 ≠ 0) := by
  induction n with
  | zero => exact ⟨Nat.le_refl 0, fun i _ hi => absurd hi (Nat.not_lt_zero i), fun h => absurd rfl h⟩
  | succ n ih =>
    obtain ⟨hle, hzero, hlast⟩ := ih
    by_cases hn : ML.getD (sentOrder.getD n 0) 0 = 0
    · have heq : trimMeta ML (n + 1) = trimMeta ML n := if_pos hn
      rw [heq]
      refine ⟨Nat.le_succ_of_le hle, fun i hi hin => ?_, hlast⟩
      rcases Nat.lt_succ_iff_lt_or_eq.1 hin with hlt | rfl
      · exact hzero i hi hlt
      · exact hn
    · have heq : trimMeta ML (n + 1) = n + 1 := if_neg hn
      rw [heq]
      exact ⟨Nat.le_refl _, fun i hi hin => absurd hin (Nat.not_lt.2 hi), fun _ => hn⟩

theorem sentOrder_surjective : ∀ v, v < 18 → ∃ i, i < 18 ∧ sentOrder.getD i 0 = v := by decide

/-- Some length is announced, when a length symbol has one. -/
theorem trimMeta_ne_zero {ML : List Nat} {v : Nat} (hv : v < 18) (hML : ML.getD v 0 ≠ 0) : trimMeta ML 18 ≠ 0 := by
  intro h0
  obtain ⟨i, hi, rfl⟩ := sentOrder_surjective v hv
  exact hML ((trimMeta_spec ML 18).2.1 i (h0 ▸ Nat.zero_le i) hi)

theorem metaCode_of_one {cnt : List Nat} (h : (cnt.filter (· > 0)).length = 1) :
    metaCode cnt = .ok (cnt.map fun n => if n > 0 then 1 else 0, cnt.map fun _ => 0, 18) := if_pos h

theorem metaCode_of_many {cnt ML : List Nat} (h : (cnt.filter (· > 0)).length ≠ 1)
    (hML : lengthLimited (cnt.map fun n => { freq := n, lo := 0, hi := 5 }) = .ok ML) :
    metaCode cnt = .ok (ML, ML, trimMeta ML 18) := by
  simp only [metaCode, if_neg h, hML]

theorem metaCode_metaCode (cnt : Nat → Nat) (h : ∃ v, v < 18 ∧ 0 < cnt v) :
    ∃ ML EL num, metaCode ((List.range 18).map cnt) = .ok (ML, EL, num) ∧ MetaCode cnt ML EL num := by
  obtain ⟨v, hv, hpos⟩ := h
  have hmem : v ∈ metaUsed cnt := mem_metaUsed.2 ⟨hv, hpos⟩
  by_cases hone : (metaUsed cnt).length = 1
  · have hothers : ∀ u, u < 18 → u ≠ v → cnt u = 0 := by
      intro u hu hne
      obtain ⟨w, hw⟩ := List.length_eq_one_iff.1 hone
      by_contra hcnt
      have hmem' := mem_metaUsed.2 ⟨hu, Nat.pos_of_ne_zero hcnt⟩
      rw [hw, List.mem_singleton] at hmem hmem'
      exact hne (hmem'.trans hmem.symm)
    refine ⟨_, _, _, metaCode_of_one ((length_filter_counts cnt).trans hone), .inl ⟨v, hv, hpos, hothers, ?_, ?_, rfl⟩⟩
    · rw [List.map_map]
      refine List.map_congr_left fun u hu => ?_
      by_cases huv : u = v
      · rw [Function.comp_apply, huv, if_pos hpos, if_pos rfl]
      · rw [Function.comp_apply, hothers u (List.mem_range.1 hu) huv, if_neg (Nat.lt_irrefl 0), if_neg huv]
    · rw [List.map_map]
      rfl
  · have htwo : 2 ≤ (metaUsed cnt).length := by
      have := List.length_pos_of_mem hmem
      omega
    obtain ⟨ML, hML⟩ := lengthLimited_metaSyms htwo
    obtain ⟨-, htakes⟩ := takes_getElem? (lengthLimited_takes hML) (metaSyms_getElem? cnt hv)
    obtain ⟨hle, hzero, hlast⟩ := trimMeta_spec ML 18
    have hnum := trimMeta_ne_zero hv (Nat.pos_iff_ne_zero.1 (htakes.pos_iff.2 (Nat.pos_iff_ne_zero.1 hpos)))
    refine ⟨ML, ML, trimMeta ML 18, metaCode_of_many (by rwa [length_filter_counts]) (by rw [List.map_map]; exact hML),
      .inr ⟨?_, hML, rfl, Nat.pos_of_ne_zero hnum, hle, hlast hnum, hzero⟩⟩
    have hsorted : (metaUsed cnt).Pairwise (· < ·) := List.pairwise_lt_range.filter _
    match hused : metaUsed cnt, htwo with
    | u :: w :: rest, _ =>
      rw [hused] at hsorted
      obtain ⟨-, hu⟩ := mem_metaUsed.1 (hused ▸ List.mem_cons_self (a := u))
      obtain ⟨hw, hw'⟩ := mem_metaUsed.1 (hused ▸ List.mem_cons_of_mem u (List.mem_cons_self (a := w)))
      exact ⟨u, w, List.rel_of_pairwise_cons hsorted List.mem_cons_self, hw, hu, hw'⟩

theorem MetaCode.le_five {cnt : Nat → Nat} {ML EL : List Nat} {num : Nat} (h : MetaCode cnt ML EL num) :
    (∀ L ∈ ML, L ≤ 5) ∧ (∀ L ∈ EL, L ≤ 5) ∧ num ≤ 18 := by
  rcases h with ⟨v, -, -, -, rfl, rfl, rfl⟩ | ⟨-, hML, rfl, -, hnum, -⟩
  · refine ⟨List.forall_mem_map.2 fun u _ => ?_, fun L hL => ?_, Nat.le_refl 18⟩
    · split <;> decide
    · rw [List.eq_of_mem_replicate hL]
      decide
  · have hle := takes_le_depth (lengthLimited_takes hML) fun y hy => (metaSyms_bounds hy).2.le
    exact ⟨hle, hle, hnum⟩

/-! ## The writes -/

theorem serialWrites_of_none {CL : List Nat} (h : lastUsed CL = none) : serialWrites CL = .error .buildInfeasible := by
  simp only [serialWrites, h]

theorem serialWrites_of_ok {CL ML EL : List Nat} {last num : Nat} (hlast : lastUsed CL = some last)
    (h : metaCode ((List.range 18).map (itemCount (serialItems CL last))) = .ok (ML, EL, num)) :
    serialWrites CL = .ok ((2, 0) :: ((metaOrder.take num).map (fun v => metaLengthCode (ML.getD v 0)) ++
      (serialItems CL last).flatMap (itemWrites EL (canonical ML)))) := by
  simp only [serialWrites, hlast, h]

/-- The fixed code of R171, read off the model's table. -/
theorem metaLengthCode_eq : ∀ L, L ≤ 5 →
    [(2, 0), (4, 7), (3, 3), (2, 2), (2, 1), (4, 15)].getD L (0, 0) = metaLengthCode L ∧ (metaLengthCode L).1 ≤ 4 := by
  decide

section
variable {S : List Item} {ML EL MB : List Nat} {num : Nat}

theorem sentWrites_eq (hML : ∀ L ∈ ML, L ≤ 5) :
    sentWrites S ML EL MB num =
      (2, 0) :: ((sentOrder.take num).map (fun v => metaLengthCode (ML.getD v 0)) ++ S.flatMap (itemWrites EL MB)) := by
  rw [sentWrites]
  refine congrArg₂ (fun as bs => (2, 0) :: (as ++ bs)) ?_ ?_
  · exact List.map_congr_left fun v _ => (metaLengthCode_eq _ (getD_le_of_forall_mem hML v)).1
  · exact List.flatMap_congr fun e _ => by cases e <;> rfl

theorem itemWrites_count_le (hEL : ∀ L ∈ EL, L ≤ 5) (e : Item) : ∀ p ∈ itemWrites EL MB e, p.1 ≤ 5 := by
  have hle := getD_le_of_forall_mem hEL
  cases e with
  | lit v => simpa [itemWrites] using hle v
  | rep x => simpa [itemWrites] using hle 17

/-- Every write of a serialized code is short. -/
theorem sentWrites_count_le (hML : ∀ L ∈ ML, L ≤ 5) (hEL : ∀ L ∈ EL, L ≤ 5) : ∀ p ∈ sentWrites S ML EL MB num, p.1 ≤ 5 := by
  rw [sentWrites_eq hML, List.forall_mem_cons, List.forall_mem_append]
  refine ⟨by decide, List.forall_mem_map.2 fun v _ => ?_, List.forall_mem_flatMap.2 fun e _ => itemWrites_count_le hEL e⟩
  exact (metaLengthCode_eq _ (getD_le_of_forall_mem hML v)).2.trans (by decide)

theorem bitCount_le {l : List (Nat × Nat)} {b : Nat} (h : ∀ p ∈ l, p.1 ≤ b) : bitCount l ≤ l.length * b := by
  induction l with
  | nil => simp
  | cons p l ih =>
    obtain ⟨hp, hl⟩ := List.forall_mem_cons.1 h
    have := ih hl
    rw [bitCount_cons, List.length_cons, Nat.succ_mul]
    omega

theorem bitCount_lits_le (hEL : ∀ L ∈ EL, L ≤ 5) (f : Nat → Nat) (n : Nat) :
    bitCount (((List.range n).map fun i => Item.lit (f i)).flatMap (itemWrites EL MB)) ≤ n * 5 := by
  have hmap : ((List.range n).map fun i => Item.lit (f i)).flatMap (itemWrites EL MB) =
      (List.range n).map fun i => (EL.getD (f i) 0, MB.getD (f i) 0) := by
    rw [List.flatMap_map, List.map_eq_flatMap]
    rfl
  rw [hmap]
  refine (bitCount_le (b := 5) (List.forall_mem_map.2 fun i _ => getD_le_of_forall_mem hEL (f i))).trans (Nat.le_of_eq ?_)
  rw [List.length_map, List.length_range]

/-- The raw lengths, the three repeats and the run-length lengths. -/
theorem bitCount_items_le (hEL : ∀ L ∈ EL, L ≤ 5) {CL : List Nat} {last : Nat} (hlast : last < 257) :
    bitCount ((itemsToSend CL last).flatMap (itemWrites EL MB)) ≤ 284 := by
  have hraw := bitCount_lits_le (MB := MB) hEL (fun i => CL.getD i 0) (min last 18 + 1)
  have hlz := bitCount_lits_le (MB := MB) hEL (fun j => CL.getD (224 + j) 0) (last - 223)
  have hrep := getD_le_of_forall_mem hEL 17
  rw [itemsToSend, List.flatMap_append, bitCount_append]
  split
  · rw [List.flatMap_append, bitCount_append]
    simp only [List.flatMap_cons, List.flatMap_nil, itemWrites, bitCount_cons, bitCount_append, bitCount_nil] at hraw hlz ⊢
    omega
  · rw [List.flatMap_nil, bitCount_nil]
    omega

/-- R149: a serialized code is at most 358 bits. -/
theorem bitCount_sentWrites_le (hML : ∀ L ∈ ML, L ≤ 5) (hEL : ∀ L ∈ EL, L ≤ 5) (hnum : num ≤ 18) {CL : List Nat} {last : Nat}
    (hlast : last < 257) : bitCount (sentWrites (itemsToSend CL last) ML EL MB num) ≤ 358 := by
  have hmeta : bitCount ((sentOrder.take num).map fun v => metaLengthCode (ML.getD v 0)) ≤ num * 4 := by
    refine (bitCount_le (b := 4) (List.forall_mem_map.2 fun v _ =>
      (metaLengthCode_eq _ (getD_le_of_forall_mem hML v)).2)).trans (Nat.mul_le_mul_right 4 ?_)
    rw [List.length_map]
    exact List.length_take_le _ _
  have hitems := bitCount_items_le (MB := MB) hEL (CL := CL) hlast
  rw [sentWrites_eq hML, bitCount_cons, bitCount_append]
  omega

end

/-! ## The command -/

theorem exec_pcSerial_of_error {s : State} {c : Chan} {f : FaultName} (w : Chan) (h : serialWrites (s.code c).combined = .error f) :
    RaisesOnly (.pcSerial c w) s f := by
  simp only [RaisesOnly, exec, execPcSerial, h]

theorem exec_pcSerial_of_ok {s : State} {c : Chan} {l : List (Nat × Nat)} (w : Chan)
    (h : serialWrites (s.code c).combined = .ok l) : exec (.pcSerial c w) s = (bwWrites w l s).finish := by
  simp only [exec, execPcSerial, h]

theorem Code.combined_length (t : Code) : t.combined.length = 257 := combine_length (by simp) (by simp)

theorem Code.combined_le (t : Code) : ∀ L ∈ t.combined, L ≤ 15 := by
  have hle {n : Nat} (v : Vector (BitVec 4) n) : ∀ L ∈ v.toList.map BitVec.toNat, L ≤ 15 :=
    List.forall_mem_map.2 fun b _ => Nat.le_of_lt_succ b.isLt
  intro L hL
  rcases mem_combine hL with hraw | rfl | hlz
  · exact hle _ L hraw
  · exact Nat.zero_le 15
  · exact hle _ L hlz

/-- What `PC.SERIAL` sends of a channel with a code. -/
theorem serialWrites_combined (t : Code) {last : Nat} (hlast : IsLastUsed t.combined last) :
    ∃ ML EL num, MetaCode (timesSent (itemsToSend t.combined last)) ML EL num ∧
      serialWrites t.combined = .ok (sentWrites (itemsToSend t.combined last) ML EL (canonical ML) num) := by
  have h15 := getD_le_of_forall_mem t.combined_le
  have h257 : last < 257 := t.combined_length ▸ lt_length_of_getD_ne_zero hlast.1
  have hitems := serialItems_eq_itemsToSend t.combined_length h257
  obtain ⟨ML, EL, num, hok, hmeta⟩ := metaCode_metaCode _ (exists_timesSent_pos h15 last)
  refine ⟨ML, EL, num, hmeta, ?_⟩
  have hcounts : (List.range 18).map (itemCount (itemsToSend t.combined last)) =
      (List.range 18).map (timesSent (itemsToSend t.combined last)) := by
    refine List.map_congr_left fun v hv => itemCount_eq_timesSent (fun u hu => ?_) (List.mem_range.1 hv)
    obtain ⟨i, rfl⟩ := mem_itemsToSend_lit hu
    exact h15 i
  rw [← hcounts, ← hitems] at hok
  rw [serialWrites_of_ok (lastUsed_eq_some.2 hlast) hok, sentWrites_eq hmeta.le_five.1, hitems]
  rfl

/-- Settles O26: the model's writes are those of R170 in closed form, and `bwWrites` sends them or stops where there is no room. -/
theorem pcSerialAppends : Obligations.PcSerialAppends := by
  intro s c w
  refine ⟨fun hzero => exec_pcSerial_of_error w (serialWrites_of_none (lastUsed_eq_none hzero)), fun last hne hlast => ?_⟩
  obtain ⟨ML, EL, num, hmeta, hok⟩ := serialWrites_combined (s.code c) ⟨hne, hlast⟩
  obtain ⟨hML, hEL, hnum⟩ := hmeta.le_five
  have h257 : last < 257 := (s.code c).combined_length ▸ lt_length_of_getD_ne_zero hne
  have hexec := exec_pcSerial_of_ok w hok
  have hcount := fun p hp => (sentWrites_count_le (S := itemsToSend (s.code c).combined last) (MB := canonical ML) (num := num)
    hML hEL p hp).trans (show 5 ≤ 56 by decide)
  refine ⟨ML, EL, canonical ML, num, hmeta, canonical_isCanonical ML fun L hL => (hML L hL).trans (by decide),
    bitCount_sentWrites_le hML hEL hnum h257, fun hg hroom => ?_, fun hg pre e post hsplit hpre hover => ?_⟩
  · obtain ⟨u, hu, hframe, hstatus, hpc, hrun, -, -, hstream⟩ := bwWrites_spec hg hcount hroom
    exact ⟨u.advance, .of_finish hexec hu hstatus hpc, hframe.advance, hrun, hstream⟩
  · rw [hsplit] at hcount hexec
    obtain ⟨u, hu, hwrote, hrun⟩ := bwWrites_overflow hg hcount hpre hover
    exact ⟨u, hwrote, hrun, hexec.trans (congrArg Flow.finish hu)⟩

end Sys2Proof.Machine

/-! SUPPORT. The arithmetic of spec/43_predictor.md: the colour transform and its inverse (R203), `pack_signed` and its inverse
(R207), and the prediction without wrap-around (R206, R209). -/

namespace Sys2Proof.Machine

/-! ## The colour transform, R203 -/

/-- Settles O31: each step of the inverse takes back the last sum or difference of the transform. -/
theorem colourTransformInverts : Obligations.ColourTransformInverts := by
  intro r g b y co cg tmp
  have htmp : tmp = b + asr1 co := BitVec.add_sub_cancel _ _
  have hb : tmp - co.sshiftRight 1 = b := htmp ▸ BitVec.add_sub_cancel b (asr1 co)
  refine ⟨?_, hb, ?_⟩
  · rw [htmp]
    exact BitVec.sub_add_cancel g _
  · rw [hb]
    exact BitVec.sub_add_cancel r b

/-! ## `pack_signed`, R207 -/

/-- A shift by 31 leaves the sign bit. -/
theorem ushiftRight_31 (v : Word) : v >>> 31 = if v.msb then 1 else 0 := by
  have hv := v.isLt
  refine BitVec.eq_of_toNat_eq ?_
  rw [BitVec.toNat_ushiftRight, Nat.shiftRight_eq_div_pow]
  cases hmsb : v.msb with
  | false => exact Nat.div_eq_of_lt (BitVec.toNat_lt_of_msb_false hmsb)
  | true =>
    have hge : 2 ^ 31 ≤ v.toNat := BitVec.le_toNat_of_msb_true hmsb
    change v.toNat / 2 ^ 31 = 1
    omega

theorem packSigned_eq (v : Word) : packSigned v = if v.msb then ~~~ (v * 2) else v * 2 := by
  rw [packSigned, ushiftRight_31, BitVec.msb_not]
  cases v.msb with
  | false => exact BitVec.xor_zero
  | true => exact BitVec.xor_allOnes

theorem unpackSigned_eq (u : Word) : unpackSigned u = if u.toNat % 2 = 0 then u >>> 1 else ~~~ (u >>> 1) := by
  have hbit : (u &&& 1).toNat = u.toNat % 2 := by simp
  rw [unpackSigned]
  split
  · next heven =>
    rw [show u &&& 1 = 0 from BitVec.eq_of_toNat_eq (hbit.trans heven)]
    exact BitVec.xor_zero
  · next hodd =>
    rw [show u &&& 1 = 1 from BitVec.eq_of_toNat_eq (hbit.trans (by simpa using hodd))]
    exact BitVec.xor_allOnes

/-- R207, a value that is not negative. -/
theorem packSigned_toNat_of_nonneg {v : Word} (h : v.msb = false) : (packSigned v).toNat = 2 * v.toNat := by
  have hlt : v.toNat < 2 ^ 31 := BitVec.toNat_lt_of_msb_false h
  rw [packSigned_eq, h, if_neg Bool.false_ne_true]
  bv_omega

/-- R207, a negative value, of which `2^32 - v.toNat` is the magnitude. -/
theorem packSigned_toNat_of_neg {v : Word} (h : v.msb = true) : (packSigned v).toNat = 2 * (2 ^ 32 - v.toNat) - 1 := by
  have hge : 2 ^ 31 ≤ v.toNat := BitVec.le_toNat_of_msb_true h
  rw [packSigned_eq, h, if_pos rfl]
  bv_omega

theorem unpackSigned_toNat (u : Word) :
    (unpackSigned u).toNat = if u.toNat % 2 = 0 then u.toNat / 2 else 2 ^ 32 - 1 - u.toNat / 2 := by
  rw [unpackSigned_eq]
  split
  · exact BitVec.toNat_ushiftRight ..
  · rw [BitVec.toNat_not, BitVec.toNat_ushiftRight, Nat.shiftRight_eq_div_pow, Nat.pow_one]

/-- Halving is undone by `pack_signed`: an even number comes from a value that is not negative, an odd one from a negative
value. -/
theorem packSigned_unpackSigned (u : Word) : packSigned (unpackSigned u) = u := by
  have hu := u.isLt
  have hval := unpackSigned_toNat u
  refine BitVec.eq_of_toNat_eq ?_
  by_cases heven : u.toNat % 2 = 0
  · rw [if_pos heven] at hval
    rw [packSigned_toNat_of_nonneg (BitVec.msb_eq_false_iff_two_mul_lt.2 (by omega)), hval]
    omega
  · rw [if_neg heven] at hval
    rw [packSigned_toNat_of_neg (BitVec.msb_eq_true_iff_two_mul_ge.2 (by omega)), hval]
    omega

theorem unpackSigned_packSigned (v : Word) : unpackSigned (packSigned v) = v := by
  have hv := v.isLt
  refine BitVec.eq_of_toNat_eq ?_
  rw [unpackSigned_toNat]
  cases hmsb : v.msb with
  | false =>
    rw [packSigned_toNat_of_nonneg hmsb, if_pos (by omega)]
    omega
  | true =>
    have hge : 2 ^ 31 ≤ v.toNat := BitVec.le_toNat_of_msb_true hmsb
    rw [packSigned_toNat_of_neg hmsb, if_neg (by omega)]
    omega

/-- R207 in integers. -/
theorem packSigned_toNat (v : Word) :
    ((packSigned v).toNat : Int) = if v.toInt < 0 then -2 * v.toInt - 1 else 2 * v.toInt := by
  have hv := v.isLt
  cases hmsb : v.msb with
  | false =>
    rw [packSigned_toNat_of_nonneg hmsb, BitVec.toInt_eq_toNat_of_msb hmsb]
    omega
  | true =>
    have hge : 2 ^ 31 ≤ v.toNat := BitVec.le_toNat_of_msb_true hmsb
    rw [packSigned_toNat_of_neg hmsb, BitVec.toInt_eq_msb_cond, hmsb, if_pos rfl]
    omega

/-- Settles O32: the value of `packSigned_toNat`, and the inverse on both sides. -/
theorem packSignedZigzag : Obligations.PackSignedZigzag := fun v =>
  ⟨fun hpos => by rw [packSigned_toNat, if_neg (Int.not_lt.2 hpos)], fun hneg => by rw [packSigned_toNat, if_pos hneg],
    unpackSigned_packSigned v, packSigned_unpackSigned v⟩

theorem packSigned_injective : Function.Injective packSigned :=
  Function.LeftInverse.injective unpackSigned_packSigned

/-! ## Values without wrap-around, R209 -/

/-- A 32-bit value of magnitude below `N`. -/
def Within (N : Int) (v : Word) : Prop := -N < v.toInt ∧ v.toInt < N

theorem toInt_sub_of_inRange {a b : Word} (hlo : -2 ^ 31 ≤ a.toInt - b.toInt) (hhi : a.toInt - b.toInt < 2 ^ 31) :
    (a - b).toInt = a.toInt - b.toInt := by
  rw [BitVec.toInt_sub]
  exact Int.bmod_eq_of_le hlo hhi

theorem toInt_add_of_inRange {a b : Word} (hlo : -2 ^ 31 ≤ a.toInt + b.toInt) (hhi : a.toInt + b.toInt < 2 ^ 31) :
    (a + b).toInt = a.toInt + b.toInt := by
  rw [BitVec.toInt_add]
  exact Int.bmod_eq_of_le hlo hhi

theorem toInt_asr1 (v : Word) : (asr1 v).toInt = v.toInt / 2 := by
  rw [asr1, BitVec.toInt_sshiftRight, Int.shiftRight_eq_div_pow]
  rfl

theorem toInt_of_toNat_lt {v : Word} {N : Nat} (hN : N ≤ 2 ^ 31) (h : v.toNat < N) : v.toInt = v.toNat :=
  BitVec.toInt_eq_toNat_of_lt (by omega)

/-- The difference of two values stays within the sum of their bounds. -/
theorem Within.sub {M N : Int} {a b : Word} (ha : Within M a) (hb : Within N b) (hMN : M + N ≤ 2 ^ 31) :
    Within (M + N) (a - b) := by
  obtain ⟨ha₀, ha₁⟩ := ha
  obtain ⟨hb₀, hb₁⟩ := hb
  rw [Within, toInt_sub_of_inRange (by omega) (by omega)]
  omega

theorem packSigned_lt {N : Nat} {v : Word} (h : Within N v) : (packSigned v).toNat < 2 * N := by
  obtain ⟨hlo, hhi⟩ := h
  have hval := packSigned_toNat v
  split at hval <;> omega

/-! ## The prediction, R206 -/

/-- The sign tests of R206: bit 31 of a bitwise sum tells whether two values differ in sign. -/
theorem xor_msb_eq_true {a b : Word} : (a ^^^ b).msb = true ↔ ¬ (a.toInt < 0 ↔ b.toInt < 0) := by
  rw [BitVec.msb_xor, BitVec.msb_eq_toInt (x := a), BitVec.msb_eq_toInt (x := b), bne_iff_ne, ne_eq, decide_eq_decide]

/-- Settles O33: no difference and no sum of R206 wraps, and the two sign tests order `left`, `top` and `topleft`. -/
theorem predictorIsMedian : Obligations.PredictorIsMedian := by
  intro left top topleft h grad low high
  simp only [List.forall_mem_cons, List.not_mem_nil, false_implies, implies_true, and_true] at h
  obtain ⟨⟨hl₀, hl₁⟩, ⟨ht₀, ht₁⟩, htl₀, htl₁⟩ := h
  have hac : (left - topleft).toInt = left.toInt - topleft.toInt := toInt_sub_of_inRange (by omega) (by omega)
  have hab : (left - top).toInt = left.toInt - top.toInt := toInt_sub_of_inRange (by omega) (by omega)
  have hbc : (top - topleft).toInt = top.toInt - topleft.toInt := toInt_sub_of_inRange (by omega) (by omega)
  have hgrad : (left - topleft + top).toInt = left.toInt - topleft.toInt + top.toInt := by
    rw [toInt_add_of_inRange, hac] <;> omega
  simp only [predict, xor_msb_eq_true, hac, hab, hbc]
  split_ifs <;> omega

/-- A prediction lies between `left` and `top`, so it stays within their bound. -/
theorem predict_within {N : Int} {left top topleft : Word} (hN : N ≤ 2 ^ 29) (hl : Within N left) (ht : Within N top)
    (htl : Within N topleft) : Within N (predict left top topleft) := by
  obtain ⟨hl₀, hl₁⟩ := hl
  obtain ⟨ht₀, ht₁⟩ := ht
  obtain ⟨htl₀, htl₁⟩ := htl
  have hmedian := predictorIsMedian left top topleft <| by
    simp only [List.forall_mem_cons, List.not_mem_nil, false_implies, implies_true, and_true]
    omega
  rw [Within, hmedian]
  omega

/-! ## Ranges, R211 -/

/-- R211: the packed residual of a pixel, both its value and its neighbours within `N`. -/
theorem residualOf_lt {N : Nat} {px left top topleft : Word} (hN : N ≤ 2 ^ 29) (hpx : Within N px) (hl : Within N left)
    (ht : Within N top) (htl : Within N topleft) : (residualOf px left top topleft).toNat < 4 * N := by
  have hdiff : Within (N + N) (px - predict left top topleft) := hpx.sub (predict_within (by omega) hl ht htl) (by omega)
  have hlt := packSigned_lt (N := N + N) (by exact_mod_cast hdiff)
  rw [residualOf]
  omega

/-- The mean of two values, rounded down, as R203 computes it. -/
theorem toInt_add_asr1_sub {a b : Word} (ha : Within (2 ^ 30) a) (hb : Within (2 ^ 30) b) :
    (b + asr1 (a - b)).toInt = (a.toInt + b.toInt) / 2 := by
  obtain ⟨ha₀, ha₁⟩ := ha
  obtain ⟨hb₀, hb₁⟩ := hb
  have hhalf : (asr1 (a - b)).toInt = (a.toInt - b.toInt) / 2 := by
    rw [toInt_asr1, toInt_sub_of_inRange (by omega) (by omega)]
  rw [toInt_add_of_inRange] <;> rw [hhalf] <;> omega

/-- R211: `y` is the mean of `g` and of the mean of `r` and `b`; `co` and `cg` are differences of values in `[0, N)`. -/
theorem colour_ranges {N : Nat} {r g b : Word} (hN : N ≤ 2 ^ 29) (hr : r.toNat < N) (hg : g.toNat < N) (hb : b.toNat < N) :
    (colour r g b).1.toNat < N ∧ Within N (colour r g b).2.1 ∧ Within N (colour r g b).2.2 := by
  have hrI := toInt_of_toNat_lt (by omega) hr
  have hgI := toInt_of_toNat_lt (by omega) hg
  have hbI := toInt_of_toNat_lt (by omega) hb
  have hwithin {v : Word} (h₀ : 0 ≤ v.toInt) (h₁ : v.toInt < N) : Within (2 ^ 30) v := by
    rw [Within]
    omega
  have htmp : (b + asr1 (r - b)).toInt = (r.toInt + b.toInt) / 2 :=
    toInt_add_asr1_sub (hwithin (by omega) (by omega)) (hwithin (by omega) (by omega))
  have hy : (colour r g b).1.toInt = (g.toInt + (b + asr1 (r - b)).toInt) / 2 :=
    toInt_add_asr1_sub (hwithin (by omega) (by omega)) (hwithin (by omega) (by omega))
  have hco : (colour r g b).2.1.toInt = r.toInt - b.toInt := toInt_sub_of_inRange (by omega) (by omega)
  have hcg : (colour r g b).2.2.toInt = g.toInt - (b + asr1 (r - b)).toInt := toInt_sub_of_inRange (by omega) (by omega)
  refine ⟨?_, ?_, ?_⟩
  · have hcond := BitVec.toInt_eq_toNat_cond (colour r g b).1
    have hlt := (colour r g b).1.isLt
    split at hcond <;> omega
  · rw [Within, hco]
    omega
  · rw [Within, hcg]
    omega

end Sys2Proof.Machine

/-! SUPPORT. The predictor commands (spec/43_predictor.md R201, R204, R208, R210, R211): `PR.START`, `PR.LOAD`, `PR.PRED`, and what
the residuals say of the row. -/

namespace Sys2Proof.Machine

/-! ## PR.START, R201 -/

/-- Settles O28: the two branches of the check; a length that passes it is the row length, uncut. -/
theorem prStartBeginsGroup : Obligations.PrStartBeginsGroup := by
  intro s len
  refine ⟨?_, fun hbad => ?_, fun h1 h256 => ⟨⟨len.toNat, Nat.lt_succ_of_le h256⟩, rfl, ?_⟩⟩
  · simpa [Instr.fields] using encode_toNat (.prStart len)
  · simp only [RaisesOnly, exec, execPrStart, dif_pos hbad]
  · have hgood : ¬ (len.toNat = 0 ∨ len.toNat > 256) := by omega
    simp only [exec, execPrStart, dif_neg hgood]
    rfl

/-! ## PR.LOAD, R204 -/

/-- The configurations that R204 refuses. -/
theorem State.cfgInvalid_eq_true {s : State} :
    s.cfgInvalid = true ↔
      s.cfg.nc.toNat = 0 ∨ 4 < s.cfg.nc.toNat ∨ s.cfg.bps.toNat = 0 ∨ 32 < s.cfg.bps.toNat ∨ s.xs = 0 := by
  simp [State.cfgInvalid, or_assoc]

/-- The rows that R204 refuses, by their address or by their end. -/
theorem State.loadOutOfRange_eq_true {s : State} {a : Reg} :
    s.loadOutOfRange a = true ↔
      2 ^ 32 ≤ (s.reg a).toNat ∨
        s.params.inBytes.val < (s.reg a).toNat + s.xs.val * s.cfg.nc.toNat * sampleBytes s.cfg.bps := by
  simp [State.loadOutOfRange, isAddress]

theorem nextRows_val (n : Fin 3) : (nextRows n).val = min (n.val + 1) 2 := by
  revert n
  decide

theorem State.loaded_cur_of_le (A : Nat) (s : State) (c : Chan) {i : Nat} (hi : s.xs.val ≤ i) :
    Row.at (s.loaded A).cur[c] i = Row.at s.cur[c] i := by
  have hxs : s.xs.val ≤ 256 := Nat.le_of_lt_succ s.xs.isLt
  simp only [State.loaded, State.loadRow_cur, Fin.getElem_fin, Vector.getElem_ofFn, Row.at_fill _ _ _ _ hxs,
    if_neg (Nat.not_lt.2 hi)]

theorem State.loaded_prev_of_le (A : Nat) (s : State) (c : Chan) {i : Nat} (hi : s.xs.val ≤ i) :
    Row.at (s.loaded A).prev[c] i = Row.at s.prev[c] i := by
  have hxs : s.xs.val ≤ 256 := Nat.le_of_lt_succ s.xs.isLt
  simp only [State.loaded, State.loadRow_prev, Fin.getElem_fin, Vector.getElem_ofFn, Row.at_fill _ _ _ _ hxs,
    if_neg (Nat.not_lt.2 hi)]

theorem State.pixel_absent {s : State} {c : Chan} (h : s.cfg.nc.toNat ≤ c.val) (A p : Nat) : s.pixel A c p = 0 :=
  if_pos h

/-- R204 with fewer than three channels: the samples, and 0 in the channels that the image has not. -/
theorem State.pixel_of_lt_three {s : State} (h : s.cfg.nc.toNat < 3) (A : Nat) (c : Chan) (p : Nat) :
    s.pixel A c p = if c.val < s.cfg.nc.toNat then s.sample A p c.val else 0 := by
  split
  · next hc => exact (if_neg (Nat.not_le.2 hc)).trans (if_neg (Nat.not_le.2 h))
  · next hc => exact State.pixel_absent (Nat.not_lt.1 hc) A p

/-- R204 with three or four channels: the transformed pixel, and the fourth channel as it is, if there is one. -/
theorem State.pixel_of_three_le {s : State} (h : 3 ≤ s.cfg.nc.toNat) (h4 : s.cfg.nc.toNat ≤ 4) (A p : Nat) :
    let ycc := colour (s.sample A p 0) (s.sample A p 1) (s.sample A p 2)
    s.pixel A 0 p = ycc.1 ∧ s.pixel A 1 p = ycc.2.1 ∧ s.pixel A 2 p = ycc.2.2 ∧
      s.pixel A 3 p = if s.cfg.nc.toNat = 4 then s.sample A p 3 else 0 := by
  refine ⟨?_, ?_, ?_, ?_⟩
  · exact (if_neg (show ¬ 0 ≥ s.cfg.nc.toNat by omega)).trans (if_pos h)
  · exact (if_neg (show ¬ 1 ≥ s.cfg.nc.toNat by omega)).trans (if_pos h)
  · exact (if_neg (show ¬ 2 ≥ s.cfg.nc.toNat by omega)).trans (if_pos h)
  · split
    · exact (if_neg (show ¬ 3 ≥ s.cfg.nc.toNat by omega)).trans (if_pos h)
    · exact State.pixel_absent (show s.cfg.nc.toNat ≤ 3 by omega) A p

/-- Settles O29: the checks in their order, and then `State.loaded`, whose entries are the pixels below `XS`. -/
theorem prLoadTakesRow : Obligations.PrLoadTakesRow := by
  intro s a A NC BPS B bad outside
  have hexec : exec (.prLoad a) s = _ := execPrLoad_eq a s
  refine ⟨?_, fun hbad => ?_, fun hgood hout => ?_, fun hgood hin => ?_⟩
  · simpa [Instr.fields] using encode_toNat (.prLoad a)
  · exact hexec.trans (if_pos (State.cfgInvalid_eq_true.2 hbad))
  · rw [if_neg (mt State.cfgInvalid_eq_true.1 hgood)] at hexec
    exact hexec.trans (if_pos (State.loadOutOfRange_eq_true.2 hout))
  · rw [if_neg (mt State.cfgInvalid_eq_true.1 hgood), if_neg (mt State.loadOutOfRange_eq_true.1 hin)] at hexec
    refine ⟨(s.loaded A).advance, ⟨hexec, rfl, ⟨rfl, rfl, rfl⟩⟩, rfl, nextRows_val s.nrows,
      fun c p hp => State.loaded_prev A s c hp,
      fun c p hp => ⟨State.loaded_prev_of_le A s c hp, State.loaded_cur_of_le A s c hp⟩,
      fun p hp => ⟨fun hnc c => ?_, fun hnc => ?_⟩⟩
    · exact (State.loaded_cur A s c hp).trans (State.pixel_of_lt_three hnc A c p)
    · have hnc4 : NC ≤ 4 := Nat.not_lt.1 fun h => hgood (.inr (.inl h))
      obtain ⟨hy, hco, hcg, hfourth⟩ := State.pixel_of_three_le hnc hnc4 A p
      exact ⟨(State.loaded_cur A s 0 hp).trans hy, (State.loaded_cur A s 1 hp).trans hco,
        (State.loaded_cur A s 2 hp).trans hcg, (State.loaded_cur A s 3 hp).trans hfourth⟩

/-! ## PR.PRED, R208 -/

/-- What `PR.PRED` of channel `c` makes of the state (R208). -/
def State.predicted (c : Chan) (s : State) : State :=
  s.setResiduals (Row.fill (s.residualAt c) s.xs.val s.res) s.xs

theorem exec_prPred_eq (c : Chan) (s : State) :
    exec (.prPred c) s =
      if s.cfg.nc.toNat ≤ c.val then .next (s.raiseFault .chRange)
      else if s.nrows = 0 then .next (s.raiseFault .noRow)
      else .next (s.predicted c).advance := rfl

/-- A `PR.PRED` that does not fault completes. -/
theorem exec_prPred_eq_next {c : Chan} {s t : State} (h : exec (.prPred c) s = .next t) (ht : t.seq ≠ .fault) :
    t = (s.predicted c).advance := by
  rw [exec_prPred_eq] at h
  split at h
  · cases h
    exact absurd rfl ht
  · split at h
    · cases h
      exact absurd rfl ht
    · cases h
      rfl

theorem State.predicted_res (c : Chan) (s : State) (x : Nat) :
    Row.at (s.predicted c).res x = if x < s.xs.val then s.residualAt c x else Row.at s.res x :=
  Row.at_fill _ _ _ _ (Nat.le_of_lt_succ s.xs.isLt)

/-- R205 for the first row of a group. -/
theorem State.residualAt_firstRow {s : State} (h : s.nrows = 1) (c : Chan) (x : Nat) :
    s.residualAt c x = packSigned (Row.at s.cur[c] x -
      if x = 0 then predict 0 0 0
      else predict (Row.at s.cur[c] (x - 1)) (Row.at s.cur[c] (x - 1)) (Row.at s.cur[c] (x - 1))) := by
  have hrows : ¬ (1 : Fin 3) = 2 := by decide
  simp only [State.residualAt, residualOf, neighbours, h, if_neg hrows]
  split <;> rfl

/-- R205 for every later row of a group. -/
theorem State.residualAt_laterRow {s : State} (h : s.nrows = 2) (c : Chan) (x : Nat) :
    s.residualAt c x = packSigned (Row.at s.cur[c] x -
      if x = 0 then predict (Row.at s.prev[c] 0) (Row.at s.prev[c] 0) (Row.at s.prev[c] 0)
      else predict (Row.at s.cur[c] (x - 1)) (Row.at s.prev[c] x) (Row.at s.prev[c] (x - 1))) := by
  simp only [State.residualAt, residualOf, neighbours, h, if_true]
  split <;> rfl

/-- Settles O34: the checks in their order, and then `State.predicted`, with R205's neighbours for either row. -/
theorem prPredWritesResiduals : Obligations.PrPredWritesResiduals := by
  intro s c cur prev
  have hexec := exec_prPred_eq c s
  refine ⟨fun hch => hexec.trans (if_pos hch), fun hch hrows => ?_, fun hch hrows => ?_⟩
  · rw [if_neg (Nat.not_le.2 hch)] at hexec
    exact hexec.trans (if_pos hrows)
  · rw [if_neg (Nat.not_le.2 hch), if_neg hrows] at hexec
    have hres := s.predicted_res c
    refine ⟨(s.predicted c).advance, ⟨hexec, rfl, ⟨rfl, rfl, rfl⟩⟩, rfl, fun x hx => ?_, fun h1 x hx => ?_, fun h2 x hx => ?_⟩
    · exact (hres x).trans (if_neg (Nat.not_lt.2 hx))
    · exact ((hres x).trans (if_pos hx)).trans (State.residualAt_firstRow h1 c x)
    · exact ((hres x).trans (if_pos hx)).trans (State.residualAt_laterRow h2 c x)

/-! ## Losslessness, R210 -/

/-- The neighbours of a pixel lie before it in the current row, or in the previous row (R205). -/
theorem neighbours_congr_before {rows : Fin 3} {cur cur' : Row} (prev : Row) {x : Nat}
    (h : ∀ i, i < x → cur'.at i = cur.at i) : neighbours rows cur' prev x = neighbours rows cur prev x := by
  unfold neighbours
  by_cases hx : x = 0
  · simp only [if_pos hx]
  · rw [h (x - 1) (by omega)]

/-- Settles O35, pixel after pixel: the pixels before determine the prediction, and the residual then the pixel. -/
theorem predictorIsLossless : Obligations.PredictorIsLossless := by
  intro s₁ s₂ t₁ t₂ c _ _ hrows hxs hprev he₁ he₂ hf₁ hf₂ hres x
  obtain rfl := exec_prPred_eq_next he₁ hf₁
  obtain rfl := exec_prPred_eq_next he₂ hf₂
  induction x using Nat.strong_induction_on with
  | _ x ih =>
    intro hx
    have hresx : s₁.residualAt c x = s₂.residualAt c x := by
      have h := hres x hx
      rwa [State.advance_res, State.advance_res, State.predicted_res, State.predicted_res, if_pos hx, if_pos (hxs ▸ hx)] at h
    have hneighbours : neighbours s₁.nrows s₁.cur[c] s₁.prev[c] x = neighbours s₂.nrows s₂.cur[c] s₂.prev[c] x := by
      rw [hrows, hprev]
      exact neighbours_congr_before _ fun i hi => ih i hi (hi.trans hx)
    rw [State.residualAt, State.residualAt, hneighbours] at hresx
    exact (BitVec.sub_left_inj _).1 (packSigned_injective hresx)

/-! ## Ranges, R211 -/

theorem Within.zero {N : Int} (h : 0 < N) : Within N 0 := ⟨by simpa using h, by simpa using h⟩

/-- The neighbours of a pixel stay within a bound of the rows they are taken from. -/
theorem neighbours_within {N : Int} {rows : Fin 3} {cur prev : Row} {x len : Nat} (hx : x < len) (hN : 0 < N)
    (hcur : ∀ i, i < len → Within N (cur.at i)) (hprev : rows = 2 → ∀ i, i < len → Within N (prev.at i)) :
    Within N (neighbours rows cur prev x).1 ∧ Within N (neighbours rows cur prev x).2.1 ∧
      Within N (neighbours rows cur prev x).2.2 := by
  have hleft := hcur (x - 1) (by omega)
  unfold neighbours
  split
  · next h2 =>
    have hfirst := hprev h2 0 (by omega)
    split
    · exact ⟨hfirst, hfirst, hfirst⟩
    · exact ⟨hleft, hprev h2 x hx, hprev h2 (x - 1) (by omega)⟩
  · split
    · exact ⟨.zero hN, .zero hN, .zero hN⟩
    · exact ⟨hleft, hleft, hleft⟩

/-- Settles O36: the bounds of `colour_ranges` and of `residualOf_lt`, with `N = 2^n`. -/
theorem residualsAreBounded : Obligations.ResidualsAreBounded := by
  intro n hn
  have hN : 2 ^ n ≤ 2 ^ 29 := Nat.pow_le_pow_right (by decide) hn
  have hcast : ((2 ^ n : Nat) : Int) = 2 ^ n := by push_cast; rfl
  refine ⟨fun r g b hr hg hb => ?_, fun s t c _ he hf hcur hprev x hx => ?_⟩
  · have hranges := colour_ranges hN hr hg hb
    rwa [hcast] at hranges
  · obtain rfl := exec_prPred_eq_next he hf
    have hpos : (0 : Int) < 2 ^ n := by positivity
    obtain ⟨hl, ht, htl⟩ := neighbours_within hx hpos hcur hprev
    rw [State.advance_res, State.predicted_res, if_pos hx, Nat.pow_add, Nat.mul_comm]
    rw [← hcast] at hl ht htl
    exact residualOf_lt hN (hcast ▸ hcur x hx) hl ht htl

end Sys2Proof.Machine

/-! SUPPORT. The tokens of spec/45_tokenizer.md R231, R232 and the decisions of R235: what they determine, how large they are sent,
and that they are lossless (R242, R243). -/

namespace Sys2Proof.Machine

/-! ## Tokens, R231 and R232 -/

theorem rawToken_zero : rawToken 0 = ⟨0, 0, 0⟩ := rfl

theorem rawToken_of_ne_zero {v : Nat} (h : v ≠ 0) : rawToken v = ⟨v.log2 + 1, v.log2, v - 2 ^ v.log2⟩ := if_neg h

theorem lzToken_of_lt {u : Nat} (h : u < 16) : lzToken u = ⟨u, 0, 0⟩ := if_pos h

theorem lzToken_of_ge {u : Nat} (h : 16 ≤ u) : lzToken u = ⟨u.log2 + 12, u.log2, u - 2 ^ u.log2⟩ := by
  rw [lzToken, if_neg (Nat.not_lt.2 h), Nat.add_comm 16, Nat.add_sub_assoc (by decide)]

theorem four_le_log2 {u : Nat} (h : 16 ≤ u) : 4 ≤ u.log2 := (Nat.le_log2 (by omega)).2 h

/-- A number is its leading one and the bits below it. -/
theorem leadingOne_split {v : Nat} (h : v ≠ 0) : v - 2 ^ v.log2 < 2 ^ v.log2 ∧ v = 2 ^ v.log2 + (v - 2 ^ v.log2) := by
  have hle := Nat.log2_self_le h
  have hlt := Nat.lt_log2_self (n := v)
  rw [Nat.pow_succ] at hlt
  omega

theorem rawToken_extra_lt (v : Nat) : (rawToken v).extra < 2 ^ (rawToken v).nbits := by
  by_cases h : v = 0
  · subst h; decide
  · rw [rawToken_of_ne_zero h]; exact (leadingOne_split h).1

theorem lzToken_extra_lt (u : Nat) : (lzToken u).extra < 2 ^ (lzToken u).nbits := by
  by_cases h : u < 16
  · rw [lzToken_of_lt h]; exact Nat.one_pos
  · rw [lzToken_of_ge (by omega)]; exact (leadingOne_split (by omega)).1

/-- The token says how many extra bits there are. -/
theorem rawToken_nbits (v : Nat) : (rawToken v).nbits = (rawToken v).tok - 1 := by
  by_cases h : v = 0
  · subst h; rfl
  · rw [rawToken_of_ne_zero h]; rfl

theorem lzToken_nbits (u : Nat) : (lzToken u).nbits = if (lzToken u).tok < 16 then 0 else (lzToken u).tok - 12 := by
  by_cases h : u < 16
  · rw [lzToken_of_lt h, if_pos h]
  · have hlog := four_le_log2 (u := u) (by omega)
    rw [lzToken_of_ge (by omega), if_neg (by simp only; omega)]
    rfl

/-- The residual that a raw token and its extra bits stand for. -/
theorem eq_of_rawToken (v : Nat) : v = if (rawToken v).tok = 0 then 0 else 2 ^ ((rawToken v).tok - 1) + (rawToken v).extra := by
  by_cases h : v = 0
  · subst h; rfl
  · rw [rawToken_of_ne_zero h, if_neg (Nat.succ_ne_zero _)]; exact (leadingOne_split h).2

/-- The run value that a run-length token and its extra bits stand for. -/
theorem eq_of_lzToken (u : Nat) :
    u = if (lzToken u).tok < 16 then (lzToken u).tok else 2 ^ ((lzToken u).tok - 12) + (lzToken u).extra := by
  by_cases h : u < 16
  · rw [lzToken_of_lt h, if_pos h]
  · have hlog := four_le_log2 (u := u) (by omega)
    rw [lzToken_of_ge (by omega), if_neg (by simp only; omega)]
    exact (leadingOne_split (by omega)).2

theorem rawToken_inj {v w : Nat} (ht : (rawToken v).tok = (rawToken w).tok) (he : (rawToken v).extra = (rawToken w).extra) :
    v = w := by
  rw [eq_of_rawToken v, eq_of_rawToken w, ht, he]

theorem lzToken_inj {u w : Nat} (ht : (lzToken u).tok = (lzToken w).tok) (he : (lzToken u).extra = (lzToken w).extra) :
    u = w := by
  rw [eq_of_lzToken u, eq_of_lzToken w, ht, he]

theorem lt_of_lzToken_tok_le {u : Nat} (h : (lzToken u).tok ≤ 32) : u < 2 ^ 21 := by
  by_cases hu : u < 16
  · omega
  · rw [lzToken_of_ge (by omega)] at h
    exact (Nat.log2_lt (by omega)).1 (by simp only at h; omega)

/-- Settles O38: a token with extra bits is a leading one with the bits below it, and its size bounds the value. -/
theorem tokensDetermineValues : Obligations.TokensDetermineValues := by
  refine ⟨⟨rawToken_zero, fun v hv => ?_⟩, fun v => ⟨lt_of_rawToken_tok_le, rawToken_tok_le⟩, fun u => lzToken_of_lt,
    fun u hu => ?_, fun u => ⟨lt_of_lzToken_tok_le, lzToken_tok_le⟩⟩
  · rw [rawToken_of_ne_zero (by omega)]
    exact ⟨rfl, leadingOne_split (by omega)⟩
  · rw [lzToken_of_ge hu]
    exact ⟨rfl, leadingOne_split (by omega)⟩

/-! ## Sizes, R242 -/

/-- Settles O39: a code has at most 15 bits, a raw token at most 17 extra bits and a run-length token at most 20. -/
theorem tokenWritesAreSmall : Obligations.TokenWritesAreSmall := by
  intro t d ha
  refine ⟨Decision.writes_count_le ha, ?_⟩
  have hlen : ∀ b : BitVec 4, b.toNat ≤ 15 := fun b => Nat.le_of_lt_succ b.isLt
  cases d with
  | raw v =>
    have hcode := hlen (entry t.rawLen (rawToken v.toNat).tok)
    have hextra := rawToken_nbits_le ha
    simp only [Decision.writes, bitCount_cons, bitCount_nil]
    omega
  | run N =>
    obtain ⟨hlo, hhi⟩ := ha
    have hzero := hlen (entry t.rawLen 0)
    have hcode := hlen (entry t.lzLen (lzToken (N - 8)).tok)
    have hextra := lzToken_nbits_le (u := N - 8) (by omega)
    simp only [Decision.writes, bitCount_cons, bitCount_nil]
    omega

/-! ## The decisions stand for the residuals, R243 -/

/-- R241 on the number of zeros pending. -/
def PendingGood (n : Nat) : Prop := n = 0 ∨ 7 < n

theorem runGood.pending {v : Word} (h : runGood v) : PendingGood v.toNat := by
  rcases h with rfl | h
  · exact .inl rfl
  · exact .inr h

theorem take_leadingZeros (r : List Word) : r.take (leadingZeros r) = List.replicate (leadingZeros r) 0 := by
  rw [leadingZeros, ← List.prefix_iff_eq_take.1 (List.takeWhile_prefix _)]
  exact List.eq_replicate_of_mem fun v hv => by simpa using List.mem_takeWhile_imp hv

theorem flatMap_expand_raw (r : List Word) : (r.map Decision.raw).flatMap Decision.expand = r := by
  rw [List.flatMap_map]
  exact List.flatMap_singleton' r

/-- One chunk: the zeros pending and then the chunk are what its decisions stand for and then the zeros pending after it. -/
theorem chunkDecisions_expand {n : Nat} (hn : PendingGood n) (r : List Word) :
    List.replicate n 0 ++ r =
      (chunkDecisions n r).1.flatMap Decision.expand ++ List.replicate (chunkDecisions n r).2 0 ∧
    PendingGood (chunkDecisions n r).2 := by
  have hsplit := List.take_append_drop (leadingZeros r) r
  rw [take_leadingZeros] at hsplit
  unfold chunkDecisions
  simp only
  split
  · next hzero =>
    rw [hzero.1, List.drop_length, List.append_nil] at hsplit
    refine ⟨?_, ?_⟩
    · rw [List.flatMap_nil, List.nil_append, List.replicate_add, hsplit]
    · simp only [PendingGood] at hn ⊢
      omega
  · split
    · refine ⟨?_, .inl rfl⟩
      rw [List.flatMap_cons, flatMap_expand_raw, Decision.expand, List.replicate_add, List.replicate_zero, List.append_nil,
        List.append_assoc, hsplit]
    · next hfew =>
      obtain rfl : n = 0 := hn.resolve_right (by omega)
      exact ⟨by simp [flatMap_expand_raw], .inl rfl⟩

theorem rowDecisions_expand {n : Nat} (hn : PendingGood n) (rs : List (List Word)) :
    List.replicate n 0 ++ rs.flatten =
      (rowDecisions n rs).1.flatMap Decision.expand ++ List.replicate (rowDecisions n rs).2 0 := by
  induction rs generalizing n with
  | nil => simp [rowDecisions]
  | cons r rs ih =>
    obtain ⟨hchunk, hgood⟩ := chunkDecisions_expand hn r
    simp only [rowDecisions]
    rw [List.flatten_cons, ← List.append_assoc, hchunk, List.append_assoc, ih hgood, List.flatMap_append, List.append_assoc]

/-- R236: the chunks of the residual row are the row. -/
theorem State.chunks_residuals (s : State) : (chunks 16 s.residuals).flatten = s.residuals :=
  chunks_flatten 16 _ (by rw [s.residuals_length]; have := s.resn.isLt; omega)

/-! ## The bits determine the decisions, R243 -/

/-- A symbol as it is sent: its place in `Code.words`, and the value of the extra bits after its code. -/
structure SentSymbol where
  index : Nat
  extra : Nat

/-- How many extra bits follow the code of a symbol: those of raw token `i`, or of run-length token `i - 19`. -/
def symbolExtraBits (i : Nat) : Nat := if i < 19 then i - 1 else if i < 35 then 0 else i - 31

/-- The bits of a symbol: its code, then its extra bits. -/
def SentSymbol.bits (t : Code) (y : SentSymbol) : List Bool :=
  t.words.getD y.index [] ++ natBits (symbolExtraBits y.index) y.extra

/-- The symbol has a code, and its extra bits hold the value. -/
def SentSymbol.Readable (t : Code) (y : SentSymbol) : Prop :=
  t.words.getD y.index [] ≠ [] ∧ y.extra < 2 ^ symbolExtraBits y.index

/-- The symbols that a decision sends (R233, R234). -/
def Decision.symbols : Decision → List SentSymbol
  | .raw v => [⟨(rawToken v.toNat).tok, (rawToken v.toNat).extra⟩]
  | .run N => [⟨0, 0⟩, ⟨19 + (lzToken (N - 8)).tok, (lzToken (N - 8)).extra⟩]

theorem Code.words_raw (t : Code) {k : Nat} (hk : k < 19) :
    t.words.getD k [] = natBits (entry t.rawLen k).toNat (entry t.rawBits k).toNat := by
  simp [Code.words, List.getD_eq_getElem?_getD, List.getElem?_append, hk]

theorem Code.words_lz (t : Code) {j : Nat} (hj : j < 33) :
    t.words.getD (19 + j) [] = natBits (entry t.lzLen j).toNat (entry t.lzBits j).toNat := by
  simp [Code.words, List.getD_eq_getElem?_getD, List.getElem?_append, hj]

theorem symbolExtraBits_raw {v : Nat} (h : v < 2 ^ 18) : symbolExtraBits (rawToken v).tok = (rawToken v).nbits := by
  have ht := rawToken_tok_le h
  rw [rawToken_nbits, symbolExtraBits, if_pos (by omega)]

theorem symbolExtraBits_lz (u : Nat) : symbolExtraBits (19 + (lzToken u).tok) = (lzToken u).nbits := by
  rw [lzToken_nbits, symbolExtraBits]
  split_ifs <;> omega

theorem natBits_ne_nil {n : Nat} (v : Nat) (h : n ≠ 0) : natBits n v ≠ [] := fun he => by
  have hlen := natBits_length n v
  rw [he] at hlen
  exact h hlen.symm

theorem natBits_toNat_ne_nil {w : Nat} {b : BitVec w} (v : Nat) (h : b ≠ 0) : natBits b.toNat v ≠ [] :=
  natBits_ne_nil v fun h0 => h (BitVec.eq_of_toNat_eq h0)

/-- What a decision writes is its symbols' bits. -/
theorem Decision.writesBits_writes {d : Decision} (ha : d.inAlphabet) (t : Code) :
    writesBits (d.writes t) = d.symbols.flatMap (SentSymbol.bits t) := by
  cases d with
  | raw v =>
    have ht := rawToken_tok_le ha
    simp only [Decision.writes, Decision.symbols, SentSymbol.bits, symbolExtraBits_raw ha, t.words_raw (Nat.lt_succ_of_le ht),
      writesBits_cons, writesBits_nil, List.flatMap_cons, List.flatMap_nil, List.append_nil]
  | run N =>
    obtain ⟨hlo, hhi⟩ := ha
    have ht := lzToken_tok_le (u := N - 8) (by omega)
    have hzero : natBits (symbolExtraBits 0) 0 = [] := rfl
    simp only [Decision.writes, Decision.symbols, SentSymbol.bits, symbolExtraBits_lz, t.words_lz (Nat.lt_succ_of_le ht),
      t.words_raw (k := 0) (by decide), hzero, writesBits_cons, writesBits_nil, List.flatMap_cons, List.flatMap_nil,
      List.append_nil]

theorem Decision.symbols_readable {d : Decision} {t : Code} (ha : d.inAlphabet) (hc : d.coded t) :
    ∀ y ∈ d.symbols, y.Readable t := by
  cases d with
  | raw v =>
    have ht := rawToken_tok_le ha
    simp only [Decision.symbols, List.mem_singleton, forall_eq, SentSymbol.Readable, symbolExtraBits_raw ha,
      t.words_raw (Nat.lt_succ_of_le ht)]
    exact ⟨natBits_toNat_ne_nil _ hc, rawToken_extra_lt _⟩
  | run N =>
    obtain ⟨hlo, hhi⟩ := ha
    have ht := lzToken_tok_le (u := N - 8) (by omega)
    simp only [Decision.symbols, List.mem_cons, List.not_mem_nil, or_false, forall_eq_or_imp, forall_eq, SentSymbol.Readable,
      symbolExtraBits_lz, t.words_lz (Nat.lt_succ_of_le ht), t.words_raw (k := 0) (by decide)]
    exact ⟨⟨natBits_toNat_ne_nil _ hc.1, Nat.two_pow_pos _⟩, natBits_toNat_ne_nil _ hc.2, lzToken_extra_lt _⟩

theorem Code.getElem?_words {t : Code} {i : Nat} (h : t.words.getD i [] ≠ []) : t.words[i]? = some (t.words.getD i []) := by
  rw [List.getD_eq_getElem?_getD] at h ⊢
  cases hi : t.words[i]? with
  | none => simp [hi] at h
  | some u => rfl

/-- The first symbol of a bit sequence, and what follows it, can be told (R243): of two code words that both begin the sequence
one begins the other, so they belong to one symbol. -/
theorem SentSymbol.bits_append_inj {t : Code} (hp : PrefixFree t.words) {y z : SentSymbol} (hy : y.Readable t)
    (hz : z.Readable t) {u v : List Bool} (h : y.bits t ++ u = z.bits t ++ v) : y = z ∧ u = v := by
  obtain ⟨i, x⟩ := y
  obtain ⟨j, x'⟩ := z
  obtain ⟨hwi, hx⟩ := hy
  obtain ⟨hwj, hx'⟩ := hz
  simp only [SentSymbol.bits, List.append_assoc] at h hwi hx hwj hx'
  have hij : i = j := by
    by_contra hne
    have hi := Code.getElem?_words hwi
    have hj := Code.getElem?_words hwj
    rcases List.prefix_or_prefix_of_prefix (List.prefix_append _ _) (h ▸ List.prefix_append _ _) with hpre | hpre
    · exact hp j i _ _ hj hi (Ne.symm hne) hwj hwi hpre
    · exact hp i j _ _ hi hj hne hwi hwj hpre
  subst hij
  obtain ⟨hextra, huv⟩ := List.append_inj (List.append_cancel_left h) (by simp)
  rw [natBits_inj hx hx' hextra]
  exact ⟨rfl, huv⟩

theorem SentSymbol.bits_ne_nil {t : Code} {y : SentSymbol} (hy : y.Readable t) : y.bits t ≠ [] := fun h =>
  hy.1 (List.append_eq_nil_iff.1 h).1

theorem sentSymbols_inj {t : Code} (hp : PrefixFree t.words) {ys zs : List SentSymbol} (hy : ∀ y ∈ ys, y.Readable t)
    (hz : ∀ z ∈ zs, z.Readable t) (h : ys.flatMap (SentSymbol.bits t) = zs.flatMap (SentSymbol.bits t)) : ys = zs := by
  induction ys generalizing zs with
  | nil =>
    cases zs with
    | nil => rfl
    | cons z zs =>
      rw [List.flatMap_nil, List.flatMap_cons, eq_comm, List.append_eq_nil_iff] at h
      exact absurd h.1 (SentSymbol.bits_ne_nil (hz z (by simp)))
  | cons y ys ih =>
    cases zs with
    | nil =>
      rw [List.flatMap_nil, List.flatMap_cons, List.append_eq_nil_iff] at h
      exact absurd h.1 (SentSymbol.bits_ne_nil (hy y (by simp)))
    | cons z zs =>
      rw [List.flatMap_cons, List.flatMap_cons] at h
      obtain ⟨rfl, hrest⟩ := SentSymbol.bits_append_inj hp (hy y (by simp)) (hz z (by simp)) h
      rw [ih (fun a ha => hy a (by simp [ha])) (fun a ha => hz a (by simp [ha])) hrest]

/-- The symbols of decisions begin with a raw token. -/
theorem index_lt_of_symbols_eq_cons {ds : List Decision} (ha : ∀ d ∈ ds, d.inAlphabet) {y : SentSymbol} {ys : List SentSymbol}
    (h : ds.flatMap Decision.symbols = y :: ys) : y.index < 19 := by
  cases ds with
  | nil => cases h
  | cons d ds =>
    cases d with
    | raw v =>
      cases h
      exact Nat.lt_succ_of_le (rawToken_tok_le (ha (.raw v) (by simp)))
    | run N =>
      cases h
      exact Nat.succ_pos _

/-- A residual is not taken for a run: no residual and no run begins with a run-length token. -/
theorem symbols_raw_ne_run {v : Word} {N : Nat} {ds es : List Decision} (ha : ∀ d ∈ ds, d.inAlphabet) :
    (Decision.raw v :: ds).flatMap Decision.symbols ≠ (Decision.run N :: es).flatMap Decision.symbols := fun h => by
  have hlt := index_lt_of_symbols_eq_cons ha (List.cons.inj h).2
  simp only at hlt
  omega

theorem symbols_inj {ds es : List Decision} (hd : ∀ d ∈ ds, d.inAlphabet) (he : ∀ e ∈ es, e.inAlphabet)
    (h : ds.flatMap Decision.symbols = es.flatMap Decision.symbols) : ds = es := by
  induction ds generalizing es with
  | nil =>
    rcases es with _ | ⟨_ | _, es⟩
    · rfl
    · cases h
    · cases h
  | cons d ds ih =>
    have hds : ∀ a ∈ ds, a.inAlphabet := fun a ha => hd a (by simp [ha])
    rcases es with _ | ⟨e, es⟩
    · cases d <;> cases h
    have hes : ∀ a ∈ es, a.inAlphabet := fun a ha => he a (by simp [ha])
    cases d with
    | raw v =>
      cases e with
      | raw w =>
        simp only [List.flatMap_cons, Decision.symbols, List.cons_append, List.nil_append, List.cons.injEq,
          SentSymbol.mk.injEq] at h
        obtain ⟨⟨htok, hextra⟩, hrest⟩ := h
        rw [BitVec.eq_of_toNat_eq (rawToken_inj htok hextra), ih hds hes hrest]
      | run M => exact absurd h (symbols_raw_ne_run hds)
    | run N =>
      cases e with
      | raw w => exact absurd h.symm (symbols_raw_ne_run hes)
      | run M =>
        simp only [List.flatMap_cons, Decision.symbols, List.cons_append, List.nil_append, List.cons.injEq,
          SentSymbol.mk.injEq, true_and, Nat.add_left_cancel_iff] at h
        obtain ⟨⟨htok, hextra⟩, hrest⟩ := h
        have hvalue := lzToken_inj htok hextra
        have hN := (hd (.run N) (by simp)).1
        have hM := (he (.run M) (by simp)).1
        rw [ih hds hes hrest, show N = M by omega]

theorem writesBits_decisions {ds : List Decision} (ha : ∀ d ∈ ds, d.inAlphabet) (t : Code) :
    writesBits (ds.flatMap (Decision.writes t)) = (ds.flatMap Decision.symbols).flatMap (SentSymbol.bits t) := by
  rw [writesBits, List.flatMap_assoc, List.flatMap_assoc]
  exact List.flatMap_congr fun d hd => Decision.writesBits_writes (ha d hd) t

theorem decisions_symbols_readable {ds : List Decision} {t : Code} (hd : ∀ d ∈ ds, d.inAlphabet ∧ d.coded t) :
    ∀ y ∈ ds.flatMap Decision.symbols, y.Readable t := by
  intro y hy
  obtain ⟨d, hmem, hyd⟩ := List.mem_flatMap.1 hy
  exact Decision.symbols_readable (hd d hmem).1 (hd d hmem).2 y hyd

/-- Settles O44: chunk by chunk the decisions stand for the residuals; the bits determine the symbols one by one, and the symbols
the decisions. -/
theorem tokensAreLossless : Obligations.TokensAreLossless := by
  refine ⟨fun s c hgood => ?_, fun t ds es hp hd he h => ?_⟩
  · have hrow := rowDecisions_expand hgood.pending (chunks 16 s.residuals)
    rwa [s.chunks_residuals] at hrow
  · have hda : ∀ d ∈ ds, d.inAlphabet := fun d hmem => (hd d hmem).1
    have hea : ∀ e ∈ es, e.inAlphabet := fun e hmem => (he e hmem).1
    rw [writesBits_decisions hda, writesBits_decisions hea] at h
    exact symbols_inj hda hea (sentSymbols_inj hp (decisions_symbols_readable hd) (decisions_symbols_readable he) h)

end Sys2Proof.Machine

/-! SUPPORT. The statements of spec/45_tokenizer.md R237, R238 and R244: `TK.ROWC` and `TK.ROWE` on a whole row, where they fault
part-way, and on a row of zeros. -/

namespace Sys2Proof.Machine

/-! ## One decision that raises, R233 and R234 -/

theorem decisionStep_rangeFault {mode : Mode} {c : Chan} {d : Decision} {s : State} (ha : ¬ d.inAlphabet)
    (hrun : ∀ N, d = .run N → 8 ≤ N) : decisionStep mode c d s = .raised d.rangeFault s := by
  cases d with
  | raw v =>
    have ht : (rawToken v.toNat).tok > 18 := Nat.lt_of_not_le fun h => ha (lt_of_rawToken_tok_le h)
    exact if_pos ht
  | run N =>
    have hN := hrun N rfl
    simp only [Decision.inAlphabet, not_and, Nat.not_lt] at ha
    have hlong := ha hN
    simp only [decisionStep, flushRun]
    rw [if_neg (by omega), if_pos (by omega)]
    rfl

theorem decisionStep_uncoded {c : Chan} {d : Decision} {s : State} (ha : d.inAlphabet) (hc : ¬ d.coded (s.code c)) :
    decisionStep .emit c d s = .raised .uncodedSymbol s := by
  cases d with
  | raw v =>
    have ht := rawToken_tok_le ha
    simp only [decisionStep, emitRaw]
    rw [if_neg (by omega), if_pos (not_not.1 hc)]
  | run N =>
    obtain ⟨hlo, hhi⟩ := ha
    simp only [decisionStep, flushRun]
    rw [if_neg (by omega), if_neg (by omega), if_pos (by simp only [Decision.coded] at hc; tauto)]

/-- A decision with its codes that finds no room for one of its writes: those before it are sent. -/
theorem decisionStep_noRoom {c : Chan} {d : Decision} {s : State} {t : Code} (hg : (s.writer c).Good s.params.outBytes.val)
    (ha : d.inAlphabet) (ht : s.code c = t) (hc : d.coded t) {pre post : List (Nat × Nat)} {e : Nat × Nat}
    (hsplit : d.writes t = pre ++ e :: post) (hroom : bitCount pre ≤ s.room c) (hover : s.room c < bitCount pre + e.1) :
    ∃ u, decisionStep .emit c d s = .raised .bwOverflow u ∧ WroteOnly c pre s u ∧ u.run = s.run := by
  subst ht
  rw [decisionStep_emit ha hc, hsplit]
  refine bwWrites_overflow hg (fun p hp => ?_) hroom hover
  exact (Decision.writes_count_le ha p (by rwa [hsplit])).trans (by decide)

theorem Hist.rawAfter_append (h : Hist) (ds es : List Decision) (k : Nat) :
    h.rawAfter (ds ++ es) k = h.rawAfter ds k + (es.map (Decision.countsRaw k)).sum := by
  simp only [Hist.rawAfter, List.map_append, List.sum_append, Nat.add_assoc]

theorem Hist.lzAfter_append (h : Hist) (ds es : List Decision) (j : Nat) :
    h.lzAfter (ds ++ es) j = h.lzAfter ds j + (es.map (Decision.countsLz j)).sum := by
  simp only [Hist.lzAfter, List.map_append, List.sum_append, Nat.add_assoc]

theorem Hist.Fits.of_append {h : Hist} {ds es : List Decision} (hf : h.Fits (ds ++ es)) : h.Fits ds := by
  simp only [Hist.Fits, Hist.rawAfter_append, Hist.lzAfter_append] at hf
  exact ⟨fun k hk => Nat.lt_of_add_right_lt (hf.1 k hk), fun j hj => Nat.lt_of_add_right_lt (hf.2 j hj)⟩

/-- A decision for which the counters have no room finds a full one. -/
theorem decisionStep_overflow {c : Chan} {d : Decision} {s : State} (ha : d.inAlphabet) (hf : ¬ (s.hist c).Fits [d]) :
    decisionStep .count c d s = .raised .histOverflow s := by
  rcases decisionStep_count (s := s) (c := c) ha with ⟨-, h⟩ | ⟨hraw, hlz, -⟩
  · exact h
  · refine absurd ⟨fun k hk => ?_, fun j hj => ?_⟩ hf
    · simpa [Hist.rawAfter, hraw k hk] using (entry (d.count (s.hist c)).raw k).isLt
    · simpa [Hist.lzAfter, hlz j hj] using (entry (d.count (s.hist c)).lz j).isLt

/-- A decision whose counts fit is counted. -/
theorem decisionStep_counted {c : Chan} {d : Decision} {s : State} (ha : d.inAlphabet) (hf : (s.hist c).Fits [d]) :
    decisionStep .count c d s = .go (s.setHist c (d.count (s.hist c))) := by
  rcases decisionStep_count (s := s) (c := c) ha with ⟨⟨k, hk, hfull⟩ | ⟨j, hj, hfull⟩, -⟩ | ⟨-, -, hgo⟩
  · exact absurd (hf.1 k hk) (by simp [Hist.rawAfter, hfull])
  · exact absurd (hf.2 j hj) (by simp [Hist.lzAfter, hfull])
  · exact hgo

/-! ## Where a pass stands -/

theorem runStands_setRun {c : Chan} {n : Nat} {s u : State} (hn : n < 2 ^ 32) (hrun : u.run = s.run) :
    RunStands c n s (u.setRun c (BitVec.ofNat 32 n)) := by
  refine ⟨?_, fun e he => ?_⟩
  · rw [State.setRun_runOf_self, BitVec.toNat_ofNat, Nat.mod_eq_of_lt hn]
  · rw [State.setRun_runOf_ne _ _ _ _ he, State.runOf, State.runOf, hrun]

theorem RunStands.congr {c : Chan} {n : Nat} {s u v : State} (h : RunStands c n s u) (hrun : v.run = u.run) :
    RunStands c n s v := by
  simpa only [RunStands, State.runOf, hrun] using h

theorem CountedOnly.setRun {c : Chan} {ds : List Decision} {s u : State} (h : CountedOnly c ds s u) (r : Word) :
    CountedOnly c ds s (u.setRun c r) where
  frame := by rw [h.frame]; rfl
  others := h.others
  raw := h.raw
  lz := h.lz

theorem CountedOnly.trans {c : Chan} {ds es : List Decision} {s u v : State} (h₁ : CountedOnly c ds s u)
    (h₂ : CountedOnly c es u v) : CountedOnly c (ds ++ es) s v where
  frame := by rw [h₂.frame, h₁.frame]
  others e he := (h₂.others e he).trans (h₁.others e he)
  raw k hk := by rw [h₂.raw k hk, Hist.rawAfter, h₁.raw k hk, Hist.rawAfter_append]
  lz j hj := by rw [h₂.lz j hj, Hist.lzAfter, h₁.lz j hj, Hist.lzAfter_append]

/-- The counters that are left have room for what the counters at the start have room for, together with what is counted. -/
theorem CountedOnly.fits_iff {c : Chan} {ds : List Decision} {s u : State} (h : CountedOnly c ds s u) (es : List Decision) :
    (u.hist c).Fits es ↔ (s.hist c).Fits (ds ++ es) := by
  have hraw : ∀ k, k < 19 → (u.hist c).rawAfter es k = (s.hist c).rawAfter (ds ++ es) k := fun k hk => by
    rw [Hist.rawAfter, h.raw k hk, Hist.rawAfter_append]
  have hlz : ∀ j, j < 33 → (u.hist c).lzAfter es j = (s.hist c).lzAfter (ds ++ es) j := fun j hj => by
    rw [Hist.lzAfter, h.lz j hj, Hist.lzAfter_append]
  exact and_congr (forall₂_congr fun k hk => by rw [hraw k hk]) (forall₂_congr fun j hj => by rw [hlz j hj])

theorem decisions_counted {c : Chan} {ds : List Decision} {s : State} (hd : ∀ d ∈ ds, d.inAlphabet)
    (hf : (s.hist c).Fits ds) :
    ∃ u, forEach (decisionStep .count c) ds s = .go u ∧ CountedOnly c ds s u ∧ u.run = s.run := by
  obtain ⟨h, hgo, hraw, hlz⟩ := decisions_count_spec hd hf.1 hf.2
  refine ⟨_, hgo, ⟨rfl, fun e he => State.setHist_hist_ne s c h e he, fun k hk => ?_, fun j hj => ?_⟩, rfl⟩
  · rw [State.setHist_hist_self, hraw k hk, Hist.rawAfter]
  · rw [State.setHist_hist_self, hlz j hj, Hist.lzAfter]

@[simp] theorem State.setRun_room (s : State) (c : Chan) (r : Word) (w : Chan) : (s.setRun c r).room w = s.room w := rfl

theorem WritesBits.setRun {w : Chan} {s u : State} (h : WritesBits w s u) (c : Chan) (r : Word) :
    WritesBits w s (u.setRun c r) :=
  h.trans ⟨⟨rfl, rfl, rfl, rfl, rfl, rfl, rfl, rfl, rfl⟩, ⟨rfl, rfl, rfl, rfl, rfl, rfl⟩, rfl, rfl, rfl, fun _ _ => rfl, ⟨rfl, rfl⟩,
    Nat.le_refl _, fun _ _ => rfl⟩

theorem WroteOnly.setRun {w : Chan} {l : List (Nat × Nat)} {s u : State} (h : WroteOnly w l s u) (c : Chan) (r : Word) :
    WroteOnly w l s (u.setRun c r) :=
  ⟨h.frame.setRun c r, ⟨h.status.seq, h.status.cause, h.status.fpc⟩, h.pc, h.stream⟩

theorem WroteOnly.trans {w : Chan} {l m : List (Nat × Nat)} {s u v : State} (h₁ : WroteOnly w l s u)
    (h₂ : WroteOnly w m u v) : WroteOnly w (l ++ m) s v :=
  ⟨h₁.frame.trans h₂.frame, h₁.status.trans h₂.status, h₂.pc.trans h₁.pc, by
    rw [h₂.stream, h₁.stream, writesBits_append, List.append_assoc]⟩

theorem WroteOnly.code {w : Chan} {l : List (Nat × Nat)} {s u : State} (h : WroteOnly w l s u) (c : Chan) :
    u.code c = s.code c := by
  rw [State.code, State.code, h.frame.codes]

/-- The emitting pass over decisions that have their codes and their room. -/
theorem decisions_emitted {c : Chan} {ds : List Decision} {s : State} {t : Code} (ht : s.code c = t)
    (hd : ∀ d ∈ ds, d.inAlphabet ∧ d.coded t) (hg : (s.writer c).Good s.params.outBytes.val)
    (hr : bitCount (ds.flatMap (Decision.writes t)) ≤ s.room c) :
    ∃ u, forEach (decisionStep .emit c) ds s = .go u ∧ WroteOnly c (ds.flatMap (Decision.writes t)) s u ∧ u.run = s.run ∧
      (u.writer c).Good u.params.outBytes.val ∧ u.room c = s.room c - bitCount (ds.flatMap (Decision.writes t)) := by
  obtain ⟨u, hgo, hframe, hstatus, hpc, hrun, hgood, hroom, hstream⟩ := decisions_emit_spec ht hd hg hr
  exact ⟨u, hgo, ⟨hframe, hstatus, hpc, hstream⟩, hrun, hgood, hroom⟩

/-! ## TK.ROWC and TK.ROWE on a whole row, R237 and R238 -/

theorem exec_tkRowc (c : Chan) (s : State) : exec (.tkRowc c) s = (tokRow .count c s).finish := rfl

theorem exec_tkRowe (c : Chan) (s : State) : exec (.tkRowe c) s = (tokRow .emit c s).finish := rfl

/-- A run that the alphabet carries fits 32 bits. -/
theorem run_lt_of_inAlphabet {ds : List Decision} (hd : ∀ d ∈ ds, d.inAlphabet) : ∀ N, Decision.run N ∈ ds → N < 2 ^ 32 :=
  fun N hN => (hd _ hN).2.trans (by decide)

/-- Settles O40: the row carries out its decisions, each of which is counted, and sets `RUN[c]`. -/
theorem tkRowcCounts : Obligations.TkRowcCounts := by
  intro s c _ hd hlen hf
  obtain ⟨u, hgo, hcounted, hrun⟩ := decisions_counted hd hf
  have hrow := tokRow_of_go hlen (run_lt_of_inAlphabet hd) hgo
  have hset := hcounted.setRun (BitVec.ofNat 32 (s.decisions c).2)
  refine ⟨_, .of_finish (exec_tkRowc c s) hrow ?_ ?_, ?_, runStands_setRun hlen hrun, hset.others, hset.raw, hset.lz⟩
  · rw [hset.frame]; exact ⟨rfl, rfl, rfl⟩
  · rw [hset.frame]
  · rw [hset.frame]; rfl

/-- Settles O41: the row carries out its decisions, each of which is sent, and sets `RUN[c]`. -/
theorem tkRoweWritesTokens : Obligations.TkRoweWritesTokens := by
  intro s c _ hd hlen writes hg hroom
  obtain ⟨u, hgo, hwrote, hrun, -, -⟩ := decisions_emitted rfl hd hg hroom
  have hrow := tokRow_of_go hlen (run_lt_of_inAlphabet fun d hmem => (hd d hmem).1) hgo
  have hset := hwrote.setRun c (BitVec.ofNat 32 (s.decisions c).2)
  exact ⟨_, .of_finish (exec_tkRowe c s) hrow hset.status hset.pc, hset.frame.advance, runStands_setRun hlen hrun, hset.stream⟩

/-! ## Where a row raises, R266 -/

section
variable {mode : Mode} {c : Chan} {s u : State} {done : List (List Word)} {rest : List Word}
  (hd : ∀ q ∈ done, q.length = 16) (hr : rest ≠ []) (hs : s.residuals = done.flatten ++ rest)
  (hlen : (rowDecisions (s.runOf c).toNat done).2 < 2 ^ 32)
  (hf : ∀ N, Decision.run N ∈ (rowDecisions (s.runOf c).toNat done).1 → N < 2 ^ 32)
  (hu : forEach (decisionStep mode c) (rowDecisions (s.runOf c).toNat done).1 s = .go u)
include hd hr hs hlen hf hu

/-- The chunk after `done` would take the pending run past 32 bits. -/
theorem tokRow_of_long_run (hnone : (chunkDecisions (rowDecisions (s.runOf c).toNat done).2 (rest.take 16)).1 = [])
    (hlong : 2 ^ 32 ≤ (chunkDecisions (rowDecisions (s.runOf c).toNat done).2 (rest.take 16)).2) :
    tokRow mode c s = .raised .runRange (u.setRun c (BitVec.ofNat 32 (rowDecisions (s.runOf c).toNat done).2)) := by
  obtain ⟨hrun, -⟩ := runStands_setRun (c := c) hlen (rfl : u.run = u.run)
  refine tokRow_of_raised hd hr hs hlen hf hu (tokChunk_range _ _ _ _ ?_ (by rwa [hrun]) (by rwa [hrun]))
  simpa using hr

/-- The chunk after `done` carries out the decisions `pre`, and the next one raises. -/
theorem tokRow_of_decision_raised {pre post : List Decision} {d : Decision} {v w : State} {f : FaultName}
    (hhere : (chunkDecisions (rowDecisions (s.runOf c).toNat done).2 (rest.take 16)).1 = pre ++ d :: post)
    (hpre : forEach (decisionStep mode c) pre
      (u.setRun c (BitVec.ofNat 32 (rowDecisions (s.runOf c).toNat done).2)) = .go v)
    (hraise : decisionStep mode c d v = .raised f w) : tokRow mode c s = .raised f w := by
  obtain ⟨hrun, -⟩ := runStands_setRun (c := c) hlen (rfl : u.run = u.run)
  refine tokRow_of_raised hd hr hs hlen hf hu ?_
  rw [tokChunk_eq _ _ _ _ fun hnone => ?_, hrun, hhere, forEach_append, hpre, Flow.go_andThen, forEach_cons, hraise]
  · rfl
  · rw [hrun, hhere] at hnone
    exact absurd hnone (by simp)

end

/-- A run of a chunk's decisions is never one of fewer than 8 (R241). -/
theorem chunkDecisions_run_ge {n : Nat} {r : List Word} {pre post : List Decision} {d : Decision}
    (h : (chunkDecisions n r).1 = pre ++ d :: post) : ∀ N, d = .run N → 8 ≤ N := by
  rintro N rfl
  exact (chunkDecisions_run_mem (run := n) (r := r) (by rw [h]; simp)).1

/-- Where the counting pass stands before a decision `d` of the chunk after `done`: all before it is counted. -/
theorem tkRowc_reaches_decision {c : Chan} {s : State} {done : List (List Word)} {rest : List Word} {pre post : List Decision}
    {d : Decision} (hd : ∀ q ∈ done, q.length = 16) (hr : rest ≠ []) (hs : s.residuals = done.flatten ++ rest)
    (hlen : (rowDecisions (s.runOf c).toNat done).2 < 2 ^ 32)
    (hba : ∀ e ∈ (rowDecisions (s.runOf c).toNat done).1, e.inAlphabet)
    (hhere : (chunkDecisions (rowDecisions (s.runOf c).toNat done).2 (rest.take 16)).1 = pre ++ d :: post)
    (hpa : ∀ e ∈ pre, e.inAlphabet) (hfits : (s.hist c).Fits ((rowDecisions (s.runOf c).toNat done).1 ++ pre)) :
    ∃ v, CountedOnly c ((rowDecisions (s.runOf c).toNat done).1 ++ pre) s v ∧
      RunStands c (rowDecisions (s.runOf c).toNat done).2 s v ∧
      ∀ f w, decisionStep .count c d v = .raised f w → exec (.tkRowc c) s = .next (w.raiseFault f) := by
  obtain ⟨u, hu, hbefore, hrun⟩ := decisions_counted hba hfits.of_append
  have hstart := hbefore.setRun (BitVec.ofNat 32 (rowDecisions (s.runOf c).toNat done).2)
  obtain ⟨v, hv, hpre, hvrun⟩ := decisions_counted hpa ((hstart.fits_iff pre).2 hfits)
  refine ⟨v, hstart.trans hpre, (runStands_setRun hlen hrun).congr hvrun, fun f w hraise => ?_⟩
  rw [exec_tkRowc, tokRow_of_decision_raised hd hr hs hlen (run_lt_of_inAlphabet hba) hu hhere hv hraise, Flow.finish_raised]

/-- Settles O43: the chunk after `done` raises whole, or at a decision that is out of range or finds a full counter. -/
theorem tkRowcFaultsPartWay : Obligations.TkRowcFaultsPartWay := by
  intro s c done rest _ hd hr hs before here raisesAfter hlen hba
  refine ⟨fun hfits hnone hlong => ?_, fun pre d post hhere hpa hfits => ?_⟩
  · obtain ⟨u, hu, hcounted, hrun⟩ := decisions_counted hba hfits
    refine ⟨_, hcounted.setRun _, runStands_setRun hlen hrun, ?_⟩
    rw [exec_tkRowc, tokRow_of_long_run hd hr hs hlen (run_lt_of_inAlphabet hba) hu hnone hlong, Flow.finish_raised]
  · obtain ⟨v, hcounted, hstands, hexec⟩ := tkRowc_reaches_decision hd hr hs hlen hba hhere hpa hfits
    refine ⟨fun ha => ?_, fun ha hfull => ?_⟩
    · exact ⟨v, hcounted, hstands, hexec _ _ (decisionStep_rangeFault ha (chunkDecisions_run_ge hhere))⟩
    · have hfull' : ¬ (v.hist c).Fits [d] := fun hfit => hfull ((hcounted.fits_iff [d]).1 hfit)
      exact ⟨v, hcounted, hstands, hexec _ _ (decisionStep_overflow ha hfull')⟩

/-- Where the emitting pass stands before a decision `d` of the chunk after `done`: all before it is sent. -/
theorem tkRowe_reaches_decision {c : Chan} {s : State} {done : List (List Word)} {rest : List Word} {pre post : List Decision}
    {d : Decision} (hg : (s.writer c).Good s.params.outBytes.val) (hd : ∀ q ∈ done, q.length = 16) (hr : rest ≠ [])
    (hs : s.residuals = done.flatten ++ rest) (hlen : (rowDecisions (s.runOf c).toNat done).2 < 2 ^ 32)
    (hba : ∀ e ∈ (rowDecisions (s.runOf c).toNat done).1, e.inAlphabet ∧ e.coded (s.code c))
    (hhere : (chunkDecisions (rowDecisions (s.runOf c).toNat done).2 (rest.take 16)).1 = pre ++ d :: post)
    (hpa : ∀ e ∈ pre, e.inAlphabet ∧ e.coded (s.code c)) {l : List (Nat × Nat)}
    (hl : ((rowDecisions (s.runOf c).toNat done).1 ++ pre).flatMap (Decision.writes (s.code c)) = l)
    (hroom : bitCount l ≤ s.room c) :
    ∃ v, WroteOnly c l s v ∧ RunStands c (rowDecisions (s.runOf c).toNat done).2 s v ∧
      (v.writer c).Good v.params.outBytes.val ∧ v.room c = s.room c - bitCount l ∧
      ∀ f w, decisionStep .emit c d v = .raised f w → exec (.tkRowe c) s = .next (w.raiseFault f) := by
  subst hl
  rw [List.flatMap_append, bitCount_append] at hroom ⊢
  obtain ⟨u, hu, hbefore, hrun, hgu, hru⟩ := decisions_emitted rfl hba hg (by omega)
  have hstart := hbefore.setRun c (BitVec.ofNat 32 (rowDecisions (s.runOf c).toNat done).2)
  obtain ⟨v, hv, hpre, hvrun, hgv, hrv⟩ := decisions_emitted (hstart.code c) hpa hgu (by rw [State.setRun_room]; omega)
  refine ⟨v, hstart.trans hpre, (runStands_setRun hlen hrun).congr hvrun, hgv, ?_, fun f w hraise => ?_⟩
  · rw [hrv, State.setRun_room, hru, Nat.sub_sub]
  · have hf := run_lt_of_inAlphabet fun e he => (hba e he).1
    rw [exec_tkRowe, tokRow_of_decision_raised hd hr hs hlen hf hu hhere hv hraise, Flow.finish_raised]

/-- Settles O42: the chunk after `done` raises whole, or at a decision that is out of range, has no code, or finds no room for
one of its writes. -/
theorem tkRoweFaultsPartWay : Obligations.TkRoweFaultsPartWay := by
  intro s c done rest _ hg hd hr hs before here sent raisesAfter hlen hba
  refine ⟨fun hroom hnone hlong => ?_, fun pre d post hhere hpa => ?_⟩
  · have hf := run_lt_of_inAlphabet fun e he => (hba e he).1
    obtain ⟨u, hu, hwrote, hrun, -, -⟩ := decisions_emitted rfl hba hg hroom
    refine ⟨_, hwrote.setRun c _, runStands_setRun hlen hrun, ?_⟩
    rw [exec_tkRowe, tokRow_of_long_run hd hr hs hlen hf hu hnone hlong, Flow.finish_raised]
  · have reach := tkRowe_reaches_decision hg hd hr hs hlen hba hhere hpa (l := sent (before.1 ++ pre)) rfl
    refine ⟨fun hroom ha => ?_, fun hroom ha hc => ?_, fun ha hc pre' e post' hsplit hroom hover => ?_⟩
    · obtain ⟨v, hwrote, hstands, -, -, hexec⟩ := reach hroom
      exact ⟨v, hwrote, hstands, hexec _ _ (decisionStep_rangeFault ha (chunkDecisions_run_ge hhere))⟩
    · obtain ⟨v, hwrote, hstands, -, -, hexec⟩ := reach hroom
      exact ⟨v, hwrote, hstands, hexec _ _ (decisionStep_uncoded ha (by rwa [hwrote.code]))⟩
    · rw [bitCount_append] at hroom hover
      obtain ⟨v, hwrote, hstands, hgv, hrv, hexec⟩ := reach (Nat.le_of_add_right_le hroom)
      obtain ⟨w, hw, hpart, hwrun⟩ := decisionStep_noRoom hgv ha (hwrote.code c) hc hsplit
        (by omega) (by omega)
      exact ⟨w, hwrote.trans hpart, hstands.congr hwrun, hexec _ _ hw⟩

/-! ## Rows of zeros, R244 -/

theorem leadingZeros_of_zeros {r : List Word} (h : ∀ v ∈ r, v = 0) : leadingZeros r = r.length := by
  rw [leadingZeros, List.takeWhile_eq_self_iff.2 fun v hv => by simp [h v hv]]

/-- A chunk of zeros only lengthens a run that is pending, or begins one of more than 7. -/
theorem chunkDecisions_zeros {n : Nat} {r : List Word} (h : ∀ v ∈ r, v = 0) (hn : 0 < n ∨ 7 < r.length) :
    chunkDecisions n r = ([], n + r.length) := by
  simp only [chunkDecisions, leadingZeros_of_zeros h]
  exact if_pos ⟨trivial, hn⟩

theorem rowDecisions_zeros_pending {n : Nat} {rs : List (List Word)} (h : ∀ r ∈ rs, ∀ v ∈ r, v = 0) (hn : 0 < n) :
    rowDecisions n rs = ([], n + rs.flatten.length) := by
  induction rs generalizing n with
  | nil => rfl
  | cons r rs ih =>
    have hchunk := chunkDecisions_zeros (h r (by simp)) (.inl hn)
    have hrest := ih (n := n + r.length) (fun q hq => h q (by simp [hq])) (by omega)
    simp only [rowDecisions, hchunk, hrest, List.nil_append, List.flatten_cons, List.length_append, Nat.add_assoc]

/-- Without a pending run, the first chunk begins one when it has more than 7 zeros. -/
theorem rowDecisions_zeros_long {r : List Word} {rs : List (List Word)} (h : ∀ q ∈ r :: rs, ∀ v ∈ q, v = 0)
    (hr : 7 < r.length) : rowDecisions 0 (r :: rs) = ([], (r :: rs).flatten.length) := by
  have hchunk := chunkDecisions_zeros (n := 0) (h r (by simp)) (.inr hr)
  have hrest := rowDecisions_zeros_pending (rs := rs) (n := r.length) (fun q hq => h q (by simp [hq])) (by omega)
  simp only [rowDecisions, hchunk, Nat.zero_add, hrest, List.nil_append, List.flatten_cons, List.length_append]

theorem chunks_of_ne_nil {α : Type} (fuel : Nat) {r : List α} (h : r ≠ []) :
    chunks (fuel + 1) r = r.take 16 :: chunks fuel (r.drop 16) := by
  simp [chunks, h]

section
variable {s : State} {c : Chan} (hzero : ∀ v ∈ s.residuals, v = 0)
include hzero

/-- R244: the zeros of the row are added to the zeros pending. -/
theorem State.decisions_zeros (h : 8 ≤ s.resn.val ∨ s.runOf c ≠ 0) :
    s.decisions c = ([], (s.runOf c).toNat + s.resn.val) := by
  have hlen := s.residuals_length
  have hall : ∀ r ∈ chunks 16 s.residuals, ∀ v ∈ r, v = 0 := fun r hr v hv =>
    hzero v (by rw [← s.chunks_residuals]; exact List.mem_flatten.2 ⟨r, hr, hv⟩)
  rw [State.decisions, ← hlen]
  conv_rhs => rw [← s.chunks_residuals]
  by_cases hrun : s.runOf c = 0
  · have hlong := h.resolve_right (not_not.2 hrun)
    have hne : s.residuals ≠ [] := fun hnil => by rw [hnil, List.length_nil] at hlen; omega
    rw [chunks_of_ne_nil 15 hne] at hall ⊢
    rw [hrun, show (0 : Word).toNat = 0 from rfl, Nat.zero_add]
    exact rowDecisions_zeros_long hall (by rw [List.length_take]; omega)
  · exact rowDecisions_zeros_pending hall (Nat.pos_of_ne_zero fun h0 => hrun (BitVec.eq_of_toNat_eq h0))

/-- R235: a short row of zeros with no run pending is sent zero by zero. -/
theorem State.decisions_zeros_short (hshort : s.resn.val ≤ 7) (hrun : s.runOf c = 0) :
    s.decisions c = (List.replicate s.resn.val (.raw 0), 0) := by
  have hlen := s.residuals_length
  have hrow : s.residuals = List.replicate s.resn.val 0 := List.eq_replicate_iff.2 ⟨hlen, hzero⟩
  have hchunk : chunkDecisions 0 s.residuals = (List.replicate s.resn.val (.raw 0), 0) := by
    simp only [chunkDecisions, leadingZeros_of_zeros hzero]
    rw [if_neg (by omega), if_neg (by omega), hrow, List.map_replicate]
  rw [State.decisions, hrun, show (0 : Word).toNat = 0 from rfl]
  by_cases hnil : s.residuals = []
  · rw [← hlen, hnil]; rfl
  · rw [chunks_of_ne_nil 15 hnil, List.take_of_length_le (by omega), List.drop_eq_nil_of_le (by omega)]
    show ((chunkDecisions 0 s.residuals).1 ++ [], (chunkDecisions 0 s.residuals).2) = _
    rw [hchunk, List.append_nil]

theorem tokRow_zeros (mode : Mode) (h : 8 ≤ s.resn.val ∨ s.runOf c ≠ 0) (hfits : (s.runOf c).toNat + s.resn.val < 2 ^ 32) :
    tokRow mode c s = .go (s.setRun c (s.runOf c + BitVec.ofNat 32 s.resn.val)) := by
  have hdec := State.decisions_zeros hzero h
  have hrow := tokRow_of_go (mode := mode) (c := c) (s := s) (u := s) (by rw [hdec]; exact hfits) (by simp [hdec])
    (by rw [hdec]; rfl)
  rw [hrow, hdec, BitVec.ofNat_add, BitVec.ofNat_toNat, BitVec.setWidth_eq]

end

/-- Settles O45: a row of zeros has no decisions, or one for each of fewer than eight zeros. -/
theorem allZeroRowOnlyExtendsRun : Obligations.AllZeroRowOnlyExtendsRun := by
  intro s c hzero
  refine ⟨fun h hfits i hi => ?_, State.decisions_zeros_short hzero⟩
  have hrow := fun mode => tokRow_zeros (c := c) hzero mode (h.imp_right And.left) hfits
  rcases hi with rfl | rfl
  · rw [exec_tkRowc, hrow]; rfl
  · rw [exec_tkRowe, hrow]; rfl

end Sys2Proof.Machine

/-! SUPPORT. The statements of spec/45_tokenizer.md R239 and R240: `TK.FINC` and `TK.FINE` carry out the one decision of flushing the
pending run, and clear it. -/

namespace Sys2Proof.Machine

/-! ## The body of both commands -/

theorem exec_tkFinc (c : Chan) (s : State) : exec (.tkFinc c) s = (finalize .count c s).finish := rfl

theorem exec_tkFine (c : Chan) (s : State) : exec (.tkFine c) s = (finalize .emit c s).finish := rfl

theorem finalize_idle {mode : Mode} {c : Chan} {s : State} (h : s.runOf c = 0) : finalize mode c s = .go s := by
  have hnone : ¬ (s.runOf c).toNat > 0 := by rw [h]; decide
  rw [finalize, if_neg hnone, Flow.go_andThen, State.setRun_self s c 0 h]

section
variable {mode : Mode} {c : Chan} {s : State} (h8 : 8 ≤ (s.runOf c).toNat)
include h8

theorem finalize_pending : finalize mode c s =
    (decisionStep mode c (.run (s.runOf c).toNat) s).andThen fun t => .go (t.setRun c 0) :=
  congrArg (Flow.andThen · _) (if_pos (by omega))

theorem finalize_raised {f : FaultName} {u : State} (h : decisionStep mode c (.run (s.runOf c).toNat) s = .raised f u) :
    finalize mode c s = .raised f u := by
  rw [finalize_pending h8, h, Flow.raised_andThen]

theorem finalize_go {u : State} (h : decisionStep mode c (.run (s.runOf c).toNat) s = .go u) :
    finalize mode c s = .go (u.setRun c 0) := by
  rw [finalize_pending h8, h, Flow.go_andThen]

end

/-- A run too long for the alphabet is refused in both passes. -/
theorem finalize_long_run {mode : Mode} {c : Chan} {s : State} (h : 2 ^ 21 + 8 ≤ (s.runOf c).toNat) :
    finalize mode c s = .raised .runRange s := by
  have h8 : 8 ≤ (s.runOf c).toNat := by omega
  refine finalize_raised h8 (decisionStep_rangeFault (fun ha => absurd ha.2 (Nat.not_lt.2 h)) ?_)
  rintro N ⟨⟩
  exact h8

/-! ## TK.FINC, R239 -/

/-- The counters have room for a run exactly when neither of the two that it counts is full. -/
theorem fits_run_iff {h : Hist} {N : Nat} (ha : (Decision.run N).inAlphabet) :
    h.Fits [.run N] ↔ (entry h.raw 0).toNat < 2 ^ 32 - 1 ∧ (entry h.lz (lzToken (N - 8)).tok).toNat < 2 ^ 32 - 1 := by
  have ht := lzToken_tok_le (u := N - 8) (by have := ha.2; omega)
  simp only [Hist.Fits, Hist.rawAfter, Hist.lzAfter, List.map_cons, List.map_nil, List.sum_cons, List.sum_nil,
    Decision.countsRaw, Decision.countsLz, Nat.add_zero]
  refine ⟨fun ⟨hraw, hlz⟩ => ?_, fun ⟨hraw, hlz⟩ => ⟨fun k _ => ?_, fun j _ => ?_⟩⟩
  · have hraw0 := hraw 0 (by decide)
    have hlzt := hlz _ (Nat.lt_succ_of_le ht)
    rw [if_pos rfl] at hraw0 hlzt
    omega
  · have hlt := (entry h.raw k).isLt
    split
    · next hk => subst hk; omega
    · exact hlt
  · have hlt := (entry h.lz j).isLt
    split
    · next hj => subst hj; omega
    · exact hlt

theorem entry_count_run_raw (h : Hist) (N k : Nat) :
    entry (Decision.count h (.run N)).raw k = entry h.raw k + if k = 0 then 1 else 0 := by
  refine (Hist.entry_bumpRaw h 0 k (by decide)).trans ?_
  by_cases hk : k = 0
  · subst hk; rfl
  · rw [if_neg (Ne.symm hk), if_neg hk]; exact (BitVec.add_zero _).symm

theorem entry_count_run_lz (h : Hist) {N : Nat} (ha : (Decision.run N).inAlphabet) (i : Nat) :
    entry (Decision.count h (.run N)).lz i = entry h.lz i + if i = (lzToken (N - 8)).tok then 1 else 0 := by
  have ht := lzToken_tok_le (u := N - 8) (by have := ha.2; omega)
  refine (Hist.entry_bumpLz (h.bumpRaw 0) _ i (Nat.lt_succ_of_le ht)).trans ?_
  by_cases hi : i = (lzToken (N - 8)).tok
  · subst hi; rw [if_pos rfl, if_pos rfl]; rfl
  · rw [if_neg (Ne.symm hi), if_neg hi]; exact (BitVec.add_zero _).symm

/-- Settles O46: a pending run is one decision, which is out of range, finds a full counter, or is counted. -/
theorem finalizeCounts : Obligations.FinalizeCounts := by
  intro s c N j raw lz
  have hi := exec_tkFinc c s
  refine ⟨?_, fun h => ?_, fun hlong => .of_finish hi (finalize_long_run hlong), fun h8 hlt hfull => ?_,
    fun h8 hlt hraw hlz => ?_⟩
  · simpa [Instr.fields] using encode_toNat (.tkFinc c)
  · rw [hi, finalize_idle h]; rfl
  · have ha : (Decision.run N).inAlphabet := ⟨h8, hlt⟩
    refine .of_finish hi (finalize_raised h8 (decisionStep_overflow ha fun hfits => ?_))
    obtain ⟨hraw, hlz⟩ : raw.toNat < 2 ^ 32 - 1 ∧ lz.toNat < 2 ^ 32 - 1 := (fits_run_iff ha).1 hfits
    omega
  · have ha : (Decision.run N).inAlphabet := ⟨h8, hlt⟩
    refine ⟨Decision.count (s.hist c) (.run N), ?_, fun k _ => entry_count_run_raw _ N k, fun i _ => entry_count_run_lz _ ha i⟩
    rw [hi, finalize_go h8 (decisionStep_counted ha ((fits_run_iff ha).2 ⟨hraw, hlz⟩))]
    rfl

/-! ## TK.FINE, R240 -/

/-- Settles O47: a pending run is one decision, which is out of range, has no code, is sent, or finds no room for one of its
writes. -/
theorem finalizeWrites : Obligations.FinalizeWrites := by
  intro s c N d l
  have hi := exec_tkFine c s
  refine ⟨fun h => ?_, fun hlong => .of_finish hi (finalize_long_run hlong), fun h8 hlt hc => ?_,
    fun h8 hlt hc hg hroom => ?_, fun h8 hlt hc hg pre e post hsplit hroom hover => ?_⟩
  · rw [hi, finalize_idle h]; rfl
  · have ha : d.inAlphabet := ⟨h8, hlt⟩
    exact .of_finish hi (finalize_raised h8 (decisionStep_uncoded ha hc))
  · have ha : d.inAlphabet := ⟨h8, hlt⟩
    have hcount := Decision.writes_count_le (t := s.code c) ha
    obtain ⟨u, hu, hframe, hstatus, hpc, hrun, -, -, hstream⟩ :=
      bwWrites_spec hg (fun p hp => (hcount p hp).trans (by decide)) hroom
    have hgo := finalize_go h8 ((decisionStep_emit ha hc).trans hu)
    have hset := WroteOnly.setRun ⟨hframe, hstatus, hpc, hstream⟩ c 0
    exact ⟨_, .of_finish hi hgo hset.status hset.pc, hset.frame.advance, runStands_setRun (by decide) hrun, hset.stream⟩
  · have ha : d.inAlphabet := ⟨h8, hlt⟩
    obtain ⟨u, hu, hwrote, hrun⟩ := decisionStep_noRoom hg ha rfl hc hsplit hroom hover
    exact ⟨u, hwrote, hrun, by rw [hi, finalize_raised h8 hu, Flow.finish_raised]⟩

end Sys2Proof.Machine

/-! SUPPORT. The statements of spec/60_exceptions.md R261, R264, R266 and R242: which faults a command can raise, and what it has done
before it raises one. -/

namespace Sys2Proof.Machine

/-! ## The faults a pseudocode can raise -/

/-- Every fault that the pseudocode raises is one of `fs`. -/
def Flow.RaisesIn (fs : List FaultName) (r : Flow) : Prop := ∀ f u, r = .raised f u → f ∈ fs

theorem Flow.raisesIn_go (fs : List FaultName) (s : State) : (Flow.go s).RaisesIn fs := nofun

theorem Flow.raisesIn_raised {fs : List FaultName} {f : FaultName} (hf : f ∈ fs) (s : State) : (Flow.raised f s).RaisesIn fs := by
  rintro f u ⟨⟩
  exact hf

theorem Flow.RaisesIn.mono {fs gs : List FaultName} {r : Flow} (h : r.RaisesIn fs) (hsub : fs ⊆ gs) : r.RaisesIn gs :=
  fun f u hr => hsub (h f u hr)

theorem Flow.RaisesIn.andThen {fs : List FaultName} {r : Flow} {k : State → Flow} (h : r.RaisesIn fs)
    (hk : ∀ s, (k s).RaisesIn fs) : (r.andThen k).RaisesIn fs := by
  intro f u hr
  rcases Flow.andThen_eq_raised.1 hr with hr | ⟨s, -, hr⟩
  · exact h f u hr
  · exact hk s f u hr

theorem forEach_raisesIn {α : Type} {fs : List FaultName} {body : α → State → Flow} (l : List α)
    (h : ∀ a ∈ l, ∀ s, (body a s).RaisesIn fs) (s : State) : (forEach body l s).RaisesIn fs := by
  induction l generalizing s with
  | nil => exact Flow.raisesIn_go fs s
  | cons a l ih =>
    exact (h a List.mem_cons_self s).andThen fun t => ih (fun b hb => h b (List.mem_cons_of_mem a hb)) t

/-! ### Writes of bits, R141 -/

theorem bwWrite_raisesIn (w : Chan) (count value : Nat) (s : State) :
    (bwWrite w count value s).RaisesIn [.bwCount, .bwOverflow] := by
  intro f u h
  rcases bwWrite_eq_raised h with ⟨-, ⟨rfl, -⟩ | ⟨rfl, -⟩⟩ <;> decide

theorem bwWrite_raisesIn_of_count_le (w : Chan) {count : Nat} (hc : count ≤ 56) (value : Nat) (s : State) :
    (bwWrite w count value s).RaisesIn [.bwOverflow] := by
  intro f u h
  rcases bwWrite_eq_raised h with ⟨-, ⟨-, hlong⟩ | ⟨rfl, -⟩⟩
  · omega
  · decide

theorem bwWrites_raisesIn (w : Chan) (l : List (Nat × Nat)) (s : State) : (bwWrites w l s).RaisesIn [.bwCount, .bwOverflow] :=
  forEach_raisesIn l (fun p _ t => bwWrite_raisesIn w p.1 p.2 t) s

/-- Writes of known, short counts only run out of room (R242). -/
theorem bwWrites_raisesIn_of_count_le (w : Chan) {l : List (Nat × Nat)} (hc : ∀ p ∈ l, p.1 ≤ 56) (s : State) :
    (bwWrites w l s).RaisesIn [.bwOverflow] :=
  forEach_raisesIn l (fun p hp t => bwWrite_raisesIn_of_count_le w (hc p hp) p.2 t) s

/-! ### Tokens, R233 to R240 -/

/-- The faults of carrying out a decision of the alphabet, in each pass. -/
def Mode.faults : Mode → List FaultName
  | .count => [.histOverflow]
  | .emit => [.uncodedSymbol, .bwOverflow]

/-- A pass over decisions that are in the alphabet: no count is above 20, so `BwCount` is not among the faults (R242). -/
theorem decisionStep_raisesIn_of_inAlphabet (mode : Mode) (c : Chan) {d : Decision} (ha : d.inAlphabet) (s : State) :
    (decisionStep mode c d s).RaisesIn mode.faults := by
  cases mode with
  | count =>
    rcases decisionStep_count (c := c) (s := s) ha with ⟨-, h⟩ | ⟨-, -, h⟩
    · rw [h]; exact Flow.raisesIn_raised (by decide) s
    · rw [h]; exact Flow.raisesIn_go _ _
  | emit =>
    by_cases hc : d.coded (s.code c)
    · rw [decisionStep_emit ha hc]
      refine (bwWrites_raisesIn_of_count_le c (fun p hp => ?_) s).mono (List.subset_cons_self _ _)
      exact (Decision.writes_count_le ha p hp).trans (by decide)
    · rw [decisionStep_uncoded ha hc]; exact Flow.raisesIn_raised (by decide) s

/-- A decision outside the alphabet raises its range fault, but for a run of less than 8, where the model stops. -/
theorem decisionStep_raisesIn (mode : Mode) (c : Chan) (d : Decision) (s : State) :
    (decisionStep mode c d s).RaisesIn (d.rangeFault :: mode.faults) := by
  by_cases ha : d.inAlphabet
  · exact (decisionStep_raisesIn_of_inAlphabet mode c ha s).mono (List.subset_cons_self _ _)
  by_cases hrun : ∀ N, d = .run N → 8 ≤ N
  · rw [decisionStep_rangeFault ha hrun]; exact Flow.raisesIn_raised List.mem_cons_self s
  · push Not at hrun
    obtain ⟨N, rfl, hshort⟩ := hrun
    have hstop : decisionStep mode c (.run N) s = .stop .shortRun := if_pos hshort
    rw [hstop]; exact nofun

/-- The faults of a row of decisions. -/
def Mode.rowFaults (mode : Mode) : List FaultName := .residualRange :: .runRange :: mode.faults

theorem emitRaw_raisesIn (mode : Mode) (c : Chan) (v : Word) (s : State) : (emitRaw mode c v s).RaisesIn mode.rowFaults :=
  (decisionStep_raisesIn mode c (.raw v) s).mono (List.cons_subset_cons _ (List.subset_cons_self _ _))

theorem flushRun_raisesIn (mode : Mode) (c : Chan) (N : Nat) (s : State) :
    (flushRun mode c N s).RaisesIn (.runRange :: mode.faults) := decisionStep_raisesIn mode c (.run N) s

theorem tokChunk_raisesIn (mode : Mode) (c : Chan) (r : List Word) (s : State) : (tokChunk mode c r s).RaisesIn mode.rowFaults := by
  have hraws (l : List Word) (s : State) : (forEach (emitRaw mode c) l s).RaisesIn mode.rowFaults :=
    forEach_raisesIn l (fun v _ => emitRaw_raisesIn mode c v) s
  simp only [tokChunk]
  split
  · split
    · exact Flow.raisesIn_raised (List.mem_cons_of_mem _ List.mem_cons_self) s
    · exact Flow.raisesIn_go _ _
  · split
    · exact ((flushRun_raisesIn mode c _ s).mono (List.subset_cons_self _ _)).andThen fun s₁ =>
        (hraws _ s₁).andThen fun s₂ => Flow.raisesIn_go _ _
    · exact hraws r s

theorem tokRow_raisesIn (mode : Mode) (c : Chan) (s : State) : (tokRow mode c s).RaisesIn mode.rowFaults :=
  forEach_raisesIn _ (fun r _ => tokChunk_raisesIn mode c r) s

theorem finalize_raisesIn (mode : Mode) (c : Chan) (s : State) : (finalize mode c s).RaisesIn (.runRange :: mode.faults) := by
  refine Flow.RaisesIn.andThen ?_ fun t => Flow.raisesIn_go _ _
  split
  · exact flushRun_raisesIn mode c _ s
  · exact Flow.raisesIn_go _ s

/-- Counting a run is one act: it raises before it counts (R239). -/
theorem flushRun_count_raised {c : Chan} {N : Nat} {f : FaultName} {s u : State} (h : flushRun .count c N s = .raised f u) :
    u = s := by
  simp only [flushRun] at h
  split at h
  · cases h
  · split at h
    · cases h; rfl
    · split at h
      · cases h; rfl
      · cases h

theorem finalize_count_raised {c : Chan} {f : FaultName} {s u : State} (h : finalize .count c s = .raised f u) : u = s := by
  rcases Flow.andThen_eq_raised.1 h with h | ⟨v, -, h⟩
  · split at h
    · exact flushRun_count_raised h
    · cases h
  · cases h

/-! ### Codes and their serialization, R161 to R170 -/

theorem lengthLimited_error {ys : List Sym} {f : FaultName} (h : lengthLimited ys = .error f) :
    f ∈ [FaultName.buildBounds, .buildInfeasible] := by
  rcases lengthLimited_cases ys with hu | hbad | ⟨hb, hne, hinf⟩ | hf
  · rw [lengthLimited_of_unused hu] at h; cases h
  · rw [lengthLimited_of_bad_bounds hbad] at h; cases h; decide
  · rw [lengthLimited_of_infeasible hb hne hinf] at h; cases h; decide
  · obtain ⟨ls, -, hok⟩ := lengthLimited_of_feasible hf
    rw [hok] at h; cases h

theorem secondLevel_error {h : Hist} {E : Nat} {f : FaultName} (he : h.secondLevel E = .error f) :
    f ∈ [FaultName.buildBounds, .buildInfeasible] := by
  by_cases hm : h.runSymbols ≤ 1
  · rw [secondLevel_of_le_one hm] at he; cases he
  have hm : 2 ≤ h.runSymbols := Nat.lt_of_not_le hm
  cases hL : lengthLimited (h.subLevel E) with
  | error g =>
    rw [secondLevel_of_error hm hL] at he
    cases he
    exact lengthLimited_error hL
  | ok L2 => rw [secondLevel_of_ok hm hL] at he; cases he

theorem buildLengths_error {s : State} {c : Chan} {f : FaultName} (h : s.buildLengths c = .error f) :
    f ∈ [FaultName.buildBounds, .buildInfeasible] := by
  cases h1 : lengthLimited (s.firstLevel c) with
  | error g =>
    rw [buildLengths_of_first_error h1] at h
    cases h
    exact lengthLimited_error h1
  | ok L1 =>
    cases h2 : (s.hist c).secondLevel (L1.getD 19 0) with
    | error g =>
      rw [buildLengths_of_second_error h1 h2] at h
      cases h
      exact secondLevel_error h2
    | ok LZ => rw [buildLengths_of_ok h1 h2] at h; cases h

/-- `PC.SERIAL` has no code to send, or sends writes of at most 5 bits each. -/
theorem serialWrites_cases (t : Code) :
    serialWrites t.combined = .error .buildInfeasible ∨ ∃ l, serialWrites t.combined = .ok l ∧ ∀ p ∈ l, p.1 ≤ 5 := by
  rcases lastUsed_cases t.combined with ⟨last, -, hlast⟩ | ⟨hnone, -⟩
  · obtain ⟨ML, EL, num, hmeta, hok⟩ := serialWrites_combined t hlast
    obtain ⟨hML, hEL, -⟩ := hmeta.le_five
    exact .inr ⟨_, hok, sentWrites_count_le hML hEL⟩
  · exact .inl (serialWrites_of_none hnone)

/-! ## The faults of a command -/

/-- How a command that answers `t` stands to the faults that R261 gives it: it did not enter `FAULT`, or it raised one of them, in
a state `u` that is its start unless it is a command that can fault part-way (R266). -/
inductive FaultsAsListed (i : Instr) (s : State) : State → Prop
  | unfaulted {t : State} (h : t.seq = s.seq ∨ t.seq = .halted) : FaultsAsListed i s t
  | entered {f : FaultName} {u : State} (listed : f ∈ canRaise i) (effect : Effect i s u) (whole : FaultsWhole i → u = s) :
      FaultsAsListed i s (u.raiseFault f)

namespace FaultsAsListed

variable {i : Instr} {s t : State}

/-- A fault before anything is done. -/
theorem of_raisesOnly {f : FaultName} (hf : f ∈ canRaise i) (hr : RaisesOnly i s f) (h : exec i s = .next t) :
    FaultsAsListed i s t := by
  cases hr.symm.trans h
  exact .entered hf (Effect.refl i s) fun _ => rfl

/-- A command that completes in a known state. -/
theorem of_completed {u : State} (hu : exec i s = .next u) (hseq : u.seq = s.seq) (h : exec i s = .next t) :
    FaultsAsListed i s t := by
  cases hu.symm.trans h
  exact .unfaulted (.inl hseq)

theorem of_finish {r : Flow} (heffect : r.Rel (Effect i) s) (hfaults : r.RaisesIn (canRaise i))
    (hwhole : FaultsWhole i → ∀ f u, r = .raised f u → u = s) (h : r.finish = .next t) : FaultsAsListed i s t := by
  rcases Flow.finish_eq_next.1 h with ⟨u, rfl, rfl⟩ | ⟨f, u, rfl, rfl⟩
  · exact .unfaulted (.inl (Effect.status heffect).seq)
  · exact .entered (hfaults f u rfl) heffect fun hi => hwhole hi f u rfl

end FaultsAsListed

section
variable {s t : State}

theorem execLoop_faults {r : Reg} {off : BitVec 16} (h : exec (.loop r off) s = .next t) : FaultsAsListed (.loop r off) s t := by
  by_cases hv : s.reg r - 1 = 0
  · exact .of_completed (exec_loop_last hv) rfl h
  · by_cases hoff : off.toNat ≤ s.pc.toNat
    · exact .of_completed (exec_loop_branch hv hoff) rfl h
    · exact .of_raisesOnly List.mem_cons_self (exec_loop_out_of_range hv (Nat.lt_of_not_le hoff)) h

theorem execBwInit_faults {w : Chan} {a b : Reg} (h : exec (.bwInit w a b) s = .next t) : FaultsAsListed (.bwInit w a b) s t := by
  by_cases hbad : 2 ^ 32 ≤ (s.reg a).toNat ∨ 2 ^ 32 ≤ (s.reg b).toNat ∨
      s.params.outBytes.val < (s.reg a).toNat + (s.reg b).toNat
  · exact .of_raisesOnly List.mem_cons_self (exec_bwInit_memRange w hbad) h
  · push Not at hbad
    obtain ⟨ha, hb, hfit⟩ := hbad
    exact .of_completed (exec_bwInit_region w ha hb hfit) rfl h

theorem execBwWrite_faults {w : Chan} {cnt : BitVec 16} {r : Reg} (h : exec (.bwWrite w cnt r) s = .next t) :
    FaultsAsListed (.bwWrite w cnt r) s t :=
  .of_finish (bwWrite_effect rfl _ _ s) (bwWrite_raisesIn w _ _ s) (fun _ _ _ hr => (bwWrite_eq_raised hr).1) h

/-- The padding is at most 8 bits, so `BwCount` is not among its faults (R242). -/
theorem execBwZpad_faults {w : Chan} (h : exec (.bwZpad w) s = .next t) : FaultsAsListed (.bwZpad w) s t := by
  by_cases hn : (s.writer w).nbits = 0
  · exact .of_completed (exec_bwZpad_aligned hn) rfl h
  · rw [exec_bwZpad_pending hn] at h
    exact .of_finish (bwWrite_effect rfl _ _ s) (bwWrite_raisesIn_of_count_le w (by omega) _ s)
      (fun _ _ _ hr => (bwWrite_eq_raised hr).1) h

theorem execBwWritem_faults {w : Chan} {n : BitVec 16} {a b : Reg} (h : exec (.bwWritem w n a b) s = .next t) :
    FaultsAsListed (.bwWritem w n a b) s t := by
  by_cases hin : s.WritemInRange n a b
  · rw [exec_bwWritem_inRange w hin] at h
    exact .of_finish (bwWrites_effect rfl _ s) ((bwWrites_raisesIn w _ s).mono (List.subset_cons_self _ _)) nofun h
  · exact .of_raisesOnly List.mem_cons_self (exec_bwWritem_memRange w hin) h

theorem execPcBuild_faults {c : Chan} (h : exec (.pcBuild c) s = .next t) : FaultsAsListed (.pcBuild c) s t := by
  cases hb : s.buildLengths c with
  | error f => exact .of_raisesOnly (buildLengths_error hb) (exec_pcBuild_of_error hb) h
  | ok p => exact .of_completed (exec_pcBuild_of_ok (L1 := p.1) (LZ := p.2) hb) rfl h

theorem execPcSerial_faults {c w : Chan} (h : exec (.pcSerial c w) s = .next t) : FaultsAsListed (.pcSerial c w) s t := by
  rcases serialWrites_cases (s.code c) with herr | ⟨l, hok, hcount⟩
  · exact .of_raisesOnly List.mem_cons_self (exec_pcSerial_of_error w herr) h
  · rw [exec_pcSerial_of_ok w hok] at h
    have hfaults := bwWrites_raisesIn_of_count_le w (fun p hp => (hcount p hp).trans (by decide)) s
    exact .of_finish (bwWrites_effect rfl l s) (hfaults.mono (List.subset_cons_self _ _)) nofun h

theorem execPrStart_faults {len : BitVec 16} (h : exec (.prStart len) s = .next t) : FaultsAsListed (.prStart len) s t := by
  by_cases hbad : len.toNat = 0 ∨ len.toNat > 256
  · exact .of_raisesOnly List.mem_cons_self (dif_pos hbad) h
  · exact .of_completed (dif_neg hbad) rfl h

theorem execPrLoad_faults {a : Reg} (h : exec (.prLoad a) s = .next t) : FaultsAsListed (.prLoad a) s t := by
  have heq : exec (.prLoad a) s = _ := execPrLoad_eq a s
  split at heq
  · exact .of_raisesOnly List.mem_cons_self heq h
  · split at heq
    · exact .of_raisesOnly (List.mem_cons_of_mem _ List.mem_cons_self) heq h
    · exact .of_completed heq rfl h

theorem execPrPred_faults {c : Chan} (h : exec (.prPred c) s = .next t) : FaultsAsListed (.prPred c) s t := by
  have heq := exec_prPred_eq c s
  split at heq
  · exact .of_raisesOnly List.mem_cons_self heq h
  · split at heq
    · exact .of_raisesOnly (List.mem_cons_of_mem _ List.mem_cons_self) heq h
    · exact .of_completed heq rfl h

/-- Every command raises only the faults that R261 gives it, and those of R266's list raise them before they change anything. -/
theorem exec_faultsAsListed {i : Instr} (h : exec i s = .next t) : FaultsAsListed i s t := by
  cases i with
  | nop => exact .of_completed rfl rfl h
  | halt => cases h; exact .unfaulted (.inr rfl)
  | liK d sh imm => exact .of_completed rfl rfl h
  | liZ d sh imm => exact .of_completed rfl rfl h
  | addi d imm => exact .of_completed rfl rfl h
  | loop r off => exact execLoop_faults h
  | bwInit w a b => exact execBwInit_faults h
  | bwWrite w cnt r => exact execBwWrite_faults h
  | bwZpad w => exact execBwZpad_faults h
  | bwWritem w n a b => exact execBwWritem_faults h
  | pcHclr c => exact .of_completed rfl rfl h
  | pcBuild c => exact execPcBuild_faults h
  | pcSerial c w => exact execPcSerial_faults h
  | prStart len => exact execPrStart_faults h
  | prLoad a => exact execPrLoad_faults h
  | prPred c => exact execPrPred_faults h
  | tkRowc c => exact .of_finish (tokRow_effect (mode := .count) (.inl rfl) s) (tokRow_raisesIn .count c s) nofun h
  | tkRowe c => exact .of_finish (tokRow_effect (mode := .emit) (.inl rfl) s) (tokRow_raisesIn .emit c s) nofun h
  | tkFinc c =>
    exact .of_finish (finalize_effect (mode := .count) (.inr rfl) s) (finalize_raisesIn .count c s)
      (fun _ _ _ => finalize_count_raised) h
  | tkFine c => exact .of_finish (finalize_effect (mode := .emit) (.inr rfl) s) (finalize_raisesIn .emit c s) nofun h

/-- A command that enters `FAULT` raised one of its faults. -/
theorem FaultsAsListed.of_fault {i : Instr} (h : FaultsAsListed i s t) (hs : s.seq ≠ .fault) (ht : t.seq = .fault) :
    ∃ f ∈ canRaise i, ∃ u, t = u.raiseFault f ∧ Effect i s u ∧ (FaultsWhole i → u = s) := by
  cases h with
  | unfaulted hseq =>
    rcases hseq with hseq | hseq
    · exact absurd (hseq.symm.trans ht) hs
    · cases hseq.symm.trans ht
  | entered listed effect whole => exact ⟨_, listed, _, rfl, effect, whole⟩

end

/-! ## The codes, R261 -/

/-- The fault that a code stands for; any other value is read as `IllegalCommand`. -/
def FaultName.ofCode (b : BitVec 8) : FaultName :=
  ([.pcRange, .loopRange, .bwCount, .bwOverflow, .memRange, .buildBounds, .buildInfeasible, .histOverflow, .cfgInvalid, .chRange,
    .noRow, .uncodedSymbol, .residualRange, .runRange].find? fun f => f.code == b).getD .illegalCommand

theorem FaultName.ofCode_code (f : FaultName) : FaultName.ofCode f.code = f := by
  cases f <;> rfl

theorem FaultName.code_injective : Function.Injective FaultName.code := Function.LeftInverse.injective FaultName.ofCode_code

theorem FaultName.code_ne_zero (f : FaultName) : f.code ≠ 0 := by
  cases f <;> decide

/-- Settles O51: the codes have an inverse, and `exec_faultsAsListed` says which fault a command raised and where. -/
theorem faultsOfEachCommand : Obligations.FaultsOfEachCommand := by
  refine ⟨by decide, fun f g h => FaultName.code_injective h, FaultName.code_ne_zero, fun i s t hs h ht => ?_⟩
  obtain ⟨f, hf, u, rfl, -, hwhole⟩ := (exec_faultsAsListed h).of_fault hs ht
  exact ⟨f, hf, rfl, fun hi => by rw [hwhole hi]⟩

/-! ## Fault entry, R264 -/

/-- The commands that write an operand register fault before they do (R21, R266). -/
theorem faultsWhole_of_destination {i : Instr} {d : Reg} (h : destination i = some d) : FaultsWhole i := by
  cases i with
  | liK | liZ | addi | loop => trivial
  | _ => cases h

/-- No command that faults has written a register. -/
theorem regs_of_raised {i : Instr} {s u : State} (heffect : Effect i s u) (hwhole : FaultsWhole i → u = s) : u.x = s.x := by
  refine Vector.ext fun n hn => by_contra fun hne => hne ?_
  rw [hwhole (faultsWhole_of_destination (heffect.regs ⟨n, hn⟩ hne))]

theorem State.raiseFault_irq (s : State) (f : FaultName) : (s.raiseFault f).irq = s.ie := Bool.and_true s.ie

/-- Settles O50: a step enters `FAULT` from the fetch, with nothing done, or from a command that has kept `pc`, the registers and
`IE`. -/
theorem faultEntry : Obligations.FaultEntry := by
  refine ⟨fun _ _ => rfl, fun s t hrun h ht => ?_⟩
  simp only [step, hrun] at h
  split at h
  · next f _ =>
    cases h
    exact ⟨f, rfl, rfl, rfl, rfl, rfl, s.raiseFault_irq f⟩
  · next i _ =>
    obtain ⟨f, -, u, rfl, heffect, hwhole⟩ := (exec_faultsAsListed h).of_fault (by simp [hrun]) ht
    have hregs := regs_of_raised heffect hwhole
    have hie := heffect.host.ie
    exact ⟨f, rfl, heffect.pc, heffect.pc, hregs, hie, (u.raiseFault_irq f).trans hie⟩

end Sys2Proof.Machine

/-! SUPPORT. The statement of spec/70_reset_and_hazards.md R307 on the model's own stops: from a state that R42 allows, no
pseudocode meets `outAddress` (spec/41_bit_writer.md R142 (7)) or `shortRun` (spec/45_tokenizer.md R241). -/

namespace Sys2Proof.Machine

/-! ## Pseudocodes that meet no stop -/

/-- The pseudocode goes on or raises: it asks for nothing that the spec gives no meaning. -/
def Flow.NeverStops (r : Flow) : Prop := ∀ e, r ≠ .stop e

theorem Flow.neverStops_go (s : State) : (Flow.go s).NeverStops := nofun

theorem Flow.neverStops_raised (f : FaultName) (s : State) : (Flow.raised f s).NeverStops := nofun

/-- A check that raises, before a statement that meets no stop. -/
theorem Flow.NeverStops.unlessRaised {r : Flow} (h : r.NeverStops) (p : Prop) [Decidable p] (f : FaultName) (s : State) :
    (if p then .raised f s else r).NeverStops := by
  split
  · exact neverStops_raised f s
  · exact h

theorem Flow.NeverStops.finish {r : Flow} (h : r.NeverStops) : ∃ t, r.finish = .next t := by
  cases r with
  | go s => exact ⟨_, rfl⟩
  | raised f s => exact ⟨_, rfl⟩
  | stop e => exact absurd rfl (h e)

/-- What stands first keeps R42, so what follows it starts in a sound state. -/
theorem Flow.NeverStops.andThen {i : Instr} {s : State} {r : Flow} {k : State → Flow} (h : r.NeverStops)
    (heffect : r.Rel (Effect i) s) (hs : s.Sound) (hk : ∀ t, t.Sound → (k t).NeverStops) : (r.andThen k).NeverStops := by
  cases r with
  | go t => exact hk t (Effect.sound heffect hs)
  | raised f t => exact neverStops_raised f t
  | stop e => exact absurd rfl (h e)

theorem forEach_neverStops {α : Type} {i : Instr} {body : α → State → Flow} (heffect : ∀ a s, (body a s).Rel (Effect i) s)
    (hbody : ∀ a s, s.Sound → (body a s).NeverStops) (l : List α) {s : State} (hs : s.Sound) :
    (forEach body l s).NeverStops := by
  induction l generalizing s with
  | nil => exact Flow.neverStops_go s
  | cons a l ih => exact (hbody a s hs).andThen (heffect a s) hs fun t ht => ih ht

/-! ### Writes of bits, R141 -/

/-- `MemWrite` is always in range (R142 (7)): a writer's region lies inside OUT, and the limit is checked before it is called. -/
theorem bwWrite_neverStops (w : Chan) (count value : Nat) {s : State} (hs : s.Sound) : (bwWrite w count value s).NeverStops := by
  rw [bwWrite_eq]
  refine Flow.NeverStops.unlessRaised ?_ _ _ s
  split
  · exact Flow.neverStops_raised _ s
  · next hlimit =>
    obtain ⟨-, -, hregion⟩ := hs.writers w
    have hrange : s.outCursor w + bwDone (s.writer w) count ≤ s.params.outBytes.val := by
      simp only [State.outCursor]
      omega
    rw [if_pos (.inr hrange)]
    exact Flow.neverStops_go _

theorem bwWrites_neverStops (w : Chan) (l : List (Nat × Nat)) {s : State} (hs : s.Sound) : (bwWrites w l s).NeverStops :=
  forEach_neverStops (i := .bwZpad w) (fun (p : Nat × Nat) s => bwWrite_effect rfl p.1 p.2 s)
    (fun p _ => bwWrite_neverStops w p.1 p.2) l hs

/-! ### Tokens, R233 to R240 -/

section
variable {i : Instr} {c : Chan} {mode : Mode}

theorem emitRaw_neverStops (v : Word) {s : State} (hs : s.Sound) : (emitRaw mode c v s).NeverStops := by
  refine Flow.NeverStops.unlessRaised ?_ _ _ s
  cases mode with
  | count => exact (Flow.neverStops_go _).unlessRaised _ _ s
  | emit => exact (bwWrites_neverStops c _ hs).unlessRaised _ _ s

/-- A run above the threshold has a meaning (R234). -/
theorem flushRun_neverStops {N : Nat} (h8 : 8 ≤ N) {s : State} (hs : s.Sound) : (flushRun mode c N s).NeverStops := by
  rw [flushRun, if_neg (Nat.not_lt.2 h8)]
  refine Flow.NeverStops.unlessRaised ?_ _ _ s
  cases mode with
  | count => exact (Flow.neverStops_go _).unlessRaised _ _ s
  | emit => exact (bwWrites_neverStops c _ hs).unlessRaised _ _ s

theorem emitRaws_neverStops (hi : tokenizes i c mode) (r : List Word) {s : State} (hs : s.Sound) :
    (forEach (emitRaw mode c) r s).NeverStops :=
  forEach_neverStops (emitRaw_effect hi) (fun v _ => emitRaw_neverStops v) r hs

/-- The one branch that flushes does so above the threshold (R235, R241). -/
theorem tokChunk_neverStops (hi : tokenizes i c mode) (r : List Word) {s : State} (hs : s.Sound) :
    (tokChunk mode c r s).NeverStops := by
  unfold tokChunk
  simp only
  split
  · exact (Flow.neverStops_go _).unlessRaised _ _ s
  · split
    · next hlong =>
      refine (flushRun_neverStops hlong hs).andThen (flushRun_effect hi _ s) hs fun s₁ hs₁ => ?_
      refine (emitRaws_neverStops hi _ hs₁).andThen (forEach_effect _ (fun v _ => emitRaw_effect hi v) s₁) hs₁ fun s₂ _ => ?_
      exact Flow.neverStops_go _
    · exact emitRaws_neverStops hi r hs

theorem tokRow_neverStops (hi : tokenizes i c mode) {s : State} (hs : s.Sound) : (tokRow mode c s).NeverStops :=
  forEach_neverStops (tokChunk_effect hi) (fun r _ => tokChunk_neverStops hi r) _ hs

/-- A pending run exceeds the threshold (R42 (2), R241), so the flush of it has a meaning. -/
theorem finalize_neverStops (hi : tokenizes i c mode) {s : State} (hs : s.Sound) : (finalize mode c s).NeverStops := by
  rcases hs.runs c with hzero | hlong
  · rw [finalize_idle hzero]
    exact Flow.neverStops_go s
  · rw [finalize_pending hlong]
    exact (flushRun_neverStops hlong hs).andThen (flushRun_effect hi _ s) hs fun t _ => Flow.neverStops_go _

end

/-! ## Every command has a next state -/

theorem execLoop_answers (r : Reg) (off : BitVec 16) (s : State) : ∃ t, exec (.loop r off) s = .next t := by
  by_cases hv : s.reg r - 1 = 0
  · exact ⟨_, exec_loop_last hv⟩
  · by_cases hoff : off.toNat ≤ s.pc.toNat
    · exact ⟨_, exec_loop_branch hv hoff⟩
    · exact ⟨_, exec_loop_out_of_range hv (Nat.lt_of_not_le hoff)⟩

theorem execBwInit_answers (w : Chan) (a b : Reg) (s : State) : ∃ t, exec (.bwInit w a b) s = .next t := by
  by_cases hbad : 2 ^ 32 ≤ (s.reg a).toNat ∨ 2 ^ 32 ≤ (s.reg b).toNat ∨
      s.params.outBytes.val < (s.reg a).toNat + (s.reg b).toNat
  · exact ⟨_, exec_bwInit_memRange w hbad⟩
  · push Not at hbad
    obtain ⟨ha, hb, hfit⟩ := hbad
    exact ⟨_, exec_bwInit_region w ha hb hfit⟩

theorem execBwZpad_answers (w : Chan) {s : State} (hs : s.Sound) : ∃ t, exec (.bwZpad w) s = .next t := by
  by_cases hn : (s.writer w).nbits = 0
  · exact ⟨_, exec_bwZpad_aligned hn⟩
  · rw [exec_bwZpad_pending hn]
    exact (bwWrite_neverStops w _ _ hs).finish

theorem execBwWritem_answers (w : Chan) (n : BitVec 16) (a b : Reg) {s : State} (hs : s.Sound) :
    ∃ t, exec (.bwWritem w n a b) s = .next t := by
  by_cases hin : s.WritemInRange n a b
  · rw [exec_bwWritem_inRange w hin]
    exact (bwWrites_neverStops w _ hs).finish
  · exact ⟨_, exec_bwWritem_memRange w hin⟩

theorem execPcBuild_answers (c : Chan) (s : State) : ∃ t, exec (.pcBuild c) s = .next t := by
  cases hb : s.buildLengths c with
  | error f => exact ⟨_, exec_pcBuild_of_error hb⟩
  | ok p => exact ⟨_, exec_pcBuild_of_ok (L1 := p.1) (LZ := p.2) hb⟩

theorem execPcSerial_answers (c w : Chan) {s : State} (hs : s.Sound) : ∃ t, exec (.pcSerial c w) s = .next t := by
  rcases serialWrites_cases (s.code c) with herr | ⟨l, hok, -⟩
  · exact ⟨_, exec_pcSerial_of_error w herr⟩
  · rw [exec_pcSerial_of_ok w hok]
    exact (bwWrites_neverStops w l hs).finish

theorem execPrStart_answers (len : BitVec 16) (s : State) : ∃ t, exec (.prStart len) s = .next t := by
  by_cases hbad : len.toNat = 0 ∨ len.toNat > 256
  · exact ⟨_, dif_pos hbad⟩
  · exact ⟨_, dif_neg hbad⟩

theorem execPrLoad_answers (a : Reg) (s : State) : ∃ t, exec (.prLoad a) s = .next t := by
  have heq : exec (.prLoad a) s = _ := execPrLoad_eq a s
  split at heq
  · exact ⟨_, heq⟩
  · split at heq <;> exact ⟨_, heq⟩

theorem execPrPred_answers (c : Chan) (s : State) : ∃ t, exec (.prPred c) s = .next t := by
  have heq := exec_prPred_eq c s
  split at heq
  · exact ⟨_, heq⟩
  · split at heq <;> exact ⟨_, heq⟩

/-- Only the commands that send bits or flush a run can come near a stop of the model, and R42 keeps them from it. -/
theorem exec_answers (i : Instr) {s : State} (hs : s.Sound) : ∃ t, exec i s = .next t := by
  cases i with
  | nop => exact ⟨_, rfl⟩
  | halt => exact ⟨_, rfl⟩
  | liK d sh imm => exact ⟨_, rfl⟩
  | liZ d sh imm => exact ⟨_, rfl⟩
  | addi d imm => exact ⟨_, rfl⟩
  | loop r off => exact execLoop_answers r off s
  | bwInit w a b => exact execBwInit_answers w a b s
  | bwWrite w cnt r => exact (bwWrite_neverStops w _ _ hs).finish
  | bwZpad w => exact execBwZpad_answers w hs
  | bwWritem w n a b => exact execBwWritem_answers w n a b hs
  | pcHclr c => exact ⟨_, rfl⟩
  | pcBuild c => exact execPcBuild_answers c s
  | pcSerial c w => exact execPcSerial_answers c w hs
  | prStart len => exact execPrStart_answers len s
  | prLoad a => exact execPrLoad_answers a s
  | prPred c => exact execPrPred_answers c s
  | tkRowc c => exact (tokRow_neverStops (mode := .count) (.inl rfl) hs).finish
  | tkRowe c => exact (tokRow_neverStops (mode := .emit) (.inl rfl) hs).finish
  | tkFinc c => exact (finalize_neverStops (mode := .count) (.inr rfl) hs).finish
  | tkFine c => exact (finalize_neverStops (mode := .emit) (.inr rfl) hs).finish

/-- Settles O55: a step leaves a stopped block alone, enters the fault of the fetch, or runs a command, which answers. -/
theorem stepNeverStops : Obligations.StepNeverStops := by
  intro s hs
  unfold step
  split
  · split
    · exact ⟨_, rfl⟩
    · exact exec_answers _ hs.sound
  · exact ⟨_, rfl⟩

end Sys2Proof.Machine
